-- ==== Sys2Proof/Word.lean ====
section
/-! DEFINITION. The words of the Zenjan 7200 and their plainest arithmetic (spec 00_scope R3, 02_encoding R42). -/

namespace Sys2Proof

/-- A 32-bit word: an instruction word, a general register (R36, R41). -/
abbrev Word := BitVec 32

/-- A 64-bit value: a register pair, an address, a literal (R41, R43). -/
abbrev DWord := BitVec 64

/-- A byte of memory (R3). -/
abbrev Byte := BitVec 8

/-- The low n bits of x, as a number. -/
def lowBits (n x : Nat) : Nat := x % 2 ^ n

/-- Bits [hi:lo] of x, both ends included (R3). -/
def bits (x hi lo : Nat) : Nat := x / 2 ^ lo % 2 ^ (hi + 1 - lo)

/-- Bit k of x (R3). -/
def bit (x k : Nat) : Bool := x / 2 ^ k % 2 == 1

/-- 1 for true, 0 for false. -/
def boolNat (b : Bool) : Nat := if b then 1 else 0

/-- The value of the low w bits of x read in two's complement. -/
def toSigned (w x : Nat) : Int :=
  let y := x % 2 ^ w
  if 2 * y < 2 ^ w then (y : Int) else (y : Int) - (2 ^ w : Nat)

/-- An integer wrapped to w bits in two's complement (R97). -/
def wrap (w : Nat) (x : Int) : Nat := (x % (2 ^ w : Nat)).toNat

end Sys2Proof
end

