-- ==== Sys2Proof/Config.lean ====
section
/-! DEFINITION. What the spec leaves open: constants without a body, so that nothing can be proved about their values. Each
has a row in the assumption log. -/

namespace Sys2Proof.Config

/-- The k-th free value: applied to the counter clk.freeNo, which the step advances (log 3). -/
opaque freeValue : Nat → Nat

/-- Cycles of the core clock that pass in step n (R31: no latency is architectural; log 2). -/
opaque cyclesOfStep : Nat → Nat

/-- By how much the cycle counter of a core differs from the model's clock (R94; log 2). -/
opaque cycleSkew : Nat → Nat

/-- The set of a slice that holds a line (R222 gives no set index; log 13). -/
opaque setOf : Nat → Nat

/-- The set of a core's L1 data cache that holds a line, and which of its lines goes when it is full (R16 gives neither;
log 77). -/
opaque l1SetOf : Nat → Nat

/-- What the device computes for an approximation (function, operand in FP32), before the bound of R153 is applied
(log 14). -/
opaque approximation : Nat → Nat → Nat

/-- Bytes of a context image beyond its header, from crews, registers and local memory (R429 leaves the layout to Jorlan;
log 17). -/
opaque imageBody : Nat → Nat → Nat → BitVec 32

/-- The bytes of a checkpoint in memory, from a free value and the offset (R307 and R346 give no layout; log 86). -/
opaque checkpointByte : Nat → Nat → Byte

/-- The pages of device DRAM that firmware may reserve, and one of the 2^27 that it does not (log 18). -/
opaque reservable : Nat → Bool
opaque freePage : BitVec 27

/-- Where the 64 MiB that firmware reserves for a die's draft engine lie in the die's DRAM, in units of 64 MiB (R461; log 18). -/
opaque draftRegion : Nat → BitVec 10

/-- A page lies in the reserved region of its die's draft engine. -/
def draftPage (p : Nat) : Bool := p / 2 ^ 14 % 2 ^ 10 == (draftRegion (p / 2 ^ 24)).toNat

/-- The page that firmware does not reserve, in another unit than a draft engine's. -/
def openPage : Nat :=
  let p := freePage.toNat
  if draftPage p then p / 2 ^ 24 * 2 ^ 24 + (p + 2 ^ 14) % 2 ^ 24 else p

/-- Whether firmware reserves a page of device DRAM (R461, R475, R483; log 18). -/
def reservedPage (p : Nat) : Bool := draftPage p || (reservable p && p != openPage)

/-- The bytes of a line of an encryption domain, by key pair and physical address, as they leave the die, and back (R484; log 11). -/
opaque encrypt : Nat → Nat → List Byte → List Byte
opaque decrypt : Nat → Nat → List Byte → List Byte

/-- The plane of a packet among those that are up, from its target, tag and segment number (R375; log 87). -/
opaque planeOf : Nat → Nat → Nat → Nat

/-- The key of a pair of incarnations, from the two ECDH public values; the key of a group for a context; a key after a number of
renewals; AES-256-GCM under a key, from nonce, header and payload to cipher text and tag, and back, none when the tag fails (R483,
R485; log 88). -/
opaque linkKey : Nat → Nat → Nat
opaque groupKey : Nat → Nat → Nat
opaque renewedKey : Nat → Nat → Nat
opaque gcmSeal : Nat → List Byte → List Byte → List Byte → List Byte × List Byte
opaque gcmOpen : Nat → List Byte → List Byte → List Byte → List Byte → Option (List Byte)

/-- The ECDH public value of a context for an incarnation (R482; log 11). -/
opaque kxpub : Nat → Nat → Nat

/-- The public key of the device, and the root key's signature over it and a device identifier (R483; log 11). -/
opaque deviceKey : Nat
opaque rootSignature : Nat → Nat

end Sys2Proof.Config
end

