-- ==== Sys2Proof/Syntax.lean ====
section
/-! DEFINITION. The instructions and events of the Zenjan 7200: one constructor of Instr per row of spec/opcode_table.json
(02_encoding R33 to R58, the field rows of each chapter, 95_what_each_step_holds). -/

namespace Sys2Proof

/-- Operand types of the W field (R42). A major without an operand type has W = 0, the code of i32. -/
inductive Ty where
  | i32 | u32 | i64 | u64 | i16x2 | u16x2 | i8x4 | u8x4 | f32 | f16 | bf16 | f16x2 | bf16x2
  | e4m3x4 | e5m2x4 | e2m1x8 | b32 | b64 | b128 | b8 | b16
  deriving DecidableEq, Repr

/-- Class of a lane modifier (R50). -/
inductive ModClass where
  | identity | rotate | butterfly | broadcast
  deriving DecidableEq, Repr

/-- Segment size of a lane modifier (R50). -/
inductive SegSize where
  | s32 | s2 | s4 | s8 | s16
  deriving DecidableEq, Repr

/-- Numeric modifier (R50, R52). -/
inductive NumMod where
  | none | neg | abs | negAbs
  deriving DecidableEq, Repr

/-- A source modifier: MODA or MODB outside memory instructions (R50). -/
structure LaneMod where
  cls : ModClass
  seg : SegSize
  dist : BitVec 5
  num : NumMod
  deriving DecidableEq, Repr

/-- Memory order of an access (R54). -/
inductive Ord where
  | plain | acquire | release | acqRel
  deriving DecidableEq, Repr

/-- Scope of an access or a fence (R54, R259). -/
inductive Scope where
  | crew | unit | isle | die | device | system | fabric
  deriving DecidableEq, Repr

/-- Address space (R54, R209). -/
inductive Space where
  | global | localMem | vault
  deriving DecidableEq, Repr

/-- The access-control field (R54). -/
structure Access where
  ep : BitVec 2
  na : Bool
  l1b : Bool
  ord : Ord
  scope : Scope
  space : Space
  deriving DecidableEq, Repr

/-- Source B of an extended instruction: a register, or the literal that replaces it (R43). -/
inductive SrcB where
  | reg (n : BitVec 8)
  | lit (v : DWord)
  deriving DecidableEq, Repr

/-- The operand fields of an extended instruction that are not qualifiers (R39). -/
structure Form where
  u : Bool
  ty : Ty
  sat : Bool
  d : BitVec 8
  a : BitVec 8
  b : SrcB
  c : BitVec 8
  guard : BitVec 7
  gn : Bool
  modA : LaneMod
  modB : LaneMod
  feA : Bool
  feB : Bool
  feC : Bool
  msk : BitVec 4
  deriving DecidableEq, Repr

/-- Source B of a base word: a register, the signed 7-bit immediate, or a literal (R36, R43). -/
inductive BaseB where
  | reg (n : BitVec 7)
  | imm (v : BitVec 7)
  | lit (v : DWord)
  deriving DecidableEq, Repr

/-- The fields of a base word (R36). -/
structure BaseForm where
  u : Bool
  d : BitVec 7
  a : BitVec 7
  b : BaseB
  deriving DecidableEq, Repr

/-- Condition of icmp, of fsel and of a routine's icmp (R96, R150). -/
inductive ICond where
  | eq | ne | lt | le | gt | ge
  deriving DecidableEq, Repr

/-- Condition of fcmp (R149). -/
inductive FCond where
  | eq | ne | lt | le | gt | ge | un | ord
  deriving DecidableEq, Repr

/-- How a compare combines with p[C] (R107). -/
inductive Combine where
  | none | pand | por
  deriving DecidableEq, Repr

/-- Rounding field (R145): the mode of fsr, or a named mode. -/
inductive Rnd where
  | fsr | rne | rtz | rup | rdn
  deriving DecidableEq, Repr

/-- Special registers of sreg (R94). -/
inductive SReg where
  | lane | crew | ncrew | unitx | unity | unitz | gridx | gridy | gridz | launch | task | version | prio | tmode
  | core | isle | die | device | incarnation | rslot | cycle | cwp (n : BitVec 3) | lrstat
  deriving DecidableEq, Repr

/-- Function of mset (R125). -/
inductive MsetFn where
  | set | add | del
  deriving DecidableEq, Repr

/-- Fields that fsrw writes (R160). -/
inductive FsrField where
  | both | flags | rm
  deriving DecidableEq, Repr

/-- N of a structured-sparse operation (R171). -/
inductive SparseN where
  | n8 | n16 | n32
  deriving DecidableEq, Repr

/-- Slot named by mstat (R171). -/
inductive MSlot where
  | acc (n : BitVec 2)
  | bs (n : BitVec 4)
  deriving DecidableEq, Repr

/-- Part of a slot's record that mstat reports (R185). -/
inductive MPart where
  | state | fmt | sa | sb
  deriving DecidableEq, Repr

/-- Function of vote (R199). -/
inductive VoteFn where
  | ballot | all | any | uni
  deriving DecidableEq, Repr

/-- Combine operation of cred, cscan and ratom (R200, R391). -/
inductive RComb where
  | add | min | max | and | or | xor
  deriving DecidableEq, Repr

/-- Element kind of xget and xput (R206). -/
inductive XKind where
  | gpr | pred | fsr | pc
  deriving DecidableEq, Repr

/-- Function of cflush (R229). -/
inductive FlushFn where
  | writeBack | evict | l1
  deriving DecidableEq, Repr

/-- Fence kind (R250). -/
inductive FenceKind where
  | full | acq | rel | ww
  deriving DecidableEq, Repr

/-- Access paths (R249). -/
inductive Path where
  | thr | copy | mat | pft | fab | draft
  deriving DecidableEq, Repr

/-- Function of atom and ared (R282). -/
inductive AtomFn where
  | add | min | max | and | or | xor | exch
  deriving DecidableEq, Repr

/-- Grade of a value (R26, R326); absent only in a state word. -/
inductive Grade where
  | absent | guess | provisional | final
  deriving DecidableEq, Repr

/-- Level of a cancel or of a counter (R361). -/
inductive Level where
  | launch | graph | phase | job
  deriving DecidableEq, Repr

/-- A fabric packet: the header of R376 and its payload; the plane on which it travels (R375), and the tag of a ciphered one
(R485). -/
structure Packet where
  dst : BitVec 16
  src : BitVec 16
  dinc : BitVec 16
  sinc : BitVec 16
  domain : BitVec 16
  kind : BitVec 8
  flags : BitVec 8
  seq : BitVec 32
  addr : BitVec 64
  tag : BitVec 32
  len : BitVec 16
  aux : BitVec 16
  payload : List (BitVec 8)
  /-- requester with its incarnation, window, offset in the window, position and total of a third-party segment (R398, R400) -/
  req : BitVec 16
  rinc : BitVec 16
  win : BitVec 8
  off : BitVec 64
  total : BitVec 32
  plane : BitVec 4
  auth : List (BitVec 8)
  deriving DecidableEq, Repr

/-- What the array's checksums and the check bits of the slots report for one chunk (R187). -/
inductive ChunkCheck where
  | ok
  | mismatch
  | accError
  | bError (group : Nat)
  deriving DecidableEq, Repr

/-- Who writes a pubw word from outside the device's threads (R336). -/
inductive ExtSource where
  | host
  | peer
  deriving DecidableEq, Repr

/-- A register that the host or a debugger writes and that has no row of its own (R457, R473). -/
inductive RegTarget where
  | system (sel : BitVec 32)
  | bar0 (off : BitVec 26)
  deriving DecidableEq, Repr

/-- How a start-up step ends (R479, R480). -/
inductive StepResult where
  | finished
  | failed
  | isleFaulty (isle : BitVec 7)
  | isleTesting (isle : BitVec 7)
  deriving DecidableEq, Repr

/-- The instructions and events: one constructor per row of spec/opcode_table.json. -/
inductive Instr where
  -- integer, address, predicate and move (04_integer)
  | iaddBase (x : BaseForm)
  | iaddExt (x : Form)
  | isubBase (x : BaseForm)
  | isubExt (x : Form)
  | imulBase (x : BaseForm)
  | imulExt (x : Form)
  | imulhBase (x : BaseForm)
  | imulhExt (x : Form)
  | imad (x : Form)
  | idivBase (x : BaseForm)
  | idivExt (x : Form)
  | iremBase (x : BaseForm)
  | iremExt (x : Form)
  | iminBase (x : BaseForm)
  | iminExt (x : Form)
  | imaxBase (x : BaseForm)
  | imaxExt (x : Form)
  | iabsBase (x : BaseForm)
  | iabsExt (x : Form)
  | inegBase (x : BaseForm)
  | inegExt (x : Form)
  | andBase (x : BaseForm)
  | andExt (x : Form)
  | orBase (x : BaseForm)
  | orExt (x : Form)
  | xorBase (x : BaseForm)
  | xorExt (x : Form)
  | andnBase (x : BaseForm)
  | andnExt (x : Form)
  | notBase (x : BaseForm)
  | notExt (x : Form)
  | shlBase (x : BaseForm)
  | shlExt (x : Form)
  | shrBase (x : BaseForm)
  | shrExt (x : Form)
  | sarBase (x : BaseForm)
  | sarExt (x : Form)
  | rolBase (x : BaseForm)
  | rolExt (x : Form)
  | bfe (x : Form)
  | bfi (x : Form)
  | popcBase (x : BaseForm)
  | popcExt (x : Form)
  | clz (x : Form)
  | brev (x : Form)
  | lea (shift : BitVec 3) (zx : Bool) (x : Form)
  | icmp (cond : ICond) (comb : Combine) (x : Form)
  | pset (all : Bool) (x : Form)
  | plop (lut : BitVec 8) (x : Form)
  | sel (x : Form)
  | movBase (x : BaseForm)
  | movExt (x : Form)
  | sreg (r : SReg) (x : Form)
  | cvti (src : Ty) (elem : BitVec 2) (x : Form)
  -- control flow and futures (05_control)
  | brBase (u : Bool) (off : BitVec 22)
  | brExt (x : Form)
  | brx (bound : BitVec 8) (x : Form)
  | callBase (u : Bool) (off : BitVec 22)
  | callExt (x : Form)
  | callx (x : Form)
  | retBase (u : Bool)
  | retExt (x : Form)
  | exitBase (x : BaseForm)
  | exitExt (x : Form)
  | mset (fn : MsetFn) (x : Form)
  | mjoin (x : Form)
  | mbar (x : Form)
  | mop (lut : BitVec 4) (x : Form)
  | yieldBase (u : Bool)
  | yieldExt (x : Form)
  | nopBase (u : Bool)
  | nopExt (x : Form)
  | brk (code : BitVec 4) (x : Form)
  | fwaitBase (x : BaseForm)
  | fwaitExt (x : Form)
  | ftest (x : Form)
  | fcancel (x : Form)
  | fmov (x : Form)
  -- floating point (06_float)
  | faddBase (x : BaseForm)
  | faddExt (rnd : Rnd) (x : Form)
  | fsubBase (x : BaseForm)
  | fsubExt (rnd : Rnd) (x : Form)
  | fmulBase (x : BaseForm)
  | fmulExt (rnd : Rnd) (x : Form)
  | ffma (rnd : Rnd) (x : Form)
  | fminBase (x : BaseForm)
  | fminExt (x : Form)
  | fmaxBase (x : BaseForm)
  | fmaxExt (x : Form)
  | fcmp (cond : FCond) (comb : Combine) (x : Form)
  | fsel (cond : ICond) (x : Form)
  | frcp (x : Form)
  | frsq (x : Form)
  | fsqrt (rnd : Rnd) (x : Form)
  | fexp2 (x : Form)
  | flog2 (x : Form)
  | ftanh (x : Form)
  | fclass (x : Form)
  | cvtf (src : Ty) (rnd : Rnd) (x : Form)
  | fpackHdr (x : Form)
  | fpack (x : Form)
  | funpack (hi : Bool) (x : Form)
  | fsrr (clr : Bool) (x : Form)
  | fsrw (field : FsrField) (x : Form)
  -- matrix (07_matrix)
  | mma (solo : Bool) (x : Form)
  | mmasp (n : SparseN) (solo : Bool) (x : Form)
  | bload (x : Form)
  | mdrain (x : Form)
  | mzero (slot : BitVec 2) (x : Form)
  | mstat (slot : MSlot) (part : MPart) (x : Form)
  -- cross-lane (08_crosslane)
  | vote (fn : VoteFn) (x : Form)
  | cred (comb : RComb) (rnd : Rnd) (x : Form)
  | cscan (comb : RComb) (rnd : Rnd) (excl : Bool) (x : Form)
  | cperm (wrap : Bool) (x : Form)
  | sample (x : Form)
  | xget (kind : XKind) (fe : Bool) (x : Form)
  | xput (kind : XKind) (x : Form)
  -- memory (09_memory)
  | ldBase (x : BaseForm)
  | ldExt (sx : Bool) (ac : Access) (x : Form)
  | stBase (x : BaseForm)
  | stExt (ac : Access) (x : Form)
  | ldnc (sx : Bool) (ac : Access) (x : Form)
  | stnc (ac : Access) (x : Form)
  | pf (ac : Access) (x : Form)
  | pft (ac : Access) (x : Form)
  | cflush (fn : FlushFn) (ac : Access) (x : Form)
  | copy (ch : BitVec 3) (x : Form)
  | bbwait (x : Form)
  | bgive (x : Form)
  | btake (wait : Bool) (x : Form)
  | binfo (x : Form)
  -- ordering (10_ordering)
  | fenceBase (u : Bool)
  | fenceExt (kind : FenceKind) (scope : Scope) (x : Form)
  | pfence (src dst : Path) (x : Form)
  | ifence (x : Form)
  -- atomics and line routines (11_atomics_routines)
  | atom (fn : AtomFn) (ac : Access) (x : Form)
  | ared (fn : AtomFn) (ac : Access) (x : Form)
  | acas (nf : Bool) (ac : Access) (x : Form)
  | lrdef (x : Form)
  | lrun (n : BitVec 6) (ac : Access) (x : Form)
  | lrdrop (x : Form)
  | waitv (timed : Bool) (ac : Access) (x : Form)
  | wakev (x : Form)
  -- tasks and grades (12_tasks_grades)
  | tspawn (x : Form)
  | tcommit (x : Form)
  | trigger (x : Form)
  | tabort (endUnit : Bool) (x : Form)
  | tseal (x : Form)
  | tstat (x : Form)
  | gread (peek : Bool) (x : Form)
  | gpub (grade : Grade) (same : Bool) (x : Form)
  | gwait (grade : Grade) (chg : Bool) (x : Form)
  -- launch and scheduling (13_launch_schedule)
  | launch (x : Form)
  | wfetch (x : Form)
  | cancel (level : Level) (x : Form)
  | ccount (level : Level) (x : Form)
  | progress (x : Form)
  | budget (x : Form)
  -- fabric (14_fabric)
  | rld (ac : Access) (x : Form)
  | rld3 (ac : Access) (x : Form)
  | rst (ac : Access) (x : Form)
  | mcst (ac : Access) (x : Form)
  | ratom (fn : RComb) (nf : Bool) (ac : Access) (x : Form)
  | rfence (dev : Bool) (x : Form)
  | lwin (x : Form)
  | lwinClose (x : Form)
  -- traps, pre-emption, debug (15_traps)
  | trap (x : Form)
  | resume (x : Form)
  | hret (x : Form)
  -- translation and system (16_translation_system)
  | shoot (x : Form)
  | shootsync (x : Form)
  | pinset (x : Form)
  | pincap (x : Form)
  | ctxsave (x : Form)
  | ctxload (x : Form)
  | sysrd (x : Form)
  | syswr (x : Form)
  -- draft engine, token rings, host link, start-up (17_generation_host)
  | dprop (maxCode : BitVec 4) (x : Form)
  | dapp (x : Form)
  | dclr (x : Form)
  | rpub (x : Form)
  -- steps that are no instructions: transitions inside the device (95_what_each_step_holds)
  | matrixOpAccept (op : Nat)
  | matrixChunk (op : Nat) (chk : ChunkCheck)
  | bloadGroup (op : Nat) (unc : Bool)
  | mdrainRow (op : Nat) (unc : Bool)
  | matrixOpComplete (op : Nat)
  | pftComplete (op : Nat)
  | copyGroupDelivered (op : Nat) (unc : Bool)
  | copyComplete (op : Nat)
  | loadTranslationAck (txn : Nat)
  | loadDataReply (txn : Nat) (unc : Bool)
  | storeArrivalAtHome (txn : Nat)
  | storePerform (txn : Nat) (unc : Bool)
  | storeFailureReport (txn : Nat)
  | deferredStoreTimeout (uid crew lane : Nat)
  | atomicPerform (txn : Nat) (unc : Bool)
  | atomicReply (txn : Nat)
  | lrunHold (txn : Nat) (unc : Bool)
  | lrunComplete (txn : Nat)
  | waitvTimeout (txn : Nat)
  | waitRecheckTimer (txn : Nat)
  | commitStart (uid : Nat)
  | writeSignatureArrival (die : Nat) (falseHits : List Nat)
  | conflictAddressArrival (die : Nat) (falseHits : List Nat)
  | commitMerge (uid : Nat)
  | commitTokenGrant (die : Nat)
  | publication (id : Nat)
  | consumerFire (launch : Nat)
  | wfetchFill (id : Nat)
  | budgetOverrun (uid crew : Nat)
  | firingStart (slot : Nat)
  | launchStart (launch : Nat)
  | unitPlacement (launch : Nat) (index : Nat)
  | unitEnd (uid : Nat)
  | regrouping (core quarter : Nat)
  | threadUrgent (uid crew lane : Nat)
  | deadlockWatchdog (ctx : Nat)
  | fabricResendFinal (txn : Nat)
  | fabricTimeout (txn : Nat)
  | heartbeatTimer (port : Nat)
  | linkDeathTimeout (port : Nat)
  | userTrapEntry (uid crew : Nat)
  | fault (uid : Nat)
  | preemptPriorityWait (launch index victim : Nat)
  | drainTimeout (uid : Nat)
  | save (uid : Nat)
  | flushAndRestart (uid : Nat)
  | shootdown (id : Nat) (falseHits : List Nat)
  | restore (op : Nat)
  | systemEvent (die : Nat)
  | pcBreakpoint (uid crew lane : Nat)
  | draftOpExecute (op : Nat)
  -- steps that are no instructions: what comes from outside: host, debugger, fabric, peers, power
  | externalPublication (src : ExtSource) (ctx : Nat) (rec : Nat) (value : DWord)
  | replayWrite (slot : Nat) (value : DWord)
  | cancelLaunchWrite (slot : Nat) (value : DWord)
  | cancelGraphWrite (slot : Nat) (value : DWord)
  | cancelPhaseWrite (slot : Nat) (value : DWord)
  | cancelJobWrite (slot : Nat) (value : DWord)
  | readRequest (p : Packet) (unc : Bool)
  | writePacket (p : Packet) (unc : Bool)
  | atomicPacket (p : Packet) (unc : Bool)
  | multicastWrite (p : Packet) (unc : Bool)
  | dataSegment (p : Packet) (unc : Bool)
  | completionPacket (p : Packet)
  | acknowledgement (p : Packet)
  | aggregatedAcknowledgement (p : Packet)
  | heartbeat (port : Nat)
  | deathNotice (plane target : Nat)
  | join (p : Packet)
  | preemptRequest (uid : Nat)
  | registerWrite (target : RegTarget) (value : DWord)
  | ctxctlWrite (ctx : Nat) (value : DWord)
  | evdoneWrite (die : Nat)
  | dcmdContinue (ctx : Nat) (value : DWord)
  | dcmdStep (ctx : Nat) (value : DWord)
  | dcmdEnd (ctx : Nat) (value : DWord)
  | ddataRead (ctx : Nat)
  | ddataWrite (ctx : Nat) (value : DWord)
  | hostMemRead (hpa len : Nat)
  | hostMemWrite (hpa : Nat) (data : List (BitVec 8))
  | hostSnoop (hpa : Nat) (data : List (BitVec 8))
  | hostCmdAttest (signature : List (BitVec 8))
  | startupStep (r : StepResult)
  | thermalThrottle (temp : BitVec 8)
  | thermalShutdown (temp : BitVec 8)
  | peerReportRequest (peer : BitVec 12) (ctx : Nat) (domain : BitVec 16) (nonce : List (BitVec 8)) (signature : List (BitVec 8))
  | peerReportAnswer (answered verified : Bool) (device : BitVec 12) (incarnation : BitVec 16) (nonce keyed : List (BitVec 8))
  | reservedKindPacket (p : Packet)
  | dcmdRefused (ctx : Nat) (value : DWord)
  | throttlingEnd (temp : BitVec 8)
  | hostCmdSysrd
  | hostCmdSyswr
  | hostCmdCheckpoint
  | hostCmdRestore
  | hostCmdShoot
  | hostCmdLoadImage
  | hostCmdClearIsleMask
  | hostCmdAdmitPeer
  | powerOn
  | badCommand
  | powerLoss
  deriving DecidableEq, Repr

end Sys2Proof
end

