-- ==== Sys2Proof/Machine/FieldRows.lean ====
section
/-! DEFINITION. The field rows of every instruction, as data, and the conditions of R59 that need no machine state
(02_encoding R36 to R60; the field rows R96, R118, R145, R171, R197, R215, R248, R280, R319, R361, R386, R420, R449, R462). -/

namespace Sys2Proof

/-! ## Operand types (R42) -/

/-- Code of a type in the W field (R42). -/
def Ty.code : Ty → Nat
  | .i32 => 0 | .u32 => 1 | .i64 => 2 | .u64 => 3 | .i16x2 => 4 | .u16x2 => 5 | .i8x4 => 6 | .u8x4 => 7
  | .f32 => 8 | .f16 => 9 | .bf16 => 10 | .f16x2 => 11 | .bf16x2 => 12 | .e4m3x4 => 13 | .e5m2x4 => 14
  | .e2m1x8 => 15 | .b32 => 16 | .b64 => 17 | .b128 => 18 | .b8 => 19 | .b16 => 20

/-- Width of a type in bits (R42). -/
def Ty.width : Ty → Nat
  | .i64 | .u64 | .b64 => 64
  | .b128 => 128
  | .f16 | .bf16 | .b16 => 16
  | .b8 => 8
  | .i32 | .u32 | .i16x2 | .u16x2 | .i8x4 | .u8x4 | .f32 | .f16x2 | .bf16x2 | .e4m3x4 | .e5m2x4 | .e2m1x8 | .b32 => 32

/-- Registers an operand of the type occupies: one, a pair or a quad (R41). -/
def Ty.regs (t : Ty) : Nat :=
  if t.width = 128 then 4 else if t.width = 64 then 2 else 1

/-- Bytes of an operand of the type in memory (R216). -/
def Ty.bytes (t : Ty) : Nat := t.width / 8

/-- Width of one element of a type in bits (R42, R97). -/
def Ty.elemWidth : Ty → Nat
  | .i16x2 | .u16x2 | .f16x2 | .bf16x2 | .f16 | .bf16 | .b16 => 16
  | .i8x4 | .u8x4 | .e4m3x4 | .e5m2x4 | .b8 => 8
  | .e2m1x8 => 4
  | .i64 | .u64 | .b64 => 64
  | .b128 => 128
  | .i32 | .u32 | .f32 | .b32 => 32

/-- Number of elements of a type (R97). -/
def Ty.elems (t : Ty) : Nat := t.width / t.elemWidth

/-- Signed integer types (R97). -/
def Ty.isSigned : Ty → Bool
  | .i32 | .i64 | .i16x2 | .i8x4 => true
  | .u32 | .u64 | .u16x2 | .u8x4 | .f32 | .f16 | .bf16 | .f16x2 | .bf16x2 | .e4m3x4 | .e5m2x4 | .e2m1x8 | .b32 | .b64
  | .b128 | .b8 | .b16 => false

/-- Floating types (R42). -/
def Ty.isFloat : Ty → Bool
  | .f32 | .f16 | .bf16 | .f16x2 | .bf16x2 | .e4m3x4 | .e5m2x4 | .e2m1x8 => true
  | .i32 | .u32 | .i64 | .u64 | .i16x2 | .u16x2 | .i8x4 | .u8x4 | .b32 | .b64 | .b128 | .b8 | .b16 => false

/-- Types on which a numeric modifier is legal (R52). -/
def Ty.numOk (t : Ty) : Bool := t.isSigned || (t.isFloat && t != .e2m1x8)

/-- Size of a segment in lanes (R50). -/
def SegSize.lanes : SegSize → Nat
  | .s32 => 32 | .s2 => 2 | .s4 => 4 | .s8 => 8 | .s16 => 16

/-- The modifier whose twelve bits are all zero (R50). -/
def LaneMod.zero : LaneMod := { cls := .identity, seg := .s32, dist := 0, num := .none }

/-- R50: the constraints between the fields of one modifier. -/
def LaneMod.fieldsOk (m : LaneMod) : Bool :=
  if m.cls = .identity then m.seg == .s32 && m.dist == 0 else m.dist.toNat < m.seg.lanes

/-! ## Rows -/

/-- What an operand field names (R41, R96). -/
inductive Kind where
  /-- the field is not used and is zero (R40) -/
  | unused
  /-- one, two or four general registers -/
  | regs (n : Nat)
  /-- a general register whose handle is read without a full/empty check (R49) -/
  | handle
  /-- a predicate -/
  | pred
  /-- a mask register -/
  | mask
  /-- a plain number (R207) -/
  | num
  deriving DecidableEq, Repr

/-- Where a literal may stand for source B (R43). -/
inductive LitRule where
  | none
  | value
  | code
  | codeOnly
  deriving DecidableEq, Repr

/-- One field row: what an instruction does with its fields, and where it may run. -/
structure Row where
  /-- accepted types; none means that W is 0 -/
  types : List Ty := []
  d : Kind := .unused
  a : Kind := .unused
  b : Kind := .unused
  c : Kind := .unused
  /-- D is read as a source (R215: st, stnc, rst) -/
  dRead : Bool := false
  /-- S may be 1 -/
  sat : Bool := false
  lit : LitRule := .none
  /-- lane modifiers on A and B (R98, R118, R146) -/
  laneA : Bool := false
  laneB : Bool := false
  /-- operand types for the numeric modifier on A and B (R52, R146) -/
  numA : Option Ty := .none
  numB : Option Ty := .none
  /-- crew-collective in every execution (R193) -/
  coll : Bool := false
  /-- only the lowest active participant writes D (R172) -/
  elect : Bool := false
  /-- source B is read from the lowest active participant alone (R205) -/
  oneB : Bool := false
  /-- MSK must be 15 even in a crew-collective form (R118) -/
  allMsk : Bool := false
  /-- U = 1 is illegal (R47) -/
  noU : Bool := false
  /-- orders and spaces accepted by a major marked AC (R55) -/
  ac : Option (List Ord × List Space) := .none
  /-- allowed in a handler context (R417) -/
  handler : Bool := false
  /-- allowed in a handler context only (R206, R420) -/
  handlerOnly : Bool := false
  /-- raises the illegal-instruction fault on a system core -/
  noSys : Bool := false
  /-- a P function (R58) -/
  priv : Bool := false
  /-- registers of the unit that the number C names (R206); 0 where C is none -/
  cRegs : Nat := 0
  /-- the further conditions of the row -/
  ok : Bool := true
  deriving DecidableEq, Repr

def intTypes4 : List Ty := [.i32, .u32, .i64, .u64]
def intTypes8 : List Ty := [.i32, .u32, .i64, .u64, .i16x2, .u16x2, .i8x4, .u8x4]
def signedTypes : List Ty := [.i32, .i64, .i16x2, .i8x4]
def bitTypes : List Ty := [.b32, .b64, .b128]
def floatTypes : List Ty := [.f32, .f16, .bf16, .f16x2, .bf16x2]
def scalarFloatTypes : List Ty := [.f32, .f16, .bf16]
def memTypes : List Ty := [.b32, .b8, .b16, .b64, .b128]

/-- Registers of the type: "g" in the rows (R96). -/
def Kind.ofTy (t : Ty) : Kind := .regs t.regs

/-- Two sources and a general destination (R96, R145). -/
def row2 (types : List Ty) (t : Ty) (sat : Bool) : Row :=
  { types, d := .ofTy t, a := .ofTy t, b := .ofTy t, sat, lit := .value, laneA := true, laneB := true, numA := some t, numB := some t, handler := true }

/-- Three sources and a general destination. -/
def row3 (types : List Ty) (t : Ty) (sat : Bool) : Row := { row2 types t sat with c := .ofTy t }

/-- One source and a general destination. -/
def row1 (types : List Ty) (t : Ty) (sat : Bool) : Row :=
  { types, d := .ofTy t, a := .ofTy t, sat, laneA := true, numA := some t, handler := true }

/-- An instruction of 05_control without a type (R118). -/
def rowC : Row := { handler := true }

/-- R113: the pairs that cvti accepts: whether source B is used, and how many element values. -/
def cvtiRow (w src : Ty) : Option (Bool × Nat) :=
  if intTypes4.contains w && intTypes4.contains src then some (false, 1)
  else if [Ty.i16x2, .u16x2].contains w && [Ty.i32, .u32].contains src then some (true, 1)
  else if [Ty.i8x4, .u8x4].contains w && [Ty.i16x2, .u16x2].contains src then some (true, 1)
  else if [Ty.i32, .u32].contains w && [Ty.i16x2, .u16x2].contains src then some (false, 2)
  else if [Ty.i32, .u32].contains w && [Ty.i8x4, .u8x4].contains src then some (false, 4)
  else none

/-- How a row of R154 rounds. -/
inductive CvtfRule where
  | exact
  | rounded
  | roundedNoSat
  deriving DecidableEq, Repr

/-- R154: the pairs that cvtf accepts: registers of D, of A, of B (0 where unused), and the rounding. -/
def cvtfRow (w src : Ty) : Option (Nat × Nat × Nat × CvtfRule) :=
  let h := [Ty.f16, Ty.bf16]
  let h2 := [Ty.f16x2, Ty.bf16x2]
  let q := [Ty.e4m3x4, Ty.e5m2x4]
  if w == .f32 && h.contains src then some (1, 1, 0, .exact)
  else if h.contains w && src == .f32 then some (1, 1, 0, .rounded)
  else if h2.contains w && src == .f32 then some (1, 1, 1, .rounded)
  else if w == .f32 && h2.contains src then some (2, 1, 0, .exact)
  else if q.contains w && h2.contains src then some (1, 1, 1, .rounded)
  else if q.contains w && src == .f32 then some (1, 2, 2, .rounded)
  else if h2.contains w && q.contains src then some (2, 1, 0, .exact)
  else if w == .f32 && q.contains src then some (4, 1, 0, .exact)
  else if w == .f32 && [Ty.i32, Ty.u32].contains src then some (1, 1, 0, .roundedNoSat)
  else if [Ty.i32, Ty.u32].contains w && src == .f32 then some (1, 1, 0, .roundedNoSat)
  else none

/-- R94: the selectors of 64 bits. -/
def SReg.wide : SReg → Bool
  | .cycle | .cwp _ => true
  | .lane | .crew | .ncrew | .unitx | .unity | .unitz | .gridx | .gridy | .gridz | .launch | .task | .version | .prio
  | .tmode | .core | .isle | .die | .device | .incarnation | .rslot | .lrstat => false

/-- R282: the types that a function of atom and ared accepts. -/
def AtomFn.types : AtomFn → List Ty
  | .add => [.i32, .u32, .i64, .u64, .f32, .f16x2, .bf16x2]
  | .min | .max => [.i32, .u32, .i64, .u64, .f32]
  | .and | .or | .xor => [.b32, .b64]
  | .exch => [.b32, .b64, .b128]

/-- R197, R391: the types that a combine operation accepts. -/
def RComb.types : RComb → List Ty
  | .add | .min | .max => [.i32, .u32, .i64, .u64, .f32]
  | .and | .or | .xor => [.b32, .b64]

/-- R197: the rows of cred and cscan. -/
def rowScan (comb : RComb) (rnd : Rnd) (x : Form) : Row :=
  { types := comb.types, d := .ofTy x.ty, a := .ofTy x.ty, sat := comb == .add && !x.ty.isFloat, numA := some x.ty, coll := true, noU := true, ok := rnd == .fsr || (x.ty == .f32 && comb == .add) }

/-- The address operand: a pair for global and vault space, one register for local space (R215). -/
def addrKind (ac : Access) : Kind := if ac.space = .localMem then .regs 1 else .regs 2

def allSpaces : List Space := [.global, .localMem, .vault]
def allOrds : List Ord := [.plain, .acquire, .release, .acqRel]

/-- ld and ldnc (R215). -/
def rowLoad (sx : Bool) (ac : Access) (x : Form) : Row :=
  { types := memTypes, d := .ofTy x.ty, a := addrKind ac, b := .regs 1, lit := .value, ac := some ([.plain, .acquire], allSpaces), handler := true, ok := !sx || x.ty == .b8 || x.ty == .b16 }

/-- st and stnc (R215). -/
def rowStore (ac : Access) (x : Form) : Row :=
  { types := memTypes, d := .ofTy x.ty, dRead := true, a := addrKind ac, b := .regs 1, lit := .value, ac := some ([.plain, .release], allSpaces), handler := true }

/-- An engine operation with a handle in D, an address in A and a word in B (R171). -/
def rowMatrix (b : Kind) (lit : LitRule) : Row := { d := .regs 1, a := .regs 1, b, lit, noSys := true }

/-- Functions of major 0x7D (R449). -/
def rowSys : Row := { priv := true }

/-- Majors 0x70 to 0x75 (R319). -/
def rowTask : Row := { noSys := true }

/-- An instruction as its extended form, its row and its access-control field: what R59 and the operand rules look at. -/
structure View where
  row : Row
  x : Form
  ac : Option Access
  deriving DecidableEq, Repr

/-- The access-control field of the base forms of ld and st, 0x400 (R37). -/
def Access.base : Access :=
  { ep := 1, na := false, l1b := false, ord := .plain, scope := .crew, space := .global }

/-- An extended form whose fields are all zero but the type, with guard p127 and MSK 15 (R37). -/
def Form.plain (u : Bool) (ty : Ty) : Form :=
  { u, ty, sat := false, d := 0, a := 0, b := .reg 0, c := 0, guard := 127, gn := false, modA := .zero, modB := .zero, feA := false, feB := false, feC := false, msk := 15 }

/-- R38: the immediate of a float base form as an FP32 word. -/
def immF32 (v : BitVec 7) : DWord :=
  let m := v.toInt.natAbs
  let e := Nat.log2 m
  if m = 0 then 0 else BitVec.ofNat 64 (boolNat (v.toInt < 0) * 2 ^ 31 + (127 + e) * 2 ^ 23 + (m - 2 ^ e) * 2 ^ (23 - e))

/-- R37, R38: the extended form of a base word; scale is 4 for ld and st, else 1. -/
def BaseForm.toForm (x : BaseForm) (ty : Ty) (scale : Nat) : Form :=
  { Form.plain x.u ty with
    d := x.d.setWidth 8, a := x.a.setWidth 8,
    b := match x.b with
      | .reg n => .reg (n.setWidth 8)
      | .lit v => .lit v
      | .imm v => .lit (if ty = .f32 then immF32 v else (BitVec.ofInt 32 (v.toInt * scale)).setWidth 64) }

/-- R37: the form of a base br or call; the offset counts words. -/
def branchForm (u : Bool) (off : BitVec 22) : Form :=
  { Form.plain u .i32 with b := .lit (BitVec.ofInt 64 (4 * off.toInt)) }

/-- The view of every instruction that words encode; none for a step that is no instruction. -/
def Instr.view : Instr → Option View
  | .iaddBase x => some ⟨row2 intTypes8 .i32 true, x.toForm .i32 1, none⟩
  | .iaddExt x => some ⟨row2 intTypes8 x.ty true, x, none⟩
  | .isubBase x => some ⟨row2 intTypes8 .i32 true, x.toForm .i32 1, none⟩
  | .isubExt x => some ⟨row2 intTypes8 x.ty true, x, none⟩
  | .imulBase x => some ⟨row2 intTypes8 .i32 true, x.toForm .i32 1, none⟩
  | .imulExt x => some ⟨row2 intTypes8 x.ty true, x, none⟩
  | .imulhBase x => some ⟨row2 intTypes4 .i32 false, x.toForm .i32 1, none⟩
  | .imulhExt x => some ⟨row2 intTypes4 x.ty false, x, none⟩
  | .imad x => some ⟨row3 intTypes4 x.ty true, x, none⟩
  | .idivBase x => some ⟨row2 intTypes4 .i32 false, x.toForm .i32 1, none⟩
  | .idivExt x => some ⟨row2 intTypes4 x.ty false, x, none⟩
  | .iremBase x => some ⟨row2 intTypes4 .i32 false, x.toForm .i32 1, none⟩
  | .iremExt x => some ⟨row2 intTypes4 x.ty false, x, none⟩
  | .iminBase x => some ⟨row2 intTypes8 .i32 false, x.toForm .i32 1, none⟩
  | .iminExt x => some ⟨row2 intTypes8 x.ty false, x, none⟩
  | .imaxBase x => some ⟨row2 intTypes8 .i32 false, x.toForm .i32 1, none⟩
  | .imaxExt x => some ⟨row2 intTypes8 x.ty false, x, none⟩
  | .iabsBase x => some ⟨row1 signedTypes .i32 true, x.toForm .i32 1, none⟩
  | .iabsExt x => some ⟨row1 signedTypes x.ty true, x, none⟩
  | .inegBase x => some ⟨row1 signedTypes .i32 true, x.toForm .i32 1, none⟩
  | .inegExt x => some ⟨row1 signedTypes x.ty true, x, none⟩
  | .andBase x => some ⟨row2 bitTypes .b32 false, x.toForm .b32 1, none⟩
  | .andExt x => some ⟨row2 bitTypes x.ty false, x, none⟩
  | .orBase x => some ⟨row2 bitTypes .b32 false, x.toForm .b32 1, none⟩
  | .orExt x => some ⟨row2 bitTypes x.ty false, x, none⟩
  | .xorBase x => some ⟨row2 bitTypes .b32 false, x.toForm .b32 1, none⟩
  | .xorExt x => some ⟨row2 bitTypes x.ty false, x, none⟩
  | .andnBase x => some ⟨row2 bitTypes .b32 false, x.toForm .b32 1, none⟩
  | .andnExt x => some ⟨row2 bitTypes x.ty false, x, none⟩
  | .notBase x => some ⟨row1 bitTypes .b32 false, x.toForm .b32 1, none⟩
  | .notExt x => some ⟨row1 bitTypes x.ty false, x, none⟩
  | .shlBase x => some ⟨{ row2 [.b32, .b64] .b32 false with b := .regs 1 }, x.toForm .b32 1, none⟩
  | .shlExt x => some ⟨{ row2 [.b32, .b64] x.ty false with b := .regs 1 }, x, none⟩
  | .shrBase x => some ⟨{ row2 [.b32, .b64] .b32 false with b := .regs 1 }, x.toForm .b32 1, none⟩
  | .shrExt x => some ⟨{ row2 [.b32, .b64] x.ty false with b := .regs 1 }, x, none⟩
  | .sarBase x => some ⟨{ row2 [.b32, .b64] .b32 false with b := .regs 1 }, x.toForm .b32 1, none⟩
  | .sarExt x => some ⟨{ row2 [.b32, .b64] x.ty false with b := .regs 1 }, x, none⟩
  | .rolBase x => some ⟨{ row2 [.b32, .b64] .b32 false with b := .regs 1 }, x.toForm .b32 1, none⟩
  | .rolExt x => some ⟨{ row2 [.b32, .b64] x.ty false with b := .regs 1 }, x, none⟩
  | .bfe x => some ⟨{ row2 intTypes4 x.ty false with b := .regs 1 }, x, none⟩
  | .bfi x => some ⟨{ row3 [.b32, .b64] x.ty false with c := .regs 1 }, x, none⟩
  | .popcBase x => some ⟨{ row1 [.b32, .b64] .b32 false with d := .regs 1 }, x.toForm .b32 1, none⟩
  | .popcExt x => some ⟨{ row1 [.b32, .b64] x.ty false with d := .regs 1 }, x, none⟩
  | .clz x => some ⟨{ row1 [.b32, .b64] x.ty false with d := .regs 1 }, x, none⟩
  | .brev x => some ⟨row1 [.b32, .b64] x.ty false, x, none⟩
  | .lea _ _ x => some ⟨{ row2 [.u64] x.ty false with b := .regs 1 }, x, none⟩
  | .icmp _ comb x => some ⟨{ row2 intTypes4 x.ty false with
      d := .pred, c := if comb = .none then .unused else .pred }, x, none⟩
  | .pset _ x => some ⟨{ row2 [.b32, .b64] x.ty false with d := .pred }, x, none⟩
  | .plop _ x => some ⟨{ types := [.b32], d := .pred, a := .pred, b := .pred, c := .pred, handler := true }, x, none⟩
  | .sel x => some ⟨{ row2 bitTypes x.ty false with c := .pred }, x, none⟩
  | .movBase x => some ⟨{ row2 bitTypes .b32 false with a := .unused, laneA := false, numA := none }, x.toForm .b32 1, none⟩
  | .movExt x => some ⟨{ row2 bitTypes x.ty false with a := .unused, laneA := false, numA := none }, x, none⟩
  | .sreg r x => some ⟨{ types := [if r.wide then .u64 else .u32], d := .ofTy x.ty, handler := true }, x, none⟩
  | .cvti src elem x => some ⟨
      match cvtiRow x.ty src with
      | some (useB, n) => { types := intTypes8, d := .ofTy x.ty, a := .ofTy src, b := if useB then .ofTy src else .unused, sat := true, lit := if useB then .value else .none, laneA := true, laneB := useB, numA := some src, numB := some src, handler := true, ok := elem.toNat < n }
      | none => { types := intTypes8, ok := false }, x, none⟩
  | .brBase u off => some ⟨{ rowC with lit := .codeOnly }, branchForm u off, none⟩
  | .brExt x => some ⟨{ rowC with lit := .codeOnly }, x, none⟩
  | .brx _ x => some ⟨{ rowC with allMsk := true, a := .regs 1, b := .regs 2, lit := .code, laneA := true }, x, none⟩
  | .callBase u off => some ⟨{ rowC with lit := .codeOnly }, branchForm u off, none⟩
  | .callExt x => some ⟨{ rowC with lit := .codeOnly }, x, none⟩
  | .callx x => some ⟨{ rowC with allMsk := true, a := .regs 2, laneA := true }, x, none⟩
  | .retBase u => some ⟨rowC, .plain u .i32, none⟩
  | .retExt x => some ⟨rowC, x, none⟩
  | .exitBase x => some ⟨{ allMsk := true, a := .regs 1, laneA := true }, x.toForm .i32 1, none⟩
  | .exitExt x => some ⟨{ allMsk := true, a := .regs 1, laneA := true }, x, none⟩
  | .mset fn x => some ⟨{ allMsk := true, d := .mask, b := if fn = .set then .regs 1 else .unused, lit := if fn = .set then .value else .none, laneB := fn = .set, noU := true }, x, none⟩
  | .mjoin x => some ⟨{ a := .mask, noU := true }, x, none⟩
  | .mbar x => some ⟨{ a := .mask, noU := true }, x, none⟩
  | .mop _ x => some ⟨{ d := .mask, a := .mask, b := .mask, noU := true }, x, none⟩
  | .yieldBase u => some ⟨rowC, .plain u .i32, none⟩
  | .yieldExt x => some ⟨rowC, x, none⟩
  | .nopBase u => some ⟨rowC, .plain u .i32, none⟩
  | .nopExt x => some ⟨rowC, x, none⟩
  | .brk _ x => some ⟨{ }, x, none⟩
  | .fwaitBase x => some ⟨{ rowC with d := .regs 1, a := .handle }, x.toForm .i32 1, none⟩
  | .fwaitExt x => some ⟨{ rowC with d := .regs 1, a := .handle }, x, none⟩
  | .ftest x => some ⟨{ rowC with d := .pred, a := .handle }, x, none⟩
  | .fcancel x => some ⟨{ rowC with a := .handle }, x, none⟩
  | .fmov x => some ⟨{ rowC with d := .regs 1, a := .handle }, x, none⟩
  | .faddBase x => some ⟨row2 floatTypes .f32 true, x.toForm .f32 1, none⟩
  | .faddExt _ x => some ⟨row2 floatTypes x.ty true, x, none⟩
  | .fsubBase x => some ⟨row2 floatTypes .f32 true, x.toForm .f32 1, none⟩
  | .fsubExt _ x => some ⟨row2 floatTypes x.ty true, x, none⟩
  | .fmulBase x => some ⟨row2 floatTypes .f32 true, x.toForm .f32 1, none⟩
  | .fmulExt _ x => some ⟨row2 floatTypes x.ty true, x, none⟩
  | .ffma _ x => some ⟨row3 floatTypes x.ty true, x, none⟩
  | .fminBase x => some ⟨row2 floatTypes .f32 false, x.toForm .f32 1, none⟩
  | .fminExt x => some ⟨row2 floatTypes x.ty false, x, none⟩
  | .fmaxBase x => some ⟨row2 floatTypes .f32 false, x.toForm .f32 1, none⟩
  | .fmaxExt x => some ⟨row2 floatTypes x.ty false, x, none⟩
  | .fcmp _ comb x => some ⟨{ row2 scalarFloatTypes x.ty false with
      d := .pred, c := if comb = .none then .unused else .pred }, x, none⟩
  | .fsel _ x => some ⟨row3 floatTypes x.ty false, x, none⟩
  | .frcp x => some ⟨row1 floatTypes x.ty false, x, none⟩
  | .frsq x => some ⟨row1 floatTypes x.ty false, x, none⟩
  | .fsqrt _ x => some ⟨row1 floatTypes x.ty true, x, none⟩
  | .fexp2 x => some ⟨row1 floatTypes x.ty false, x, none⟩
  | .flog2 x => some ⟨row1 floatTypes x.ty false, x, none⟩
  | .ftanh x => some ⟨row1 floatTypes x.ty false, x, none⟩
  | .fclass x => some ⟨{ row1 scalarFloatTypes x.ty false with d := .regs 1 }, x, none⟩
  | .cvtf src rnd x => some ⟨
      match cvtfRow x.ty src with
      | some (nd, na, nb, rule) => { types := [x.ty], d := .regs nd, a := .regs na, b := if nb = 0 then .unused else .regs nb, sat := rule = .rounded, lit := if nb = 0 then .none else .value, laneA := true, laneB := nb != 0, numA := some src, numB := some src, handler := true, ok := rule != .exact || rnd == .fsr }
      | none => { types := [x.ty], ok := false }, x, none⟩
  | .fpackHdr x => some ⟨{ types := [.b32], d := .regs 1, a := .regs 1, b := .regs 1, lit := .value, laneA := true, laneB := true, numA := some .f32, handler := true }, x, none⟩
  | .fpack x => some ⟨{ types := [.e2m1x8], d := .regs 1, a := .regs 4, b := .regs 4, c := .regs 1, laneA := true, laneB := true, numA := some .f32, numB := some .f32, handler := true }, x, none⟩
  | .funpack _ x => some ⟨{ types := [.f32], d := .regs 4, a := .regs 1, b := .regs 1, lit := .value, laneA := true, laneB := true, handler := true }, x, none⟩
  | .fsrr _ x => some ⟨{ types := [.b32], d := .regs 1, handler := true }, x, none⟩
  | .fsrw _ x => some ⟨{ types := [.b32], b := .regs 1, lit := .value, laneB := true, handler := true }, x, none⟩
  | .mma solo x => some ⟨{ rowMatrix (.regs 1) .value with coll := !solo, elect := !solo, noU := !solo }, x, none⟩
  | .mmasp _ solo x => some ⟨{ rowMatrix (.regs 1) .value with coll := !solo, elect := !solo, noU := !solo }, x, none⟩
  | .bload x => some ⟨rowMatrix (.regs 1) .value, x, none⟩
  | .mdrain x => some ⟨rowMatrix .unused .none, x, none⟩
  | .mzero _ x => some ⟨{ d := .regs 1, noSys := true }, x, none⟩
  | .mstat slot part x => some ⟨{ d := if part = .sa ∨ part = .sb then .regs 2 else .regs 1, noSys := true, ok := match slot, part with
        | .acc _, .fmt => false
        | .bs _, .sa => false
        | .acc _, .state | .acc _, .sa | .acc _, .sb | .bs _, .state | .bs _, .fmt | .bs _, .sb => true }, x, none⟩
  | .vote fn x => some ⟨{ d := if fn = .ballot then .regs 1 else .pred, a := .pred, coll := true, noU := true }, x, none⟩
  | .cred comb rnd x => some ⟨rowScan comb rnd x, x, none⟩
  | .cscan comb rnd _ x => some ⟨rowScan comb rnd x, x, none⟩
  | .cperm _ x => some ⟨{ types := bitTypes, d := .ofTy x.ty, a := .ofTy x.ty, b := .regs 1, lit := .value, coll := true, noU := true }, x, none⟩
  | .sample x => some ⟨{ types := [.f32], d := .regs 1, a := .regs 1, b := .regs 1, c := .pred, lit := .value, coll := true, oneB := true, noU := true }, x, none⟩
  | .xget kind fe x => some ⟨{ types := [.b32, .b64], d := .ofTy x.ty, b := .regs 1, c := .num, lit := .value, handler := true, handlerOnly := true, cRegs := if kind = .gpr then x.ty.regs else 0, ok := match kind with
        | .gpr => (x.ty != .b64 || x.c.toNat % 2 == 0) && (!fe || x.ty == .b32)
        | .pred => x.ty == .b32 && x.c.toNat < 128 && !fe
        | .fsr => x.ty == .b32 && x.c == 0 && !fe
        | .pc => x.ty == .b64 && x.c == 0 && !fe }, x, none⟩
  | .xput kind x => some ⟨{ types := [.b32, .b64], a := .ofTy x.ty, b := .regs 1, c := .num, lit := .value, handler := true, handlerOnly := true, cRegs := if kind = .gpr then x.ty.regs else 0, ok := match kind with
        | .gpr => x.ty != .b64 || x.c.toNat % 2 == 0
        | .pred => x.ty == .b32 && x.c.toNat < 128
        | .fsr => x.ty == .b32 && x.c == 0
        | .pc => x.ty == .b64 && x.c == 0 }, x, none⟩
  | .ldBase x => some ⟨rowLoad false .base (x.toForm .b32 4), x.toForm .b32 4, some .base⟩
  | .ldExt sx ac x => some ⟨rowLoad sx ac x, x, some ac⟩
  | .stBase x => some ⟨rowStore .base (x.toForm .b32 4), x.toForm .b32 4, some .base⟩
  | .stExt ac x => some ⟨rowStore ac x, x, some ac⟩
  | .ldnc sx ac x => some ⟨rowLoad sx ac x, x, some ac⟩
  | .stnc ac x => some ⟨rowStore ac x, x, some ac⟩
  | .pf ac x => some ⟨{ a := .regs 2, b := .regs 1, lit := .value, ac := some ([.plain], [.global]), handler := true }, x, some ac⟩
  | .pft ac x => some ⟨{ d := .regs 1, a := .regs 1, ac := some ([.plain], [.global]) }, x, some ac⟩
  | .cflush _ ac x => some ⟨{ a := .regs 2, b := .regs 1, lit := .value, ac := some ([.plain], [.global]), handler := true }, x, some ac⟩
  | .copy _ x => some ⟨{ d := .regs 1, a := .regs 1 }, x, none⟩
  | .bbwait x => some ⟨{ a := .regs 1, b := .regs 1, lit := .value }, x, none⟩
  | .bgive x => some ⟨{ d := .regs 1, a := .regs 1, b := .regs 1, lit := .value }, x, none⟩
  | .btake _ x => some ⟨{ d := .regs 1, a := .regs 1, b := .regs 1, lit := .value }, x, none⟩
  | .binfo x => some ⟨{ d := .regs 1, a := .regs 1 }, x, none⟩
  | .fenceBase u => some ⟨{ handler := true }, .plain u .i32, none⟩
  | .fenceExt _ _ x => some ⟨{ handler := true }, x, none⟩
  | .pfence _ _ x => some ⟨{ handler := true }, x, none⟩
  | .ifence x => some ⟨{ handler := true }, x, none⟩
  | .atom fn ac x => some ⟨{ types := fn.types, d := .ofTy x.ty, a := addrKind ac, b := .ofTy x.ty, lit := .value, ac := some (allOrds, allSpaces), handler := true }, x, some ac⟩
  | .ared fn ac x => some ⟨{ types := fn.types, a := addrKind ac, b := .ofTy x.ty, lit := .value, ac := some ([.plain, .release], allSpaces), handler := true }, x, some ac⟩
  | .acas nf ac x => some ⟨{ types := bitTypes, d := if nf then .unused else .ofTy x.ty, a := addrKind ac, b := .ofTy x.ty, c := .ofTy x.ty, lit := .value, ac := some (allOrds, allSpaces), handler := true }, x, some ac⟩
  | .lrdef x => some ⟨{ d := .regs 1, a := .regs 2, b := .regs 1, c := .regs 4, lit := .value }, x, none⟩
  | .lrun _ ac x => some ⟨{ d := .regs 2, a := .regs 2, b := .regs 4, lit := .value, ac := some (allOrds, [.global]), handler := true }, x, some ac⟩
  | .lrdrop x => some ⟨{ b := .regs 1, lit := .value }, x, none⟩
  | .waitv timed ac x => some ⟨{ types := [.b32, .b64], d := .ofTy x.ty, a := .regs 2, b := .ofTy x.ty, c := if timed then .regs 1 else .unused, lit := .value, ac := some ([.plain, .acquire], [.global]) }, x, some ac⟩
  | .wakev x => some ⟨{ d := .regs 1, a := .regs 2, b := .regs 1, lit := .value }, x, none⟩
  | .tspawn x => some ⟨{ rowTask with d := .regs 1, a := .regs 1 }, x, none⟩
  | .tcommit x => some ⟨rowTask, x, none⟩
  | .trigger x => some ⟨rowTask, x, none⟩
  | .tabort endUnit x => some ⟨{ rowTask with a := if endUnit then .regs 1 else .unused }, x, none⟩
  | .tseal x => some ⟨rowTask, x, none⟩
  | .tstat x => some ⟨{ rowTask with d := .regs 1 }, x, none⟩
  | .gread _ x => some ⟨{ rowTask with d := .regs 1, a := .regs 2, b := .regs 1, lit := .value }, x, none⟩
  | .gpub g _ x => some ⟨{ rowTask with d := .regs 1, a := .regs 2, b := .regs 1, lit := .value, ok := g != .absent }, x, none⟩
  | .gwait g chg x => some ⟨{ rowTask with d := .regs 1, a := .regs 2, b := .regs 1, lit := .value, c := if chg then .regs 1 else .unused, ok := g != .absent }, x, none⟩
  | .launch x => some ⟨{ d := .regs 1, a := .regs 2 }, x, none⟩
  | .wfetch x => some ⟨{ a := .regs 1, b := .regs 1, lit := .value, noSys := true }, x, none⟩
  | .cancel _ x => some ⟨{ d := .regs 1, b := .regs 1, lit := .value }, x, none⟩
  | .ccount _ x => some ⟨{ d := .regs 1, b := .regs 1, lit := .value }, x, none⟩
  | .progress x => some ⟨{ a := .regs 1, noSys := true }, x, none⟩
  | .budget x => some ⟨{ d := .regs 1, a := .regs 1, noSys := true }, x, none⟩
  | .rld ac x => some ⟨{ d := .regs 1, a := .regs 2, b := addrKind ac, c := .regs 1, ac := some ([.plain, .acquire], allSpaces) }, x, some ac⟩
  | .rld3 ac x => some ⟨{ d := .regs 1, a := .regs 2, b := .regs 2, c := .regs 1, ac := some ([.plain], [.global]) }, x, some ac⟩
  | .rst ac x => some ⟨{ types := memTypes, d := .ofTy x.ty, dRead := true, a := .regs 2, b := .regs 1, lit := .value, ac := some ([.plain, .release], [.global]) }, x, some ac⟩
  | .mcst ac x => some ⟨{ d := .regs 1, a := .regs 2, b := .regs 1, c := .regs 1, ac := some ([.plain, .release], [.global]) }, x, some ac⟩
  | .ratom fn nf ac x => some ⟨{ types := fn.types, d := if nf then .unused else .ofTy x.ty, a := .regs 2, b := .ofTy x.ty, lit := .value, coll := true, noU := true, ac := some (if nf then [.plain, .release] else allOrds, [.global]) }, x, some ac⟩
  | .rfence dev x => some ⟨{ b := if dev then .regs 1 else .unused, lit := if dev then .value else .none }, x, none⟩
  | .lwin x => some ⟨{ d := .regs 1, a := .regs 1 }, x, none⟩
  | .lwinClose x => some ⟨{ d := .regs 1, b := .regs 1, lit := .value }, x, none⟩
  | .trap x => some ⟨{ b := .regs 1, lit := .value, noSys := true }, x, none⟩
  | .resume x => some ⟨{ b := .regs 1, lit := .value, handler := true, handlerOnly := true }, x, none⟩
  | .hret x => some ⟨rowSys, x, none⟩
  | .shoot x => some ⟨{ rowSys with a := .regs 2, b := .regs 1, c := .regs 1, lit := .value }, x, none⟩
  | .shootsync x => some ⟨rowSys, x, none⟩
  | .pinset x => some ⟨{ d := .regs 1, a := .regs 1, b := .regs 1, lit := .value }, x, none⟩
  | .pincap x => some ⟨{ rowSys with d := .regs 1, a := .regs 1, b := .regs 1, c := .regs 1, lit := .value }, x, none⟩
  | .ctxsave x => some ⟨{ rowSys with d := .regs 1, a := .regs 1, b := .regs 2 }, x, none⟩
  | .ctxload x => some ⟨{ rowSys with d := .regs 1, a := .regs 2 }, x, none⟩
  | .sysrd x => some ⟨{ rowSys with d := .regs 2, a := .regs 1 }, x, none⟩
  | .syswr x => some ⟨{ rowSys with a := .regs 1, b := .regs 2, lit := .value }, x, none⟩
  | .dprop _ x => some ⟨{ d := .regs 1, a := .regs 1, b := .regs 1, lit := .value, noSys := true }, x, none⟩
  | .dapp x => some ⟨{ d := .regs 1, a := .regs 1, b := .regs 1, c := .regs 1, lit := .value, noSys := true }, x, none⟩
  | .dclr x => some ⟨{ d := .regs 1, a := .regs 1, noSys := true }, x, none⟩
  | .rpub x => some ⟨{ d := .regs 1, a := .regs 2, b := .regs 1, lit := .value, noSys := true }, x, none⟩
  | .matrixOpAccept .. | .matrixChunk .. | .bloadGroup .. | .mdrainRow .. | .matrixOpComplete .. | .pftComplete ..
  | .copyGroupDelivered .. | .copyComplete .. | .loadTranslationAck .. | .loadDataReply .. | .storeArrivalAtHome ..
  | .storePerform .. | .storeFailureReport .. | .deferredStoreTimeout .. | .atomicPerform .. | .atomicReply ..
  | .lrunHold .. | .lrunComplete .. | .waitvTimeout .. | .waitRecheckTimer .. | .commitStart ..
  | .writeSignatureArrival .. | .conflictAddressArrival .. | .commitMerge .. | .commitTokenGrant .. | .publication ..
  | .externalPublication .. | .consumerFire .. | .wfetchFill .. | .budgetOverrun .. | .replayWrite ..
  | .cancelLaunchWrite .. | .cancelGraphWrite .. | .cancelPhaseWrite .. | .cancelJobWrite .. | .firingStart ..
  | .launchStart .. | .unitPlacement .. | .unitEnd .. | .regrouping .. | .threadUrgent .. | .deadlockWatchdog ..
  | .readRequest .. | .writePacket .. | .atomicPacket .. | .multicastWrite .. | .dataSegment .. | .completionPacket ..
  | .acknowledgement .. | .aggregatedAcknowledgement .. | .fabricResendFinal .. | .fabricTimeout ..
  | .heartbeatTimer .. | .heartbeat .. | .linkDeathTimeout .. | .deathNotice .. | .join .. | .userTrapEntry ..
  | .fault .. | .preemptRequest .. | .preemptPriorityWait .. | .drainTimeout .. | .save .. | .flushAndRestart ..
  | .shootdown .. | .restore .. | .registerWrite .. | .ctxctlWrite .. | .evdoneWrite .. | .systemEvent ..
  | .dcmdContinue .. | .dcmdStep .. | .dcmdEnd .. | .ddataRead .. | .ddataWrite .. | .pcBreakpoint ..
  | .draftOpExecute .. | .hostMemRead .. | .hostMemWrite .. | .hostSnoop .. | .hostCmdSysrd | .hostCmdSyswr
  | .hostCmdAttest .. | .hostCmdCheckpoint | .hostCmdRestore | .hostCmdShoot | .hostCmdLoadImage
  | .hostCmdClearIsleMask | .hostCmdAdmitPeer | .powerOn | .startupStep .. | .thermalThrottle ..
  | .thermalShutdown .. | .peerReportRequest .. | .peerReportAnswer .. | .reservedKindPacket .. | .badCommand
  | .dcmdRefused .. | .powerLoss | .throttlingEnd .. => none

/-! ## The conditions of R59 that need no machine state -/

/-- Which condition of R59 an encoding meets. -/
inductive Illegal where
  | permanent
  | unassignedMajor
  | unassignedSub
  | noBaseForm
  | literal
  | typeCode
  | modifierField
  | fieldUse
  | uniform
  | registerField
  | nonzeroUnused
  | context
  deriving DecidableEq, Repr

/-- R41: the constraint of a field on its kind, and R40 for an unused field. -/
def Kind.fieldOk (k : Kind) (v : BitVec 8) : Bool :=
  match k with
  | .unused => v == 0
  | .regs n => v.toNat % n == 0
  | .handle => true
  | .pred => v.toNat < 128
  | .mask => v.toNat < 16
  | .num => true

/-- A source that is read as a general register under full/empty control (R48, R49). -/
def Kind.isReg : Kind → Bool
  | .regs _ => true
  | .unused | .handle | .pred | .mask | .num => false

def SrcB.isLit : SrcB → Bool
  | .lit _ => true
  | .reg _ => false

/-- The instruction is crew-collective: its row says so, or a modifier has a non-identity class (R50). -/
def View.collective (v : View) : Bool :=
  v.row.coll || v.x.modA.cls != .identity || v.x.modB.cls != .identity

/-- R43: the literal, or the B field that it replaces. -/
def View.litOk (v : View) : Bool :=
  match v.x.b, v.row.lit with
  | .lit _, .none => false
  | .lit _, .value => v.row.b.isReg && !v.x.feB && v.x.modB == .zero
  | .lit _, .code => !v.x.feB && v.x.modB == .zero
  | .lit l, .codeOnly => l.toNat % 4 == 0 && !v.x.feB && v.x.modB == .zero
  | .reg _, .codeOnly => false
  | .reg n, .none | .reg n, .value | .reg n, .code => v.row.b.fieldOk n

/-- R50, R52, R53: one modifier against its source. -/
def modOk (m : LaneMod) (read : Bool) (lane : Bool) (num : Option Ty) : Bool :=
  m.fieldsOk && (m == .zero || read) && (m.cls == .identity || lane) &&
    (m.num == .none || (match num with | some t => t.numOk | none => false))

/-- The first condition of R59 that a view meets, none when the encoding is legal. -/
def View.illegal (v : View) : Option Illegal :=
  let r := v.row
  let x := v.x
  if !(if r.types = [] then x.ty == .i32 else r.types.contains x.ty) then some .typeCode
  else if !r.ok then some .unassignedSub
  else if !v.litOk then some .literal
  else if !(r.d.fieldOk x.d && r.a.fieldOk x.a && r.c.fieldOk x.c) then some .registerField
  else if x.sat && !r.sat then some .fieldUse
  else if !(modOk x.modA r.a.isReg r.laneA r.numA && modOk x.modB (r.b.isReg && !x.b.isLit) r.laneB r.numB) then
    some .modifierField
  else if (x.feA && !r.a.isReg) || (x.feB && !(r.b.isReg && !x.b.isLit)) || (x.feC && !r.c.isReg) then some .fieldUse
  else if !(match r.ac, v.ac with
      | some (ords, spaces), some ac => ords.contains ac.ord && spaces.contains ac.space
      | none, none => true
      | some _, none | none, some _ => false) then some .fieldUse
  else if x.msk != 15 && (!v.collective || r.allMsk) then some .fieldUse
  else if x.u && (v.collective || r.noU) then some .uniform
  else none

/-- R59 as far as it needs no machine state; a step that is no instruction has no encoding to check. -/
def Instr.illegal (i : Instr) : Option Illegal :=
  match i.view with
  | some v => v.illegal
  | none => none

/-! ## The conditions of R59 that depend on where the instruction runs -/

/-- Where an instruction runs: in a crew's handler, on a system core, with how many registers allocated to the thread and
to its unit (R41, R206, R417). -/
structure Place where
  handler : Bool
  system : Bool
  regs : Nat
  unitRegs : Nat
  deriving DecidableEq, Repr

/-- R41: every register of the operand is allocated; a handler has p0 to p15 and p127. -/
def Kind.inPlace (k : Kind) (v : BitVec 8) (p : Place) : Bool :=
  match k with
  | .regs n => v.toNat + n ≤ p.regs
  | .handle => v.toNat + 1 ≤ p.regs
  | .pred => !p.handler || v.toNat < 16 || v.toNat == 127
  | .unused | .mask | .num => true

/-- The conditions of R59 that depend on the place. -/
def View.illegalAt (v : View) (p : Place) : Option Illegal :=
  let r := v.row
  let x := v.x
  if p.handler && (!r.handler || v.collective) then some .context
  else if r.handlerOnly && !p.handler then some .context
  else if r.noSys && p.system then some .context
  else if !(r.d.inPlace x.d p && r.a.inPlace x.a p && r.c.inPlace x.c p &&
      (match x.b with | .reg n => r.b.inPlace n p | .lit _ => true) &&
      (!p.handler || x.guard.toNat < 16 || x.guard.toNat == 127) &&
      (r.cRegs == 0 || x.c.toNat + r.cRegs ≤ p.unitRegs)) then some .registerField
  else none

end Sys2Proof
end

