-- ==== Sys2Proof/WellFormed.lean ====
section
/-! DEFINITION. The well-formed instructions: those that meet no condition of R59 (02_encoding). A step that is no
instruction has no encoding and is well formed as it stands. -/

namespace Sys2Proof

/-- R59: the encoding of the instruction is legal, wherever it runs. -/
def Instr.WellFormed (i : Instr) : Prop := i.illegal = none

/-- The same as a Bool. -/
def Instr.wellFormed (i : Instr) : Bool := i.illegal.isNone

theorem Instr.wellFormed_iff (i : Instr) : i.wellFormed = true ↔ i.WellFormed := by
  simp [Instr.wellFormed, Instr.WellFormed]

end Sys2Proof
end

