-- ==== Sys2Proof/Decode.lean ====
section
/-! DEFINITION. Decoding of instruction words and their encoder (02_encoding R33 to R60 and the field rows of every
chapter): total on any bytes, refusing by the name of the condition of R59. -/

namespace Sys2Proof

/-! ## Codes of the fields -/

/-- The type of a W code (R42); none for the reserved codes. -/
def Ty.ofCode : Nat → Option Ty
  | 0 => some .i32 | 1 => some .u32 | 2 => some .i64 | 3 => some .u64 | 4 => some .i16x2 | 5 => some .u16x2 | 6 => some .i8x4 | 7 => some .u8x4 | 8 => some .f32 | 9 => some .f16 | 10 => some .bf16 | 11 => some .f16x2 | 12 => some .bf16x2 | 13 => some .e4m3x4 | 14 => some .e5m2x4 | 15 => some .e2m1x8 | 16 => some .b32 | 17 => some .b64 | 18 => some .b128 | 19 => some .b8 | 20 => some .b16 | _ => none

theorem Ty.ofCode_code (t : Ty) : Ty.ofCode t.code = some t := by cases t <;> rfl

/-- R50. -/
def ModClass.code : ModClass → Nat
  | .identity => 0 | .rotate => 1 | .butterfly => 2 | .broadcast => 3

/-- The inverse of ModClass.code; none for an unassigned code. -/
def ModClass.ofCode : Nat → Option ModClass
  | 0 => some .identity | 1 => some .rotate | 2 => some .butterfly | 3 => some .broadcast | _ => none

theorem ModClass.ofCode_code (c : ModClass) : ModClass.ofCode c.code = some c := by cases c <;> rfl

/-- R50. -/
def SegSize.code : SegSize → Nat
  | .s32 => 0 | .s2 => 1 | .s4 => 2 | .s8 => 3 | .s16 => 4

/-- The inverse of SegSize.code; none for an unassigned code. -/
def SegSize.ofCode : Nat → Option SegSize
  | 0 => some .s32 | 1 => some .s2 | 2 => some .s4 | 3 => some .s8 | 4 => some .s16 | _ => none

theorem SegSize.ofCode_code (c : SegSize) : SegSize.ofCode c.code = some c := by cases c <;> rfl

/-- R50. -/
def NumMod.code : NumMod → Nat
  | .none => 0 | .neg => 1 | .abs => 2 | .negAbs => 3

/-- The inverse of NumMod.code; none for an unassigned code. -/
def NumMod.ofCode : Nat → Option NumMod
  | 0 => some .none | 1 => some .neg | 2 => some .abs | 3 => some .negAbs | _ => Option.none

theorem NumMod.ofCode_code (c : NumMod) : NumMod.ofCode c.code = some c := by cases c <;> rfl

/-- R54. -/
def Ord.code : Ord → Nat
  | .plain => 0 | .acquire => 1 | .release => 2 | .acqRel => 3

/-- The inverse of Ord.code; none for an unassigned code. -/
def Ord.ofCode : Nat → Option Ord
  | 0 => some .plain | 1 => some .acquire | 2 => some .release | 3 => some .acqRel | _ => none

theorem Ord.ofCode_code (c : Ord) : Ord.ofCode c.code = some c := by cases c <;> rfl

/-- R54: the code of a scope in the access-control field. -/
def Scope.code : Scope → Nat
  | .crew => 0 | .unit => 1 | .isle => 2 | .die => 3 | .device => 4 | .system => 5 | .fabric => 6

/-- The inverse of Scope.code; none for an unassigned code. -/
def Scope.ofCode : Nat → Option Scope
  | 0 => some .crew | 1 => some .unit | 2 => some .isle | 3 => some .die | 4 => some .device | 5 => some .system | 6 => some .fabric | _ => none

theorem Scope.ofCode_code (c : Scope) : Scope.ofCode c.code = some c := by cases c <;> rfl

/-- R54. -/
def Space.code : Space → Nat
  | .global => 0 | .localMem => 1 | .vault => 2

/-- The inverse of Space.code; none for an unassigned code. -/
def Space.ofCode : Nat → Option Space
  | 0 => some .global | 1 => some .localMem | 2 => some .vault | _ => none

theorem Space.ofCode_code (c : Space) : Space.ofCode c.code = some c := by cases c <;> rfl

/-- R96, R145. -/
def ICond.code : ICond → Nat
  | .eq => 0 | .ne => 1 | .lt => 2 | .le => 3 | .gt => 4 | .ge => 5

/-- The inverse of ICond.code; none for an unassigned code. -/
def ICond.ofCode : Nat → Option ICond
  | 0 => some .eq | 1 => some .ne | 2 => some .lt | 3 => some .le | 4 => some .gt | 5 => some .ge | _ => none

theorem ICond.ofCode_code (c : ICond) : ICond.ofCode c.code = some c := by cases c <;> rfl

/-- R149. -/
def FCond.code : FCond → Nat
  | .eq => 0 | .ne => 1 | .lt => 2 | .le => 3 | .gt => 4 | .ge => 5 | .un => 6 | .ord => 7

/-- The inverse of FCond.code; none for an unassigned code. -/
def FCond.ofCode : Nat → Option FCond
  | 0 => some .eq | 1 => some .ne | 2 => some .lt | 3 => some .le | 4 => some .gt | 5 => some .ge | 6 => some .un | 7 => some .ord | _ => none

theorem FCond.ofCode_code (c : FCond) : FCond.ofCode c.code = some c := by cases c <;> rfl

/-- R96. -/
def Combine.code : Combine → Nat
  | .none => 0 | .pand => 1 | .por => 2

/-- The inverse of Combine.code; none for an unassigned code. -/
def Combine.ofCode : Nat → Option Combine
  | 0 => some .none | 1 => some .pand | 2 => some .por | _ => Option.none

theorem Combine.ofCode_code (c : Combine) : Combine.ofCode c.code = some c := by cases c <;> rfl

/-- R145. -/
def Rnd.code : Rnd → Nat
  | .fsr => 0 | .rne => 1 | .rtz => 2 | .rup => 3 | .rdn => 4

/-- The inverse of Rnd.code; none for an unassigned code. -/
def Rnd.ofCode : Nat → Option Rnd
  | 0 => some .fsr | 1 => some .rne | 2 => some .rtz | 3 => some .rup | 4 => some .rdn | _ => none

theorem Rnd.ofCode_code (c : Rnd) : Rnd.ofCode c.code = some c := by cases c <;> rfl

/-- R118. -/
def MsetFn.code : MsetFn → Nat
  | .set => 0 | .add => 1 | .del => 2

/-- The inverse of MsetFn.code; none for an unassigned code. -/
def MsetFn.ofCode : Nat → Option MsetFn
  | 0 => some .set | 1 => some .add | 2 => some .del | _ => none

theorem MsetFn.ofCode_code (c : MsetFn) : MsetFn.ofCode c.code = some c := by cases c <;> rfl

/-- R160. -/
def FsrField.code : FsrField → Nat
  | .both => 0 | .flags => 1 | .rm => 2

/-- The inverse of FsrField.code; none for an unassigned code. -/
def FsrField.ofCode : Nat → Option FsrField
  | 0 => some .both | 1 => some .flags | 2 => some .rm | _ => none

theorem FsrField.ofCode_code (c : FsrField) : FsrField.ofCode c.code = some c := by cases c <;> rfl

/-- R171. -/
def SparseN.code : SparseN → Nat
  | .n8 => 1 | .n16 => 2 | .n32 => 3

/-- The inverse of SparseN.code; none for an unassigned code. -/
def SparseN.ofCode : Nat → Option SparseN
  | 1 => some .n8 | 2 => some .n16 | 3 => some .n32 | _ => none

theorem SparseN.ofCode_code (c : SparseN) : SparseN.ofCode c.code = some c := by cases c <;> rfl

/-- R171. -/
def MPart.code : MPart → Nat
  | .state => 0 | .fmt => 1 | .sa => 2 | .sb => 3

/-- The inverse of MPart.code; none for an unassigned code. -/
def MPart.ofCode : Nat → Option MPart
  | 0 => some .state | 1 => some .fmt | 2 => some .sa | 3 => some .sb | _ => none

theorem MPart.ofCode_code (c : MPart) : MPart.ofCode c.code = some c := by cases c <;> rfl

/-- R199. -/
def VoteFn.code : VoteFn → Nat
  | .ballot => 0 | .all => 1 | .any => 2 | .uni => 3

/-- The inverse of VoteFn.code; none for an unassigned code. -/
def VoteFn.ofCode : Nat → Option VoteFn
  | 0 => some .ballot | 1 => some .all | 2 => some .any | 3 => some .uni | _ => none

theorem VoteFn.ofCode_code (c : VoteFn) : VoteFn.ofCode c.code = some c := by cases c <;> rfl

/-- R200, R386. -/
def RComb.code : RComb → Nat
  | .add => 0 | .min => 1 | .max => 2 | .and => 3 | .or => 4 | .xor => 5

/-- The inverse of RComb.code; none for an unassigned code. -/
def RComb.ofCode : Nat → Option RComb
  | 0 => some .add | 1 => some .min | 2 => some .max | 3 => some .and | 4 => some .or | 5 => some .xor | _ => none

theorem RComb.ofCode_code (c : RComb) : RComb.ofCode c.code = some c := by cases c <;> rfl

/-- R206. -/
def XKind.code : XKind → Nat
  | .gpr => 0 | .pred => 1 | .fsr => 2 | .pc => 3

/-- The inverse of XKind.code; none for an unassigned code. -/
def XKind.ofCode : Nat → Option XKind
  | 0 => some .gpr | 1 => some .pred | 2 => some .fsr | 3 => some .pc | _ => none

theorem XKind.ofCode_code (c : XKind) : XKind.ofCode c.code = some c := by cases c <;> rfl

/-- R215. -/
def FlushFn.code : FlushFn → Nat
  | .writeBack => 0 | .evict => 1 | .l1 => 2

/-- The inverse of FlushFn.code; none for an unassigned code. -/
def FlushFn.ofCode : Nat → Option FlushFn
  | 0 => some .writeBack | 1 => some .evict | 2 => some .l1 | _ => none

theorem FlushFn.ofCode_code (c : FlushFn) : FlushFn.ofCode c.code = some c := by cases c <;> rfl

/-- R249. -/
def FenceKind.code : FenceKind → Nat
  | .full => 0 | .acq => 1 | .rel => 2 | .ww => 3

/-- The inverse of FenceKind.code; none for an unassigned code. -/
def FenceKind.ofCode : Nat → Option FenceKind
  | 0 => some .full | 1 => some .acq | 2 => some .rel | 3 => some .ww | _ => none

theorem FenceKind.ofCode_code (c : FenceKind) : FenceKind.ofCode c.code = some c := by cases c <;> rfl

/-- R249. -/
def Path.code : Path → Nat
  | .thr => 0 | .copy => 1 | .mat => 2 | .pft => 3 | .fab => 4 | .draft => 5

/-- The inverse of Path.code; none for an unassigned code. -/
def Path.ofCode : Nat → Option Path
  | 0 => some .thr | 1 => some .copy | 2 => some .mat | 3 => some .pft | 4 => some .fab | 5 => some .draft | _ => none

theorem Path.ofCode_code (c : Path) : Path.ofCode c.code = some c := by cases c <;> rfl

/-- R282. -/
def AtomFn.code : AtomFn → Nat
  | .add => 0 | .min => 1 | .max => 2 | .and => 3 | .or => 4 | .xor => 5 | .exch => 6

/-- The inverse of AtomFn.code; none for an unassigned code. -/
def AtomFn.ofCode : Nat → Option AtomFn
  | 0 => some .add | 1 => some .min | 2 => some .max | 3 => some .and | 4 => some .or | 5 => some .xor | 6 => some .exch | _ => none

theorem AtomFn.ofCode_code (c : AtomFn) : AtomFn.ofCode c.code = some c := by cases c <;> rfl

/-- R320, R326. -/
def Grade.code : Grade → Nat
  | .absent => 0 | .guess => 1 | .provisional => 2 | .final => 3

/-- The inverse of Grade.code; none for an unassigned code. -/
def Grade.ofCode : Nat → Option Grade
  | 0 => some .absent | 1 => some .guess | 2 => some .provisional | 3 => some .final | _ => none

theorem Grade.ofCode_code (c : Grade) : Grade.ofCode c.code = some c := by cases c <;> rfl

/-- R361. -/
def Level.code : Level → Nat
  | .launch => 0 | .graph => 1 | .phase => 2 | .job => 3

/-- The inverse of Level.code; none for an unassigned code. -/
def Level.ofCode : Nat → Option Level
  | 0 => some .launch | 1 => some .graph | 2 => some .phase | 3 => some .job | _ => none

theorem Level.ofCode_code (c : Level) : Level.ofCode c.code = some c := by cases c <;> rfl

/-- R249: the code of a scope in the SUB field of fence, where 0 is device. -/
def Scope.fenceCode : Scope → Nat
  | .device => 0 | .crew => 1 | .unit => 2 | .isle => 3 | .die => 4 | .system => 5 | .fabric => 6

/-- The inverse of Scope.fenceCode. -/
def Scope.ofFenceCode : Nat → Option Scope
  | 0 => some .device | 1 => some .crew | 2 => some .unit | 3 => some .isle | 4 => some .die | 5 => some .system
  | 6 => some .fabric | _ => none

theorem Scope.ofFenceCode_fenceCode (c : Scope) : Scope.ofFenceCode c.fenceCode = some c := by cases c <;> rfl

/-- R94: the selector of a special register. -/
def SReg.code : SReg → Nat
  | .lane => 0x00 | .crew => 0x01 | .ncrew => 0x02 | .unitx => 0x04 | .unity => 0x05 | .unitz => 0x06 | .gridx => 0x08
  | .gridy => 0x09 | .gridz => 0x0A | .launch => 0x0C | .task => 0x0D | .version => 0x0E | .prio => 0x0F | .tmode => 0x10
  | .core => 0x11 | .isle => 0x12 | .die => 0x13 | .device => 0x14 | .incarnation => 0x15 | .rslot => 0x16
  | .cycle => 0x18 | .cwp n => 0x20 + n.toNat | .lrstat => 0x28

/-- The inverse of SReg.code. -/
def SReg.ofCode : Nat → Option SReg
  | 0x00 => some .lane | 0x01 => some .crew | 0x02 => some .ncrew | 0x04 => some .unitx | 0x05 => some .unity
  | 0x06 => some .unitz | 0x08 => some .gridx | 0x09 => some .gridy | 0x0A => some .gridz | 0x0C => some .launch
  | 0x0D => some .task | 0x0E => some .version | 0x0F => some .prio | 0x10 => some .tmode | 0x11 => some .core
  | 0x12 => some .isle | 0x13 => some .die | 0x14 => some .device | 0x15 => some .incarnation | 0x16 => some .rslot
  | 0x18 => some .cycle | 0x20 => some (.cwp 0) | 0x21 => some (.cwp 1) | 0x22 => some (.cwp 2) | 0x23 => some (.cwp 3)
  | 0x24 => some (.cwp 4) | 0x25 => some (.cwp 5) | 0x26 => some (.cwp 6) | 0x27 => some (.cwp 7) | 0x28 => some .lrstat
  | _ => none

theorem SReg.ofCode_code (r : SReg) : SReg.ofCode r.code = some r := by
  cases r with
  | cwp n => revert n; decide
  | _ => rfl

/-- R171: the kind and slot fields of mstat. -/
def MSlot.code : MSlot → Nat
  | .acc n => n.toNat
  | .bs n => 16 + n.toNat

/-- The inverse of MSlot.code; an accumulator slot has [3:2] = 0. -/
def MSlot.ofCode (c : Nat) : Option MSlot :=
  if c < 4 then some (.acc (BitVec.ofNat 2 c)) else if 16 ≤ c ∧ c < 32 then some (.bs (BitVec.ofNat 4 c)) else none

theorem MSlot.ofCode_code (m : MSlot) : MSlot.ofCode m.code = some m := by
  cases m with
  | acc n => revert n; decide
  | bs n => revert n; decide

/-- R50: the twelve bits of a modifier. -/
def LaneMod.code (m : LaneMod) : Nat := m.cls.code * 1024 + m.seg.code * 128 + m.dist.toNat * 4 + m.num.code

/-- The modifier of twelve bits; none for a reserved segment size. -/
def LaneMod.ofCode (c : Nat) : Option LaneMod := do
  let cls ← ModClass.ofCode (bits c 11 10)
  let seg ← SegSize.ofCode (bits c 9 7)
  let num ← NumMod.ofCode (bits c 1 0)
  some { cls, seg, dist := BitVec.ofNat 5 (bits c 6 2), num }

/-- R54: the twelve bits of the access-control field. -/
def Access.code (a : Access) : Nat :=
  a.ep.toNat * 1024 + boolNat a.na * 512 + boolNat a.l1b * 256 + a.ord.code * 32 + a.scope.code * 4 + a.space.code

/-- The access-control field of twelve bits; none for a reserved ORD, SCOPE or SPACE value. -/
def Access.ofCode (c : Nat) : Option Access := do
  let ord ← Ord.ofCode (bits c 7 5)
  let scope ← Scope.ofCode (bits c 4 2)
  let space ← Space.ofCode (bits c 1 0)
  some { ep := BitVec.ofNat 2 (bits c 11 10), na := bit c 9, l1b := bit c 8, ord, scope, space }

/-! ## Major opcode and SUB field of the extended forms (R58 and the field rows) -/

/-- Major opcode and SUB field of an extended form; (0x7F, 0) for the others. -/
def Instr.opSub : Instr → Nat × Nat
  | .iaddExt _ => (0x00, 0)
  | .isubExt _ => (0x01, 0)
  | .imulExt _ => (0x02, 0)
  | .imulhExt _ => (0x03, 0)
  | .imad _ => (0x04, 0)
  | .idivExt _ => (0x05, 0)
  | .iremExt _ => (0x06, 0)
  | .iminExt _ => (0x07, 0)
  | .imaxExt _ => (0x08, 0)
  | .iabsExt _ => (0x09, 0)
  | .inegExt _ => (0x0A, 0)
  | .andExt _ => (0x0B, 0)
  | .orExt _ => (0x0C, 0)
  | .xorExt _ => (0x0D, 0)
  | .andnExt _ => (0x0E, 0)
  | .notExt _ => (0x0F, 0)
  | .shlExt _ => (0x10, 0)
  | .shrExt _ => (0x11, 0)
  | .sarExt _ => (0x12, 0)
  | .rolExt _ => (0x13, 0)
  | .bfe _ => (0x14, 0)
  | .bfi _ => (0x15, 0)
  | .popcExt _ => (0x16, 0)
  | .clz _ => (0x16, 0x10)
  | .brev _ => (0x16, 0x20)
  | .lea shift zx _ => (0x18, boolNat zx * 8 + shift.toNat)
  | .icmp cond comb _ => (0x19, comb.code * 16 + cond.code)
  | .pset all _ => (0x1A, boolNat all)
  | .plop lut _ => (0x1B, lut.toNat)
  | .sel _ => (0x1C, 0)
  | .movExt _ => (0x1D, 0)
  | .sreg r _ => (0x1E, r.code)
  | .cvti src elem _ => (0x1F, elem.toNat * 16 + src.code % 16)
  | .brExt _ => (0x20, 0)
  | .brx bound _ => (0x21, bound.toNat)
  | .callExt _ => (0x22, 0)
  | .callx _ => (0x23, 0)
  | .retExt _ => (0x24, 0)
  | .exitExt _ => (0x25, 0)
  | .mset fn _ => (0x26, fn.code)
  | .mjoin _ => (0x27, 0)
  | .mbar _ => (0x28, 0)
  | .mop lut _ => (0x29, lut.toNat)
  | .yieldExt _ => (0x2A, 0)
  | .nopExt _ => (0x2B, 0)
  | .brk code _ => (0x2B, 0x10 + code.toNat)
  | .fwaitExt _ => (0x2C, 0)
  | .ftest _ => (0x2D, 0)
  | .fcancel _ => (0x2E, 0)
  | .fmov _ => (0x2F, 0)
  | .faddExt rnd _ => (0x30, rnd.code)
  | .fsubExt rnd _ => (0x31, rnd.code)
  | .fmulExt rnd _ => (0x32, rnd.code)
  | .ffma rnd _ => (0x33, rnd.code)
  | .fminExt _ => (0x34, 0)
  | .fmaxExt _ => (0x35, 0)
  | .fcmp cond comb _ => (0x36, comb.code * 16 + cond.code)
  | .fsel cond _ => (0x37, cond.code)
  | .frcp _ => (0x38, 0)
  | .frsq _ => (0x39, 0)
  | .fsqrt rnd _ => (0x3A, rnd.code)
  | .fexp2 _ => (0x3B, 0)
  | .flog2 _ => (0x3B, 0x10)
  | .ftanh _ => (0x3B, 0x20)
  | .fclass _ => (0x3C, 0)
  | .cvtf src rnd _ => (0x3D, src.code * 8 + rnd.code)
  | .fpackHdr _ => (0x3E, 1)
  | .fpack _ => (0x3E, 0)
  | .funpack hi _ => (0x3E, 0x10 + boolNat hi)
  | .fsrr clr _ => (0x3F, boolNat clr)
  | .fsrw field _ => (0x3F, 0x10 + field.code)
  | .mma solo _ => (0x40, boolNat solo)
  | .mmasp n solo _ => (0x41, n.code * 2 + boolNat solo)
  | .bload _ => (0x42, 0)
  | .mdrain _ => (0x43, 0)
  | .mzero slot _ => (0x44, slot.toNat)
  | .mstat slot part _ => (0x45, part.code * 32 + slot.code)
  | .vote fn _ => (0x48, fn.code)
  | .cred comb rnd _ => (0x49, rnd.code * 16 + comb.code)
  | .cscan comb rnd excl _ => (0x4A, boolNat excl * 128 + rnd.code * 16 + comb.code)
  | .cperm wrap _ => (0x4B, boolNat wrap)
  | .sample _ => (0x4C, 0)
  | .xget kind fe _ => (0x4D, boolNat fe * 4 + kind.code)
  | .xput kind _ => (0x4E, kind.code)
  | .ldExt sx _ _ => (0x50, boolNat sx)
  | .stExt _ _ => (0x51, 0)
  | .ldnc sx _ _ => (0x52, boolNat sx)
  | .stnc _ _ => (0x53, 0)
  | .pf _ _ => (0x54, 0)
  | .pft _ _ => (0x55, 0)
  | .cflush fn _ _ => (0x56, fn.code)
  | .copy ch _ => (0x57, ch.toNat)
  | .bbwait _ => (0x58, 0)
  | .bgive _ => (0x59, 0)
  | .btake wait _ => (0x5A, boolNat wait)
  | .binfo _ => (0x5B, 0)
  | .fenceExt kind scope _ => (0x60, kind.code * 64 + scope.fenceCode * 8)
  | .pfence src dst _ => (0x61, dst.code * 16 + src.code)
  | .ifence _ => (0x62, 0)
  | .atom fn _ _ => (0x68, fn.code)
  | .ared fn _ _ => (0x69, fn.code)
  | .acas nf _ _ => (0x6A, boolNat nf)
  | .lrdef _ => (0x6B, 0)
  | .lrun n _ _ => (0x6C, n.toNat)
  | .lrdrop _ => (0x6D, 0)
  | .waitv timed _ _ => (0x6E, boolNat timed)
  | .wakev _ => (0x6F, 0)
  | .tspawn _ => (0x70, 0)
  | .tcommit _ => (0x71, 0)
  | .trigger _ => (0x71, 0x10)
  | .tabort endUnit _ => (0x71, 0x20 + boolNat endUnit)
  | .tseal _ => (0x71, 0x30)
  | .tstat _ => (0x72, 0)
  | .gread peek _ => (0x73, boolNat peek)
  | .gpub grade same _ => (0x74, boolNat same * 4 + grade.code)
  | .gwait grade chg _ => (0x75, boolNat chg * 4 + grade.code)
  | .launch _ => (0x76, 0)
  | .wfetch _ => (0x77, 0)
  | .cancel level _ => (0x77, 0x10 + level.code)
  | .ccount level _ => (0x77, 0x20 + level.code)
  | .progress _ => (0x77, 0x30)
  | .budget _ => (0x77, 0x40)
  | .rld _ _ => (0x78, 0)
  | .rld3 _ _ => (0x78, 0x10)
  | .rst _ _ => (0x79, 0)
  | .mcst _ _ => (0x79, 0x10)
  | .ratom fn nf _ _ => (0x7A, boolNat nf * 16 + fn.code)
  | .rfence dev _ => (0x7B, boolNat dev)
  | .lwin _ => (0x7B, 0x10)
  | .lwinClose _ => (0x7B, 0x11)
  | .trap _ => (0x7C, 0)
  | .resume _ => (0x7C, 0x10)
  | .hret _ => (0x7C, 0x20)
  | .shoot _ => (0x7D, 0)
  | .shootsync _ => (0x7D, 0x10)
  | .pinset _ => (0x7D, 0x20)
  | .pincap _ => (0x7D, 0x30)
  | .ctxsave _ => (0x7D, 0x40)
  | .ctxload _ => (0x7D, 0x50)
  | .sysrd _ => (0x7D, 0x60)
  | .syswr _ => (0x7D, 0x70)
  | .dprop maxCode _ => (0x7E, maxCode.toNat)
  | .dapp _ => (0x7E, 0x10)
  | .dclr _ => (0x7E, 0x20)
  | .rpub _ => (0x7E, 0x30)
  | _ => (0x7F, 0)

/-- The operand fields and the access-control field of an extended form. -/
def Instr.extForm : Instr → Option (Form × Option Access)
  | .iaddExt x => some (x, none)
  | .isubExt x => some (x, none)
  | .imulExt x => some (x, none)
  | .imulhExt x => some (x, none)
  | .imad x => some (x, none)
  | .idivExt x => some (x, none)
  | .iremExt x => some (x, none)
  | .iminExt x => some (x, none)
  | .imaxExt x => some (x, none)
  | .iabsExt x => some (x, none)
  | .inegExt x => some (x, none)
  | .andExt x => some (x, none)
  | .orExt x => some (x, none)
  | .xorExt x => some (x, none)
  | .andnExt x => some (x, none)
  | .notExt x => some (x, none)
  | .shlExt x => some (x, none)
  | .shrExt x => some (x, none)
  | .sarExt x => some (x, none)
  | .rolExt x => some (x, none)
  | .bfe x => some (x, none)
  | .bfi x => some (x, none)
  | .popcExt x => some (x, none)
  | .clz x => some (x, none)
  | .brev x => some (x, none)
  | .lea _ _ x => some (x, none)
  | .icmp _ _ x => some (x, none)
  | .pset _ x => some (x, none)
  | .plop _ x => some (x, none)
  | .sel x => some (x, none)
  | .movExt x => some (x, none)
  | .sreg _ x => some (x, none)
  | .cvti _ _ x => some (x, none)
  | .brExt x => some (x, none)
  | .brx _ x => some (x, none)
  | .callExt x => some (x, none)
  | .callx x => some (x, none)
  | .retExt x => some (x, none)
  | .exitExt x => some (x, none)
  | .mset _ x => some (x, none)
  | .mjoin x => some (x, none)
  | .mbar x => some (x, none)
  | .mop _ x => some (x, none)
  | .yieldExt x => some (x, none)
  | .nopExt x => some (x, none)
  | .brk _ x => some (x, none)
  | .fwaitExt x => some (x, none)
  | .ftest x => some (x, none)
  | .fcancel x => some (x, none)
  | .fmov x => some (x, none)
  | .faddExt _ x => some (x, none)
  | .fsubExt _ x => some (x, none)
  | .fmulExt _ x => some (x, none)
  | .ffma _ x => some (x, none)
  | .fminExt x => some (x, none)
  | .fmaxExt x => some (x, none)
  | .fcmp _ _ x => some (x, none)
  | .fsel _ x => some (x, none)
  | .frcp x => some (x, none)
  | .frsq x => some (x, none)
  | .fsqrt _ x => some (x, none)
  | .fexp2 x => some (x, none)
  | .flog2 x => some (x, none)
  | .ftanh x => some (x, none)
  | .fclass x => some (x, none)
  | .cvtf _ _ x => some (x, none)
  | .fpackHdr x => some (x, none)
  | .fpack x => some (x, none)
  | .funpack _ x => some (x, none)
  | .fsrr _ x => some (x, none)
  | .fsrw _ x => some (x, none)
  | .mma _ x => some (x, none)
  | .mmasp _ _ x => some (x, none)
  | .bload x => some (x, none)
  | .mdrain x => some (x, none)
  | .mzero _ x => some (x, none)
  | .mstat _ _ x => some (x, none)
  | .vote _ x => some (x, none)
  | .cred _ _ x => some (x, none)
  | .cscan _ _ _ x => some (x, none)
  | .cperm _ x => some (x, none)
  | .sample x => some (x, none)
  | .xget _ _ x => some (x, none)
  | .xput _ x => some (x, none)
  | .ldExt _ ac x => some (x, some ac)
  | .stExt ac x => some (x, some ac)
  | .ldnc _ ac x => some (x, some ac)
  | .stnc ac x => some (x, some ac)
  | .pf ac x => some (x, some ac)
  | .pft ac x => some (x, some ac)
  | .cflush _ ac x => some (x, some ac)
  | .copy _ x => some (x, none)
  | .bbwait x => some (x, none)
  | .bgive x => some (x, none)
  | .btake _ x => some (x, none)
  | .binfo x => some (x, none)
  | .fenceExt _ _ x => some (x, none)
  | .pfence _ _ x => some (x, none)
  | .ifence x => some (x, none)
  | .atom _ ac x => some (x, some ac)
  | .ared _ ac x => some (x, some ac)
  | .acas _ ac x => some (x, some ac)
  | .lrdef x => some (x, none)
  | .lrun _ ac x => some (x, some ac)
  | .lrdrop x => some (x, none)
  | .waitv _ ac x => some (x, some ac)
  | .wakev x => some (x, none)
  | .tspawn x => some (x, none)
  | .tcommit x => some (x, none)
  | .trigger x => some (x, none)
  | .tabort _ x => some (x, none)
  | .tseal x => some (x, none)
  | .tstat x => some (x, none)
  | .gread _ x => some (x, none)
  | .gpub _ _ x => some (x, none)
  | .gwait _ _ x => some (x, none)
  | .launch x => some (x, none)
  | .wfetch x => some (x, none)
  | .cancel _ x => some (x, none)
  | .ccount _ x => some (x, none)
  | .progress x => some (x, none)
  | .budget x => some (x, none)
  | .rld ac x => some (x, some ac)
  | .rld3 ac x => some (x, some ac)
  | .rst ac x => some (x, some ac)
  | .mcst ac x => some (x, some ac)
  | .ratom _ _ ac x => some (x, some ac)
  | .rfence _ x => some (x, none)
  | .lwin x => some (x, none)
  | .lwinClose x => some (x, none)
  | .trap x => some (x, none)
  | .resume x => some (x, none)
  | .hret x => some (x, none)
  | .shoot x => some (x, none)
  | .shootsync x => some (x, none)
  | .pinset x => some (x, none)
  | .pincap x => some (x, none)
  | .ctxsave x => some (x, none)
  | .ctxload x => some (x, none)
  | .sysrd x => some (x, none)
  | .syswr x => some (x, none)
  | .dprop _ x => some (x, none)
  | .dapp x => some (x, none)
  | .dclr x => some (x, none)
  | .rpub x => some (x, none)
  | _ => none

/-- R58: the majors marked AC. -/
def acMajor (op : Nat) : Bool := [0x50, 0x51, 0x52, 0x53, 0x54, 0x55, 0x56, 0x68, 0x69, 0x6A, 0x6C, 0x6E, 0x78, 0x79, 0x7A].contains op

/-- R58: the unassigned majors. -/
def unassignedMajor (op : Nat) : Bool :=
  [0x17, 0x46, 0x47, 0x4F, 0x5C, 0x5D, 0x5E, 0x5F, 0x63, 0x64, 0x65, 0x66, 0x67].contains op

/-- The extended instruction of a major and its SUB field; none where the SUB value or the major is unassigned. -/
def Instr.ofOpSub (op sub : Nat) (x : Form) (ac : Access) : Option Instr :=
  match op with
  | 0x00 => if sub = 0 then some (.iaddExt x) else none
  | 0x01 => if sub = 0 then some (.isubExt x) else none
  | 0x02 => if sub = 0 then some (.imulExt x) else none
  | 0x03 => if sub = 0 then some (.imulhExt x) else none
  | 0x04 => if sub = 0 then some (.imad x) else none
  | 0x05 => if sub = 0 then some (.idivExt x) else none
  | 0x06 => if sub = 0 then some (.iremExt x) else none
  | 0x07 => if sub = 0 then some (.iminExt x) else none
  | 0x08 => if sub = 0 then some (.imaxExt x) else none
  | 0x09 => if sub = 0 then some (.iabsExt x) else none
  | 0x0A => if sub = 0 then some (.inegExt x) else none
  | 0x0B => if sub = 0 then some (.andExt x) else none
  | 0x0C => if sub = 0 then some (.orExt x) else none
  | 0x0D => if sub = 0 then some (.xorExt x) else none
  | 0x0E => if sub = 0 then some (.andnExt x) else none
  | 0x0F => if sub = 0 then some (.notExt x) else none
  | 0x10 => if sub = 0 then some (.shlExt x) else none
  | 0x11 => if sub = 0 then some (.shrExt x) else none
  | 0x12 => if sub = 0 then some (.sarExt x) else none
  | 0x13 => if sub = 0 then some (.rolExt x) else none
  | 0x14 => if sub = 0 then some (.bfe x) else none
  | 0x15 => if sub = 0 then some (.bfi x) else none
  | 0x16 => match sub with | 0x00 => some (.popcExt x) | 0x10 => some (.clz x) | 0x20 => some (.brev x) | _ => none
  | 0x18 => if sub < 16 then some (.lea (BitVec.ofNat 3 sub) (bit sub 3) x) else none
  | 0x19 => do some (.icmp (← ICond.ofCode (sub % 16)) (← Combine.ofCode (sub / 16)) x)
  | 0x1A => if sub < 2 then some (.pset (bit sub 0) x) else none
  | 0x1B => some (.plop (BitVec.ofNat 8 sub) x)
  | 0x1C => if sub = 0 then some (.sel x) else none
  | 0x1D => if sub = 0 then some (.movExt x) else none
  | 0x1E => (SReg.ofCode sub).map (.sreg · x)
  | 0x1F => if sub < 64 ∧ sub % 16 < 8 then (Ty.ofCode (sub % 16)).map (.cvti · (BitVec.ofNat 2 (sub / 16)) x) else none
  | 0x20 => if sub = 0 then some (.brExt x) else none
  | 0x21 => some (.brx (BitVec.ofNat 8 sub) x)
  | 0x22 => if sub = 0 then some (.callExt x) else none
  | 0x23 => if sub = 0 then some (.callx x) else none
  | 0x24 => if sub = 0 then some (.retExt x) else none
  | 0x25 => if sub = 0 then some (.exitExt x) else none
  | 0x26 => (MsetFn.ofCode sub).map (.mset · x)
  | 0x27 => if sub = 0 then some (.mjoin x) else none
  | 0x28 => if sub = 0 then some (.mbar x) else none
  | 0x29 => if sub < 16 then some (.mop (BitVec.ofNat 4 sub) x) else none
  | 0x2A => if sub = 0 then some (.yieldExt x) else none
  | 0x2B => if sub = 0 then some (.nopExt x) else if sub / 16 = 1 then some (.brk (BitVec.ofNat 4 sub) x) else none
  | 0x2C => if sub = 0 then some (.fwaitExt x) else none
  | 0x2D => if sub = 0 then some (.ftest x) else none
  | 0x2E => if sub = 0 then some (.fcancel x) else none
  | 0x2F => if sub = 0 then some (.fmov x) else none
  | 0x30 => (Rnd.ofCode sub).map (.faddExt · x)
  | 0x31 => (Rnd.ofCode sub).map (.fsubExt · x)
  | 0x32 => (Rnd.ofCode sub).map (.fmulExt · x)
  | 0x33 => (Rnd.ofCode sub).map (.ffma · x)
  | 0x34 => if sub = 0 then some (.fminExt x) else none
  | 0x35 => if sub = 0 then some (.fmaxExt x) else none
  | 0x36 => do some (.fcmp (← FCond.ofCode (sub % 16)) (← Combine.ofCode (sub / 16)) x)
  | 0x37 => (ICond.ofCode sub).map (.fsel · x)
  | 0x38 => if sub = 0 then some (.frcp x) else none
  | 0x39 => if sub = 0 then some (.frsq x) else none
  | 0x3A => (Rnd.ofCode sub).map (.fsqrt · x)
  | 0x3B => match sub with | 0x00 => some (.fexp2 x) | 0x10 => some (.flog2 x) | 0x20 => some (.ftanh x) | _ => none
  | 0x3C => if sub = 0 then some (.fclass x) else none
  | 0x3D => do some (.cvtf (← Ty.ofCode (sub / 8)) (← Rnd.ofCode (sub % 8)) x)
  | 0x3E => match sub with | 0x00 => some (.fpack x) | 0x01 => some (.fpackHdr x) | 0x10 => some (.funpack false x) | 0x11 => some (.funpack true x) | _ => none
  | 0x3F => if sub < 2 then some (.fsrr (bit sub 0) x) else if sub / 16 = 1 then (FsrField.ofCode (sub % 16)).map (.fsrw · x) else none
  | 0x40 => if sub < 2 then some (.mma (bit sub 0) x) else none
  | 0x41 => (SparseN.ofCode (sub / 2)).map (.mmasp · (bit sub 0) x)
  | 0x42 => if sub = 0 then some (.bload x) else none
  | 0x43 => if sub = 0 then some (.mdrain x) else none
  | 0x44 => if sub < 4 then some (.mzero (BitVec.ofNat 2 sub) x) else none
  | 0x45 => do some (.mstat (← MSlot.ofCode (sub % 32)) (← MPart.ofCode (sub / 32)) x)
  | 0x48 => (VoteFn.ofCode sub).map (.vote · x)
  | 0x49 => do some (.cred (← RComb.ofCode (sub % 16)) (← Rnd.ofCode (sub / 16)) x)
  | 0x4A => do some (.cscan (← RComb.ofCode (sub % 16)) (← Rnd.ofCode (sub / 16 % 8)) (bit sub 7) x)
  | 0x4B => if sub < 2 then some (.cperm (bit sub 0) x) else none
  | 0x4C => if sub = 0 then some (.sample x) else none
  | 0x4D => if sub < 8 then (XKind.ofCode (sub % 4)).map (.xget · (bit sub 2) x) else none
  | 0x4E => (XKind.ofCode sub).map (.xput · x)
  | 0x50 => if sub < 2 then some (.ldExt (bit sub 0) ac x) else none
  | 0x51 => if sub = 0 then some (.stExt ac x) else none
  | 0x52 => if sub < 2 then some (.ldnc (bit sub 0) ac x) else none
  | 0x53 => if sub = 0 then some (.stnc ac x) else none
  | 0x54 => if sub = 0 then some (.pf ac x) else none
  | 0x55 => if sub = 0 then some (.pft ac x) else none
  | 0x56 => (FlushFn.ofCode sub).map (.cflush · ac x)
  | 0x57 => if sub < 8 then some (.copy (BitVec.ofNat 3 sub) x) else none
  | 0x58 => if sub = 0 then some (.bbwait x) else none
  | 0x59 => if sub = 0 then some (.bgive x) else none
  | 0x5A => if sub < 2 then some (.btake (bit sub 0) x) else none
  | 0x5B => if sub = 0 then some (.binfo x) else none
  | 0x60 => if sub % 8 = 0 then do some (.fenceExt (← FenceKind.ofCode (sub / 64)) (← Scope.ofFenceCode (sub / 8 % 8)) x) else none
  | 0x61 => do some (.pfence (← Path.ofCode (sub % 16)) (← Path.ofCode (sub / 16)) x)
  | 0x62 => if sub = 0 then some (.ifence x) else none
  | 0x68 => (AtomFn.ofCode sub).map (.atom · ac x)
  | 0x69 => (AtomFn.ofCode sub).map (.ared · ac x)
  | 0x6A => if sub < 2 then some (.acas (bit sub 0) ac x) else none
  | 0x6B => if sub = 0 then some (.lrdef x) else none
  | 0x6C => if sub < 64 then some (.lrun (BitVec.ofNat 6 sub) ac x) else none
  | 0x6D => if sub = 0 then some (.lrdrop x) else none
  | 0x6E => if sub < 2 then some (.waitv (bit sub 0) ac x) else none
  | 0x6F => if sub = 0 then some (.wakev x) else none
  | 0x70 => if sub = 0 then some (.tspawn x) else none
  | 0x71 => match sub with | 0x00 => some (.tcommit x) | 0x10 => some (.trigger x) | 0x20 => some (.tabort false x) | 0x21 => some (.tabort true x) | 0x30 => some (.tseal x) | _ => none
  | 0x72 => if sub = 0 then some (.tstat x) else none
  | 0x73 => if sub < 2 then some (.gread (bit sub 0) x) else none
  | 0x74 => if sub < 8 then (Grade.ofCode (sub % 4)).map (.gpub · (bit sub 2) x) else none
  | 0x75 => if sub < 8 then (Grade.ofCode (sub % 4)).map (.gwait · (bit sub 2) x) else none
  | 0x76 => if sub = 0 then some (.launch x) else none
  | 0x77 => if sub = 0x00 then some (.wfetch x) else if sub / 16 = 1 then (Level.ofCode (sub % 16)).map (.cancel · x) else if sub / 16 = 2 then (Level.ofCode (sub % 16)).map (.ccount · x) else if sub = 0x30 then some (.progress x) else if sub = 0x40 then some (.budget x) else none
  | 0x78 => match sub with | 0x00 => some (.rld ac x) | 0x10 => some (.rld3 ac x) | _ => none
  | 0x79 => match sub with | 0x00 => some (.rst ac x) | 0x10 => some (.mcst ac x) | _ => none
  | 0x7A => if sub < 32 then (RComb.ofCode (sub % 16)).map (.ratom · (bit sub 4) ac x) else none
  | 0x7B => match sub with | 0x00 => some (.rfence false x) | 0x01 => some (.rfence true x) | 0x10 => some (.lwin x) | 0x11 => some (.lwinClose x) | _ => none
  | 0x7C => match sub with | 0x00 => some (.trap x) | 0x10 => some (.resume x) | 0x20 => some (.hret x) | _ => none
  | 0x7D => match sub with | 0x00 => some (.shoot x) | 0x10 => some (.shootsync x) | 0x20 => some (.pinset x) | 0x30 => some (.pincap x) | 0x40 => some (.ctxsave x) | 0x50 => some (.ctxload x) | 0x60 => some (.sysrd x) | 0x70 => some (.syswr x) | _ => none
  | 0x7E => if sub < 16 then some (.dprop (BitVec.ofNat 4 sub) x) else match sub with | 0x10 => some (.dapp x) | 0x20 => some (.dclr x) | 0x30 => some (.rpub x) | _ => none
  | _ => none

/-! ## Base words (R36, R37) -/

/-- Major opcode and fields of a base word with register fields. -/
def Instr.baseForm : Instr → Option (Nat × BaseForm)
  | .iaddBase x => some (0x00, x)
  | .isubBase x => some (0x01, x)
  | .imulBase x => some (0x02, x)
  | .imulhBase x => some (0x03, x)
  | .idivBase x => some (0x05, x)
  | .iremBase x => some (0x06, x)
  | .iminBase x => some (0x07, x)
  | .imaxBase x => some (0x08, x)
  | .iabsBase x => some (0x09, x)
  | .inegBase x => some (0x0A, x)
  | .andBase x => some (0x0B, x)
  | .orBase x => some (0x0C, x)
  | .xorBase x => some (0x0D, x)
  | .andnBase x => some (0x0E, x)
  | .notBase x => some (0x0F, x)
  | .shlBase x => some (0x10, x)
  | .shrBase x => some (0x11, x)
  | .sarBase x => some (0x12, x)
  | .rolBase x => some (0x13, x)
  | .popcBase x => some (0x16, x)
  | .movBase x => some (0x1D, x)
  | .exitBase x => some (0x25, x)
  | .fwaitBase x => some (0x2C, x)
  | .faddBase x => some (0x30, x)
  | .fsubBase x => some (0x31, x)
  | .fmulBase x => some (0x32, x)
  | .fminBase x => some (0x34, x)
  | .fmaxBase x => some (0x35, x)
  | .ldBase x => some (0x50, x)
  | .stBase x => some (0x51, x)
  | _ => none

/-- The base instruction with register fields of a major. -/
def Instr.ofBase (op : Nat) (x : BaseForm) : Option Instr :=
  match op with
  | 0x00 => some (.iaddBase x)
  | 0x01 => some (.isubBase x)
  | 0x02 => some (.imulBase x)
  | 0x03 => some (.imulhBase x)
  | 0x05 => some (.idivBase x)
  | 0x06 => some (.iremBase x)
  | 0x07 => some (.iminBase x)
  | 0x08 => some (.imaxBase x)
  | 0x09 => some (.iabsBase x)
  | 0x0A => some (.inegBase x)
  | 0x0B => some (.andBase x)
  | 0x0C => some (.orBase x)
  | 0x0D => some (.xorBase x)
  | 0x0E => some (.andnBase x)
  | 0x0F => some (.notBase x)
  | 0x10 => some (.shlBase x)
  | 0x11 => some (.shrBase x)
  | 0x12 => some (.sarBase x)
  | 0x13 => some (.rolBase x)
  | 0x16 => some (.popcBase x)
  | 0x1D => some (.movBase x)
  | 0x25 => some (.exitBase x)
  | 0x2C => some (.fwaitBase x)
  | 0x30 => some (.faddBase x)
  | 0x31 => some (.fsubBase x)
  | 0x32 => some (.fmulBase x)
  | 0x34 => some (.fminBase x)
  | 0x35 => some (.fmaxBase x)
  | 0x50 => some (.ldBase x)
  | 0x51 => some (.stBase x)
  | _ => none

/-- Major opcode, U and bits [21:0] of the base words whose fields are not registers (R37). -/
def Instr.bareBase : Instr → Option (Nat × Bool × Nat)
  | .brBase u off => some (0x20, u, off.toNat)
  | .callBase u off => some (0x22, u, off.toNat)
  | .retBase u => some (0x24, u, 0)
  | .yieldBase u => some (0x2A, u, 0)
  | .nopBase u => some (0x2B, u, 0)
  | .fenceBase u => some (0x60, u, 0)
  | _ => none

/-- The base instruction without register fields; some none where unused bits are not zero. -/
def Instr.ofBareBase (op : Nat) (u : Bool) (low : Nat) : Option (Option Instr) :=
  match op with
  | 0x20 => some (some (.brBase u (BitVec.ofNat 22 low)))
  | 0x22 => some (some (.callBase u (BitVec.ofNat 22 low)))
  | 0x24 => some (if low = 0 then some (.retBase u) else none)
  | 0x2A => some (if low = 0 then some (.yieldBase u) else none)
  | 0x2B => some (if low = 0 then some (.nopBase u) else none)
  | 0x60 => some (if low = 0 then some (.fenceBase u) else none)
  | _ => none

/-! ## Fields of the words -/

/-- The fields of the extended form as numbers (R39), with the literal if there is one. -/
structure ExtFields where
  u : Bool
  op : Nat
  sub : Nat
  d : Nat
  s : Bool
  w : Nat
  a : Nat
  b : Nat
  c : Nat
  guard : Nat
  gn : Bool
  modA : Nat
  modB : Nat
  feA : Bool
  feB : Bool
  feC : Bool
  msk : Nat
  rsv : Bool
  lit : Option DWord
  deriving DecidableEq, Repr

/-- R39: the fields of W0, W1 and W2. -/
def ExtFields.ofWords (w0 w1 w2 : Nat) (lit : Option DWord) : ExtFields :=
  { u := bit w0 29, op := bits w0 28 22, sub := bits w0 21 14, d := bits w0 13 6, s := bit w0 5, w := bits w0 4 0,
    a := bits w1 31 24, b := bits w1 23 16, c := bits w1 15 8, guard := bits w1 7 1, gn := bit w1 0,
    modA := bits w2 31 20, modB := bits w2 19 8, feA := bit w2 7, feB := bit w2 6, feC := bit w2 5,
    msk := bits w2 4 1, rsv := bit w2 0, lit }

/-- R39: W0 of the fields. -/
def ExtFields.w0 (f : ExtFields) : Nat :=
  (if f.lit.isSome then 3 else 1) * 2 ^ 30 + boolNat f.u * 2 ^ 29 + f.op * 2 ^ 22 + f.sub * 2 ^ 14 + f.d * 2 ^ 6 +
    boolNat f.s * 2 ^ 5 + f.w

/-- R39: W1 of the fields. -/
def ExtFields.w1 (f : ExtFields) : Nat :=
  f.a * 2 ^ 24 + f.b * 2 ^ 16 + f.c * 2 ^ 8 + f.guard * 2 + boolNat f.gn

/-- R39: W2 of the fields. -/
def ExtFields.w2 (f : ExtFields) : Nat :=
  f.modA * 2 ^ 20 + f.modB * 2 ^ 8 + boolNat f.feA * 2 ^ 7 + boolNat f.feB * 2 ^ 6 + boolNat f.feC * 2 ^ 5 +
    f.msk * 2 + boolNat f.rsv

/-- R33: the two literal words, low first. -/
def litWords (v : DWord) : List Nat := [v.toNat % 2 ^ 32, v.toNat / 2 ^ 32]

/-- The literal of its two words. -/
def litOfWords (lo hi : Nat) : DWord := BitVec.ofNat 64 (hi * 2 ^ 32 + lo)

/-! ## Decoding -/

/-- Why words are not decoded: too few of them, or a condition of R59. -/
inductive DecodeError where
  | tooShort
  | illegal (why : Illegal)
  deriving DecidableEq, Repr

/-- R33: the number of words of an instruction, from the LEN field of its first word. -/
def wordCount (w0 : Nat) : Nat :=
  match bits w0 31 30 with
  | 0 => 1
  | 1 => 3
  | 2 => 3
  | _ => 5

/-- The instruction as decoded, if it meets no condition of R59. -/
def checked (i : Instr) : Except DecodeError Instr :=
  match i.illegal with
  | none => .ok i
  | some why => .error (.illegal why)

/-- R36, R37, R43: a base word, with its literal if there is one. -/
def decodeBase (w0 : Nat) (lit : Option DWord) : Except DecodeError Instr :=
  let op := bits w0 28 22
  let u := bit w0 29
  match Instr.ofBareBase op u (bits w0 21 0) with
  | some r =>
    match lit, r with
    | some _, _ => .error (.illegal .literal)
    | none, some i => checked i
    | none, none => .error (.illegal .nonzeroUnused)
  | none =>
    let b : Option BaseB :=
      match lit with
      | some v => if bits w0 7 0 = 0 then some (.lit v) else none
      | none => some (if bit w0 0 then .imm (BitVec.ofNat 7 (bits w0 7 1)) else .reg (BitVec.ofNat 7 (bits w0 7 1)))
    match b with
    | none => .error (.illegal .literal)
    | some b =>
      match Instr.ofBase op { u, d := BitVec.ofNat 7 (bits w0 21 15), a := BitVec.ofNat 7 (bits w0 14 8), b } with
      | some i => checked i
      | none => .error (.illegal (if op = 0x7F then .permanent else if unassignedMajor op then .unassignedMajor else .noBaseForm))

/-- R39 to R57: an extended instruction from its fields. -/
def decodeExt (f : ExtFields) : Except DecodeError Instr :=
  if f.rsv then .error (.illegal .nonzeroUnused)
  else if f.op = 0x7F then .error (.illegal .permanent)
  else if unassignedMajor f.op then .error (.illegal .unassignedMajor)
  else if f.lit.isSome && f.b != 0 then .error (.illegal .literal)
  else
    match Ty.ofCode f.w, LaneMod.ofCode f.modA,
        (if acMajor f.op then (Access.ofCode f.modB).map (LaneMod.zero, ·) else (LaneMod.ofCode f.modB).map (·, Access.base)) with
    | none, _, _ => .error (.illegal .typeCode)
    | some _, none, _ => .error (.illegal .modifierField)
    | some _, some _, none => .error (.illegal .modifierField)
    | some ty, some modA, some (modB, ac) =>
      let x : Form := { u := f.u, ty, sat := f.s, d := BitVec.ofNat 8 f.d, a := BitVec.ofNat 8 f.a,
                        b := match f.lit with
                          | some v => .lit v
                          | none => .reg (BitVec.ofNat 8 f.b),
                        c := BitVec.ofNat 8 f.c, guard := BitVec.ofNat 7 f.guard, gn := f.gn, modA, modB,
                        feA := f.feA, feB := f.feB, feC := f.feC, msk := BitVec.ofNat 4 f.msk }
      match Instr.ofOpSub f.op f.sub x ac with
      | some i => checked i
      | none => .error (.illegal .unassignedSub)

/-- R33: the instruction at the front of a list of words, and the words after it. -/
def decodeWords (ws : List Nat) : Except DecodeError (Instr × List Nat) :=
  match ws with
  | [] => .error .tooShort
  | w0 :: rest =>
    match bits w0 31 30, rest with
    | 0, _ => (decodeBase w0 none).map (·, rest)
    | 1, w1 :: w2 :: rest => (decodeExt (.ofWords w0 w1 w2 none)).map (·, rest)
    | 2, lo :: hi :: rest => (decodeBase w0 (some (litOfWords lo hi))).map (·, rest)
    | 3, w1 :: w2 :: lo :: hi :: rest => (decodeExt (.ofWords w0 w1 w2 (some (litOfWords lo hi)))).map (·, rest)
    | _, _ => .error .tooShort

/-- A little-endian number of bytes (R3). -/
def leNat : List Byte → Nat
  | [] => 0
  | b :: bs => b.toNat + 256 * leNat bs

/-- The words of a list of bytes, each little-endian; bytes after the last whole word are dropped. -/
def wordsOfBytes : List Byte → List Nat
  | b0 :: b1 :: b2 :: b3 :: bs => leNat [b0, b1, b2, b3] :: wordsOfBytes bs
  | _ => []

/-- The instruction at the front of a list of bytes, and its length in bytes. -/
def decodeBytes (bs : List Byte) : Except DecodeError (Instr × Nat) :=
  match wordsOfBytes bs with
  | [] => .error .tooShort
  | w0 :: ws => (decodeWords (w0 :: ws)).map (fun r => (r.1, 4 * wordCount w0))

/-- n bytes of a number, little-endian. -/
def leBytes : Nat → Nat → List Byte
  | 0, _ => []
  | n + 1, x => BitVec.ofNat 8 (x % 256) :: leBytes n (x / 256)

/-- The bytes of an instruction given as the opcode table numbers its bits: the bits above nbits are zero, and the longest
instruction has twenty bytes. -/
def tableBytes (nbits w : Nat) : List Byte := leBytes 20 (w % 2 ^ nbits)

/-- The instruction that the decoder reads from bits numbered as the opcode table numbers them. -/
def decodeTableWord (nbits w : Nat) : Option Instr :=
  match decodeBytes (tableBytes nbits w) with
  | .ok (i, _) => some i
  | .error _ => none

/-! ## Encoding -/

/-- The source B field and the literal of an extended form. -/
def SrcB.field : SrcB → Nat × Option DWord
  | .reg n => (n.toNat, none)
  | .lit v => (0, some v)

/-- The fields of an extended form. -/
def Form.fields (x : Form) (op sub : Nat) (ac : Option Access) : ExtFields :=
  { u := x.u, op, sub, d := x.d.toNat, s := x.sat, w := x.ty.code, a := x.a.toNat, b := x.b.field.1, c := x.c.toNat,
    guard := x.guard.toNat, gn := x.gn, modA := x.modA.code,
    modB := match ac with
      | some ac => ac.code
      | none => x.modB.code,
    feA := x.feA, feB := x.feB, feC := x.feC, msk := x.msk.toNat, rsv := false, lit := x.b.field.2 }

/-- The words of the fields of an extended form. -/
def ExtFields.words (f : ExtFields) : List Nat :=
  f.w0 :: f.w1 :: f.w2 :: (match f.lit with
    | some v => litWords v
    | none => [])

/-- The word of a base form, and its literal words. -/
def BaseForm.words (x : BaseForm) (op : Nat) : List Nat :=
  let w := boolNat x.u * 2 ^ 29 + op * 2 ^ 22 + x.d.toNat * 2 ^ 15 + x.a.toNat * 2 ^ 8
  match x.b with
  | .reg n => [w + n.toNat * 2]
  | .imm v => [w + v.toNat * 2 + 1]
  | .lit v => (2 ^ 31 + w) :: litWords v

/-- The words of an instruction; none for a step that is no instruction. -/
def encode (i : Instr) : List Nat :=
  match i.extForm with
  | some (x, ac) => (x.fields i.opSub.1 i.opSub.2 ac).words
  | none =>
    match i.baseForm with
    | some (op, x) => x.words op
    | none =>
      match i.bareBase with
      | some (op, u, low) => [boolNat u * 2 ^ 29 + op * 2 ^ 22 + low]
      | none => []

/-- The instruction is encoded by words; the other rows of the opcode table are steps that no word encodes. -/
def Instr.hasWords (i : Instr) : Bool := i.view.isSome

end Sys2Proof
end

