-- ==== Sys2Proof/Machine/State.lean ====
section
/-! DEFINITION. The state of the Zenjan 7200: everything the spec gives the machine, as plain data, and its value after
reset. Each field names the rule of spec/ that gives it; the fields that are the model's own say so. -/

namespace Sys2Proof.Machine

/-! ## Threads, crews and units -/

/-- A thread: its unit, its crew in the unit, its lane; lane 32 is the crew's handler context (R23, R206). -/
structure Tid where
  uid : Nat
  crew : Nat
  lane : Nat
  deriving DecidableEq, Repr

/-- Who will fill an empty register: an outstanding access, or the engine operation of a future (R92, R129). -/
inductive Producer where
  | txn (id : Nat)
  | future (num : Nat) (gen : Nat)
  deriving DecidableEq, Repr

/-- What a thread waits for (R360, R372). -/
inductive Wait where
  /-- a source register is empty (R48) -/
  | source
  /-- a destination register is empty (R92) -/
  | dest
  /-- earlier accesses of the thread: a fence, an overlapping write, sreg.lrstat, exit (R123, R251, R258, R300) -/
  | accesses
  /-- an outstanding-transaction entry (R244) -/
  | entry
  /-- a future (R130); ext for a fabric future (R372); matrix when the thread waits on the empty destination of a matrix
  operation (R188) -/
  | future (ext matrix : Bool)
  /-- a byte barrier (R235) -/
  | barrier
  /-- waitv or gwait at home; ext on a page marked external-wait (R301, R341, R372) -/
  | line (ext : Bool)
  /-- a join, a barrier or a crew-collective (R117, R127) -/
  | collective
  /-- tcommit or trigger (R321) -/
  | chunk (trigger : Bool)
  /-- a key, or the release of a lent buffer (R238, R239) -/
  | key
  /-- the sequencer queue, a channel, or a future number (R133, R174) -/
  | engine
  /-- a seal, or the end of a run's wait for a final ceiling (R317, R337) -/
  | sealing
  /-- the home's answer to translation (R217, R285) -/
  | home
  /-- a line's change of homing, a shootdown or an invocation of a routine (R225, R297, R451) -/
  | system
  /-- the system core serves an exhausted table (R133, R303, R460) -/
  | held
  /-- rfence (R403) -/
  | fabric
  /-- the trap that a thread of the crew given took for the whole bundle under U = 1 (R46, R144) -/
  | uniform (crew : Nat)
  deriving DecidableEq, Repr

/-- A write as later unordered reads know it: the step at which its path made it, that path and its thread. -/
structure Made where
  step : Nat
  path : Path
  by_ : Option Tid
  deriving DecidableEq, Repr

/-- Where a thread has arrived (R117, R127). -/
inductive Arrival where
  /-- at a crew-collective instruction whose participation set the mask register given names -/
  | collective (msk : Nat)
  /-- at one whose set, the lanes given, was complete when it was last evaluated: it issues with that set -/
  | due (set : List Nat)
  /-- at a join, or a barrier, of an instruction of len bytes -/
  | join (barrier : Bool) (len : Nat)
  deriving DecidableEq, Repr

/-- What a waiting instruction has taken already, and keeps while it waits. -/
inductive Latch where
  /-- the code of exit, or the target of a call or ret (R121, R123) -/
  | value (v : Nat)
  /-- fwait or fmov has waited on an empty handle register; matrix: it waits on a matrix operation (R130, R133, R188) -/
  | waited (matrix : Bool)
  /-- fwait waits for the future that its handle word names (R130) -/
  | awaits (num gen : Nat)
  /-- the status of that future (R130) -/
  | status (w : Nat) (matrix : Bool)
  deriving DecidableEq, Repr

/-- A debug stop of a thread (R435 to R437). -/
structure Stop where
  handle : Nat
  /-- 0x40 breakpoint, 0x41 step, 0 held after a fault (R410) -/
  cause : Nat
  deriving DecidableEq, Repr

/-- A report of a deferred store failure waiting in an entry of its thread (R245, R390). -/
structure StoreFail where
  txn : Nat
  pc : DWord
  addr : Nat
  reason : Nat
  /-- 0x24 or 0x25 (R390) -/
  cause : Nat
  fabric : Bool
  unknown : Bool
  device : Nat
  /-- time at which the failure reached the entry -/
  since : Nat
  deriving DecidableEq, Repr

/-- A thread, or a crew's handler context. -/
structure Thread where
  /-- liveness (R114) -/
  live : Bool
  /-- program counter (R114) -/
  pc : DWord
  /-- general registers, 32 bits each, one per allocated register (R91) -/
  regs : List Word
  /-- the empty registers, each with its producer (R92, R129); a register not listed is full -/
  empty : List (Nat × Producer)
  /-- p0 to p126; p127 reads 1 (R41, R91) -/
  preds : BitVec 128
  /-- RM and flags, fsr[6:0] (R142) -/
  fsr : BitVec 7
  /-- hardware return stack, newest first (R114, R121) -/
  rstack : List DWord
  /-- entries spilled to the private region (R114) -/
  spilled : Nat
  /-- status of the last completed lrun (R300) -/
  lrstat : Word
  /-- the model's own: the access whose status it is, for the program order of R300 -/
  lrTxn : Nat
  /-- what the thread waits for -/
  wait : Option Wait
  /-- the model's own: the step at which the waiting instruction was last tried -/
  tried : Nat
  /-- accesses that hold the thread at its next instruction (R217, R285) -/
  hold : List Nat
  /-- accesses with acquire whose read must have its value before any later access (R260) -/
  acquire : List Nat
  /-- the thread has arrived at the collective, join or barrier at its pc (R117, R127) -/
  arrival : Option Arrival
  /-- what the waiting instruction has taken -/
  latch : Option Latch
  /-- recorded failures of stores, oldest first (R245) -/
  fails : List StoreFail
  /-- time since which the thread is ready (R360) -/
  readySince : Nat
  /-- time at which the thread became urgent (R360) -/
  urgent : Option Nat
  /-- debug stop (R435, R436) -/
  stop : Option Stop
  /-- the thread passes the breakpoint at its pc once (R435) -/
  passBp : Bool
  /-- the thread steps one instruction under a handle (R437) -/
  stepping : Option Nat
  /-- the system core has virtualised the table that the waiting instruction found exhausted (R133, R303, R459) -/
  virt : Bool
  /-- PC written by xput since the event was entered (R208, R422) -/
  wrotePc : Option DWord
  /-- the model's own: how far back an instruction fetch may look (R253) -/
  ifMark : Nat
  /-- the model's own: the pfences, from one path to another, that come before what the thread does next, with their steps
  (R252, R278) -/
  marks : List (Path × Path × Nat)
  deriving DecidableEq, Repr

/-- A trap event of a crew (R415). -/
structure TrapEvent where
  cause : Nat
  /-- lanes of the event and the detail of each -/
  lanes : List (Nat × Nat)
  deriving DecidableEq, Repr

/-- A crew's budget counter (R369). -/
inductive Budget where
  | disarmed
  /-- runs, and reaches 0 at the time given -/
  | running (until_ : Nat)
  /-- frozen with a count left -/
  | paused (left : Nat)
  deriving DecidableEq, Repr

/-- A crew (R23, R24). -/
structure Crew where
  threads : List Thread
  /-- m0 to m14 (R91) -/
  masks : List Word
  /-- arrival sets of m0 to m15 (R127) -/
  arrivals : List Word
  /-- frozen by a user trap or a crew-stop (R414, R436) -/
  frozen : Bool
  /-- event being served; none while frozen by a crew-stop -/
  event : Option TrapEvent
  pending : List TrapEvent
  /-- handler context: g0 to g63, p0 to p15, fsr, PC, return stack (R416) -/
  handler : Thread
  budget : Budget
  /-- issue quarter (R17) -/
  quarter : Nat
  deriving DecidableEq, Repr

/-- A future of a unit (R129 to R133). -/
structure Future where
  num : Nat
  gen : Nat
  status : Option Word
  copies : Nat
  /-- destinations that hold its handle and are still empty -/
  dests : List (Tid × Nat)
  /-- the engine operation that runs it -/
  op : Nat
  /-- a fabric future (R372); a matrix operation (R188) -/
  fabric : Bool
  matrix : Bool
  deriving DecidableEq, Repr

/-- State of an accumulator slot (R161). -/
inductive AccState where
  | empty | zeroed | active | broken
  deriving DecidableEq, Repr

/-- An accumulator slot and its record (R161); elements not listed are zero. -/
structure AccSlot where
  state : AccState
  int : Bool
  sa : List Nat
  sb : List Nat
  data : List (Nat × Nat)
  deriving DecidableEq, Repr

/-- A B-store slot and its record (R161, R181); bytes not listed are zero. -/
structure BSlot where
  fmt : Option Nat
  loaded : List Nat
  scales : Option (List Nat)
  data : List (Nat × Nat)
  deriving DecidableEq, Repr

/-- Who holds a granule of a unit's own allocation (R237). -/
inductive Holder where
  | own
  | posted (key : Nat)
  | lent (uid : Nat)
  deriving DecidableEq, Repr

/-- A granule of a unit's own allocation: its holder, and the granule count - 1 of the buffer it was last given in (R240). -/
structure Granule where
  holder : Holder
  cnt : Nat
  deriving DecidableEq, Repr

/-- A borrowed granule: the taker's granule number, the owner and its granule (R239). -/
structure Borrowed where
  at_ : Nat
  owner : Nat
  granule : Nat
  cnt : Nat
  deriving DecidableEq, Repr

/-- The accumulators of a completion record (R123). -/
structure Rec where
  orBits : Nat
  maxCode : Nat
  count : Nat
  deriving DecidableEq, Repr

/-- A launch descriptor (R344). -/
structure Desc where
  entry : Nat
  handler : Nat
  gridx : Nat
  gridy : Nat
  gridz : Nat
  regs : Nat
  crews : Nat
  loc : Nat
  priv : Nat
  atomic : Bool
  prio : Nat
  accs : Nat
  bslots : Nat
  chans : Nat
  diemask : Nat
  hint : Nat
  vbase : Nat
  vstride : Nat
  limsize : Nat
  limage : Nat
  args : Nat
  crec : Nat
  lrec : Nat
  scratch : Nat
  sslots : Nat
  sstride : Nat
  deriving DecidableEq, Repr

/-- A graded input of a run: the record, the state word and dseq the run saw, and the threshold (R328). -/
structure Input where
  addr : Nat
  state : Nat
  dseq : Nat
  thr : Nat
  deriving DecidableEq, Repr

/-- A pending publication of an unsealed chunk (R340), or one that a run has made, for raises (R331). -/
structure PubReq where
  addr : Nat
  grade : Grade
  dseq : Nat
  deriving DecidableEq, Repr

/-- A spawn block (R342). -/
structure SpawnReq where
  ldesc : Nat
  depth : Nat
  recs : List (Nat × Nat)
  deriving DecidableEq, Repr

/-- A byte of a task's version: virtual and physical address, value, and the chunk's writes to it, newest first (R308). -/
structure VByte where
  va : Nat
  pa : Nat
  val : Byte
  made : List Made
  deriving DecidableEq, Repr

/-- A line that a signature holds or that the undo log holds: global by virtual address, local or vault (R308, R311). -/
structure LineKey where
  space : Space
  line : Nat
  deriving DecidableEq, Repr

/-- Where a task stands in its commit (R313, R317). -/
inductive CommitPhase where
  | none
  /-- waits for its entries, then for the token of its die -/
  | wanting
  /-- holds the token, and waits for lower commit numbers to be tested -/
  | token
  /-- holds a commit number; its write signature is on its way -/
  | numbered (n : Nat)
  deriving DecidableEq, Repr

/-- What follows a commit (R313, R317, R321). -/
inductive CommitGoal where
  | chunk
  | trigger
  | seal
  | finish
  deriving DecidableEq, Repr

/-- What a checkpoint holds (R307). -/
structure Checkpoint where
  crews : List Crew
  futures : List Future
  deriving DecidableEq, Repr

/-- The task of a unit (R305 to R342). -/
structure Task where
  /-- true for an atomic task (R25) -/
  atomic : Bool
  /-- the task is sealed (R317) -/
  isSealed : Bool
  /-- runs since the first firing, modulo 2^28 (R94, R305) -/
  runs : Nat
  depth : Nat
  /-- conflict and shootdown restarts of the chunk (R315) -/
  restarts : Nat
  /-- chunk starts in the run after the entry (R324) -/
  chunk : Nat
  /-- seals before its first instruction: the fourth attempt (R315) -/
  sealFirst : Bool
  /-- cancelled and re-fired at the waiting instruction (R337) -/
  stale : Bool
  inputs : List Input
  checkpoint : Option Checkpoint
  version : List VByte
  /-- old contents of the local and vault lines written in the chunk, each with the step of its entry (R308) -/
  undo : List (LineKey × Nat × List Byte)
  rsig : List LineKey
  wsig : List LineKey
  pubs : List PubReq
  spawns : List SpawnReq
  /-- publications of the run (R331) -/
  published : List PubReq
  /-- accesses held for an overflow (R310) -/
  heldWrites : List Nat
  phase : CommitPhase
  goal : CommitGoal
  /-- arbiters that have still to test the write signature -/
  untested : List Nat
  /-- the seal was begun for an overflow, so that every write that reaches its place is held there (R310) -/
  overflow : Bool
  deriving DecidableEq, Repr

/-- What becomes of a resident unit. -/
inductive Fate where
  | running
  /-- a save or a flush has stopped issue (R427, R428) -/
  | saving
  /-- drained since the time given (R426) -/
  | draining (since : Nat)
  /-- ends by a fault (R410) -/
  | faulted
  /-- ends by a cancel (R363) -/
  | cancelled
  /-- a re-fire waits in the place of the run (R333, R337) -/
  | stopped
  /-- has ended, and its allocation is still lent or posted (R241) -/
  | ended
  deriving DecidableEq, Repr

/-- A unit resident on a core. -/
structure RUnit where
  uid : Nat
  ctx : Nat
  core : Nat
  /-- resident slot (R359) -/
  slot : Nat
  launch : BitVec 32
  index : Nat
  desc : Desc
  crews : List Crew
  /-- local memory of its allocation (R16, R347): bytes not listed are zero -/
  loc : List Host.Cell
  granules : List Granule
  borrowed : List Borrowed
  futures : List Future
  /-- next generation of a future number (R129) -/
  gens : List (Nat × Nat)
  accs : List AccSlot
  bslots : List BSlot
  /-- write pointers of the copy channels (R233) -/
  wptr : List DWord
  tally : Rec
  /-- progress word; none is unknown (R370) -/
  progress : Option Nat
  triggered : Bool
  /-- units withdrawn by wfetch: launch and index (R368) -/
  withdrawn : List (BitVec 32 × Nat)
  task : Task
  fate : Fate
  /-- a fault of the unit that waits for its FAULT step (R410), with its record -/
  fault : Option (List Byte)
  /-- detail of an array error that no fwait has taken yet (R188) -/
  arrayErr : Option Nat
  /-- the model's own: the step of its placement (R253) -/
  placedAt : Nat
  deriving DecidableEq, Repr

/-! ## Contexts -/

/-- A pin window (R223): base, length in 64 KiB, slice mask. -/
structure PinWin where
  base : Nat
  len : Nat
  mask : Nat
  deriving DecidableEq, Repr

/-- A landing window (R395 to R397). -/
structure Window where
  num : Nat
  base : Nat
  size : Nat
  vault : Bool
  group : Bool
  rlo : Nat
  rhi : Nat
  olo : Nat
  ohi : Nat
  ctr : Nat
  deriving DecidableEq, Repr

/-- A key of an isle and context with the buffer posted under it: the owner and granule of each part, in order (R237). -/
structure KeyBuf where
  isle : Nat
  key : Nat
  parts : List (Nat × Nat)
  deriving DecidableEq, Repr

/-- A range of which L1s have been purged: base, bytes or the whole context, the core or every one, the step. -/
structure Purge where
  base : Nat
  len : Option Nat
  core : Option Nat
  step : Nat
  deriving DecidableEq, Repr

/-- What a phase or a job has accumulated (R354). -/
structure LevelAcc where
  tally : Rec
  faults : Nat
  cancelled : Bool
  deriving DecidableEq, Repr

/-- The registers and tables of one context (R458, R433). -/
structure Context where
  ctxctl : DWord
  ptroot : DWord
  rtbase : DWord
  vgrant : DWord
  fring : DWord
  frwr : DWord
  spbase : DWord
  spsize : DWord
  timers : DWord
  phrec : DWord
  jobrec : DWord
  /-- the pin windows that are set (R223) -/
  pinw : List (Nat × PinWin)
  /-- the pinned capacities that are not zero, by slice (R224) -/
  pincap : List (Nat × Nat)
  /-- EXPORT registers that are not zero, by register (R383) -/
  exportTab : List (Nat × DWord)
  dbctl : DWord
  bps : List DWord
  dsel : DWord
  dstat : DWord
  /-- what DDATA holds: the selected state that was last read or written through it (R433, R434) -/
  ddata : DWord
  peermeas : List DWord
  /-- context measurement (R481) and attested-peer table (R483) -/
  cmeas : List Byte
  attested : List (Nat × Nat)
  /-- the link keys of its attested peers, by peer (R483, R485) -/
  linkKeys : List (Nat × Nat)
  keys : List KeyBuf
  windows : List Window
  /-- next stop handle (R410, R435) -/
  nextHandle : Nat
  /-- the save pool's first free byte (R429) -/
  spUsed : Nat
  /-- accumulators of the open phases, by tag, and of the job (R353, R354) -/
  phases : List (Nat × LevelAcc)
  job : LevelAcc
  /-- the model's own: the pfences that releases have made known to later acquires (R252, R278) -/
  marks : List (Path × Path × Nat)
  /-- the model's own: when the L1s were last purged of ranges, newest first (R225, R229, R450) -/
  purges : List Purge
  deriving DecidableEq, Repr

/-! ## Caches and translations -/

/-- What a slice line is held for (R222). -/
inductive LineUse where
  | normal | pinned
  deriving DecidableEq, Repr

/-- A line in a shared-cache slice (R221 to R225). -/
structure SLine where
  slice : Nat
  ctx : Nat
  line : Nat
  ep : Nat
  use : LineUse
  dirty : Bool
  /-- what DRAM holds while the line is dirty (R243) -/
  dram : List Byte
  deriving DecidableEq, Repr

/-- A clean copy in an L1 data cache (R213, R448). -/
structure L1Line where
  core : Nat
  ctx : Nat
  line : Nat
  data : List Byte
  deriving DecidableEq, Repr

/-- A line in an L1 instruction cache, with the physical line that passed translation (R448). -/
structure ILine where
  core : Nat
  ctx : Nat
  line : Nat
  pa : Nat
  deriving DecidableEq, Repr

/-- A die directory entry: the isles that may hold lines of a region (R213). -/
structure DirEntry where
  ctx : Nat
  region : Nat
  isles : List Nat
  deriving DecidableEq, Repr

/-- A leaf as a translation gives it (R442). -/
structure Leaf where
  /-- base virtual address, size and base physical address of the page -/
  va : Nat
  size : Nat
  pa : Nat
  die : Nat
  dom : Nat
  pn : Bool
  xw : Bool
  gx : Bool
  tso : Bool
  x : Bool
  w : Bool
  /-- physical address of the grade map (R445) -/
  gmap : Nat
  deriving DecidableEq, Repr

/-- A translation cached at a slice (R447). -/
structure Tlb where
  slice : Nat
  ctx : Nat
  leaf : Leaf
  deriving DecidableEq, Repr

/-- A routine image cached at a slice (R296). -/
structure RImage where
  slice : Nat
  ctx : Nat
  num : Nat
  entry : List Byte
  deriving DecidableEq, Repr

/-- The caches of the device. -/
structure Caches where
  l1 : List L1Line
  l1i : List ILine
  slines : List SLine
  dirs : List DirEntry
  tlbs : List Tlb
  images : List RImage
  deriving DecidableEq, Repr

/-! ## Outstanding accesses and engine operations -/

/-- A destination of an access or of a future: a thread and its first register. -/
abbrev Dest := Tid × Nat

/-- The kinds of accesses that go to a home, a vault or a target and come back (R244). -/
inductive TxnKind where
  /-- width in bytes, registers, sign extension (R216) -/
  | load (regs : Nat) (sx : Bool)
  | store (data : List Byte)
  | atomic (fn : AtomFn) (ty : Ty) (v : Nat)
  | cas (ty : Ty) (cmp swap : Nat)
  | lrun (num : Nat) (ops : List Word)
  | waitv (ty : Ty) (expect : Nat) (limit : Option Nat)
  | gread (peek : Bool)
  | gpub (grade : Grade) (same : Bool)
  | gwait (grade : Grade) (seq : Option Nat)
  | launch
  | rst (data : List Byte)
  | ratom (fn : RComb) (ty : Ty) (v : Nat) (members : List (Dest × Option Nat))
  deriving DecidableEq, Repr

/-- How far an access has come. -/
inductive Phase where
  | issued
  /-- translated and accepted at its home (R217, R452) -/
  | accepted
  /-- sleeps in a wait slot, or held by the system core (R301, R303) -/
  | sleeping
  /-- performed, with the value that its answer carries -/
  | performed (value : Nat)
  /-- failed, with the reason on its way -/
  | failed (reason : Nat)
  /-- refused as not final, and held for a send at grade final (R489) -/
  | resend
  deriving DecidableEq, Repr

/-- An access on its way (R244, R245). -/
structure Txn where
  id : Nat
  tid : Tid
  ctx : Nat
  core : Nat
  pc : DWord
  kind : TxnKind
  space : Space
  va : Nat
  size : Nat
  pa : Option Nat
  leaf : Option Leaf
  ord : Ord
  scope : Scope
  ep : Nat
  na : Bool
  l1b : Bool
  /-- ldnc and stnc (R220) -/
  noSig : Bool
  dests : List Dest
  phase : Phase
  /-- occupies an outstanding-transaction entry (R244) -/
  entry : Bool
  /-- grade that a fabric access carries (R389) -/
  grade : Grade
  /-- target device of a fabric access; for waitv 1 when the system core holds the wait, 2 when its line has been written since
  (R303); for lrun 1 when the system core has served its table miss (R296) -/
  target : Nat
  since : Nat
  /-- the model's own: the step whose bundle issued it (R219, R284) -/
  step : Nat
  /-- the model's own: the step in which its home accepted it, for the order of arrival (R284, R293, R310) -/
  acc : Nat
  /-- it has been held for an overflow (R310) -/
  held : Bool
  /-- the PC after a waiting instruction (R301) -/
  after : DWord
  /-- the model's own: a write whose thread has stopped, so that its failure is not reported (R410) -/
  orphan : Bool
  deriving DecidableEq, Repr

/-- The kinds of engine operations. -/
inductive OpKind where
  | mma (sparse : Option SparseN)
  | bload
  | mdrain
  | mzero
  | copy (ch : Nat)
  | pft
  | dprop (limit : Nat)
  | dapp
  | dclr
  | rld
  | rld3
  | mcst
  | ctxsave
  | ctxload
  deriving DecidableEq, Repr

/-- An engine operation with a future (R129). -/
structure Op where
  id : Nat
  tid : Tid
  ctx : Nat
  core : Nat
  kind : OpKind
  num : Nat
  gen : Nat
  /-- the block copied at acceptance, and the operand words -/
  block : List Byte
  args : List Nat
  started : Bool
  cancelled : Bool
  /-- chunk, group, row, byte or segment reached -/
  pos : Nat
  flags : Nat
  rerun : Option Nat
  /-- the status with which it will complete -/
  status : Option Word
  /-- answers seen so far: first negative reason, destination failure, segments answered -/
  reason : Nat
  answered : Nat
  destFail : Option Nat
  grade : Grade
  since : Nat
  /-- the model's own: the pfences that come before its issue (R278) -/
  marks : List (Path × Path × Nat)
  deriving DecidableEq, Repr

/-! ## Commits, grades, launches -/

/-- A write signature on its way to an arbiter (R313). -/
structure SigMsg where
  die : Nat
  uid : Nat
  n : Nat
  lines : List (Nat × LineKey)
  deriving DecidableEq, Repr

/-- The address of a marked line on its way to an arbiter (R312). -/
structure AddrMsg where
  die : Nat
  /-- the task whose own write it is, if any -/
  source : Option Nat
  ctx : Nat
  line : LineKey
  deriving DecidableEq, Repr

/-- Commit arbiters and the commit sequence (R312, R313). -/
structure Commits where
  /-- holder of the token of each die -/
  tokens : List (Nat × Nat)
  /-- tasks that wait for a token, oldest first -/
  queue : List Nat
  next : Nat
  sigs : List SigMsg
  addrs : List AddrMsg
  deriving DecidableEq, Repr

/-- A registration of a consumer launch on a record (R328). -/
structure Registration where
  launch : BitVec 32
  ctx : Nat
  addr : Nat
  thr : Nat
  state : Nat
  dseq : Nat
  deriving DecidableEq, Repr

/-- A publication on its way to its record's home (R331). -/
structure Pub where
  id : Nat
  ctx : Nat
  addr : Nat
  grade : Grade
  /-- grade-only, as R332 decides -/
  same : Bool
  depth : Nat
  /-- launch, index and task identifier of the publisher; none for an external agent -/
  by_ : Option (BitVec 32 × Nat × Nat)
  /-- the access whose destination takes the status (R340) -/
  txn : Option Nat
  /-- a raise: the dseq that must still stand (R331) -/
  raise : Option Nat
  deriving DecidableEq, Repr

/-- The grade engine (R336). -/
structure Grades where
  known : List (Nat × Nat)
  regs : List Registration
  pubs : List Pub
  deriving DecidableEq, Repr

/-- Where a unit of a launch is. -/
inductive UnitAt where
  | unplaced
  | resident (uid : Nat)
  | parked
  | withdrawn (uid : Nat)
  | ended
  deriving DecidableEq, Repr

/-- What the launch keeps of one of its units. -/
structure UnitRec where
  index : Nat
  at_ : UnitAt
  /-- has triggered, or has ended once (R356) -/
  released : Bool
  runs : Nat
  depth : Nat
  /-- inputs and publications of its last completed run (R331) -/
  inputs : List Input
  published : List PubReq
  /-- a re-fire is wanted at the depth given; held under R330 -/
  refire : Option Nat
  held : Bool
  /-- units withdrawn by a run that was stopped for a re-fire, which still belong to the unit (R337, R368) -/
  withdrawn : List (BitVec 32 × Nat)
  /-- first offered again, ahead of unoffered units (R427) -/
  again : Bool
  budget : List Budget
  /-- of a run that a flush in its first chunk has returned to unplaced: the handler contexts of its crews, its count of restarts,
  and whether it seals before its first instruction (R315, R419, R427) -/
  handlers : List Thread
  restarts : Nat
  sealFirst : Bool
  deriving DecidableEq, Repr

/-- State of a launch (R352 to R356). -/
inductive LaunchState where
  | waiting | started | complete | cancelled | refused
  deriving DecidableEq, Repr

/-- A live launch. -/
structure Launch where
  id : BitVec 32
  ctx : Nat
  desc : Desc
  /-- the bytes of its descriptor break R344 or R345 -/
  bad : Bool
  state : LaunchState
  /-- depth limit of its graph or spawn block (R330) -/
  limit : Nat
  /-- graph slot, firing number and phase tag of the firing it belongs to -/
  firing : Option (Nat × Nat)
  tag : Option Nat
  /-- completion edges into it: producer launches (R356) -/
  preds : List (BitVec 32)
  /-- launches on which it depends by an edge of either kind (R363) -/
  deps : List (BitVec 32)
  counter : Nat
  next : Nat
  units : List UnitRec
  tally : Rec
  faults : Nat
  /-- a part of it has been cancelled (R354) -/
  cancelled : Bool
  /-- its completion record has been written -/
  recorded : Bool
  /-- the run of a spawned consumer or device-side launch counts in its phase (R353) -/
  deviceSide : Bool
  startedAt : Nat
  deriving DecidableEq, Repr

/-- A firing of a graph slot (R350 to R355). -/
structure Firing where
  slot : Nat
  num : Nat
  ctx : Nat
  tag : Nat
  gtab : Nat
  params : List DWord
  started : Bool
  cancelled : Bool
  deriving DecidableEq, Repr

/-- A graph slot (R349, R459). -/
structure GSlot where
  gtab : DWord
  frec : DWord
  done : Nat
  cancelled : Bool
  refused : Bool
  dropped : Bool
  params : List DWord
  bound : DWord
  /-- replays accepted so far (R343) -/
  replays : Nat
  deriving DecidableEq, Repr

/-- A wfetch answer on its way (R367). -/
structure Fill where
  id : Nat
  tid : Tid
  addr : Nat
  launch : BitVec 32
  deriving DecidableEq, Repr

/-- Graph engine and work distributors. -/
structure Launches where
  gslots : List (Nat × GSlot)
  firings : List Firing
  launches : List Launch
  devCount : Nat
  spawnCount : Nat
  /-- reserved places in the table of spawned consumers (R342) -/
  reserved : Nat
  fills : List Fill
  /-- time at which an unplaced unit began to wait for a fit (R424) -/
  waiting : List (BitVec 32 × Nat × Nat)
  deriving DecidableEq, Repr

/-- A bundle formed by regrouping (R17, R360). -/
structure Bundle where
  core : Nat
  quarter : Nat
  uid : Nat
  pc : DWord
  threads : List (Nat × Nat)
  deriving DecidableEq, Repr

/-! ## Images, system cores, shootdowns -/

/-- A context image written by a save or a flush (R429): its physical address and kind; the parts beyond the header are kept as
the unit itself. -/
structure Image where
  addr : Nat
  kind : Nat
  unit : RUnit
  /-- the isle whose parked-unit table holds it (R431) -/
  parkedIsle : Option Nat
  deriving DecidableEq, Repr

/-- A fault or debug record waiting for a system core (R412, R460). -/
structure Record where
  die : Nat
  ctx : Nat
  bytes : List Byte
  deriving DecidableEq, Repr

/-- A pending source of a system event (R460). -/
structure SysSource where
  source : Nat
  info : Nat
  thread : Option Tid
  deriving DecidableEq, Repr

/-- A system core's event registers (R459). -/
structure SysCore where
  evcause : DWord
  evinfo : DWord
  evpc : DWord
  evbase : DWord
  evmask : DWord
  pending : List SysSource
  /-- thread that the current event holds (R459) -/
  holding : Option Tid
  deriving DecidableEq, Repr

/-- A shootdown on its way (R450, R451). -/
structure Shoot where
  id : Nat
  by_ : Option Tid
  ctx : Nat
  base : Nat
  /-- bytes; none for the whole context -/
  len : Option Nat
  /-- accesses accepted under the dropped translations (R451) -/
  waits : List Nat
  done : Bool
  deriving DecidableEq, Repr

/-- What the device has sent to the outside, or shown to it. -/
inductive Sent where
  | packet (p : Packet)
  | linkDown (port : Nat)
  | hostRead (data : List Byte)
  | report (data : List Byte)
  | value (v : DWord)
  | joinFlood (inc : Nat)
  | resetModule
  deriving DecidableEq, Repr

/-! ## Fabric -/

/-- A packet of a third-party transfer into a window that has not been resolved (R398, R400). -/
structure Xfer where
  ctx : Nat
  win : Nat
  owner : Nat
  requester : Nat
  tag : Nat
  total : Nat
  seen : Nat
  ownReason : Nat
  recReason : Nat
  /-- the requester has died or rejoined since, so that no completion goes to it (R400) -/
  gone : Bool
  deriving DecidableEq, Repr

/-- An ordered packet held at its target, with the stream of numbers it belongs to (R377). -/
structure HeldPacket where
  src : Nat
  pkt : Packet
  /-- it has met an uncorrectable error (R384) -/
  unc : Bool
  deriving DecidableEq, Repr

/-- The fabric side of the device (R374 to R382). -/
structure Fabric where
  device : Nat
  incarnation : Nat
  joined : Bool
  peers : List (Nat × Nat)
  /-- planes marked down, all targets or one target -/
  portsDown : List Nat
  planesDown : List (Nat × Nat)
  /-- planes of a port that is down on which a target has joined again since (R378) -/
  planesBack : List (Nat × Nat)
  dead : List Nat
  lastHeard : List (Nat × Nat)
  seqs : List (Nat × Nat)
  /-- how often the keys of a stream of packets have been renewed, by stream; those received lie 2^26 higher (R485) -/
  rekeys : List (Nat × Nat)
  /-- sequence numbers performed or refused per stream of a source: its packets to this device, or to a group (R377) -/
  seen : List (Nat × List Nat)
  heldPackets : List HeldPacket
  xfers : List Xfer
  deriving DecidableEq, Repr

/-- A draft sequence of a die's engine (R461 to R466); idx lists the indexed k-grams by end position and length. -/
structure DSeq where
  die : Nat
  ctx : Nat
  num : Nat
  /-- tokens that have left the history -/
  base : Nat
  tokens : List Nat
  idx : List (Nat × Nat × Nat)
  deriving DecidableEq, Repr

/-! ## Host link, start-up -/

/-- Device-information and command registers, boot record, measurement registers (R474 to R481). -/
structure HostLink where
  devid : DWord
  bootstat : DWord
  fwver : DWord
  ident : DWord
  cores : List DWord
  drambw : List DWord
  pwrcap : DWord
  temp : DWord
  cmdbase : DWord
  cmdtail : DWord
  cmdhead : DWord
  /-- UNITSEL (R459): one register of the device -/
  unitsel : DWord
  boot : List Word
  /-- the start-up step that runs, or 0 -/
  step : Nat
  measure : List (List Byte)
  closed : Bool
  powered : Bool
  throttled : Bool
  shut : Bool
  /-- placement is stopped by a checkpoint (R487) -/
  noPlace : Bool
  /-- firmware image in flash (R477) -/
  flash : List Byte
  /-- nonce and time of the report that a pending peer-admission command asked for (R483) -/
  asked : Option (List Byte × Nat)
  /-- the key pairs of the encryption domains that firmware has created, by domain (R484) -/
  domKeys : List (Nat × Nat)
  /-- context images, and draft sequences with their tokens, that a checkpoint at a host address holds (R461, R487) -/
  checkpoints : List (Nat × List Image × List DSeq)
  deriving DecidableEq, Repr

/-- A byte of a memory that an uncorrectable error has struck (R243); a write mends it. The spaces are those of the overwritten bytes below. -/
structure Flaw where
  space : Nat
  addr : Nat
  deriving DecidableEq, Repr

/-- One turn of the schedule, with how far back its unordered reads look. -/
inductive Turn where
  /-- an event -/
  | event (i : Instr) (back : List Nat)
  /-- an issue by the path of the k-th bundle formed -/
  | issue (k : Nat) (back : List Nat)
  /-- an uncorrectable error strikes a byte (R243) -/
  | flaw (f : Flaw)
  /-- an error in a memory of row k of R242 is corrected -/
  | corrected (k : Nat)
  /-- a slice writes a dirty line back and finds an uncorrectable error in it (R243) -/
  | dropLine (ctx line : Nat)
  /-- a die directory evicts the entry of a region (R213) -/
  | dropEntry (ctx region : Nat)
  deriving DecidableEq, Repr

/-- The model's own scheduling data. -/
structure Sched where
  turns : List Turn
  /-- the bundle whose instruction executes: its unit and its threads (crew, lane) -/
  issue : Option (Nat × List (Nat × Nat))
  back : List Nat
  bundles : List Bundle
  deriving DecidableEq, Repr

/-- The model's own clock and counters. -/
structure Clock where
  /-- cycles of the core clock since reset (R12, R94) -/
  now : Nat
  stepNo : Nat
  /-- the step that last moved the machine -/
  moved : Nat
  /-- the time and the step of the last reset of the cores (R94) -/
  resetAt : Nat
  resetStep : Nat
  /-- counter of free values -/
  freeNo : Nat
  nextId : Nat
  /-- watchdog timers: the time of the last return to 0, by context (R373) -/
  acts : List (Nat × Nat)
  deriving DecidableEq, Repr

/-- The model's own: an overwritten byte, for reads that no ordering rule makes fresh (R253, R276). -/
structure Old where
  /-- 0 global by physical address, 1 vault, and of a unit its local memory and its version by virtual address -/
  space : Nat
  addr : Nat
  val : Byte
  /-- the writes that replaced it, which became visible together -/
  made : List Made
  deriving DecidableEq, Repr

/-- The whole machine. -/
structure State where
  sched : Sched
  clk : Clock
  units : List RUnit
  ctxs : List (Nat × Context)
  mem : List Host.Cell
  vaults : List Host.Cell
  /-- the lines that stand encrypted where they leave the die, each with its key pair: mem holds what the key pair makes of them
  (R484) -/
  lineKeys : List (Nat × Nat)
  hist : List Old
  flaws : List Flaw
  caches : Caches
  txns : List Txn
  ops : List Op
  commits : Commits
  grades : Grades
  work : Launches
  images : List Image
  records : List Record
  sys : List SysCore
  ecnt : List DWord
  shoots : List Shoot
  outbox : List Sent
  fabric : Fabric
  draft : List DSeq
  host : HostLink
  deriving DecidableEq, Repr

/-! ## Reset -/

/-- A thread as placement leaves it (R91), with n registers, at an entry. -/
def Thread.fresh (n : Nat) (pc : DWord) (live : Bool) (now mark : Nat) : Thread :=
  { live, pc, regs := List.replicate n 0, empty := [], preds := 0, fsr := 0, rstack := [], spilled := 0, lrstat := 0, lrTxn := 0,
    wait := none, tried := 0, hold := [], acquire := [], arrival := none, latch := none, fails := [], readySince := now, urgent := none,
    stop := none, passBp := false, stepping := none, virt := false, wrotePc := none, ifMark := mark, marks := [] }

/-- A crew as placement leaves it (R91). -/
def Crew.fresh (n : Nat) (pc : DWord) (quarter now mark : Nat) : Crew :=
  { threads := List.replicate 32 (.fresh n pc true now mark), masks := List.replicate 15 0, arrivals := List.replicate 16 0,
    frozen := false, event := none, pending := [], handler := .fresh 64 0 false now mark, budget := .disarmed, quarter }

/-- A task as the first firing begins it (R305, R315, R324). -/
def Task.fresh (atomic : Bool) : Task :=
  { atomic, isSealed := false, runs := 0, depth := 0, restarts := 0, chunk := 0, sealFirst := false, stale := false,
    inputs := [], checkpoint := none, version := [], undo := [], rsig := [], wsig := [], pubs := [], spawns := [],
    published := [], heldWrites := [], phase := .none, goal := .finish, untested := [], overflow := false }

/-- An empty accumulator slot (R163). -/
def AccSlot.fresh : AccSlot := { state := .empty, int := false, sa := [], sb := [], data := [] }

/-- An empty B-store slot (R163). -/
def BSlot.fresh : BSlot := { fmt := none, loaded := [], scales := none, data := [] }

def Rec.zero : Rec := { orBits := 0, maxCode := 0, count := 0 }

/-- A context whose registers hold their reset values (R458, R433). -/
def Context.reset : Context :=
  { ctxctl := 0, ptroot := 0, rtbase := 0, vgrant := 0, fring := 0, frwr := 0, spbase := 0, spsize := 0,
    timers := 0x00C80000, phrec := 0, jobrec := 0, pinw := [], pincap := [], exportTab := [], dbctl := 0,
    bps := List.replicate 8 0, dsel := 0, dstat := 0, ddata := 0, peermeas := List.replicate 4 0, cmeas := [], attested := [], linkKeys := [],
    keys := [], windows := [], nextHandle := 0, spUsed := 0, phases := [], job := { tally := .zero, faults := 0, cancelled := false }, marks := [], purges := [] }

/-- A graph slot whose registers hold their reset values (R349, R459). -/
def GSlot.reset : GSlot :=
  { gtab := 0, frec := 0, done := 0, cancelled := false, refused := false, dropped := false,
    params := List.replicate 64 0, bound := 0, replays := 0 }

/-- A system core's registers after reset (R459). -/
def SysCore.reset : SysCore :=
  { evcause := 0, evinfo := 0, evpc := 0, evbase := 0, evmask := 1, pending := [], holding := none }

/-- The device-information registers after reset (R474), the command registers (R476), the boot record (R477). -/
def HostLink.reset : HostLink :=
  { devid := 0x1C20, bootstat := 0, fwver := 0, ident := 0, cores := List.replicate 8 0, drambw := List.replicate 8 0,
    pwrcap := 0xE10, temp := 0, cmdbase := 0, cmdtail := 0, cmdhead := 0, unitsel := 0, boot := List.replicate 16 0, step := 0,
    measure := List.replicate 8 (List.replicate 32 0), closed := false, powered := true, throttled := false,
    shut := false, noPlace := false, flash := [], asked := none, domKeys := [], checkpoints := [] }

/-- The descriptor under which a system core's thread stands: firmware's own, with no launch (R438). -/
def Desc.system : Desc :=
  { entry := 0, handler := 0, gridx := 1, gridy := 1, gridz := 1, regs := 256, crews := 1, loc := 0, priv := 128,
    atomic := false, prio := 0, accs := 0, bslots := 0, chans := 0, diemask := 0, hint := 0, vbase := 0, vstride := 0,
    limsize := 0, limage := 0, args := 0, crec := 0, lrec := 0, scratch := 0, sslots := 1, sstride := 4096 }

/-- The system core of die d: a unit of context 0 on core 512 + d, whose thread in lane 0 start-up starts (R21, R438, R478). -/
def RUnit.system (d : Nat) : RUnit :=
  { uid := d, ctx := 0, core := 512 + d, slot := 0, launch := 0, index := 0, desc := .system,
    crews := [{ threads := .fresh 256 0 false 0 0 :: List.replicate 31 (.fresh 256 0 false 0 0),
                masks := List.replicate 15 0, arrivals := List.replicate 16 0, frozen := false, event := none,
                pending := [], handler := .fresh 64 0 false 0 0, budget := .disarmed, quarter := 0 }],
    loc := [], granules := [], borrowed := [], futures := [], gens := [], accs := [], bslots := [],
    wptr := List.replicate 8 0, tally := .zero, progress := none, triggered := false, withdrawn := [],
    task := .fresh false, fate := .running, fault := none, arrayErr := none, placedAt := 0 }

/-- The machine right after reset. -/
def State.reset : State :=
  { sched := { turns := [], issue := none, back := [], bundles := [] },
    clk := { now := 0, stepNo := 0, moved := 0, resetAt := 0, resetStep := 0, freeNo := 0, nextId := 8, acts := [] },
    units := (List.range 8).map RUnit.system,
    ctxs := [], mem := [], vaults := [], lineKeys := [], hist := [], flaws := [],
    caches := { l1 := [], l1i := [], slines := [], dirs := [], tlbs := [], images := [] },
    txns := [], ops := [],
    commits := { tokens := [], queue := [], next := 0, sigs := [], addrs := [] },
    grades := { known := [], regs := [], pubs := [] },
    work := { gslots := [], firings := [], launches := [], devCount := 0, spawnCount := 0, reserved := 0, fills := [],
              waiting := [] },
    images := [], records := [],
    sys := List.replicate 8 .reset,
    ecnt := List.replicate 6 0,
    shoots := [], outbox := [],
    fabric := { device := 0, incarnation := 0, joined := false, peers := [], portsDown := [], planesDown := [],
                planesBack := [], dead := [], lastHeard := [], seqs := [], rekeys := [], seen := [], heldPackets := [], xfers := [] },
    draft := [],
    host := .reset }

/-! ## Stops of the model -/

/-- The faults of the model: what stops it because no instruction can issue. User traps and faults of the spec are next
states. -/
inductive Fault where
  /-- raised by the meaning of an instruction when the state names no bundle, or a bundle of a unit that is not resident:
  there is no thread to execute it; safe, since the hardware never issues an instruction without a thread -/
  | noBundle
  deriving DecidableEq, Repr

/-- The refusals of the model. -/
inductive Refusal where
  /-- raised by an arm of exec whose instruction has no meaning yet; safe, since nothing is claimed about it -/
  | notModelled (mnemonic : String)
  deriving DecidableEq, Repr

end Sys2Proof.Machine
end

