-- ==== Sys2Proof/Machine/Ops.lean ====
section
/-! DEFINITION. The named operations over the state: registers, masks, memory and its past, translation, futures; faults,
user traps and their handlers, and the return from them (04_integer R91, R92; 05_control R129 to R133; 15_traps R408 to
R423; 16_translation_system R440 to R448). -/

namespace Sys2Proof.Machine

/-- The outcome of an instruction or a step. -/
abbrev Out := Host.Outcome State Fault Refusal

/-! ## Bytes: a memory as a canonical list of cells -/

/-- The byte at an address; a byte that is not listed reads 0 (17_generation_host R478; host memory: log 7). -/
def cellGet : List Host.Cell → Nat → Byte
  | [], _ => 0
  | (k, v) :: m, a => if a = k then v else if a < k then 0 else cellGet m a

/-- The memory with one byte written; a byte of 0 is not listed. -/
def cellPut (a : Nat) (b : Byte) : List Host.Cell → List Host.Cell
  | [] => if b = 0 then [] else [(a, b)]
  | (k, v) :: m =>
    if a < k then (if b = 0 then (k, v) :: m else (a, b) :: (k, v) :: m)
    else if a = k then (if b = 0 then m else (a, b) :: m)
    else (k, v) :: cellPut a b m

/-- n bytes from an address on. -/
def cellsGet (m : List Host.Cell) (a : Nat) : Nat → List Byte
  | 0 => []
  | n + 1 => cellGet m a :: cellsGet m (a + 1) n

/-- The memory with bytes written from an address on. -/
def cellsPut (m : List Host.Cell) (a : Nat) : List Byte → List Host.Cell
  | [] => m
  | b :: bs => cellsPut (cellPut a b m) (a + 1) bs

/-- The canonical form: addresses strictly rise, and no listed byte is 0. -/
def Memory.wf : List Host.Cell → Bool
  | [] => true
  | [(_, v)] => v != 0
  | (k, v) :: (k', v') :: m => v != 0 && decide (k < k') && Memory.wf ((k', v') :: m)

/-- A list of exactly n bytes. -/
def fitBytes (n : Nat) (b : List Byte) : List Byte := (List.range n).map fun i => b.getD i 0

/-! ## Association lists -/

def assocGet {α : Type} (l : List (Nat × α)) (k : Nat) : Option α := (l.find? (·.1 == k)).map (·.2)

def assocSet {α : Type} (l : List (Nat × α)) (k : Nat) (v : α) : List (Nat × α) := (k, v) :: l.filter (·.1 != k)

/-! ## Units, crews, threads -/

/-- What a thread that does not exist reads as. -/
def Thread.absent : Thread := .fresh 0 0 false 0 0

/-- What a crew that does not exist reads as. -/
def Crew.absent : Crew := { Crew.fresh 0 0 0 0 0 with threads := [] }

def State.unit? (s : State) (uid : Nat) : Option RUnit := s.units.find? (·.uid == uid)

/-- A unit, resident or parked in an image (R428, R431). -/
def State.unitOf? (s : State) (uid : Nat) : Option RUnit :=
  match s.unit? uid with
  | some u => some u
  | none => (s.images.find? (·.unit.uid == uid)).map (·.unit)

/-- A unit changes where it is, on its core or in its image (R428, R431). -/
def State.mapUnit (s : State) (uid : Nat) (f : RUnit → RUnit) : State :=
  { s with
    units := s.units.map fun u => if u.uid = uid then f u else u,
    images := s.images.map fun m => if m.unit.uid = uid then { m with unit := f m.unit } else m }

def State.dropUnit (s : State) (uid : Nat) : State := { s with units := s.units.filter (·.uid != uid) }

def RUnit.crew (u : RUnit) (c : Nat) : Crew := u.crews.getD c .absent

def RUnit.mapCrew (u : RUnit) (c : Nat) (f : Crew → Crew) : RUnit := { u with crews := u.crews.modify c f }

/-- A thread of a crew; lane 32 is the handler context (R206). -/
def Crew.thread (c : Crew) (lane : Nat) : Thread := if lane = 32 then c.handler else c.threads.getD lane .absent

def Crew.mapThread (c : Crew) (lane : Nat) (f : Thread → Thread) : Crew :=
  if lane = 32 then { c with handler := f c.handler } else { c with threads := c.threads.modify lane f }

/-- Every thread of a crew but the handler. -/
def Crew.mapAll (c : Crew) (f : Thread → Thread) : Crew := { c with threads := c.threads.map f }

def State.crew (s : State) (uid c : Nat) : Crew :=
  match s.unit? uid with
  | some u => u.crew c
  | none => .absent

def State.thread (s : State) (t : Tid) : Thread := (s.crew t.uid t.crew).thread t.lane

def State.mapCrew (s : State) (uid c : Nat) (f : Crew → Crew) : State := s.mapUnit uid (·.mapCrew c f)

def State.mapThread (s : State) (t : Tid) (f : Thread → Thread) : State := s.mapCrew t.uid t.crew (·.mapThread t.lane f)

/-- Every thread of a unit, the handlers too. -/
def RUnit.mapThreads (u : RUnit) (f : Thread → Thread) : RUnit :=
  { u with crews := u.crews.map fun c => { c with threads := c.threads.map f, handler := f c.handler } }

/-- A system core's unit: a privileged one (R438). -/
def RUnit.isSystem (u : RUnit) : Bool := 512 ≤ u.core

/-- The die of a core, compute or system (R15). -/
def dieOf (core : Nat) : Nat := if core < 512 then core / 64 else core - 512

/-- The isle of a compute core (R15). -/
def isleOf (core : Nat) : Nat := core / 8

/-- A unit that a fault has stopped is held for the debugger (R410). -/
def RUnit.isHeld (u : RUnit) : Bool := u.crews.any fun c => (c.handler :: c.threads).any fun th => match th.stop with | some q => q.cause == 0 | none => false

/-- Threads of a unit run: no fault, save or cancel has stopped it. -/
def RUnit.active (u : RUnit) : Bool :=
  match u.fate with
  | .running | .draining _ => u.fault.isNone && !u.isHeld
  | .saving | .faulted | .cancelled | .stopped | .ended => false

/-- An unsealed atomic task (R25, R317). -/
def RUnit.speculative (u : RUnit) : Bool := u.task.atomic && !u.task.isSealed

/-! ## Registers -/

def Thread.reg (th : Thread) (n : Nat) : Nat := (th.regs.getD n 0).toNat

def Thread.setReg (th : Thread) (n v : Nat) : Thread := { th with regs := th.regs.set n (BitVec.ofNat 32 v) }

/-- The thread has arrived at a collective instruction, a join or a barrier (R117, R127). -/
def Thread.arrived (th : Thread) : Bool := th.arrival.isSome

/-- The value that a waiting exit, call or ret has taken (R121, R123). -/
def Thread.taken (th : Thread) : Option Nat := match th.latch with | some (.value v) => some v | some (.waited _) | some (.awaits ..) | some (.status ..) | none => none

/-- The value of k registers from gn on, low register first (R41). -/
def Thread.readRegs (th : Thread) (n : Nat) : Nat → Nat
  | 0 => 0
  | k + 1 => th.reg n + 2 ^ 32 * th.readRegs (n + 1) k

/-- k registers from gn on written with a value, low register first (R41). -/
def Thread.writeRegs (th : Thread) (n : Nat) : Nat → Nat → Thread
  | 0, _ => th
  | k + 1, v => (th.setReg n v).writeRegs (n + 1) k (v / 2 ^ 32)

/-- Whether gn is empty (R92). -/
def Thread.isEmpty (th : Thread) (n : Nat) : Bool := th.empty.any (·.1 == n)

/-- Whether one of k registers from gn on is empty. -/
def Thread.anyEmpty (th : Thread) (n k : Nat) : Bool := th.empty.any fun e => n ≤ e.1 && e.1 < n + k

/-- What will fill gn. -/
def Thread.producer (th : Thread) (n : Nat) : Option Producer := (th.empty.find? (·.1 == n)).map (·.2)

def Thread.markFull (th : Thread) (n k : Nat) : Thread :=
  { th with empty := th.empty.filter fun e => !(n ≤ e.1 && e.1 < n + k) }

/-- k registers from gn on made empty for a producer (R92). -/
def Thread.markEmpty (th : Thread) (n k : Nat) (p : Producer) : Thread :=
  { th.markFull n k with empty := (List.range k).map (fun i => (n + i, p)) ++ (th.markFull n k).empty }

/-- The predicate pn; p127 reads 1 (R41). -/
def Thread.pred (th : Thread) (n : Nat) : Bool := n == 127 || th.preds.getLsbD n

/-- pn written; a write to p127 is discarded (R41). -/
def Thread.setPred (th : Thread) (n : Nat) (b : Bool) : Thread :=
  if n = 127 then th
  else { th with preds := if b then th.preds ||| (1#128 <<< n) else th.preds &&& ~~~(1#128 <<< n) }

/-- Flags ORed into fsr[4:0] (R142). -/
def Thread.orFlags (th : Thread) (f : Nat) : Thread := { th with fsr := th.fsr ||| BitVec.ofNat 7 (f % 32) }

def maskOf (l : List Nat) : Nat := l.foldl (fun m i => m ||| 2 ^ i) 0

/-- The live mask of a crew, m15 (R114). -/
def Crew.liveMask (c : Crew) : Nat := maskOf ((List.range 32).filter fun l => (c.threads.getD l .absent).live)

/-- A mask register (R91, R114). -/
def Crew.mask (c : Crew) (n : Nat) : Nat := if n = 15 then c.liveMask else (c.masks.getD n 0).toNat

/-- A mask register written; a write to m15 is discarded (R41). -/
def Crew.setMask (c : Crew) (n v : Nat) : Crew := { c with masks := c.masks.set n (BitVec.ofNat 32 v) }

/-! ## Contexts, clock -/

def State.ctx (s : State) (c : Nat) : Context := (assocGet s.ctxs c).getD .reset

def State.mapCtx (s : State) (c : Nat) (f : Context → Context) : State :=
  { s with ctxs := assocSet s.ctxs c (f (s.ctx c)) }

/-- The trap enables that a context holds in CTXCTL[12:8] (R143, R458). -/
def Context.te (c : Context) : Nat := bits c.ctxctl.toNat 12 8

/-- The machine has moved in this step: waiting threads may try again. -/
def State.touch (s : State) : State := { s with clk := { s.clk with moved := s.clk.stepNo } }

/-- The watchdog timer of a context returns to 0 (R373). -/
def State.act (s : State) (ctx : Nat) : State := { s with clk := { s.clk with acts := assocSet s.clk.acts ctx s.clk.now } }

/-- The same for the context of a unit. -/
def State.actOf (s : State) (uid : Nat) : State :=
  match s.unit? uid with
  | some u => s.act u.ctx
  | none => s

/-- A unique number for what comes into being. -/
def State.newId (s : State) : Nat × State := (s.clk.nextId, { s with clk := { s.clk with nextId := s.clk.nextId + 1 } })

/-- The next free value (log 3). -/
def State.free (s : State) : Nat × State :=
  (Config.freeValue s.clk.freeNo, { s with clk := { s.clk with freeNo := s.clk.freeNo + 1 } })

def State.send (s : State) (x : Sent) : State := { s with outbox := s.outbox ++ [x] }

/-- The counter of core clock cycles of a core: 0 at its reset, and from the next step on the clock and the core's skew (R94). -/
def State.cycle (s : State) (core : Nat) : Nat :=
  if s.clk.stepNo = s.clk.resetStep then 0 else (s.clk.now - s.clk.resetAt + Config.cycleSkew core) % 2 ^ 64

/-! ## Memory, vaults, local memory -/

/-- The spaces of overwritten and of struck bytes: the local memory of a unit, and its version. -/
def localSpace (uid : Nat) : Nat := 2 + 2 * uid
def versionSpace (uid : Nat) : Nat := 3 + 2 * uid

/-- What writes replace, newest first. -/
def olds (space : Nat) (m : List Host.Cell) (a : Nat) (made : List Made) : List Byte → List Old
  | [] => []
  | _ :: bs => { space, addr := a, val := cellGet m a, made } :: olds space m (a + 1) made bs

/-- An uncorrectable error stands in n bytes (R243). -/
def State.flawed (s : State) (space a n : Nat) : Bool := s.flaws.any fun f => f.space == space && decide (a ≤ f.addr) && decide (f.addr < a + n)

/-- Bytes are written: no error stands in them. -/
def mended (l : List Flaw) (space a n : Nat) : List Flaw := l.filter fun f => !(f.space == space && decide (a ≤ f.addr) && decide (f.addr < a + n))

/-- Bytes that some writes have put into physical memory. -/
def State.writeMade (s : State) (pa : Nat) (bs : List Byte) (made : List Made) : State :=
  { s with mem := cellsPut s.mem pa bs, flaws := mended s.flaws 0 pa bs.length, hist := olds 0 s.mem pa made bs ++ s.hist }

/-- Bytes written to physical memory. -/
def State.writeMem (s : State) (pa : Nat) (bs : List Byte) (p : Path) (t : Option Tid) : State :=
  s.writeMade pa bs [⟨s.clk.stepNo, p, t⟩]

/-- Bytes written to vaults. -/
def State.writeVault (s : State) (a : Nat) (bs : List Byte) (p : Path) (t : Option Tid) : State :=
  { s with vaults := cellsPut s.vaults a bs, flaws := mended s.flaws 1 a bs.length, hist := olds 1 s.vaults a [⟨s.clk.stepNo, p, t⟩] bs ++ s.hist }

/-- Bytes written to the local memory of a unit's own allocation. -/
def State.writeOwnLocal (s : State) (uid a : Nat) (bs : List Byte) (p : Path) (t : Option Tid) : State :=
  let m := match s.unitOf? uid with | some u => u.loc | none => []
  { s.mapUnit uid (fun u => { u with loc := cellsPut u.loc a bs }) with
    flaws := mended s.flaws (localSpace uid) a bs.length, hist := olds (localSpace uid) m a [⟨s.clk.stepNo, p, t⟩] bs ++ s.hist }

/-- The byte that an unordered reader sees: it may pass over the newest writes while each of them may be passed over. -/
def pastByte (v : Byte) (skip : Old → Bool) (space a : Nat) : List Old → Byte
  | [] => v
  | o :: h => if o.space = space ∧ o.addr = a then (if skip o then pastByte o.val skip space a h else v)
    else pastByte v skip space a h

/-- How far back the k-th unordered read of this step looks, as a step number; never before a bound. -/
def State.lookBack (s : State) (k bound : Nat) : Nat := max bound (s.clk.stepNo - s.sched.back.getD k 0)

/-- The step of the last pfence from one path to another among some (R252). -/
def markAt (l : List (Path × Path × Nat)) (p q : Path) : Nat := ((l.find? fun m => m.1 == p && m.2.1 == q).map (·.2.2)).getD 0

/-- A pfence is added to those known. -/
def putMark (m : Path × Path × Nat) (l : List (Path × Path × Nat)) : List (Path × Path × Nat) :=
  if m.2.2 ≤ markAt l m.1 m.2.1 then l else m :: l.filter fun k => !(k.1 == m.1 && k.2.1 == m.2.1)

/-- The last pfence of each pair of paths in either list. -/
def joinMarks (l k : List (Path × Path × Nat)) : List (Path × Path × Nat) := k.foldl (fun l m => putMark m l) l

/-- A thread releases: later acquires of its context learn of the pfences that it knows (R252, R267; log 94). -/
def State.releaseMarks (s : State) (ctx : Nat) (l : List (Path × Path × Nat)) : State :=
  if l = [] then s else s.mapCtx ctx fun c => { c with marks := joinMarks c.marks l }

/-- A thread acquires: it learns of the pfences that were released (R252, R267; log 94). -/
def Thread.learn (th : Thread) (l : List (Path × Path × Nat)) : Thread := if l = [] then th else { th with marks := joinMarks th.marks l }

/-- What releases have made known in the context of a unit. -/
def State.known (s : State) (uid : Nat) : List (Path × Path × Nat) := match s.unit? uid with | some u => (s.ctx u.ctx).marks | none => []

/-- A thread performs a release (R260, R267; log 94). -/
def State.makeKnown (s : State) (t : Tid) : State := s.releaseMarks ((s.unit? t.uid).elim 0 (·.ctx)) (s.thread t).marks

/-- Every thread of a unit releases (R268 to R270). -/
def State.releaseUnit (s : State) (u : RUnit) : State :=
  (u.crews.flatMap fun c => c.handler :: c.threads).foldl (fun s th => s.releaseMarks u.ctx th.marks) s

/-- Who reads through an engine path: the operation's context, path and thread, and the pfences before its issue. -/
structure Reader where
  ctx : Nat
  path : Path
  tid : Tid
  marks : List (Path × Path × Nat)
  deriving DecidableEq, Repr

/-- The reader of a block at the issue of an operation. -/
def State.reader (s : State) (ctx : Nat) (path : Path) (t : Tid) : Reader := { ctx, path, tid := t, marks := (s.thread t).marks }

/-- The reader of an operation on its way. -/
def Op.reader (o : Op) (path : Path) : Reader := { ctx := o.ctx, path, tid := o.tid, marks := o.marks }

/-- The writes that an engine read may pass over (R252, R276): those after the step looked back to and after the last pfence
from their path before its issue; not those of its own path, nor the issuing thread's own to local memory. -/
def State.skips (s : State) (r : Reader) (k : Nat) (o : Old) : Bool :=
  o.made.all fun m => decide (s.lookBack k (markAt r.marks m.path r.path) < m.step) && m.path != r.path &&
    !(2 ≤ o.space && o.space % 2 == 0 && m.by_ == some r.tid)

/-! ## Translation (16_translation_system R440 to R448) -/

/-- R440: the constraint on a physical address. -/
def paOk (pa : Nat) : Bool := bit pa 51 || bits pa 50 39 == 0

def ptePa (e : Nat) : Nat := bits e 51 12 * 4096

def pte (mem : List Host.Cell) (a : Nat) : Nat := leNat (cellsGet mem a 8)

/-- The bytes that a leaf of a level maps (R441). -/
def pageSize (lvl : Nat) : Nat := 2 ^ (12 + 9 * lvl)

/-- R443: what an entry must be to be a leaf of a level, and R442. -/
def leafOk (dom : Option Nat) (lvl e : Nat) : Bool :=
  bit e 0 && bit e 1 && decide (lvl ≤ 3) && bits e 11 9 == 0 && decide (bits e 55 52 ≤ 8) && paOk (ptePa e) &&
  (!bit (ptePa e) 51 || bits e 55 52 == 8) && ptePa e % pageSize lvl == 0 && !(bit e 4 && lvl == 3) &&
  (match dom with | some d => bits e 63 56 == d | none => true)

/-- R443: what an entry must be to point to the next table. -/
def pointerOk (lvl e : Nat) : Bool :=
  bit e 0 && !bit e 1 && lvl != 0 && bits e 63 52 == 0 && bits e 11 2 == 0 && !bit e 51 && paOk (ptePa e)

/-- R444: the sixteen leaves of a contiguous run agree but for consecutive, aligned addresses. -/
def runOk (mem : List Host.Cell) (table lvl idx : Nat) : Bool :=
  let first := table + 8 * (idx / 16 * 16)
  let e0 := pte mem first
  ptePa e0 % (16 * pageSize lvl) == 0 && (List.range 16).all fun j =>
    let e := pte mem (first + 8 * j)
    e % 4096 == e0 % 4096 && e / 2 ^ 52 == e0 / 2 ^ 52 && ptePa e == ptePa e0 + j * pageSize lvl

/-- R445: the grade map of a graded-export leaf, 0 for another leaf, none when it breaks the rule. -/
def gradeMap (mem : List Host.Cell) (table lvl idx e : Nat) : Option Nat :=
  if !bit e 6 then some 0
  else
    let g := pte mem (table + 4096 + 8 * idx)
    if lvl = 0 ∧ bit e 4 = false ∧ table % 8192 = 0 ∧ bits g 63 52 = 0 ∧ g % 32 = 0 ∧ paOk (bits g 51 0) then some (bits g 51 0)
    else none

/-- The translation that a leaf entry gives; a contiguous run gives the translation of the whole run. -/
def leafAt (mem : List Host.Cell) (dom : Option Nat) (va table lvl : Nat) : Option Leaf :=
  let idx := va / pageSize lvl % 512
  let e := pte mem (table + 8 * idx)
  if !leafOk dom lvl e || (bit e 4 && !runOk mem table lvl idx) then none
  else
    match gradeMap mem table lvl idx e with
    | none => none
    | some gmap =>
      let size := if bit e 4 then 16 * pageSize lvl else pageSize lvl
      let base := if bit e 4 then ptePa (pte mem (table + 8 * (idx / 16 * 16))) else ptePa e
      some { va := va / size * size, size, pa := base, die := bits e 55 52, dom := bits e 63 56, pn := bit e 8, xw := bit e 7, gx := bit e 6, tso := bit e 5, x := bit e 3, w := bit e 2, gmap }

/-- The walk from a table of a level down (R441, R443). -/
def walk (mem : List Host.Cell) (dom : Option Nat) (va : Nat) : Nat → Nat → Option Leaf
  | 0, table => leafAt mem dom va table 0
  | lvl + 1, table =>
    let e := pte mem (table + 8 * (va / pageSize (lvl + 1) % 512))
    if bit e 1 then leafAt mem dom va table (lvl + 1)
    else if pointerOk (lvl + 1) e then walk mem dom va lvl (ptePa e)
    else none

/-- The encryption domain that a confidential context's leaves must have (R443, R458). -/
def Context.leafDomain (c : Context) : Option Nat :=
  if c.ctxctl.getLsbD 1 then some (bits c.ctxctl.toNat 23 16) else none

def Leaf.covers (l : Leaf) (va : Nat) : Bool := decide (l.va ≤ va) && decide (va < l.va + l.size)

/-- The physical address of a virtual address of the page. -/
def Leaf.addr (l : Leaf) (va : Nat) : Nat := l.pa + (va - l.va)

def xorGroups (a : Nat) : Nat → Nat
  | 0 => 0
  | k + 1 => (a / 2 ^ (7 + 5 * k) % 32) ^^^ xorGroups a k

/-- The bits set in a slice mask, lowest first. -/
def setBits (m : Nat) : List Nat := (List.range 32).filter fun i => bit m i

/-- The lowest-numbered pin window of the context that contains an address, if its slice mask is not zero (R212). -/
def Context.pinWindow (c : Context) (va : Nat) : Option PinWin :=
  (List.range 16).findSome? fun i =>
    match assocGet c.pinw i with
    | some w => if w.len != 0 && decide (w.base ≤ va) && decide (va < w.base + w.len * 65536) then some w else none
    | none => none

/-- R212: the number of the home slice within its die. -/
def Context.sliceNo (c : Context) (va : Nat) : Nat :=
  let h := xorGroups va 10
  match c.pinWindow va with
  | some w => let l := setBits w.mask; if l = [] then h else l.getD (h % l.length) 0
  | none => h

/-- R212: the home slice of an address, die × 32 + slice. -/
def Context.home (c : Context) (l : Leaf) (va : Nat) : Nat :=
  (if l.die = 8 then (va / 2 ^ 13 % 8) ^^^ (va / 2 ^ 16 % 8) else l.die) * 32 + c.sliceNo va

/-- A translation that the home slice holds for an address (R447). -/
def State.cached (s : State) (ctx va : Nat) : Option Leaf :=
  (s.caches.tlbs.find? fun e => e.ctx == ctx && e.leaf.covers va && e.slice == (s.ctx ctx).home e.leaf va).map (·.leaf)

/-- A page table lies in device DRAM (R440). -/
def tableOk (pa : Nat) : Bool := !bit pa 51 && paOk pa

/-- The translation of an address: the cached one, or that of a walk from a root in device DRAM (R440, R447). -/
def State.leaf? (s : State) (ctx va : Nat) : Option Leaf :=
  match s.cached ctx va with
  | some l => some l
  | none => if tableOk (s.ctx ctx).ptroot.toNat then walk s.mem (s.ctx ctx).leafDomain va 4 (s.ctx ctx).ptroot.toNat else none

/-- The slice keeps a translation, up to 2,048 (R447). -/
def State.keepLeaf (s : State) (ctx va : Nat) (l : Leaf) : State :=
  match s.cached ctx va with
  | some _ => s
  | none =>
    let slice := (s.ctx ctx).home l va
    let mine := s.caches.tlbs.filter (·.slice == slice)
    let rest := if mine.length < 2048 then s.caches.tlbs else s.caches.tlbs.erase (mine.getLastD { slice, ctx, leaf := l })
    { s with caches := { s.caches with tlbs := { slice, ctx, leaf := l } :: rest } }

/-- Reasons of R409. -/
def rMisaligned : Nat := 1
def rRange : Nat := 2
def rVault : Nat := 3
def rUnmapped : Nat := 4
def rPermission : Nat := 5
def rUncorrectable : Nat := 6
def rDomain : Nat := 7

/-- Translation and permission of an access (R446): the leaf, or the reason of the refusal. -/
def State.translate (s : State) (ctx va : Nat) (write exec : Bool) : Except Nat Leaf :=
  if 2 ^ 57 ≤ va then .error rRange
  else
    match s.leaf? ctx va with
    | none => .error rUnmapped
    | some l => if (write && !l.w) || (exec && !l.x) then .error rPermission else .ok l

/-! ## Instruction fetch (R34, R253) -/

/-- A range of a context: n bytes from a base on, or all of it, holds an address. -/
def inRange (base : Nat) (len : Option Nat) (a : Nat) : Bool :=
  match len with
  | none => true
  | some n => decide (base ≤ a) && decide (a < base + n)

/-- When the L1s of a core were last purged of an address (R225, R229, R451). -/
def Context.purged (c : Context) (core a : Nat) : Nat :=
  ((c.purges.find? fun p => inRange p.base p.len a && (p.core.isNone || p.core == some core)).map (·.step)).getD 0

/-- The physical address through which a core fetches a byte: a line that its L1 instruction cache holds makes no check of its
own; another must be translated, and executable (R448). -/
def State.fetchAddr (s : State) (core ctx va : Nat) : Except Nat Nat :=
  match s.caches.l1i.find? fun l => l.core == core && l.ctx == ctx && l.line == va / 128 with
  | some l => .ok (l.pa * 128 + va % 128)
  | none => (s.translate ctx va false true).map fun l => l.addr va

/-- A core's L1 instruction cache holds the line of an address (R448). -/
def State.fetchHeld (s : State) (core ctx va : Nat) : Bool := s.caches.l1i.any fun l => l.core == core && l.ctx == ctx && l.line == va / 128

/-- One byte through the instruction-fetch path: a value held since the thread's last ifence, or the last purge of it. A task
fetches its own version over memory (R253, R309). A line that the L1 instruction cache does not hold meets an uncorrectable error
where it stands (R243). -/
def State.fetchByte (s : State) (u : RUnit) (ifMark k va : Nat) : Except Nat Byte :=
  match s.fetchAddr u.core u.ctx va with
  | .error e => .error e
  | .ok pa =>
    let skip := fun (o : Old) => o.made.all fun m => decide (s.lookBack k (max ifMark ((s.ctx u.ctx).purged u.core va)) < m.step)
    match u.task.version.find? (·.va == va) with
    | some b => .ok (pastByte b.val skip (versionSpace u.uid) va s.hist)
    | none =>
      if !s.fetchHeld u.core u.ctx va && s.flawed 0 pa 1 then .error rUncorrectable
      else .ok (pastByte (cellGet s.mem pa) skip 0 pa s.hist)

/-- A 32-bit word through the instruction-fetch path; k numbers the read within the step. -/
def State.fetchWord (s : State) (u : RUnit) (ifMark k va : Nat) : Except Nat Nat := do
  let b0 ← s.fetchByte u ifMark k va
  let b1 ← s.fetchByte u ifMark k (va + 1)
  let b2 ← s.fetchByte u ifMark k (va + 2)
  let b3 ← s.fetchByte u ifMark k (va + 3)
  .ok (leNat [b0, b1, b2, b3])

/-- n words from an address on. -/
def State.fetchWords (s : State) (u : RUnit) (ifMark va : Nat) : Nat → Nat → Except Nat (List Nat)
  | _, 0 => .ok []
  | k, n + 1 => do
    let w ← s.fetchWord u ifMark k va
    let ws ← s.fetchWords u ifMark (va + 4) (k + 1) n
    .ok (w :: ws)

/-- The words of the instruction at an address (R33, R34). -/
def State.fetchInstr (s : State) (u : RUnit) (ifMark va : Nat) : Except Nat (List Nat) := do
  let w ← s.fetchWord u ifMark 0 va
  s.fetchWords u ifMark va 0 (wordCount w)

/-- The words at an address, as far as a length needs them: the instruction is cut after its last word. -/
def instrBytes (ws : List Nat) : Nat := 4 * ws.length

/-! ## Futures (05_control R129 to R133) -/

/-- A handle word (R129). -/
def handleWord (num gen : Nat) : Nat := 3 * 2 ^ 30 + gen % 65536 * 1024 + num

/-- The future that a word names as a handle, if it is a handle word (R130). -/
def handleOf (w : Nat) : Option (Nat × Nat) := if bits w 31 30 = 3 then some (bits w 9 0, bits w 25 10) else none

def RUnit.future? (u : RUnit) (num gen : Nat) : Option Future := u.futures.find? fun f => f.num == num && f.gen == gen

def RUnit.mapFuture (u : RUnit) (num gen : Nat) (f : Future → Future) : RUnit :=
  { u with futures := u.futures.map fun x => if x.num = num ∧ x.gen = gen then f x else x }

/-- A future is retired when its status has been written and no copy is left (R133). -/
def RUnit.retire (u : RUnit) : RUnit :=
  { u with futures := u.futures.filter fun f => !(f.status.isSome && f.copies == 0 && f.dests.isEmpty) }

/-- The lowest future number that the unit has free (R133; the choice of number: log 6). -/
def RUnit.freeNumber (u : RUnit) : Option Nat := (List.range 1024).find? fun n => !u.futures.any (·.num == n)

/-- Futures that the units of a core hold (R133). -/
def State.coreFutures (s : State) (core : Nat) : Nat :=
  (s.units.filter (·.core == core)).foldl (fun n u => n + u.futures.length) 0

/-- A future is begun: its destinations get the handle word and are empty (R129). -/
def State.beginFuture (s : State) (uid num op : Nat) (dests : List (Tid × Nat)) (fabric matrix : Bool) : State :=
  let gen := match s.unit? uid with | some u => (assocGet u.gens num).getD 0 | none => 0
  let s := s.mapUnit uid fun u =>
    { u with gens := assocSet u.gens num ((gen + 1) % 65536), futures := { num, gen, status := none, copies := 0, dests, op, fabric, matrix } :: u.futures }
  dests.foldl (fun s d => s.mapThread d.1 fun th =>
    (th.setReg d.2 (handleWord num gen)).markEmpty d.2 1 (.future num gen)) s

/-- A thread has waited in fwait for the future. -/
def Thread.awaiting (th : Thread) (num gen : Nat) : Bool := th.latch == some (.awaits num gen)

/-- Threads of a unit that wait in fwait for the future. -/
def RUnit.awaiting (u : RUnit) (num gen : Nat) : Nat := ((u.crews.flatMap fun c => c.handler :: c.threads).filter (·.awaiting num gen)).length

/-- A future completes: its status goes into the destinations that still wait for it (R129), and each thread that waits for it in
fwait takes the status, and with it a copy (R130). A checkpoint that holds it keeps the status (R307). -/
def State.completeFuture (s : State) (uid num gen status : Nat) : State :=
  let dests := match s.unitOf? uid with
    | some u => match u.future? num gen with | some f => f.dests | none => []
    | none => []
  let s := dests.foldl (fun s d => s.mapThread d.1 fun th =>
    if th.producer d.2 = some (.future num gen) then (th.setReg d.2 status).markFull d.2 1 else th) s
  let mark := fun (f : Future) => if f.num = num ∧ f.gen = gen then { f with status := some (BitVec.ofNat 32 status) } else f
  (s.mapUnit uid fun u =>
    let kept := u.task.checkpoint.map fun (c : Checkpoint) => { c with futures := c.futures.map mark }
    let u := { u with task := { u.task with checkpoint := kept } }
    let matrix := match u.future? num gen with | some f => f.matrix | none => false
    let n := u.awaiting num gen
    let u := u.mapThreads fun th => if th.awaiting num gen then { th with latch := some (.status status matrix) } else th
    (u.mapFuture num gen fun f => { f with status := some (BitVec.ofNat 32 status), copies := f.copies - n, dests := [] }).retire).touch

/-! ## Results of one thread at one instruction -/

/-- What a fault carries into its record (R412). -/
structure FaultInfo where
  cause : Nat
  reason : Nat := 0
  addr : Nat := 0
  spc : Nat := 0
  detail : Nat := 0
  count : Nat := 0
  fabric : Bool := false
  unknown : Bool := false
  /-- lanes of the crew that the record names, when they are not those that faulted together -/
  lanes : Option Nat := none
  deriving DecidableEq, Repr

/-- What one thread, or the leader under U = 1, does at an instruction. -/
inductive TRes where
  /-- the instruction is done, and its threads continue at the next one -/
  | done (s : State)
  /-- the instruction is done, and has set the PCs itself -/
  | went (s : State)
  /-- the thread waits at the instruction -/
  | wait (w : Wait) (s : State)
  | trap (cause detail : Nat)
  | fault (f : FaultInfo)
  /-- the thread faults, and what the instruction has done stays done -/
  | failed (f : FaultInfo) (s : State)
  deriving DecidableEq, Repr

/-- The memory fault (R409). -/
def memFault (reason addr : Nat) : TRes := .fault { cause := 0x20, reason, addr }

/-! ## Accesses that give up their threads -/

/-- The threads that hold an entry for an access: one, or every participant of a ratom (R387). -/
def Txn.holders (x : Txn) : List Tid :=
  match x.kind with
  | .ratom _ _ _ members => members.map (·.1.1)
  | .load .. | .store _ | .atomic .. | .cas .. | .lrun .. | .waitv .. | .gread _ | .gpub .. | .gwait .. | .launch | .rst _ => [x.tid]

/-- The destinations of an access are full again with their previous contents (R217, R285, R301). -/
def State.refill (s : State) (id : Nat) (dests : List Dest) : State :=
  dests.foldl (fun s d => s.mapThread d.1 fun th => { th with empty := th.empty.filter fun e => e.2 != .txn id }) s

/-- An access holds a thread no longer; one that nothing holds is ready from now on (R360). -/
def Thread.freed (th : Thread) (id now : Nat) : Thread :=
  if th.hold.contains id then { th with hold := th.hold.filter (· != id), readySince := now, urgent := none } else th

/-- The threads that an access holds, and those that wait for its value, go on without it. -/
def State.unhold (s : State) (x : Txn) : State :=
  (x.tid :: x.holders ++ x.dests.map (·.1)).foldl (fun s q => s.mapThread q fun th =>
    let th := th.freed x.id s.clk.now
    if th.acquire.contains x.id then { th.learn (s.ctx x.ctx).marks with acquire := th.acquire.filter (· != x.id), readySince := s.clk.now, urgent := none } else th) s

/-- A thread is out of a wait at a line: it executes the instruction again. -/
def Thread.leftLine (th : Thread) (id now : Nat) : Thread :=
  let th := { th.freed id now with acquire := th.acquire.filter (· != id) }
  match th.wait with
  | some (.line _) => { th with wait := none, readySince := now, urgent := none }
  | _ => th

/-- Threads taken out of a waitv or a gwait that has not ended: the destinations are full again with their previous contents,
and the request writes nothing to them. With the thread whose operands it has, every receiver of it leaves the wait (R46, R301,
R341). -/
def State.leaveWaits (s : State) (p : Tid → Bool) : State :=
  s.txns.foldl (fun s x =>
    if (x.phase matches .performed _) || !(x.kind matches .waitv .. | .gwait ..) then s
    else
      let out := if p x.tid then x.dests else x.dests.filter fun d => p d.1
      let out := if out == [] && p x.tid then [(x.tid, 0)] else out
      let s := (out.map (·.1)).foldl (fun s q => s.mapThread q (·.leftLine x.id s.clk.now)) (s.refill x.id out)
      { s with txns := if p x.tid then s.txns.filter (·.id != x.id) else s.txns.map fun (y : Txn) => if y.id = x.id then { y with dests := y.dests.filter fun d => !p d.1 } else y }) s

/-! ## Engine operations and accesses of a unit that ends or restarts -/

/-- The engine operations of a unit stop at the boundary at which they stand, and their accesses are given up (R191, R314,
R410): its global stores go on. -/
def State.stopEngines (s : State) (uid : Nat) : State :=
  { s with
    ops := s.ops.filter (·.tid.uid != uid),
    txns := (s.txns.filter fun x => x.tid.uid != uid || (match x.kind with
        | .store _ | .rst _ | .ratom .. => !(x.phase matches .resend)
        | .load .. | .atomic .. | .cas .. | .lrun .. | .waitv .. | .gread _ | .gpub .. | .gwait .. | .launch => false)).map
      fun x => if x.tid.uid = uid then { x with orphan := true } else x }

/-- The token of a unit's die is given back (R317). -/
def State.releaseToken (s : State) (uid : Nat) : State :=
  { s with commits := { s.commits with tokens := s.commits.tokens.filter (·.2 != uid), queue := s.commits.queue.filter (· != uid) } }

/-- The writes of a line since a step never happened. -/
def forget (space line since : Nat) (h : List Old) : List Old :=
  h.filter fun o => !(o.space == space && o.addr / 128 == line && o.made.all fun m => decide (since ≤ m.step))

/-- Lines restored from an undo log, newest entry first; the writes to them never happened (R308, R314). -/
def State.undo (s : State) (uid : Nat) : List (LineKey × Nat × List Byte) → State
  | [] => s
  | (k, since, bs) :: log =>
    State.undo (match k.space with
      | .localMem => { s.mapUnit uid (fun u => { u with loc := cellsPut u.loc (k.line * 128) bs }) with hist := forget (localSpace uid) k.line since s.hist }
      | .vault => { s with vaults := cellsPut s.vaults (k.line * 128) bs, hist := forget 1 k.line since s.hist }
      | .global => s) uid log

/-- R314, steps 1 to 3 and 5: the version of an unsealed task is discarded, and with its spawns their places in the table
(R342). -/
def State.discardVersion (s : State) (uid : Nat) : State :=
  match s.unit? uid with
  | none => s
  | some u =>
    let s := ((s.stopEngines uid).undo uid u.task.undo).releaseToken uid
    let s := { s with
      txns := s.txns.filter (·.tid.uid != uid), hist := s.hist.filter (·.space != versionSpace uid), commits := { s.commits with sigs := s.commits.sigs.filter (·.uid != uid) },
      work := { s.work with reserved := s.work.reserved - u.task.spawns.length } }
    s.mapUnit uid fun u =>
      { u with
        accs := u.accs.map fun _ => .fresh,
        bslots := u.bslots.map fun _ => .fresh,
        task := { u.task with version := [], undo := [], rsig := [], wsig := [], pubs := [], spawns := [], heldWrites := [], phase := .none, untested := [], overflow := false } }

/-! ## Faults (15_traps R410 to R412) -/

/-- The task identifier of a unit (R306). -/
def RUnit.taskId (u : RUnit) : Nat := u.launch.toNat % 1024 * 2 ^ 22 + u.index % 2 ^ 22

/-- The 64 bytes of a fault or debug record (R412). -/
def recordBytes (u : RUnit) (t : Tid) (pc word lanes flags handle : Nat) (f : FaultInfo) : List Byte :=
  leBytes 1 f.cause ++ leBytes 1 f.reason ++ leBytes 2 flags ++ leBytes 4 u.launch.toNat ++ leBytes 4 u.taskId ++
  leBytes 2 (u.core % 512 + 4096 * u.slot) ++ leBytes 1 t.crew ++ leBytes 1 t.lane ++ leBytes 8 u.index ++ leBytes 8 pc ++
  leBytes 4 word ++ leBytes 4 lanes ++ leBytes 8 f.addr ++ leBytes 8 f.spc ++ leBytes 4 f.detail ++
  leBytes 4 (f.count + 65536 * handle)

/-- The first word of the instruction at a thread's PC, 0 when it cannot be fetched (R412, R416). -/
def State.wordAt (s : State) (u : RUnit) (th : Thread) : Nat :=
  match s.fetchWord u th.ifMark 0 th.pc.toNat with
  | .ok w => w
  | .error _ => 0

/-- A fault of a direct unit or a sealed task is held for the debugger when DBCTL[2] is set (R410). -/
def State.holdsFaults (s : State) (u : RUnit) : Bool := !u.speculative && (s.ctx u.ctx).dbctl.getLsbD 2

/-- Units of a context, resident and parked. -/
def State.unitsOf (s : State) (ctx : Nat) : List RUnit := (s.units ++ s.images.map (·.unit)).filter (·.ctx == ctx)

/-- The open stop handles of a context (R433). -/
def State.openHandles (s : State) (ctx : Nat) : List Nat :=
  ((s.unitsOf ctx).flatMap fun u => u.crews.flatMap fun c => (c.handler :: c.threads).filterMap fun th => th.stop.map (·.handle)).eraseDups

/-- The first number from k on, of 1 to 65,535, that is not among some; fuel: how many there are. -/
def freeHandle (open_ : List Nat) : Nat → Nat → Nat
  | 0, k => k % 65535 + 1
  | n + 1, k => if open_.contains (k % 65535 + 1) then freeHandle open_ n (k + 1) else k % 65535 + 1

/-- The handles under which threads of a context step (R437). -/
def State.stepHandles (s : State) (ctx : Nat) : List Nat :=
  (s.unitsOf ctx).flatMap fun u => u.crews.flatMap fun c => (c.handler :: c.threads).filterMap (·.stepping)

/-- A stop handle that no open stop of the context has, and no step that will stop again (R410, R435; log 6). -/
def State.freshHandle (s : State) (ctx : Nat) : Nat :=
  let open_ := s.openHandles ctx ++ s.stepHandles ctx
  freeHandle open_ open_.length (s.ctx ctx).nextHandle

/-- A record waits for the system core of the unit's die (R412). -/
def State.addRecord (s : State) (u : RUnit) (bytes : List Byte) : State :=
  { s with records := s.records ++ [({ die := dieOf u.core, ctx := u.ctx, bytes } : Record)] }

/-- The record of a stop of lanes of a crew under a handle: cause 0x40 or 0x41 (R412, R435). -/
def State.stopRecord (s : State) (u : RUnit) (crew cause handle : Nat) (lanes : List Nat) : State :=
  let t : Tid := ⟨u.uid, crew, lanes.foldl min 31⟩
  let th := (u.crew crew).thread t.lane
  let flags := 4 * boolNat (u.task.atomic && u.task.isSealed)
  s.addRecord u (recordBytes u t th.pc.toNat (s.wordAt u th) (maskOf lanes) flags handle { cause, detail := handle })

/-- A thread is taken out of its wait (R410, R414): it executes the instruction again. An arrival stands, a thread that waits
for the trap of its bundle goes on waiting (R46), and an fwait that has taken a status keeps it, its copy being spent (R130). -/
def Thread.unwait (th : Thread) : Thread :=
  { th with
    wait := match th.wait with | some (.uniform c) => some (.uniform c) | _ => none,
    latch := match th.latch with | some (.status w m) => some (.status w m) | _ => none }

/-- R410, R411: a fault of thread t stops every thread of its unit. more: further threads faulted in the same cycle. The
report of deferred failures frees their entries (R245). -/
def State.raiseFault (s : State) (t : Tid) (f : FaultInfo) (lanes : Nat) (more : Bool) : State :=
  match s.unit? t.uid with
  | none => s
  | some u =>
    if u.fault.isSome || !(u.active || (u.fate == .saving && !u.isHeld)) then s
    else
      let th := (u.crew t.crew).thread t.lane
      let held := s.holdsFaults u
      let handle := if held then s.freshHandle u.ctx else 0
      let flags := boolNat u.speculative + 2 * boolNat (t.lane == 32) + 4 * boolNat (u.task.atomic && u.task.isSealed) + 8 * boolNat more + 16 * boolNat f.fabric + 32 * boolNat held + 64 * boolNat f.unknown
      let bytes := recordBytes u t th.pc.toNat (s.wordAt u th) (f.lanes.getD lanes) flags handle f
      let s := (s.leaveWaits (·.uid == t.uid)).mapUnit t.uid fun u => { u.mapThreads Thread.unwait with fault := some bytes }
      let s := if f.cause = 0x24 ∨ f.cause = 0x25 then s.mapThread t fun th => { th with fails := [] } else s
      let s := if held then (s.mapThread t fun th => { th with stop := some { handle, cause := 0 } }).mapCtx u.ctx fun c => { c with nextHandle := handle }
        else s
      s.touch

/-- A thread under the debugger goes free of it. -/
def Thread.unstop (th : Thread) : Thread := { th with stop := none, stepping := none, passBp := false }

/-- R410: the fault that a unit holds takes effect: the version is discarded or the unit stops, and it ends or is held. -/
def State.settleFault (s : State) (uid : Nat) : State :=
  match s.unit? uid with
  | none => s
  | some u =>
    match u.fault with
    | none => s
    | some bytes =>
      let held := s.holdsFaults u
      let s := if u.speculative then s.discardVersion uid else s.releaseToken uid
      let s := if held then s else s.stopEngines uid
      let s := s.addRecord u bytes
      (s.mapUnit uid fun u => { (if held then u else u.mapThreads Thread.unstop) with fault := none, fate := if held then u.fate else .faulted }).touch

/-- Taking a fault (R410 to R412): the shared operation of every instruction that faults. -/
def State.takeFault (s : State) (t : Tid) (f : FaultInfo) (lanes : Nat) (more : Bool) : State :=
  (s.raiseFault t f lanes more).settleFault t.uid

/-! ## User traps (15_traps R414 to R418) -/

def Budget.pause (now : Nat) : Budget → Budget
  | .running e => .paused (e - now)
  | .disarmed => .disarmed
  | .paused l => .paused l

def Budget.go (now : Nat) : Budget → Budget
  | .paused l => .running (now + l)
  | .disarmed => .disarmed
  | .running e => .running e

/-- R414: a crew freezes: its threads leave their waits, its budget stops. -/
def Crew.freeze (c : Crew) (now : Nat) : Crew :=
  { c.mapAll Thread.unwait with frozen := true, budget := c.budget.pause now }

/-! ## Steps under a stop handle (R436, R437) -/

/-- Lanes of a crew that have executed the instruction of a step under a handle stop again, with a record; in crew-stop mode
the crew freezes when all its live threads have stopped (R436, R437). -/
def State.stepEnd (s : State) (uid crew handle : Nat) (lanes : List Nat) : State :=
  match s.unit? uid with
  | none => s
  | some u =>
    let s := lanes.foldl (fun s l => s.mapThread ⟨uid, crew, l⟩ fun th => { th with stop := some { handle, cause := 0x41 }, stepping := none }) s
    let s := s.mapCrew uid crew fun c =>
      if (s.ctx u.ctx).dbctl.getLsbD 1 && c.threads.all (fun th => !th.live || th.stop.isSome) then c.freeze s.clk.now else c
    match s.unit? uid with
    | some u => (s.stopRecord u crew 0x41 handle lanes).touch
    | none => s

/-- Threads that have executed an instruction: those that were stepping stop (R437). -/
def State.stepped (s : State) (ts : List Tid) : State :=
  let ks := ts.filterMap fun t => let th := s.thread t; if th.live then th.stepping.map fun h => (t, h) else none
  (ks.map fun k => (k.1.uid, k.1.crew, k.2)).eraseDups.foldl (fun s g =>
    s.stepEnd g.1 g.2.1 g.2.2 ((ks.filter fun k => k.1.uid == g.1 && k.1.crew == g.2.1 && k.2 == g.2.2).map (·.1.lane))) s

/-- The lowest lane of an event. -/
def TrapEvent.lowest (e : TrapEvent) : Nat := (e.lanes.map (·.1)).foldl min 31

/-- The registers g0 to g5 and g32 to g63 of the handler at its entry, which are full (R416). -/
def Thread.enter (h : Thread) (e : TrapEvent) (crew pc word entry now : Nat) : Thread :=
  let h := (((h.setReg 0 (e.cause + 256 * crew)).setReg 1 (maskOf (e.lanes.map (·.1)))).writeRegs 2 2 pc).setReg 4 word
  let h := h.setReg 5 (e.lanes.foldl (fun d l => d ||| l.2) 0)
  let h := (List.range 32).foldl (fun h l => h.setReg (32 + l) ((assocGet e.lanes l).getD 0)) h
  { h with live := true, pc := BitVec.ofNat 64 entry, empty := h.empty.filter (fun e => (decide (6 ≤ e.1) && decide (e.1 < 32)) || decide (64 ≤ e.1)), fsr := 0, rstack := [], spilled := 0, wait := none, hold := [], acquire := [], readySince := now, urgent := none }

/-- R416: the handler of a crew is entered for an event. -/
def State.enterHandler (s : State) (uid crew : Nat) (e : TrapEvent) : State :=
  match s.unit? uid with
  | none => s
  | some u =>
    let th := (u.crew crew).thread e.lowest
    let word := s.wordAt u th
    (s.mapCrew uid crew fun c =>
      { c.mapAll (fun (th : Thread) => if th.stop.isSome then th else { th with wrotePc := none }) with event := some e, handler := c.handler.enter e crew th.pc.toNat word u.desc.handler s.clk.now }).touch

/-- R414, R415, R418: a trap event of a crew freezes it and enters its handler, or waits while an event is served; in a unit
without a handler it is a fault. more: other events of the unit arose in the same cycle (R411). -/
def State.takeTrap (s : State) (uid crew : Nat) (e : TrapEvent) (more : Bool) : State :=
  match s.unit? uid with
  | none => s
  | some u =>
    if u.desc.handler = 0 then
      s.takeFault ⟨uid, crew, e.lowest⟩
        { cause := 0x2C, reason := e.cause, detail := (assocGet e.lanes e.lowest).getD 0 } (maskOf (e.lanes.map (·.1))) (more || e.lanes.length != 1)
    else
      let busy := (u.crew crew).frozen
      let s := (s.leaveWaits fun t => t.uid == uid && t.crew == crew && t.lane != 32).mapCrew uid crew (·.freeze s.clk.now)
      if busy then (s.mapCrew uid crew fun (c : Crew) => { c with pending := c.pending ++ [e] }).touch
      else s.enterHandler uid crew e

/-- A crew thaws: its threads continue at their PCs (R422). -/
def Crew.thaw (c : Crew) (now : Nat) : Crew :=
  { c.mapAll (fun (th : Thread) => { th with readySince := now, wrotePc := none }) with frozen := false, event := none, budget := c.budget.go now, handler := { c.handler with live := false, wait := none } }

/-- The end of a handler's service of its event (R422): the next pending event, or the crew thaws. -/
def State.leaveHandler (s : State) (uid crew : Nat) : State :=
  match (s.crew uid crew).pending with
  | e :: es => (s.mapCrew uid crew fun (c : Crew) => { c with pending := es }).enterHandler uid crew e
  | [] => (s.mapCrew uid crew (·.thaw s.clk.now)).touch

end Sys2Proof.Machine
end

