-- ==== Sys2Proof/Machine/Operands.lean ====
section
/-! DEFINITION. Operands: elements of packed types, literals, numeric and lane modifiers, the full/empty checks
(02_encoding R40 to R53; 04_integer R92, R97, R98; 08_crosslane R196). -/

namespace Sys2Proof

open Machine

/-! ## Elements -/

/-- Element e of a packed value whose elements are w bits wide (R97). -/
def elem (w v e : Nat) : Nat := v / 2 ^ (w * e) % 2 ^ w

/-- Elements of w bits packed, element 0 in the low bits. -/
def packElems (w : Nat) : List Nat → Nat
  | [] => 0
  | x :: xs => x % 2 ^ w + 2 ^ w * packElems w xs

/-- The n elements of a value. -/
def elems (w n v : Nat) : List Nat := (List.range n).map (elem w v)

/-- n elements of w bits changed one by one. -/
def mapElems (w n : Nat) (f : Nat → Nat) (v : Nat) : Nat := packElems w ((elems w n v).map f)

/-! ## Numeric modifiers (R52) -/

/-- The numeric modifier on one element of w bits of a signed integer type: two's complement, wrapping. -/
def numInt (m : NumMod) (w x : Nat) : Nat :=
  let v := toSigned w x
  match m with
  | .none => x % 2 ^ w
  | .neg => wrap w (-v)
  | .abs => wrap w v.natAbs
  | .negAbs => wrap w (-(v.natAbs : Int))

/-- The numeric modifier on one element of w bits of a float type: the sign bit alone. -/
def numFloat (m : NumMod) (w x : Nat) : Nat :=
  let x := x % 2 ^ w
  let mag := x % 2 ^ (w - 1)
  match m with
  | .none => x
  | .neg => if bit x (w - 1) then mag else mag + 2 ^ (w - 1)
  | .abs => mag
  | .negAbs => mag + 2 ^ (w - 1)

/-- The numeric modifier on an operand of k registers read as type t (R52); on an operand narrower than the type it acts
on the 32-bit register (log 12). -/
def numApply (m : NumMod) (t : Option Ty) (k v : Nat) : Nat :=
  match m, t with
  | .none, _ => v
  | _, none => v
  | m, some t =>
    let w := min t.elemWidth (32 * k)
    let n := if t.width < 32 then 1 else 32 * k / w
    mapElems w n (if t.isFloat then numFloat m w else numInt m w) v

/-! ## Lane modifiers (R51) -/

/-- The lane that a modifier reads for lane l (R51, R196). -/
def LaneMod.source (m : LaneMod) (l : Nat) : Nat :=
  let size := m.seg.lanes
  let base := l - l % size
  match m.cls with
  | .identity => l
  | .rotate => base + (l - base + m.dist.toNat) % size
  | .butterfly => l ^^^ m.dist.toNat
  | .broadcast => base + m.dist.toNat

/-- An operand field read in a thread, without modifiers. -/
def Kind.read (k : Kind) (n : Nat) (th : Thread) : Nat :=
  match k with
  | .regs c => th.readRegs n c
  | .handle => th.reg n
  | .pred => boolNat (th.pred n)
  | .mask | .num => n
  | .unused => 0

/-- Registers that an operand names. -/
def Kind.count : Kind → Nat
  | .regs n => n
  | .handle => 1
  | .pred | .mask | .num | .unused => 0

/-- A source with its modifier, for a thread; act: the active lanes of the participation set (R51). -/
def sourceOf (s : State) (k : Kind) (n : Nat) (m : LaneMod) (num : Option Ty) (t : Tid) (act : List Nat) : Nat :=
  if m.cls = .identity then numApply m.num num k.count (k.read n (s.thread t))
  else
    let l := m.source t.lane
    if act.contains l then numApply m.num num k.count (k.read n (s.thread { t with lane := l })) else 0

/-- The value of a literal as an operand of k registers (R43). -/
def literalValue (v : DWord) (k : Nat) : Nat := if k = 1 then v.toNat % 2 ^ 32 else v.toNat

/-- Source A of an instruction in a thread. -/
def View.srcA (v : View) (s : State) (t : Tid) (act : List Nat) : Nat :=
  sourceOf s v.row.a v.x.a.toNat v.x.modA v.row.numA t act

/-- Source B of an instruction in a thread: a register with its modifier, or the literal. -/
def View.srcB (v : View) (s : State) (t : Tid) (act : List Nat) : Nat :=
  match v.x.b with
  | .lit l => literalValue l v.row.b.count
  | .reg n => sourceOf s v.row.b n.toNat v.x.modB v.row.numB t act

/-- Source C of an instruction in a thread. -/
def View.srcC (v : View) (s : State) (t : Tid) : Nat := v.row.c.read v.x.c.toNat (s.thread t)

/-- The registers that an instruction reads through D (R215). -/
def View.srcD (v : View) (s : State) (t : Tid) : Nat := v.row.d.read v.x.d.toNat (s.thread t)

/-- The literal, sign-extended from 32 bits or whole, as a code offset (R119, R120). -/
def View.code (v : View) : Nat :=
  match v.x.b with
  | .lit l => l.toNat
  | .reg _ => 0

/-- The guard of an instruction in a thread (R44). -/
def View.guard (v : View) (th : Thread) : Bool := th.pred v.x.guard.toNat != v.x.gn

/-! ## Full/empty checks (R48, R92) -/

/-- A register operand that is read: its number as a source (0, 1, 2 for A, B, C; 3 for D), first register, count, FE bit,
and the lane that is read. -/
structure Read where
  src : Nat
  reg : Nat
  count : Nat
  fe : Bool
  lane : Nat
  deriving DecidableEq, Repr

/-- The register reads of one operand. -/
def readsOf (src : Nat) (k : Kind) (n : Nat) (fe : Bool) (m : LaneMod) (lane : Nat) (act : List Nat) : List Read :=
  match k with
  | .regs c =>
    if m.cls = .identity then [⟨src, n, c, fe, lane⟩]
    else if act.contains (m.source lane) then [⟨src, n, c, fe, m.source lane⟩]
    else []
  | .handle | .pred | .mask | .num | .unused => []

/-- Every general register that a thread reads at an instruction (R48, R51). -/
def View.reads (v : View) (lane : Nat) (act : List Nat) : List Read :=
  readsOf 0 v.row.a v.x.a.toNat v.x.feA v.x.modA lane act ++
  (match v.x.b with
    | .reg n => if v.row.oneB && lane != act.headD lane then [] else readsOf 1 v.row.b n.toNat v.x.feB v.x.modB lane act
    | .lit _ => []) ++
  readsOf 2 v.row.c v.x.c.toNat v.x.feC .zero lane act ++
  (if v.row.dRead then readsOf 3 v.row.d v.x.d.toNat false .zero lane act else [])

/-- What the full/empty checks of R48 give. -/
inductive Check where
  | ready
  | wait
  | trap (detail : Nat)
  deriving DecidableEq, Repr

/-- R48: a read of an empty register traps through FE, else waits. -/
def View.check (v : View) (s : State) (t : Tid) (act : List Nat) : Check :=
  let rs := (v.reads t.lane act).filter fun r => (s.thread { t with lane := r.lane }).anyEmpty r.reg r.count
  let d := maskOf ((rs.filter (·.fe)).map (·.src))
  if d ≠ 0 then .trap d else if rs ≠ [] then .wait else .ready

/-- R92: a register of the destination is still empty. -/
def View.destBusy (v : View) (th : Thread) : Bool :=
  match v.row.d with
  | .regs k => !v.row.dRead && th.anyEmpty v.x.d.toNat k
  | .unused | .handle | .pred | .mask | .num => false

/-- A result written to the destination of a thread (R41, R97). -/
def View.writeD (v : View) (r : Nat) (th : Thread) : Thread :=
  match v.row.d with
  | .regs k => th.writeRegs v.x.d.toNat k r
  | .pred => th.setPred v.x.d.toNat (r != 0)
  | .unused | .handle | .mask | .num => th

end Sys2Proof
end

