-- ==== Sys2Proof/Machine/Issue.lean ====
section
/-! DEFINITION. The issue of one bundle at one instruction: the checks of R60 in their order, guards, the uniform path, the
meeting of a crew at a collective instruction, and what traps and faults of its threads come to (02_encoding R44 to R49,
R60; 05_control R117; 06_float R143, R144; 08_crosslane R193 to R195; 15_traps R411, R415). -/

namespace Sys2Proof.Machine

/-- Bytes that an instruction occupies (R33, R34). -/
def instrSize (i : Instr) : Nat := 4 * (encode i).length

/-- A bundle on its way through an instruction: the state, and the traps and faults taken, lowest thread first. -/
structure Run where
  st : State
  traps : List (Tid × Nat × Nat)
  faults : List (Tid × FaultInfo)
  deriving DecidableEq, Repr

def Run.start (s : State) : Run := { st := s, traps := [], faults := [] }

/-- What a run adds to an earlier one. -/
def Run.after (r q : Run) : Run := { st := q.st, traps := r.traps ++ q.traps, faults := r.faults ++ q.faults }

/-- A thread that has executed an instruction waits for nothing, has arrived nowhere, and is ready anew (R360). -/
def Thread.settled (th : Thread) (now : Nat) : Thread :=
  { th with wait := none, arrival := none, latch := none, virt := false, passBp := false, readySince := now, urgent := none }

/-- Threads have issued an instruction: the watchdog of their context takes notice (R373). -/
def State.actFor (s : State) (ts : List Tid) : State :=
  match ts with
  | [] => s
  | t :: _ => s.actOf t.uid

/-- Threads continue at the next instruction. -/
def State.advance (s : State) (ts : List Tid) (len : Nat) : State :=
  ((ts.foldl (fun s t => s.mapThread t fun th =>
    { th.settled s.clk.now with pc := th.pc + BitVec.ofNat 64 len }) s).stepped ts).actFor ts

/-- Threads whose PCs an instruction has set. -/
def State.settleAll (s : State) (ts : List Tid) : State :=
  ((ts.foldl (fun s t => s.mapThread t fun th => th.settled s.clk.now) s).stepped ts).actFor ts

/-- Threads wait at the instruction. -/
def State.waitAll (s : State) (ts : List Tid) (w : Wait) : State :=
  ts.foldl (fun s t => s.mapThread t fun th => { th with wait := some w, tried := s.clk.stepNo }) s

/-- What an instruction does for one thread, or for the leader and all receivers under U = 1: from the state before the
bundle, the state now, the leader, the receivers and the active lanes. -/
abbrev Body := State → State → Tid → List Tid → List Nat → TRes

/-- What an instruction comes to for threads rs, in whose name t acts. Under U = 1 a trap of t is taken by no other thread:
those of its crew freeze with it, those of other crews wait for its resume (R46, R144). -/
def Run.take (r : Run) (len : Nat) (t : Tid) (rs : List Tid) : TRes → Run
  | .done s => { r with st := (s.advance rs len).touch }
  | .went s => { r with st := (s.settleAll rs).touch }
  | .wait w s => { r with st := s.waitAll rs w }
  | .trap c d => { r with st := r.st.waitAll (rs.filter (·.crew != t.crew)) (.uniform t.crew), traps := r.traps ++ [(t, c, d)] }
  | .fault i => { r with faults := r.faults ++ [(t, i)] }
  | .failed i s => { r with st := s, faults := r.faults ++ [(t, i)] }

/-- One thread, or the leader under U = 1, goes through the full/empty checks and the instruction (R46, R48, R92). -/
def Run.one (v : View) (len : Nat) (f : Body) (s0 : State) (act : List Nat) (r : Run) (t : Tid) (rs : List Tid) : Run :=
  match v.check s0 t act with
  | .trap d => r.take len t rs (.trap 3 d)
  | .wait => { r with st := r.st.waitAll rs .source }
  | .ready =>
    if rs.any fun q => v.destBusy (s0.thread q) then { r with st := r.st.waitAll rs .dest }
    else r.take len t rs (f s0 r.st t rs act)

/-- Every active thread in order, or the lowest one for all of them under U = 1 (R46). -/
def eachThread (f : View → Body) (v : View) (len : Nat) (s : State) (act : List Tid) : Run :=
  if v.x.u then
    match act with
    | [] => .start s
    | t :: _ => (Run.start s).one v len (f v) s (act.map (·.lane)) t act
  else act.foldl (fun r t => r.one v len (f v) s (act.map (·.lane)) t [t]) (.start s)

/-- Every active thread by itself, whatever U holds (R128, R254). -/
def eachOwn (f : View → Body) (v : View) (len : Nat) (s : State) (act : List Tid) : Run :=
  act.foldl (fun r t => r.one v len (f v) s (act.map (·.lane)) t [t]) (.start s)

/-- Every active thread does its own part; under U = 1 the operands of the lowest stand for all, and they alone are checked
(R46, R121, R123). A thread that has taken its value before goes on with that value. -/
def eachPart (f : View → Body) (v : View) (len : Nat) (s : State) (act : List Tid) : Run :=
  let lanes := act.map (·.lane)
  let part := fun (t : Tid) (r : Run) (q : Tid) => r.take len q [q] (f v s r.st t [q] lanes)
  let new := act.filter fun q => (s.thread q).taken.isNone
  let r := (act.filter fun q => (s.thread q).taken.isSome).foldl (fun r q => part q r q) (.start s)
  let checked := fun (t : Tid) (ts : List Tid) (r : Run) => match v.check s t lanes with
    | .trap d => r.take len t ts (.trap 3 d)
    | .wait => { r with st := r.st.waitAll ts .source }
    | .ready => ts.foldl (part t) r
  if v.x.u then (match new with | [] => r | t :: _ => checked t new r)
  else new.foldl (fun r t => checked t [t] r) r

/-- The runner of an instruction that looks after its destination itself (R130, R216, R301). -/
def lateDest (f : View → Body) (v : View) (len : Nat) (s : State) (act : List Tid) : Run :=
  eachThread (fun _ => f v) { v with row := { v.row with d := .unused } } len s act

/-- R92, after the checks of R211: an instruction waits until the registers of its destination are full. -/
def destFull (v : View) (s0 s : State) (rs : List Tid) (k : TRes) : TRes :=
  if rs.any fun q => v.destBusy (s0.thread q) then .wait .dest s else k

/-! ## Meeting at a collective instruction (R117, R193, R194) -/

/-- The threads of a crew that have arrived at the collective instruction at pc. -/
def Crew.arrivedAt (c : Crew) (pc : DWord) : List Nat :=
  (List.range 32).filter fun l => let th := c.threads.getD l .absent; th.live && th.pc == pc && (th.arrival matches some (.collective _) | some (.due _))

/-- Of those, the ones whose set has still to become complete. -/
def Crew.gatheredAt (c : Crew) (pc : DWord) : List Nat :=
  (c.arrivedAt pc).filter fun l => (c.threads.getD l .absent).arrival matches some (.collective _)

/-- The set with which the threads at pc issue, when it has been complete (R117). -/
def Crew.dueAt (c : Crew) (pc : DWord) : Option (List Nat) :=
  (c.arrivedAt pc).findSome? fun l => match (c.threads.getD l .absent).arrival with
    | some (.due set) => some set
    | some (.collective _) | some (.join ..) | none => none

/-- The participation set: the mask named by MSK, and the live mask (R117). -/
def Crew.members (c : Crew) (msk : Nat) : List Nat :=
  (List.range 32).filter fun l => bit (c.mask msk) l && (c.threads.getD l .absent).live

def participants (v : View) (c : Crew) : List Nat := c.members v.x.msk.toNat

/-- Lanes of a crew stand arrived, or arrived nowhere. -/
def State.setArrival (s : State) (uid c : Nat) (lanes : List Nat) (a : Option Arrival) : State :=
  lanes.foldl (fun s l => s.mapThread ⟨uid, c, l⟩ fun th => { th with arrival := a }) s

/-- The complete participation set of a crew meets the full/empty checks together and issues (R194). When the body waits
(R174), or when every active participant traps (R202), nobody goes on. -/
def meet (v : View) (len : Nat) (body : State → List Tid → Run) (s : State) (uid c : Nat) (pc : DWord) (set : List Nat) : Run :=
  let crew := s.crew uid c
  let tid := fun l => (⟨uid, c, l⟩ : Tid)
  let act := set.filter fun l => v.guard (crew.thread l)
  let here := crew.arrivedAt pc
  let rest := here.filter fun l => !act.contains l
  let checks := act.map fun l => (l, v.check s (tid l) act)
  let traps := checks.filterMap fun q => match q.2 with | .trap d => some (tid q.1, 3, d) | .ready | .wait => none
  let stay := fun (s : State) => s.setArrival uid c here (some (.collective v.x.msk.toNat))
  if traps ≠ [] then
    { st := (stay s).setArrival uid c (traps.map (·.1.lane)) none, traps, faults := [] }
  else if checks.any (fun q => q.2 == .wait) then .start ((stay s).waitAll (act.map tid) .source)
  else if (if v.row.elect then act.take 1 else act).any (fun l => v.destBusy (crew.thread l)) then
    .start ((stay s).waitAll (act.map tid) .dest)
  else
    let r := if act = [] then .start s else body s (act.map tid)
    let trapped := act ≠ [] ∧ act.all fun l => r.traps.any fun q => q.1 == tid l
    let waits := r.traps == [] && r.faults == [] && act.any fun l => (r.st.thread (tid l)).arrived
    if trapped ∨ waits then { r with st := stay r.st } else { r with st := (r.st.advance (rest.map tid) len).touch }

/-- The threads of one crew in the bundle reach a collective instruction. A set that was complete before issues first. Then
those that have arrived earlier wait on; those that arrive now go on if they lie outside the set, and the instruction issues
when the set is complete (R45, R117). -/
def arrive (v : View) (len : Nat) (body : State → List Tid → Run) (s : State) (uid c : Nat) (lanes : List Nat) : Run :=
  let tid := fun l => (⟨uid, c, l⟩ : Tid)
  let pc := ((s.crew uid c).thread (lanes.headD 0)).pc
  let fresh := lanes.filter fun l => !((s.crew uid c).thread l).arrived
  let r := match (s.crew uid c).dueAt pc with
    | some set => meet v len body s uid c pc set
    | none => .start s
  if r.traps ≠ [] ∨ r.faults ≠ [] then r
  else
    let set := participants v (r.st.crew uid c)
    let out := fresh.filter fun l => !set.contains l
    let new := fresh.filter set.contains
    let s := if out = [] then r.st else (r.st.advance (out.map tid) len).touch
    let s := s.setArrival uid c new (some (.collective v.x.msk.toNat))
    let s := if new = [] then s else s.touch
    let here := (s.crew uid c).gatheredAt pc
    if here = [] then .start s
    else
      let s := s.waitAll ((lanes.filter here.contains).map tid) .collective
      if set.all here.contains then meet v len body s uid c pc set else .start s

/-! ## Traps and faults of a bundle -/

/-- The trap events of one issue: those of one crew and cause together, in the order of their lowest lanes (R415). -/
def groupTraps : List (Tid × Nat × Nat) → List (Nat × TrapEvent)
  | [] => []
  | (t, c, d) :: more =>
    let gs := groupTraps more
    let same := gs.filter fun g => g.1 == t.crew && g.2.cause == c
    (t.crew, { cause := c, lanes := (t.lane, d) :: same.flatMap (·.2.lanes) }) ::
      gs.filter fun g => !(g.1 == t.crew && g.2.cause == c)

/-- The place of a thread in the order of its unit (R46). -/
def Tid.order (t : Tid) : Nat := t.crew * 32 + t.lane

/-- The fault of the lowest thread. -/
def lowestFault (q : Tid × FaultInfo) (qs : List (Tid × FaultInfo)) : Tid × FaultInfo :=
  qs.foldl (fun o p => if p.1.order < o.1.order then p else o) q

/-- R411, R415: faults before traps; the fault of the lowest thread stands for all. A trap of a handler is a fault (R417). -/
def Run.settle (r : Run) (uid : Nat) : State :=
  match r.faults with
  | q :: more =>
    let (t, f) := lowestFault q more
    r.st.takeFault t f (maskOf ((q :: more).filterMap fun q => if q.1.crew = t.crew ∧ q.1.lane < 32 then some q.1.lane else none)) (more != [])
  | [] =>
    let s := r.traps.foldl (fun s q => s.mapThread q.1 fun th => { th with arrival := none }) r.st
    let gs := groupTraps r.traps
    gs.foldl (fun s g =>
      match g.2.lanes with
      | [(32, d)] => s.takeFault ⟨uid, g.1, 32⟩ { cause := g.2.cause, detail := d } 0 false
      | _ => s.takeTrap uid g.1 g.2 (decide (1 < gs.length))) s

/-! ## Issue -/

/-- Where a bundle runs (R41, R417). -/
def RUnit.place (u : RUnit) (t : Tid) : Place :=
  { handler := t.lane == 32, system := u.isSystem, regs := if t.lane = 32 then 64 else u.desc.regs, unitRegs := u.desc.regs }

/-- The bundle whose instruction executes: its unit, its first thread and the others. -/
def State.bundle (s : State) : Option (RUnit × Tid × List Tid) :=
  match s.sched.issue with
  | some (uid, t :: ts) =>
    (s.unit? uid).map fun u => (u, ⟨uid, t.1, t.2⟩, ts.map fun q => ⟨uid, q.1, q.2⟩)
  | some (_, []) | none => none

/-- Every thread of a bundle takes a fault that does not depend on data (R60, steps 1 to 3). -/
def State.faultBundle (s : State) (t : Tid) (ts : List Tid) (f : FaultInfo) : State :=
  Run.settle { st := s, traps := [], faults := (t :: ts).map fun q => (q, f) } t.uid

/-- The crews of a bundle's threads, each once. -/
def crewsOf (ts : List Tid) : List Nat := (ts.map (·.crew)).eraseDups

/-- R60: steps 2 to 5, then the body over the active threads, then what traps and faults come to. -/
def issue (i : Instr) (body : View → Nat → State → List Tid → Run) (s : State) : Out :=
  match s.bundle, i.view with
  | some (u, t, ts), some v =>
    if v.illegal.isSome || (v.illegalAt (u.place t)).isSome then .next (s.faultBundle t ts { cause := 0x21 })
    else if v.row.priv && !u.isSystem then .next (s.faultBundle t ts { cause := 0x22 })
    else
      let len := instrSize i
      let all := t :: ts
      if v.collective then
        let old := all.filter fun q => (s.thread q).taken.isSome
        let new := all.filter fun q => (s.thread q).taken.isNone
        let r := if old = [] then .start s else body v len s old
        .next (((crewsOf new).foldl (fun r c => r.after (arrive v len (body v len) r.st u.uid c
          ((new.filter fun q => q.crew == c).map (·.lane)))) r).settle u.uid)
      else
        let off := all.filter fun q => !v.guard (s.thread q)
        let act := all.filter fun q => v.guard (s.thread q)
        let s := if off = [] then s else (s.advance off len).touch
        .next ((body v len s act).settle u.uid)
  | _, _ => .fault .noBundle

end Sys2Proof.Machine
end

