-- ==== Sys2Proof/Machine/Access.lean ====
section
/-! DEFINITION. The data path that every access shares: transactions and their entries, the checks of R211, lines and
signatures, versions and undo logs, the performing of a write, the private region, and what an access waits for
(09_memory R209 to R225, R237, R244, R245; 10_ordering R251 to R258; 11_atomics_routines R301; 12_tasks_grades R308 to
R317, R325 to R329, R337). -/

namespace Sys2Proof.Machine

/-! ## Transactions (R244) -/

def State.txn? (s : State) (id : Nat) : Option Txn := s.txns.find? (·.id == id)

def State.mapTxn (s : State) (id : Nat) (f : Txn → Txn) : State :=
  { s with txns := s.txns.map fun x => if x.id = id then f x else x }

/-- An access is over; the watchdog takes notice (R373). -/
def State.dropTxn (s : State) (id : Nat) : State :=
  let s := match s.txn? id with | some x => s.act x.ctx | none => s
  { s with txns := s.txns.filter (·.id != id) }

/-- The recorded failures of a thread that hold their entries still: those of a timeout have given them up (R245, R382). -/
def Thread.failEntries (th : Thread) : Nat := (th.fails.filter fun f => !f.unknown).length

/-- Outstanding-transaction entries that a thread holds; a recorded failure keeps its entry until it is reported (R244,
R245). -/
def State.entries (s : State) (t : Tid) : Nat :=
  (s.txns.filter fun x => x.entry && x.holders.contains t).length + (s.thread t).failEntries +
    (s.ops.filter fun o => o.tid == t && (o.kind matches .rld | .rld3 | .mcst)).length

/-- Entries that recorded failures of the threads of a unit hold. -/
def RUnit.failCount (u : RUnit) : Nat :=
  u.crews.foldl (fun n c => c.threads.foldl (fun n th => n + th.failEntries) n) 0

/-- Entries that a core holds. -/
def State.coreEntries (s : State) (core : Nat) : Nat :=
  ((s.txns.filter fun x => x.entry && x.core == core).map fun x => x.holders.length).sum +
    (s.units.filter (·.core == core)).foldl (fun n u => n + u.failCount) 0 +
    (s.ops.filter fun o => o.core == core && (o.kind matches .rld | .rld3 | .mcst)).length

/-- An access of a thread finds an entry free (R244). -/
def State.entryFree (s : State) (t : Tid) (core : Nat) : Bool := decide (s.entries t < 8) && decide (s.coreEntries core < 512)

/-- Fabric accesses (R250, R271). -/
def TxnKind.fabric : TxnKind → Bool
  | .rst _ | .ratom .. => true
  | .load .. | .store _ | .atomic .. | .cas .. | .lrun .. | .waitv .. | .gread _ | .gpub .. | .gwait .. | .launch => false

/-- Accesses with a write or a write half (R250). -/
def TxnKind.writes : TxnKind → Bool
  | .store _ | .atomic .. | .cas .. | .lrun .. | .rst _ | .ratom .. | .gpub .. => true
  | .load .. | .waitv .. | .gread _ | .gwait .. | .launch => false

/-- Accesses with a read or a read half (R250). -/
def TxnKind.reads : TxnKind → Bool
  | .load .. | .atomic .. | .cas .. | .lrun .. | .waitv .. | .gread _ | .gwait .. | .ratom .. => true
  | .store _ | .rst _ | .gpub .. | .launch => false

/-- The write has not performed, nor has its failure reached the entry. -/
def Txn.writePending (x : Txn) : Bool := x.kind.writes && !(x.phase matches .performed _)

/-- The read has not its value, or its answer has not come. -/
def Txn.readPending (x : Txn) : Bool :=
  x.kind.reads && !((x.phase matches .performed _) && (x.dests.isEmpty || (x.kind matches .waitv .. | .gwait ..)))

/-- A thread waits for earlier writes, reads or both; fabric accesses only when asked (R251). -/
def State.outstanding (s : State) (t : Tid) (writes reads fabric : Bool) : Bool :=
  (s.txns.any fun x => x.holders.contains t && (fabric || !x.kind.fabric) &&
    ((writes && x.writePending) || (reads && x.readPending))) ||
  (fabric && s.ops.any fun o => o.tid == t && ((writes && (o.kind matches .mcst)) || (reads && (o.kind matches .rld | .rld3))))

/-- k registers from gn on take a value, low register first, each if it still waits for the access (R208). -/
def Thread.fillRegs (th : Thread) (id n : Nat) : Nat → Nat → Thread
  | 0, _ => th
  | k + 1, v => (if th.producer n = some (.txn id) then (th.setReg n v).markFull n 1 else th).fillRegs id (n + 1) k (v / 2 ^ 32)

/-- Two ranges share a byte. -/
def overlaps (a n b m : Nat) : Bool := decide (a < b + m) && decide (b < a + n)

/-- A pending access of a thread that overlaps a range of a space, before a given one (R258, R261). -/
def State.overlapping (s : State) (t : Tid) (sp : Space) (a n before : Nat) (writes : Bool) : Bool :=
  s.txns.any fun x => x.tid == t && x.space == sp && !x.kind.fabric && overlaps x.va x.size a n && decide (x.id < before) &&
    (if writes then x.writePending else x.readPending || x.writePending)

/-- An answer fills the destinations of an access that still wait for it. -/
def State.fill (s : State) (id k v : Nat) (dests : List Dest) : State :=
  dests.foldl (fun s d => s.mapThread d.1 (·.fillRegs id d.2 k v)) s

/-- The value that the answer of an access carries, when it carries one. -/
def Phase.value : Phase → Nat
  | .performed v => v
  | .issued | .accepted | .sleeping | .failed _ | .resend => 0

/-- The reads that a thread has issued and that have no value yet; its fabric reads too when asked (R250, R251). -/
def State.readsOf (s : State) (t : Tid) (fabric : Bool) : List Nat :=
  (s.txns.filter fun x => (x.tid == t || x.holders.contains t || x.dests.any (·.1 == t)) && x.readPending && (fabric || !x.kind.fabric)).map (·.id) ++
    (if fabric then (s.ops.filter fun o => o.tid == t && (o.kind matches .rld | .rld3)).map (·.id) else [])

/-- A thread performs an acquire: no access before the reads that it has issued have their values (R251, R260). -/
def State.acquireAll (s : State) (t : Tid) : State :=
  let ids := s.readsOf t false
  let known := s.known t.uid
  s.mapThread t fun th => { th.learn known with acquire := ids ++ th.acquire }

/-- An access with acquire acts as a fence.acq after it: no later access before the reads issued by then have their values
(R260). -/
def State.acquiring (s : State) (ac : Access) (ts : List Tid) : State :=
  if ac.ord = .acquire ∨ ac.ord = .acqRel then
    ts.foldl (fun s t => let ids := s.readsOf t (ac.scope == .fabric); let known := s.known t.uid; s.mapThread t fun th => { th.learn known with acquire := ids ++ th.acquire }) s
  else s

/-- An access with release acts as a fence.rel before it (R260). -/
def State.releasing (s : State) (ac : Access) (t : Tid) : State :=
  if ac.ord = .release ∨ ac.ord = .acqRel then s.makeKnown t else s

/-- A thread at another PC has taken nothing there. -/
def Thread.setPc (th : Thread) (pc : DWord) : Thread := { th with pc, latch := if th.pc = pc then th.latch else none }

def State.setPcs (s : State) (ts : List Tid) (pc : DWord) : State := ts.foldl (fun s t => s.mapThread t (·.setPc pc)) s

/-! ## Checks at issue (R209, R211) -/

/-- Why an access is refused at issue. -/
inductive Bad where
  | mem (reason : Nat)
  | notHeld
  deriving DecidableEq, Repr

def Bad.info (b : Bad) (addr : Nat) : FaultInfo :=
  match b with
  | .mem r => { cause := 0x20, reason := r, addr }
  | .notHeld => { cause := 0x23, addr }

def Bad.res (b : Bad) (addr : Nat) : TRes := .fault (b.info addr)

/-- An isle that start-up has disabled: words 15 and 16 of the boot record (R30, R480). -/
def State.isleDisabled (s : State) (isle : Nat) : Bool := bit (s.host.boot.getD (14 + isle / 32) 0).toNat (isle % 32)

/-- A vault address is granted to a context (R211, R458). -/
def State.granted (s : State) (ctx a : Nat) : Bool :=
  let g := (s.ctx ctx).vgrant.toNat
  g != 0 && bit (cellGet s.mem (g + a / 65536 / 8)).toNat (a / 65536 % 8) && !s.isleDisabled (isleOf (a / 2 ^ 22))

/-- Where a local address lies: the unit that owns the granule, and the address in its allocation (R209, R237). An address
of the borrowed range where no buffer is mapped is out of range. -/
def State.localAt (s : State) (uid a : Nat) : Except Bad (Nat × Nat) :=
  match s.unitOf? uid with
  | none => .error (.mem rRange)
  | some u =>
    if a < u.desc.loc then
      match u.granules[a / 4096]? with
      | some g => if g.holder = .own then .ok (uid, a) else .error .notHeld
      | none => .error (.mem rRange)
    else
      match u.borrowed.find? (·.at_ == a / 4096) with
      | some b => .ok (b.owner, b.granule * 4096 + a % 4096)
      | none => .error (.mem rRange)

/-- The checks of R211 on an access of n bytes. -/
def State.accessBad (s : State) (uid ctx : Nat) (sp : Space) (ea n : Nat) : Option Bad :=
  if ea % n ≠ 0 then some (.mem rMisaligned)
  else
    match sp with
    | .global => if 2 ^ 57 ≤ ea then some (.mem rRange) else none
    | .vault => if 2 ^ 31 ≤ ea then some (.mem rRange) else if s.granted ctx ea then none else some (.mem rVault)
    | .localMem => match s.localAt uid ea with | .ok _ => none | .error b => some b

/-- A local block that an instruction reads or names: its alignment, and that it lies in the unit's allocation. -/
def State.blockBad (s : State) (uid a n align : Nat) : Option Bad :=
  match s.unit? uid with
  | none => some (.mem rRange)
  | some u =>
    if a % align ≠ 0 then some (.mem rMisaligned)
    else if u.desc.loc < a + n then some (.mem rRange)
    else if (List.range ((a + n - 1) / 4096 + 1 - a / 4096)).all fun i => match s.localAt uid (a + 4096 * i) with | .ok _ => true | .error _ => false
    then none else some .notHeld

/-! ## Lines and signatures (R311, R312) -/

/-- The lines that n bytes from an address on touch. -/
def linesOf (a n : Nat) : List Nat := if n = 0 then [] else (List.range ((a + n - 1) / 128 + 1 - a / 128)).map (· + a / 128)

/-- Lines that the read signature of an unsealed task takes in. -/
def State.signRead (s : State) (uid : Nat) (sp : Space) (a n : Nat) : State :=
  s.mapUnit uid fun u =>
    if u.speculative && sp != .localMem then
      { u with task := { u.task with rsig := ((linesOf a n).map fun l => (⟨sp, l⟩ : LineKey)).filter (!u.task.rsig.contains ·) ++ u.task.rsig } }
    else u

/-- Lines that the write signature of an unsealed task takes in. -/
def State.signWrite (s : State) (uid : Nat) (sp : Space) (a n : Nat) : State :=
  s.mapUnit uid fun u =>
    if u.speculative && sp != .localMem then
      { u with task := { u.task with wsig := ((linesOf a n).map fun l => (⟨sp, l⟩ : LineKey)).filter (!u.task.wsig.contains ·) ++ u.task.wsig } }
    else u

/-- A line that an unsealed task has read: global lines by context (R312). -/
def State.marked (s : State) (ctx : Nat) (k : LineKey) : Bool :=
  s.units.any fun u => u.speculative && (k.space == .vault || u.ctx == ctx) && u.task.rsig.contains k

/-- R312: a non-speculative write on a marked line sends its address to the arbiters of all eight dies. -/
def State.conflicts (s : State) (ctx : Nat) (k : LineKey) (source : Option Nat) : State :=
  if s.marked ctx k then
    { s with commits := { s.commits with addrs := s.commits.addrs ++ (List.range 8).map fun die => ({ die, source, ctx, line := k } : AddrMsg) } }
  else s

/-! ## Caches (R213, R221 to R225, R448) -/

/-- The bytes of a core's L1, if it holds their line. -/
def State.l1Get (s : State) (core ctx va n : Nat) : Option (List Byte) :=
  (s.caches.l1.find? fun l => l.core == core && l.ctx == ctx && l.line == va / 128).map fun l => (l.data.drop (va % 128)).take n

/-- A line leaves every L1 (R213). -/
def State.purgeL1 (s : State) (ctx line : Nat) : State :=
  { s with caches := { s.caches with l1 := s.caches.l1.filter fun l => !(l.ctx == ctx && l.line == line) } }

/-- The lines of an L1 among which one must go before a line enters: those of its set, when it holds eight (R16; which set, and
which line goes: log 77). -/
def State.l1Full (s : State) (core line : Nat) : List L1Line :=
  let mine := s.caches.l1.filter (·.core == core)
  if mine.length < 8 then []
  else
    let set := mine.filter fun l => Config.l1SetOf l.line % 512 == Config.l1SetOf line % 512
    if set.length < 8 then [] else set

/-- A line enters an L1 of 512 sets of 8 ways, and the die directory names its isle (R16, R213). -/
def State.l1Fill (s : State) (core ctx va pa : Nat) : State :=
  let line := va / 128
  let full := if s.caches.l1.any fun l => l.core == core && l.ctx == ctx && l.line == line then [] else s.l1Full core line
  let q := if full = [] then (0, s) else s.free
  let s := match full[q.1 % full.length]? with
    | some l => { q.2 with caches := { q.2.caches with l1 := q.2.caches.l1.erase l } }
    | none => q.2
  let c := s.caches
  let old := match c.dirs.find? fun d => d.ctx == ctx && d.region == line / 4 with | some d => d.isles | none => []
  let isles := if old.contains (isleOf core) then old else isleOf core :: old
  { s with caches := { c with
    l1 := { core, ctx, line, data := cellsGet s.mem (pa / 128 * 128) 128 } :: c.l1.filter fun l => !(l.core == core && l.ctx == ctx && l.line == line),
    dirs := { ctx, region := line / 4, isles } :: c.dirs.filter fun d => !(d.ctx == ctx && d.region == line / 4) } }

/-- How a line is held at its home: pinned where a window with a mask, a pinnable page and a capacity allow (R222 to R224,
R453). -/
def State.lineUse (s : State) (ctx : Nat) (l : Leaf) (va : Nat) : LineUse :=
  let c := s.ctx ctx
  match c.pinWindow va with
  | some w => if w.mask != 0 && l.pn && (assocGet c.pincap (c.home l va)).getD 0 != 0 then .pinned else .normal
  | none => .normal

/-- The pinned capacities that the contexts have at a slice (R224). -/
def State.pinnedWays (s : State) (slice : Nat) : Nat := (s.ctxs.map fun c => (assocGet c.2.pincap slice).getD 0).sum

/-- The set of a slice that holds a line: one of 2,048 (R14: 4 MiB of 16 ways and 128-byte lines; the set index: log 13). -/
def sliceSet (line : Nat) : Nat := Config.setOf line % 2048

/-- The lines of a version. -/
def Task.versionLines (k : Task) : List Nat := (k.version.map (·.va / 128)).eraseDups

/-- Version lines that the device holds, by context. -/
def State.allVersionLines (s : State) : List (Nat × Nat) := s.units.flatMap fun u => u.task.versionLines.map fun l => (u.ctx, l)

/-- The slice and the set in which a line lies (R212, R222). -/
def State.lineSet (s : State) (ctx line : Nat) : Option (Nat × Nat) :=
  (s.leaf? ctx (line * 128)).map fun l => ((s.ctx ctx).home l (line * 128), sliceSet line)

/-- Version lines in a set of a slice. -/
def State.versionsAt (s : State) (slice set : Nat) : Nat := (s.allVersionLines.filter fun k => s.lineSet k.1 k.2 == some (slice, set)).length

/-- The ways that lines of a use may have in a set of a slice: the context's capacity for its pinned lines; for normal ones what
pinned and version ways leave, at least 2 (R222, R224; log 13). -/
def State.waysFor (s : State) (ctx slice set : Nat) (use : LineUse) : Nat :=
  match use with
  | .pinned => (assocGet (s.ctx ctx).pincap slice).getD 0
  | .normal => max 2 (16 - s.pinnedWays slice - min (s.versionsAt slice set) 8)

/-- The line that a slice evicts from a full set: of the lowest priority, and of those the least recently used; lines stand
most recently used first (R221). -/
def lowestLine : List SLine → Option SLine
  | [] => none
  | x :: xs => some (xs.foldl (fun o c => if c.ep ≤ o.ep then c else o) x)

/-- Lines go, the lowest first, until n of a kind are left. -/
def fewest (mine : SLine → Bool) (n : Nat) (ls : List SLine) : List SLine :=
  (List.range ((ls.filter mine).length - n)).foldl (fun l _ => match lowestLine (l.filter mine) with | some x => l.erase x | none => l) ls

/-- A set of a slice keeps no more lines of a use than it has ways for, with so many left free for lines that come: pinned lines of
the context go for a pinned one, normal lines for a normal one or a version (R221 to R224). -/
def State.fitSet (s : State) (ctx slice set : Nat) (use : LineUse) (free : Nat) : State :=
  let kind := fun (x : SLine) => x.slice == slice && x.use == use && (use == .normal || x.ctx == ctx)
  let n := (s.caches.slines.filter kind).length
  if (use = .normal ∧ n + free ≤ 2) ∨ n + free ≤ s.waysFor ctx slice set use then s
  else { s with caches := { s.caches with slines := fewest (fun x => kind x && sliceSet x.line == set) (s.waysFor ctx slice set use - free) s.caches.slines } }

/-- An access leaves its line in the home slice with its priority; with NA a normal line is not allocated, and a full set
evicts (R221, R223). -/
def State.keepLine (s : State) (ctx : Nat) (l : Leaf) (va ep : Nat) (na : Bool) : State :=
  let line := va / 128
  let use := s.lineUse ctx l va
  let slice := (s.ctx ctx).home l va
  let held := s.caches.slines.find? fun x => x.ctx == ctx && x.line == line
  if na && use == .normal && held.isNone then s
  else
    let new := match held with
      | some x => { x with ep, use }
      | none => { slice, ctx, line, ep, use, dirty := false, dram := [] }
    let s := { s with caches := { s.caches with slines := s.caches.slines.filter fun x => !(x.ctx == ctx && x.line == line) } }.fitSet ctx slice (sliceSet line) use 1
    { s with caches := { s.caches with slines := new :: s.caches.slines } }

/-- An access that its home has accepted leaves its line there with its hints; one whose page a shootdown has purged since leaves
none (R221, R451). -/
def State.keepFor (s : State) (x : Txn) (l : Leaf) : State :=
  if x.acc < (s.ctx x.ctx).purged x.core x.va then s else s.keepLine x.ctx l x.va x.ep x.na

/-- The same for a write: on a TSO page it is a release of its thread (R273). -/
def State.writeFor (s : State) (x : Txn) (l : Leaf) : State := (if l.tso then s.makeKnown x.tid else s).keepFor x l

/-- Lines of a write that carries no hint: each stays in its home slice with the priority that it has there, or else the lowest
(R221; log 13). -/
def State.enterLines (s : State) (ctx : Nat) (l : Leaf) (va n : Nat) : State :=
  (linesOf va n).foldl (fun s line =>
    let ep := match s.caches.slines.find? fun x => x.ctx == ctx && x.line == line with | some x => x.ep | none => 0
    s.keepLine ctx l (line * 128) ep false) s

/-- The lines that a write touches become dirty where a slice holds them, and keep what DRAM holds (R243). -/
def State.soil (s : State) (ctx va pa n : Nat) : State :=
  { s with caches := { s.caches with slines := s.caches.slines.map fun (x : SLine) =>
      if x.ctx = ctx ∧ x.dirty = false ∧ (linesOf va n).contains x.line then { x with dirty := true, dram := cellsGet s.mem (pa + x.line * 128 - va) 128 } else x } }

/-- A slice drops a dirty line whose write-back fails: memory keeps what was last written back (R243). The die of the slice, and
the state after it; none where no slice holds the line dirty. -/
def State.dropDirty (s : State) (ctx line : Nat) : Option (Nat × State) :=
  match s.caches.slines.find? fun x => x.ctx == ctx && x.line == line && x.dirty, s.leaf? ctx (line * 128) with
  | some x, some l =>
    some (x.slice / 32, { s with mem := cellsPut s.mem (l.addr (line * 128)) x.dram, caches := { s.caches with slines := s.caches.slines.erase x } })
  | _, _ => none

/-- A die directory evicts the entry of a region: every copy of the region is invalidated (R213). -/
def State.dropEntry (s : State) (ctx region : Nat) : State :=
  { s with caches := { s.caches with
    l1 := s.caches.l1.filter fun l => !(l.ctx == ctx && l.line / 4 == region),
    dirs := s.caches.dirs.filter fun d => !(d.ctx == ctx && d.region == region) } }

/-- A line of some has a store accepted and not yet performed, so its home holds every other read (R213, step 3). -/
def State.lineHeld (s : State) (ctx : Nat) (lines : List Nat) (except : Nat) : Bool :=
  s.txns.any fun y => y.id != except && y.ctx == ctx && y.space == .global && (y.phase matches .accepted) && (y.kind matches .store _) &&
    (linesOf y.va y.size).any lines.contains && !(s.unit? y.tid.uid).any (·.task.heldWrites.contains y.id)

/-! ## Grade records (R325 to R327) -/

/-- A word of n bytes of memory. -/
def State.word (s : State) (pa n : Nat) : Nat := leNat (cellsGet s.mem pa n)

/-- The grade of a state word (R326). -/
def gradeOf (state : Nat) : Grade :=
  match state % 4 with
  | 0 => .absent
  | 1 => .guess
  | 2 => .provisional
  | _ => .final

/-- The order of grades (R26). -/
def gradeRank : Grade → Nat
  | .absent => 0
  | .guess => 1
  | .provisional => 2
  | .final => 3

/-- The grade engine knows a block as a record from now on (R336). -/
def State.know (s : State) (ctx addr : Nat) : State :=
  if s.grades.known.contains (ctx, addr) then s else { s with grades := { s.grades with known := (ctx, addr) :: s.grades.known } }

/-- R327: the record at a physical address is invalid. -/
def State.recordInvalid (s : State) (pa : Nat) : Bool :=
  let size := s.word (pa + 8) 4
  let state := s.word (pa + 0x0C) 4
  s.word pa 8 % 128 != 0 || decide (2 ^ 57 ≤ s.word pa 8) || size % 128 != 0 || decide (size < 128) || decide (2 ^ 24 < size) ||
  bits state 3 2 != 0 || (state % 4 == 0 && state / 16 != 0) || decide (2 ^ 24 ≤ s.word (pa + 0x10) 4) ||
  decide (2 ≤ s.word (pa + 0x18) 4) || s.word (pa + 0x1C) 4 != 0 || (cellsGet s.mem (pa + 0x28) 24).any (· != 0)

/-- The state word that a grade instruction returns (R326, R339). -/
def State.recordState (s : State) (pa : Nat) : Nat := if s.recordInvalid pa then 8 else s.word (pa + 0x0C) 4

/-! ## The ceiling of a run (R329, R337) -/

/-- The ceiling of a run is final. -/
def RUnit.ceilingFinal (u : RUnit) : Bool := u.task.inputs.all fun i => i.state % 4 == 3

/-- A range of a context meets a range that a valid export entry opens for reading (R337, R383). -/
def Context.exportsRead (c : Context) (va n : Nat) : Bool :=
  (List.range 64).any fun i =>
    let r := fun k => ((assocGet c.exportTab (4 * i + k)).getD 0).toNat
    bit (r 2) 35 && bit (r 2) 32 && decide (va < r 0 + r 1) && decide (r 0 < va + n)

/-- Memory that a provisional run may not write (R337): host memory, a TSO page, an exported range. -/
def State.exposed (s : State) (ctx : Nat) (l : Leaf) (va n : Nat) : Bool :=
  bit l.pa 51 || l.tso || (s.ctx ctx).exportsRead va n

/-- A store to host memory or to a TSO page seals an unsealed task (R316). -/
def Leaf.sealing (l : Leaf) : Bool := bit l.pa 51 || l.tso

/-! ## Sealing and waiting (R316, R317, R337) -/

/-- A unit begins to commit its chunk. -/
def State.beginCommit (s : State) (uid : Nat) (goal : CommitGoal) : State :=
  match s.unit? uid with
  | none => s
  | some u =>
    if u.task.phase != .none then s
    else ({ s with commits := { s.commits with queue := s.commits.queue ++ [uid] } }.mapUnit uid fun u =>
      { u with task := { u.task with phase := .wanting, goal } }).touch

/-- A write that a task makes is held where it finds no room, or where it may not go yet, and the task seals (R310, R316, R337).
full: it is an overflow, so that every write that reaches its place from now on is held as well. -/
def State.sealFor (s : State) (uid : Nat) (full : Bool) : State :=
  (s.beginCommit uid .seal).mapUnit uid fun u =>
    if u.speculative && !(u.task.phase matches .numbered _) then { u with task := { u.task with goal := .seal, overflow := u.task.overflow || full } } else u

/-- The task holds a commit number, so its reads are at the commit point already (R268, R313). -/
def State.numbered (s : State) (uid : Nat) : Bool :=
  match s.unit? uid with
  | some u => match u.task.phase with | .numbered _ => true | .none | .wanting | .token => false
  | none => false

/-- The task seals for an overflow (R310). -/
def State.overflowing (s : State) (uid : Nat) : Bool := match s.unit? uid with | some u => u.task.overflow | none => false

/-- The unit of a thread is an unsealed task. -/
def State.speculates (s : State) (uid : Nat) : Bool := match s.unit? uid with | some u => u.speculative | none => false

/-- The unit commits or seals, so its threads issue no write (R310, R317). -/
def State.committing (s : State) (uid : Nat) : Bool := match s.unit? uid with | some u => u.task.phase != .none | none => false

/-- An instruction that seals an unsealed task waits for the seal (R286, R316). -/
def sealed (s : State) (t : Tid) (k : State → TRes) : TRes :=
  if s.speculates t.uid then .wait .sealing (s.beginCommit t.uid .seal)
  else if s.committing t.uid then .wait .sealing s
  else k s

/-- A unit stops before its next instructions (R333, R337, R363): an unsealed version is discarded; otherwise the engine
operations are cancelled and its issued stores go on, unreported; an access held for sending again is dropped (R489). -/
def State.haltUnit (s : State) (uid : Nat) (fate : Fate) : State :=
  let s := s.leaveWaits (·.uid == uid)
  let s := if s.speculates uid then s.discardVersion uid
    else State.releaseToken { s with
        ops := (s.ops.filter fun (o : Op) => o.tid.uid != uid || !((o.kind matches .mcst) && o.flags == 2)).map (fun (o : Op) => if o.tid.uid = uid then { o with cancelled := true } else o),
        txns := (s.txns.filter fun (x : Txn) => x.tid.uid != uid || ((x.kind matches .store _ | .rst _ | .ratom ..) && !(x.phase matches .resend))).map fun (x : Txn) => if x.tid.uid = uid then { x with orphan := true } else x } uid
  (s.mapUnit uid fun u => { u.mapThreads (fun (th : Thread) => th.unwait.unstop) with fate, task := { u.task with pubs := [], spawns := [], heldWrites := [], phase := .none, overflow := false } }).touch

/-- An act before which a provisional run waits: an unsealed one seals first. A run that has been amended is cancelled at the
instruction (R337). -/
def afterFinal (s : State) (t : Tid) (k : State → TRes) : TRes :=
  match s.unit? t.uid with
  | some u =>
    if u.ceilingFinal then k s
    else if u.task.stale && !u.speculative then .wait .sealing (s.haltUnit t.uid .stopped)
    else sealed s t fun s => .wait .sealing s
  | none => k s

/-- A write at an address: on memory that a provisional run may not write, it waits for a final ceiling, and on host memory
or a TSO page an unsealed task seals (R316, R337). An address without a writable translation is left to its home. -/
def exposing (s : State) (t : Tid) (ctx va n : Nat) (k : State → TRes) : TRes :=
  match s.leaf? ctx va with
  | some l =>
    let last := fun (s : State) => if l.sealing then sealed s t k else k s
    if l.w && s.exposed ctx l va n then afterFinal s t last else if l.w then last s else k s
  | none => k s

/-! ## Waits at a line (R301, R341) -/

/-- A wait of the line ends with the value that stands there now, and its threads continue at their next instruction (R301). -/
def State.endWait (s : State) (x : Txn) : State :=
  let ts := (x.tid :: x.dests.map (·.1)).eraseDups
  let finish := fun (k v : Nat) =>
    (((ts.foldl (fun s t => s.mapThread t fun th => { th.settled s.clk.now with pc := x.after }) (((s.fill x.id k v x.dests).unhold x).dropTxn x.id)).stepped ts)).touch
  match x.pa, x.kind with
  | some pa, .waitv ty .. => finish ty.regs (s.word pa x.size)
  | some pa, .gwait .. => finish 1 (s.recordState pa)
  | _, _ => s

/-- The condition of a gwait holds (R341). -/
def gwaitDone (state : Nat) (g : Grade) (seq : Option Nat) : Bool :=
  state == 8 || decide (gradeRank g ≤ state % 4) || (match seq with | some q => state / 256 != q % 2 ^ 24 | none => false)

/-- A write to a physical line ends the waits on it: those of the context and virtual line, or of any mapping when the
writer has none. A wait that the system core holds ends when it reads the word again (R303). -/
def State.wake (s : State) (line : Option (Nat × Nat)) (pa : Nat) : State :=
  s.txns.foldl (fun s x =>
    let here := match line, x.pa with
      | some (ctx, l), _ => x.ctx == ctx && x.va / 128 == l
      | none, some q => q / 128 == pa / 128
      | none, none => false
    if !here || !(x.phase matches .sleeping) then s
    else
      match x.kind, x.pa with
      | .waitv .., _ => if x.target = 0 then s.endWait x else s.mapTxn x.id fun x => { x with target := 2 }
      | .gwait g q, some p => if gwaitDone (s.recordState p) g q then s.endWait x else s
      | _, _ => s) s

/-! ## Performing a write (R213, R255, R312) -/

/-- Bytes performed at their home, non-speculatively: their lines are dirty in the slice (R213, R243, R312). -/
def State.performGlobal (s : State) (ctx va pa : Nat) (bs : List Byte) (p : Path) (t : Option Tid) : State :=
  let s := (s.soil ctx va pa bs.length).writeMem pa bs p t
  let s := (linesOf va bs.length).foldl (fun s l =>
    ((s.purgeL1 ctx l).conflicts ctx ⟨.global, l⟩ (t.map (·.uid))).wake (some (ctx, l)) (pa + (l * 128 - va))) s
  s.touch

/-- A write by an agent that names physical memory: it meets every mapping of its lines (R312, R301). -/
def State.performPhysical (s : State) (pa : Nat) (bs : List Byte) (p : Path) : State :=
  let before := fun (x : SLine) => match s.leaf? x.ctx (x.line * 128) with | some l => cellsGet s.mem (l.addr (x.line * 128)) 128 | none => []
  let s := s.writeMem pa bs p none
  let lines := linesOf pa bs.length
  let hits := fun (ctx line : Nat) => match s.leaf? ctx (line * 128) with
    | some l => lines.contains (l.addr (line * 128) / 128)
    | none => false
  let s := { s with caches := { s.caches with
    l1 := s.caches.l1.filter (fun l => !hits l.ctx l.line),
    slines := s.caches.slines.map fun (x : SLine) => if x.dirty = false ∧ hits x.ctx x.line then { x with dirty := true, dram := before x } else x } }
  let keys := s.units.flatMap fun u =>
    if u.speculative then (u.task.rsig.filter fun k => k.space == .global && hits u.ctx k.line).map fun k => (u.ctx, k) else []
  let s := keys.eraseDups.foldl (fun s k => s.conflicts k.1 k.2 none) s
  (lines.foldl (fun s l => s.wake none (l * 128)) s).touch

/-- A write of an agent at the home: the slice keeps the translation, its lines enter, and the bytes perform there (R221, R243,
R447). -/
def State.performAt (s : State) (ctx : Nat) (l : Leaf) (va : Nat) (bs : List Byte) (p : Path) (t : Option Tid) : State :=
  ((s.keepLeaf ctx va l).enterLines ctx l va bs.length).performGlobal ctx va (l.addr va) bs p t

/-! ## Versions (R308 to R310) -/

/-- A line finds a version way (R222, R310): 8 ways in a set. -/
def State.wayFree (s : State) (ctx line : Nat) : Bool :=
  decide (s.allVersionLines.length < 8) || (match s.lineSet ctx line with | some k => decide (s.versionsAt k.1 k.2 < 8) | none => true)

/-- Bytes written into the version of a task. -/
def Task.putVersion (k : Task) (m : Made) (va pa : Nat) : List Byte → Task
  | [] => k
  | b :: bs =>
    let made := match k.version.find? (·.va == va) with | some o => o.made | none => []
    Task.putVersion { k with version := { va, pa, val := b, made := m :: made } :: k.version.filter fun (b : VByte) => b.va != va } m (va + 1) (pa + 1) bs

/-- What a write into a version replaces in the view of its task, newest first (R309). -/
def versionOlds (space va : Nat) (m : Made) : List Byte → List Old
  | [] => []
  | v :: vs => { space, addr := va, val := v, made := [m] } :: versionOlds space (va + 1) m vs

/-- The bytes that a unit sees at a global address: its own version over memory (R309). -/
def State.viewGlobal (s : State) (uid va pa : Nat) : Nat → List Byte
  | 0 => []
  | n + 1 =>
    let own := match s.unit? uid with
      | some u => u.task.version.find? fun (b : VByte) => b.va == va
      | none => none
    (match own with | some b => b.val | none => cellGet s.mem pa) :: s.viewGlobal uid (va + 1) (pa + 1) n

/-- A global write of a unit at the home: into the version of an unsealed task, else performed; none when the version
overflows (R308, R310). -/
def State.storeGlobal (s : State) (uid ctx va pa : Nat) (bs : List Byte) (p : Path) (t : Tid) (noSig : Bool) : Option State :=
  match s.unit? uid with
  | some u =>
    if u.speculative then
      let new := (linesOf va bs.length).filter fun l => !u.task.versionLines.contains l
      if u.task.versionLines.length + new.length ≤ 2048 ∧ new.all (fun l => s.wayFree ctx l) then
        let m : Made := ⟨s.clk.stepNo, p, some t⟩
        let s := { s with hist := versionOlds (versionSpace uid) va m (s.viewGlobal uid va pa bs.length) ++ s.hist }.mapUnit uid fun u => { u with task := u.task.putVersion m va pa bs }
        let s := new.foldl (fun s l => match s.lineSet ctx l with | some k => s.fitSet ctx k.1 k.2 .normal 0 | none => s) s
        some (if noSig then s.touch else (s.signWrite uid .global va bs.length).touch)
      else none
    else some (s.performGlobal ctx va pa bs p (some t))
  | none => some (s.performGlobal ctx va pa bs p (some t))

/-! ## Local memory and vaults (R308) -/

/-- Lines that the undo buffer of a core holds. -/
def State.undoLines (s : State) (core : Nat) : Nat :=
  (s.units.filter (·.core == core)).foldl (fun n u => n + u.task.undo.length) 0

/-- The old contents of a line are logged before the chunk's first write to it; none when the undo buffer is full (R308,
R310). -/
def State.logLine (s : State) (uid : Nat) (k : LineKey) : Option State :=
  match s.unit? uid with
  | none => some s
  | some u =>
    if !u.speculative || u.task.undo.any (·.1 == k) then some s
    else if 1024 ≤ s.undoLines u.core then none
    else
      let old := cellsGet (match k.space with | .localMem => u.loc | .vault | .global => s.vaults) (k.line * 128) 128
      some (s.mapUnit uid fun u => { u with task := { u.task with undo := (k, s.clk.stepNo, old) :: u.task.undo } })

/-- The lines of a write are logged. -/
def State.logLines (s : State) (uid : Nat) (sp : Space) : List Nat → Option State
  | [] => some s
  | l :: ls => (s.logLine uid ⟨sp, l⟩).bind fun s => State.logLines s uid sp ls

/-- Bytes written to local memory, each where its granule lies. -/
def State.putLocal (s : State) (uid a : Nat) (p : Path) (t : Tid) : List Byte → State
  | [] => s
  | b :: bs =>
    State.putLocal (match s.localAt uid a with
      | .ok (owner, x) => s.writeOwnLocal owner x [b] p (some t)
      | .error _ => s) uid (a + 1) p t bs

/-- A local write of a unit; none when the undo buffer overflows. -/
def State.storeLocal (s : State) (uid a : Nat) (bs : List Byte) (p : Path) (t : Tid) : Option State :=
  (s.logLines uid .localMem (linesOf a bs.length)).map fun s => (s.putLocal uid a p t bs).touch

/-- n bytes of local memory as they stand; a byte that cannot be reached reads 0. -/
def State.loadLocal (s : State) (uid a : Nat) : Nat → List Byte
  | 0 => []
  | n + 1 =>
    (match s.localAt uid a with
      | .ok (owner, x) => (match s.unitOf? owner with | some u => cellGet u.loc x | none => 0)
      | .error _ => 0) :: s.loadLocal uid (a + 1) n

/-- A task, but for the one given, has logged a vault line of the range (R308). -/
def State.vaultLogged (s : State) (own : Option Nat) (a n : Nat) : Bool :=
  s.units.any fun u => own != some u.uid && u.task.undo.any fun k => k.1.space == .vault && (linesOf a n).contains k.1.line

/-- Another task has logged a vault line of the range, so the access waits (R308). -/
def State.vaultHeld (s : State) (uid a n : Nat) : Bool := s.vaultLogged (some uid) a n

/-- A vault write of a unit; none when the undo buffer overflows. -/
def State.storeVault (s : State) (uid ctx a : Nat) (bs : List Byte) (p : Path) (t : Tid) (noSig : Bool) : Option State :=
  (s.logLines uid .vault (linesOf a bs.length)).map fun s =>
    let s := if s.speculates uid then (if noSig then s else s.signWrite uid .vault a bs.length)
      else (linesOf a bs.length).foldl (fun s l => s.conflicts ctx ⟨.vault, l⟩ (some uid)) s
    (s.writeVault a bs p (some t)).touch

/-- An uncorrectable error stands in n bytes of local memory (R243). -/
def State.localFlawed (s : State) (uid a n : Nat) : Bool :=
  s.flaws != [] && (List.range n).any fun i => match s.localAt uid (a + i) with | .ok (owner, x) => s.flawed (localSpace owner) x 1 | .error _ => false

/-- A vault address lies in the vault of a core. -/
def ownVault (core a : Nat) : Bool := a / 2 ^ 22 == core

/-! ## What an engine reads (R252, R275, R276) -/

/-- A byte of local memory through an engine path. -/
def State.engineLocal (s : State) (r : Reader) (k a : Nat) : Except Bad Byte :=
  match s.localAt r.tid.uid a with
  | .error b => .error b
  | .ok (owner, x) =>
    let now := match s.unitOf? owner with | some u => cellGet u.loc x | none => 0
    if s.flawed (localSpace owner) x 1 then .error (.mem rUncorrectable)
    else .ok (pastByte now (s.skips r k) (localSpace owner) x s.hist)

/-- A byte of a vault through an engine path. -/
def State.engineVault (s : State) (r : Reader) (k a : Nat) : Except Bad Byte :=
  if 2 ^ 31 ≤ a then .error (.mem rRange)
  else if !s.granted r.ctx a then .error (.mem rVault)
  else if s.flawed 1 a 1 then .error (.mem rUncorrectable)
  else .ok (pastByte (cellGet s.vaults a) (s.skips r k) 1 a s.hist)

/-- A byte of global memory through an engine path; a task's own version stands over memory (R309). -/
def State.engineGlobal (s : State) (r : Reader) (k a : Nat) : Except Bad Byte :=
  match s.translate r.ctx a false false with
  | .error e => .error (.mem e)
  | .ok l =>
    let own := match s.unit? r.tid.uid with
      | some u => u.task.version.find? fun (b : VByte) => b.va == a
      | none => none
    match own with
    | some b => .ok (pastByte b.val (s.skips r k) (versionSpace r.tid.uid) a s.hist)
    | none => if s.flawed 0 (l.addr a) 1 then .error (.mem rUncorrectable) else .ok (pastByte (cellGet s.mem (l.addr a)) (s.skips r k) 0 (l.addr a) s.hist)

/-- A byte of a space through an engine path. -/
def State.engineByte (s : State) (r : Reader) (sp : Space) (k a : Nat) : Except Bad Byte :=
  match sp with
  | .global => s.engineGlobal r k a
  | .localMem => s.engineLocal r k a
  | .vault => s.engineVault r k a

/-- n bytes through an engine path; the bytes of one read look back alike. -/
def State.engineRead (s : State) (r : Reader) (sp : Space) (k a : Nat) : Nat → Except Bad (List Byte)
  | 0 => .ok []
  | n + 1 => do
    let b ← s.engineByte r sp k a
    let bs ← s.engineRead r sp k (a + 1) n
    .ok (b :: bs)

/-- The home slices of a global range that an engine has read keep its translations (R447). -/
def State.keepRead (s : State) (ctx : Nat) (sp : Space) (a n : Nat) : State :=
  if sp != .global then s
  else (linesOf a n).foldl (fun s line => match s.leaf? ctx (line * 128) with | some l => s.keepLeaf ctx (line * 128) l | none => s) s

/-- The parts of a range that lie in one 4 KiB page each: address, size and leaf; or the reason of the first page that refuses
a write. -/
def State.pagesOf (s : State) (ctx a n : Nat) : Except Nat (List (Nat × Nat × Leaf)) :=
  (if n = 0 then [] else List.range ((a + n - 1) / 4096 + 1 - a / 4096)).mapM fun i =>
    let lo := max a ((a / 4096 + i) * 4096)
    let hi := min (a + n) ((a / 4096 + i + 1) * 4096)
    (s.translate ctx lo true false).map fun l => (lo, hi - lo, l)

/-- Bytes from a on are written page by page through an engine path; none when the version overflows (R310). The hints of a copy
have placed its lines already. -/
def State.storePages (s : State) (ctx : Nat) (q : Path) (t : Tid) (a : Nat) (bs : List Byte) : List (Nat × Nat × Leaf) → Option State
  | [] => some s
  | p :: ps =>
    let s := if q = .copy then s else s.enterLines ctx p.2.2 p.1 p.2.1
    match s.storeGlobal t.uid ctx p.1 (p.2.2.addr p.1) ((bs.drop (p.1 - a)).take p.2.1) q t false with
    | some s => (s.keepLeaf ctx p.1 p.2.2).storePages ctx q t a bs ps
    | none => none

/-- What came of an engine's write. -/
inductive Wrote where
  | done (s : State)
  | failed (b : Bad)
  /-- the task seals on the operation's behalf: the version or the undo buffer is full (R310), or else a run whose ceiling is
  not final meets memory that it may not write (R337) -/
  | overflow (full : Bool)
  /-- another task's logged vault line (R308), a sealed run whose ceiling is not final (R337), or a commit under way (R268) -/
  | later
  deriving DecidableEq, Repr

/-- Bytes written through an engine path (R310, R311, R446). -/
def State.engineWrite (s : State) (ctx : Nat) (q : Path) (t : Tid) (sp : Space) (a : Nat) (bs : List Byte) : Wrote :=
  if s.numbered t.uid then .later
  else if s.overflowing t.uid then .overflow true
  else
  match sp with
  | .localMem =>
    match s.blockBad t.uid a bs.length 1, s.localAt t.uid a with
    | some b, .error _ => .failed b
    | _, _ =>
      match s.storeLocal t.uid a bs q t with
      | some s => .done s
      | none => .overflow true
  | .vault =>
    if 2 ^ 31 < a + bs.length then .failed (.mem rRange)
    else if !(s.granted ctx a && s.granted ctx (a + bs.length - 1)) then .failed (.mem rVault)
    else if s.vaultHeld t.uid a bs.length then .later
    else
      match s.storeVault t.uid ctx a bs q t false with
      | some s => .done s
      | none => .overflow true
  | .global =>
    match s.pagesOf ctx a bs.length with
    | .error r => .failed (.mem r)
    | .ok ps =>
      let prov := match s.unit? t.uid with | some u => !u.ceilingFinal | none => false
      if prov && ps.any (fun p => s.exposed ctx p.2.2 p.1 p.2.1) then (if s.speculates t.uid then .overflow false else .later)
      else
        match s.storePages ctx q t a bs ps with
        | some s => .done s
        | none => .overflow true

/-! ## The private region (R121, R346) -/

/-- The address of the private region of a thread. -/
def RUnit.privBase (u : RUnit) (t : Tid) : Nat :=
  u.desc.scratch + u.index % u.desc.sslots * u.desc.sstride + (t.crew * 32 + t.lane) * u.desc.priv

/-- An earlier access of the thread to eight bytes of its private region is still on its way (R258). -/
def State.privPending (s : State) (u : RUnit) (t : Tid) (k : Nat) : Bool :=
  let va := u.privBase t + 8 * k
  s.overlapping t .global va 8 s.clk.nextId false || s.lineHeld u.ctx (linesOf va 8) 0 || s.numbered t.uid

/-- Eight bytes of the private region, read synchronously. -/
def State.privRead (s : State) (u : RUnit) (t : Tid) (k : Nat) : Except FaultInfo (Nat × State) :=
  let va := u.privBase t + 8 * k
  match s.translate u.ctx va false false with
  | .error r => .error { cause := 0x20, reason := r, addr := va }
  | .ok l =>
    if s.flawed 0 (l.addr va) 8 then .error { cause := 0x20, reason := rUncorrectable, addr := va }
    else .ok (leNat (s.viewGlobal t.uid va (l.addr va) 8), (s.keepLeaf u.ctx va l).signRead t.uid .global va 8)

/-- Eight bytes written to the private region synchronously. -/
def State.privWrite (s : State) (u : RUnit) (t : Tid) (k v : Nat) : Wrote :=
  let va := u.privBase t + 8 * k
  match s.translate u.ctx va true false with
  | .error r => .failed (.mem r)
  | .ok l =>
    if !u.ceilingFinal && s.exposed u.ctx l va 8 then (if u.speculative then .overflow false else .later)
    else
      match (s.keepLeaf u.ctx va l).storeGlobal t.uid u.ctx va (l.addr va) (leBytes 8 v) .thr t false with
      | some s => .done s
      | none => .overflow true

/-! ## Deferred store failures (R245, R413) -/

/-- The report of a thread's recorded failures: the oldest in program order, and the count of the others. -/
def Thread.report (th : Thread) : Option FaultInfo :=
  match th.fails with
  | [] => none
  | f :: more =>
    let old := more.foldl (fun o g => if g.txn < o.txn then g else o) f
    some { cause := old.cause, reason := old.reason, addr := old.addr, spc := old.pc.toNat, detail := old.device, count := min more.length 65535, fabric := old.fabric, unknown := old.unknown }

/-- A report point: a recorded failure is a fault before any effect of the instruction (R245). -/
def reporting (s : State) (t : Tid) (k : TRes) : TRes :=
  match (s.thread t).report with
  | some f => .fault f
  | none => k

end Sys2Proof.Machine
end

