-- ==== Sys2Proof/Machine/Flags.lean ====
section
/-! DEFINITION. Floating formats, rounding and flags (06_float R135 to R141, R147 to R159). A finite value is a sign, a
whole number m and an exponent e, and stands for m × 2^e exactly. -/

namespace Sys2Proof.Machine

/-! ## Flags, in the order of fsr (R141, R142) -/

def flagNV : Nat := 16
def flagDZ : Nat := 8
def flagOF : Nat := 4
def flagUF : Nat := 2
def flagNX : Nat := 1

/-! ## Formats (R135) -/

structure Fmt where
  expBits : Nat
  fracBits : Nat
  bias : Nat
  /-- the format has infinities -/
  inf : Bool
  /-- the format has NaNs -/
  nan : Bool
  /-- subnormals are flushed (R140) -/
  flush : Bool
  deriving DecidableEq, Repr

def fp32 : Fmt := ⟨8, 23, 127, true, true, false⟩
def fp16 : Fmt := ⟨5, 10, 15, true, true, false⟩
def bf16 : Fmt := ⟨8, 7, 127, true, true, true⟩
def e4m3 : Fmt := ⟨4, 3, 7, false, true, false⟩
def e5m2 : Fmt := ⟨5, 2, 15, true, true, false⟩
def e2m1 : Fmt := ⟨2, 1, 1, false, false, false⟩

def Fmt.width (f : Fmt) : Nat := f.expBits + f.fracBits + 1

/-- The format of the elements of a float type. -/
def fmtOf : Ty → Fmt
  | .f16 | .f16x2 => fp16
  | .bf16 | .bf16x2 => bf16
  | .e4m3x4 => e4m3
  | .e5m2x4 => e5m2
  | .e2m1x8 => e2m1
  | .f32 | .i32 | .u32 | .i64 | .u64 | .i16x2 | .u16x2 | .i8x4 | .u8x4 | .b32 | .b64 | .b128 | .b8 | .b16 => fp32

/-- A value that an encoding stands for. -/
inductive FVal where
  | nan (signalling : Bool)
  | inf (neg : Bool)
  | fin (neg : Bool) (m : Nat) (e : Int)
  deriving DecidableEq, Repr

def Fmt.signBit (f : Fmt) (neg : Bool) : Nat := boolNat neg * 2 ^ (f.width - 1)

/-- The value of an encoding (R135, R137). -/
def Fmt.value (f : Fmt) (x : Nat) : FVal :=
  let x := x % 2 ^ f.width
  let neg := bit x (f.width - 1)
  let e := x / 2 ^ f.fracBits % 2 ^ f.expBits
  let m := x % 2 ^ f.fracBits
  let top := 2 ^ f.expBits - 1
  if f.inf && e == top then
    if m = 0 then .inf neg else .nan (!bit m (f.fracBits - 1))
  else if f.nan && !f.inf && e == top && m == 2 ^ f.fracBits - 1 then .nan false
  else if e = 0 then .fin neg m (1 - (f.bias : Int) - f.fracBits)
  else .fin neg (2 ^ f.fracBits + m) ((e : Int) - f.bias - f.fracBits)

/-- A source of an arithmetic instruction: a BF16 subnormal is read as a zero (R140). -/
def Fmt.source (f : Fmt) (x : Nat) : FVal :=
  if f.flush && x / 2 ^ f.fracBits % 2 ^ f.expBits == 0 then .fin (bit x (f.width - 1)) 0 0 else f.value x

/-- The canonical NaN (R137). -/
def Fmt.canon (f : Fmt) : Nat :=
  if f.inf then (2 ^ f.expBits - 1) * 2 ^ f.fracBits + 2 ^ (f.fracBits - 1)
  else 2 ^ (f.width - 1) - 1

def Fmt.infinity (f : Fmt) (neg : Bool) : Nat :=
  if f.inf then f.signBit neg + (2 ^ f.expBits - 1) * 2 ^ f.fracBits else f.canon

def Fmt.zero (f : Fmt) (neg : Bool) : Nat := f.signBit neg

/-- The encoding of the largest finite magnitude (R135). -/
def Fmt.maxBits (f : Fmt) : Nat :=
  if f.inf then (2 ^ f.expBits - 1) * 2 ^ f.fracBits - 1
  else if f.nan then 2 ^ (f.width - 1) - 2
  else 2 ^ (f.width - 1) - 1

def Fmt.maxFinite (f : Fmt) (neg : Bool) : Nat := f.signBit neg + f.maxBits

/-! ## Rounding (R139) -/

/-- Rounding modes, as fsr.RM codes them (R142). -/
inductive RMode where
  | rne | rtz | rup | rdn
  deriving DecidableEq, Repr

def RMode.ofCode (c : Nat) : RMode :=
  match c % 4 with
  | 0 => .rne
  | 1 => .rtz
  | 2 => .rup
  | _ => .rdn

/-- The mode of a rounding field (R145): fsr.RM, or the mode it names. -/
def rmode (r : Rnd) (fsr : BitVec 7) : RMode :=
  match r with
  | .fsr => .ofCode (bits fsr.toNat 6 5)
  | .rne => .rne
  | .rtz => .rtz
  | .rup => .rup
  | .rdn => .rdn

/-- A nonnegative quotient a / 2^d rounded to a whole number, and whether it was inexact. -/
def roundShift (mode : RMode) (neg : Bool) (a d : Nat) : Nat × Bool :=
  let k := a / 2 ^ d
  let r := a % 2 ^ d
  let up := match mode with
    | .rne => decide (2 ^ d < 2 * r) || (2 * r == 2 ^ d && k % 2 == 1)
    | .rtz => false
    | .rup => r != 0 && !neg
    | .rdn => r != 0 && neg
  (k + boolNat up, r != 0)

/-- m × 2^e rounded to a multiple of 2^q: the multiple, and whether it was inexact. -/
def roundAt (mode : RMode) (neg : Bool) (m : Nat) (e q : Int) : Nat × Bool :=
  if q ≤ e then (m * 2 ^ (e - q).toNat, false) else roundShift mode neg m (q - e).toNat

/-- The exponent of the leading bit of m × 2^e. -/
def topExp (m : Nat) (e : Int) : Int := e + Nat.log2 m

/-- Encoding of k × 2^q, which the format holds exactly. -/
def Fmt.encodeExact (f : Fmt) (neg : Bool) (k : Nat) (q : Int) : Nat :=
  let emin : Int := 1 - (f.bias : Int)
  if k = 0 then f.zero neg
  else
    let t := topExp k q
    if t < emin then f.signBit neg + (roundAt .rtz neg k q (emin - f.fracBits)).1
    else
      f.signBit neg + (t + f.bias).toNat * 2 ^ f.fracBits + ((roundAt .rtz neg k q (t - f.fracBits)).1 - 2 ^ f.fracBits)

/-- The greatest finite exponent of a leading bit. -/
def Fmt.emax (f : Fmt) : Int := (f.maxBits / 2 ^ f.fracBits : Nat) - (f.bias : Int)

/-- What an overflow gives (R139). -/
def Fmt.overflow (f : Fmt) (mode : RMode) (neg : Bool) : Nat :=
  match mode, neg with
  | .rne, _ => f.infinity neg
  | .rtz, _ => f.maxFinite neg
  | .rup, false => f.infinity neg
  | .rup, true => f.maxFinite neg
  | .rdn, true => f.infinity neg
  | .rdn, false => f.maxFinite neg

/-- round(x, mode) of R139 for x = m × 2^e with m > 0: the encoding and the flags. -/
def Fmt.round (f : Fmt) (mode : RMode) (neg : Bool) (m : Nat) (e : Int) : Nat × Nat :=
  let q := topExp m e - f.fracBits
  let y := roundAt mode neg m e q
  let t := topExp y.1 q
  let big := decide (f.emax < t) || (t == f.emax && decide (2 ^ f.fracBits + f.maxBits % 2 ^ f.fracBits < (roundAt .rtz neg y.1 q (t - f.fracBits)).1))
  if big then (f.overflow mode neg, flagOF + flagNX)
  else if 1 - (f.bias : Int) ≤ t then (f.encodeExact neg y.1 q, if y.2 then flagNX else 0)
  else if f.flush then (f.zero neg, flagUF + flagNX)
  else
    let qs := 1 - (f.bias : Int) - f.fracBits
    let z := roundAt mode neg m e qs
    (f.encodeExact neg z.1 qs, if z.2 then flagUF + flagNX else 0)

/-- round of any finite value; an exact zero takes the sign given. -/
def Fmt.roundFin (f : Fmt) (mode : RMode) (neg : Bool) (m : Nat) (e : Int) : Nat × Nat :=
  if m = 0 then (f.zero neg, 0) else f.round mode neg m e

/-! ## Exact sums and products -/

/-- The signed whole number that m × 2^e is in units of 2^q, q ≤ e. -/
def scaled (neg : Bool) (m : Nat) (e q : Int) : Int :=
  let k : Int := (m * 2 ^ (e - q).toNat : Nat)
  if neg then -k else k

/-- The exact sum of two finite values: sign, magnitude, exponent; the sign of an exact zero sum is that of R147. -/
def exactSum (mode : RMode) (na : Bool) (ma : Nat) (ea : Int) (nb : Bool) (mb : Nat) (eb : Int) : Bool × Nat × Int :=
  let q := min ea eb
  let x := scaled na ma ea q + scaled nb mb eb q
  if x = 0 then (if na = nb then na else mode == .rdn, 0, 0) else (decide (x < 0), x.natAbs, q)

def FVal.isNan : FVal → Bool
  | .nan _ => true
  | .inf _ | .fin .. => false

def FVal.isSnan : FVal → Bool
  | .nan s => s
  | .inf _ | .fin .. => false

def FVal.negate : FVal → FVal
  | .nan s => .nan s
  | .inf n => .inf (!n)
  | .fin n m e => .fin (!n) m e

def FVal.isZero : FVal → Bool
  | .fin _ m _ => m == 0
  | .nan _ | .inf _ => false

def FVal.isNeg : FVal → Bool
  | .nan _ => false
  | .inf n => n
  | .fin n _ _ => n

/-- The canonical NaN with the flags of NaN sources (R141, R147). -/
def Fmt.nanOf (f : Fmt) (vs : List FVal) : Nat × Nat := (f.canon, if vs.any (·.isSnan) then flagNV else 0)

/-- With S = 1 an infinite result becomes the largest finite one (R147). -/
def Fmt.clampInf (f : Fmt) (sat : Bool) (r : Nat × Nat) : Nat × Nat :=
  if sat then
    (match f.value r.1 with | .inf n => (f.maxFinite n, r.2) | .nan _ | .fin .. => r)
  else r

/-- a + b (R147). -/
def Fmt.add (f : Fmt) (mode : RMode) (sat : Bool) (a b : FVal) : Nat × Nat :=
  f.clampInf sat <|
  match a, b with
  | .nan _, _ | _, .nan _ => f.nanOf [a, b]
  | .inf x, .inf y => if x = y then (f.infinity x, 0) else (f.canon, flagNV)
  | .inf x, .fin .. => (f.infinity x, 0)
  | .fin .., .inf y => (f.infinity y, 0)
  | .fin na ma ea, .fin nb mb eb =>
    let s := exactSum mode na ma ea nb mb eb
    f.roundFin mode s.1 s.2.1 s.2.2

/-- a × b + c with one rounding; without c, the product alone (R147). -/
def Fmt.mulAdd (f : Fmt) (mode : RMode) (sat : Bool) (a b : FVal) (c : Option FVal) : Nat × Nat :=
  f.clampInf sat <|
  let vs := [a, b] ++ c.toList
  let bad := (a matches .inf _) && b.isZero || (b matches .inf _) && a.isZero
  if bad then (f.canon, flagNV)
  else if vs.any (·.isNan) then f.nanOf vs
  else
    let neg := a.isNeg != b.isNeg
    match a, b, c with
    | .fin _ ma ea, .fin _ mb eb, none => f.roundFin mode neg (ma * mb) (ea + eb)
    | .fin _ ma ea, .fin _ mb eb, some (.fin nc mc ec) =>
      let s := exactSum mode neg (ma * mb) (ea + eb) nc mc ec
      f.roundFin mode s.1 s.2.1 s.2.2
    | .fin .., .fin .., some v => (f.infinity v.isNeg, 0)
    | _, _, some (.inf n) => if n = neg then (f.infinity neg, 0) else (f.canon, flagNV)
    | _, _, _ => (f.infinity neg, 0)

/-- Comparison of two values that are not NaN; −0 equals +0. -/
def FVal.cmp : FVal → FVal → Ordering
  | .inf x, .inf y => if x = y then .eq else if x then .lt else .gt
  | .inf x, _ => if x then .lt else .gt
  | _, .inf y => if y then .gt else .lt
  | .fin na ma ea, .fin nb mb eb =>
    let q := min ea eb
    compare (scaled na ma ea q) (scaled nb mb eb q)
  | .nan _, _ | _, .nan _ => .eq

/-- R148: a is before b, with −0 below +0. -/
def FVal.below (a b : FVal) : Bool :=
  match a.cmp b with
  | .lt => true
  | .gt => false
  | .eq => a.isZero && b.isZero && a.isNeg && !b.isNeg

/-- fmin and fmax of R148 on encodings. -/
def Fmt.minMax (f : Fmt) (greater : Bool) (x y : Nat) : Nat × Nat :=
  let a := f.source x
  let b := f.source y
  let out := fun (v : FVal) => match v with
    | .nan _ => f.canon
    | .inf n => f.infinity n
    | .fin n m e => f.encodeExact n m e
  let fl := if a.isSnan || b.isSnan then flagNV else 0
  if a.isNan && b.isNan then (f.canon, fl)
  else if a.isNan then (out b, fl)
  else if b.isNan then (out a, fl)
  else (if (a.below b) != greater then out a else out b, fl)

/-- fcmp of R149: the truth of the condition and the flags. -/
def fcompare (c : FCond) (a b : FVal) : Bool × Nat :=
  let un := a.isNan || b.isNan
  let o := a.cmp b
  let sig := if a.isSnan || b.isSnan then flagNV else 0
  let ordered := if un then flagNV else 0
  match c with
  | .eq => (!un && o == .eq, sig)
  | .ne => (un || o != .eq, sig)
  | .lt => (!un && o == .lt, sig ||| ordered)
  | .le => (!un && o != .gt, sig ||| ordered)
  | .gt => (!un && o == .gt, sig ||| ordered)
  | .ge => (!un && o != .lt, sig ||| ordered)
  | .un => (un, sig)
  | .ord => (!un, sig)

/-- The condition of fsel against zero (R150). -/
def selects (c : ICond) (v : FVal) : Bool :=
  let z : FVal := .fin false 0 0
  if v.isNan then c == .ne
  else
    match c with
    | .eq => v.cmp z == .eq
    | .ne => v.cmp z != .eq
    | .lt => v.cmp z == .lt
    | .le => v.cmp z != .gt
    | .gt => v.cmp z == .gt
    | .ge => v.cmp z != .lt

/-- fclass of R151. -/
def Fmt.classify (f : Fmt) (x : Nat) : Nat :=
  match f.source x with
  | .nan true => 2 ^ 8
  | .nan false => 2 ^ 9
  | .inf true => 1
  | .inf false => 2 ^ 7
  | .fin neg m e =>
    if m = 0 then (if neg then 2 ^ 3 else 2 ^ 4)
    else if topExp m e < 1 - (f.bias : Int) then (if neg then 2 ^ 2 else 2 ^ 5)
    else (if neg then 2 else 2 ^ 6)

/-! ## Square root (R152) -/

/-- The whole square root of n below 2^(2 × k), one result bit a step. -/
def isqrtFrom (n : Nat) : Nat → Nat → Nat
  | 0, r => r
  | k + 1, r =>
    let r' := r + 2 ^ k
    isqrtFrom n k (if r' * r' ≤ n then r' else r)

def isqrt (n : Nat) : Nat := isqrtFrom n (Nat.log2 n / 2 + 1) 0

/-- √(m × 2^e) with sixty-four further bits and a last bit that says whether more follow: magnitude and exponent. -/
def sqrtParts (m : Nat) (e : Int) : Nat × Int :=
  let odd := e % 2 == 1
  let n := (if odd then 2 * m else m) * 2 ^ 128
  let h := (if odd then e - 1 else e) / 2 - 64
  let r := isqrt n
  (2 * r + boolNat (r * r != n), h - 1)

def Fmt.sqrt (f : Fmt) (mode : RMode) (sat : Bool) (a : FVal) : Nat × Nat :=
  f.clampInf sat <|
  match a with
  | .nan _ => f.nanOf [a]
  | .inf false => (f.infinity false, 0)
  | .inf true => (f.canon, flagNV)
  | .fin neg m e =>
    if m = 0 then (f.zero neg, 0)
    else if neg then (f.canon, flagNV)
    else
      let r := sqrtParts m e
      f.roundFin mode false r.1 r.2

/-! ## Conversions (R154 to R156) -/

/-- A value converted to a format with one rounding; with S = 1 an infinite or E4M3-overflowed result becomes the largest
finite one (R154, R155). -/
def Fmt.convert (f : Fmt) (mode : RMode) (sat : Bool) (a : FVal) : Nat × Nat :=
  match a with
  | .nan s => (f.canon, if s then flagNV else 0)
  | .inf n => (if sat then f.maxFinite n else f.infinity n, 0)
  | .fin n m e =>
    let r := f.roundFin mode n m e
    match f.value r.1 with
    | .inf _ | .nan _ => (if sat then f.maxFinite n else r.1, r.2)
    | .fin .. => r

/-- A value read from a source of cvtf: BF16 subnormals are read exactly (R140). -/
def Fmt.convSource (f : Fmt) (x : Nat) : FVal := f.value x

/-- f32 to an integer of w bits (R156). -/
def toInteger (mode : RMode) (signed : Bool) (w : Nat) (a : FVal) : Nat × Nat :=
  let lo : Int := if signed then -(2 ^ (w - 1) : Nat) else 0
  let hi : Int := if signed then (2 ^ (w - 1) : Nat) - 1 else (2 ^ w : Nat) - 1
  match a with
  | .nan _ => (0, flagNV)
  | .inf n => (wrap w (if n then lo else hi), flagNV)
  | .fin n m e =>
    let r := roundAt mode n m e 0
    let v : Int := if n then -(r.1 : Int) else r.1
    if v < lo then (wrap w lo, flagNV)
    else if hi < v then (wrap w hi, flagNV)
    else (wrap w v, if r.2 then flagNX else 0)

/-- An integer to f32; 0 gives +0 (R139). -/
def ofInteger (mode : RMode) (x : Int) : Nat × Nat := fp32.roundFin mode (decide (x < 0)) x.natAbs 0

/-! ## Block format (R138, R157 to R159) -/

/-- The value of an E2M1 code under a header: scale s and special v (R138). -/
def blockValue (c s v : Nat) : FVal :=
  if s = 0xFF then .nan false
  else
    let sh := (s : Int) - 127
    if c = 8 then
      match e4m3.value v with
      | .fin n m e => if m = 0 then .fin false 0 0 else .fin n m (e + sh)
      | x => x
    else
      match e2m1.value c with
      | .fin n m e => .fin n m (e + sh)
      | x => x

/-- fpack.hdr of R157. -/
def packHeader (a b : Nat) : Nat × Nat :=
  let s : Nat × Nat := match fp32.value a with
    | .nan _ | .inf _ => (0xFF, flagNV)
    | .fin _ m e => if m = 0 then (0, 0) else ((min (max (topExp m e - 2 + 127) 0) 254).toNat, 0)
  if s.1 = 0xFF then (0x7F * 256 + 0xFF, s.2)
  else
    let sh := (s.1 : Int) - 127
    let v := match fp32.value b with
      | .fin n m e => e4m3.convert .rne true (.fin n m (e - sh))
      | x => e4m3.convert .rne true x
    (v.1 * 256 + s.1, s.2 ||| v.2)

/-- |y − c| as a pair over a common unit: used to compare distances (R158). -/
def distance (ny : Bool) (my : Nat) (ey : Int) (c : FVal) : Nat × Int :=
  match c with
  | .fin nc mc ec =>
    let q := min ey ec
    ((scaled ny my ey q - scaled nc mc ec q).natAbs, q)
  | .nan _ | .inf _ => (0, 0)

/-- a × 2^p < b × 2^q. -/
def ltScaled (a : Nat) (p : Int) (b : Nat) (q : Int) : Bool :=
  let r := min p q
  decide (a * 2 ^ (p - r).toNat < b * 2 ^ (q - r).toNat)

/-- The candidates of R158 in the order in which a tie is decided: ordinary codes with bit 0 clear, the other ordinary
codes, then the special value. -/
def packCandidates (v : Nat) : List (Nat × FVal) :=
  ([0, 2, 4, 6, 10, 12, 14, 1, 3, 5, 7, 9, 11, 13, 15].map fun c => (c, e2m1.value c)) ++
  (match e4m3.value v with
    | .fin n m e => [(8, .fin n m e)]
    | .nan _ | .inf _ => [])

/-- The nearest candidate to y = ± m × 2^e; the first of equals. -/
def nearest (ny : Bool) (my : Nat) (ey : Int) : List (Nat × FVal) → Nat × FVal → Nat × FVal
  | [], best => best
  | c :: cs, best =>
    let d := distance ny my ey c.2
    let b := distance ny my ey best.2
    nearest ny my ey cs (if ltScaled d.1 d.2 b.1 b.2 then c else best)

/-- One code of fpack (R158) for the FP32 word x, with scale s and special v. -/
def packCode (x s v : Nat) : Nat × Nat :=
  let vv := e4m3.value v
  if s = 0xFF then (0, flagNV)
  else
    match fp32.value x with
    | .nan sig => if vv.isNan then (8, if sig then flagNV else 0) else (0, flagNV)
    | .inf n =>
      let six := (e2m1.encodeExact n 6 0, flagOF + flagNX)
      match vv with
      | .fin nv mv ev => if nv = n ∧ ltScaled 6 0 mv ev then (8, flagNX) else six
      | .nan _ | .inf _ => six
    | .fin n m e =>
      let ey := e - ((s : Int) - 127)
      let best := nearest n m ey (packCandidates v) (0, .fin false 0 0)
      let big := !ltScaled m ey 7 0 && best.1 != 8
      let code := if big then e2m1.encodeExact n 6 0 else best.1
      let same : Bool := match blockValue code s v with
        | .fin n' m' e' => (FVal.fin n m e).cmp (.fin n' m' e') == .eq
        | .nan _ | .inf _ => false
      (code, (if big then flagOF else 0) + (if same then 0 else flagNX))

/-- One value of funpack (R159). -/
def unpackCode (c s v : Nat) : Nat × Nat :=
  match blockValue c s v with
  | .fin n m e => fp32.roundFin .rne n m e
  | .nan _ | .inf _ => (fp32.canon, 0)

/-! ## Approximations (R153) -/

/-- Fraction bits of the fixed-point evaluations below. -/
def fixBits : Nat := 96

/-- ln 2 with 96 fraction bits. -/
def fixLn2 : Nat := 54916777467707473351141471128

/-- log2 e with 96 fraction bits. -/
def fixLog2e : Nat := 114302077158074026402637675936

/-- Σ x^k / k! for k below n, in fixed point; t is the current term. -/
def expSeries (x : Nat) : Nat → Nat → Nat → Nat
  | 0, _, _ => 0
  | n + 1, k, t => t + expSeries x n (k + 1) (t * x / 2 ^ fixBits / (k + 1))

/-- 2^f for a fraction f of 96 bits. -/
def fixExp2 (f : Nat) : Nat := expSeries (f * fixLn2 / 2 ^ fixBits) 32 0 (2 ^ fixBits)

/-- n bits of the logarithm to base 2 of x in [1, 2), by squaring. -/
def fixLog2 : Nat → Nat → Nat
  | 0, _ => 0
  | n + 1, x =>
    let y := x * x / 2 ^ fixBits
    if 2 ^ (fixBits + 1) ≤ y then 2 ^ n + fixLog2 n (y / 2) else fixLog2 n y

/-- 2^a for a = ± m × 2^e with |a| below 256: magnitude and exponent. -/
def exp2Parts (neg : Bool) (m : Nat) (e : Int) : Nat × Int :=
  let x := (scaled neg m (e + fixBits + 64) 0) / (2 ^ 64 : Nat)
  let n := x / (2 ^ fixBits : Nat)
  (fixExp2 (x % (2 ^ fixBits : Nat)).toNat, n - fixBits)

/-- What the special cases of an approximation give, or the value to approximate as sign, magnitude and exponent with the
unit of the error bound (R153). -/
inductive Approx where
  | exactly (r : Nat × Nat)
  /-- the magnitude of the exact value lies in [m × 2^e, (m + w) × 2^e]; the bound is ulps units in the last place of the
  exact value, or the absolute error 2^b when given -/
  | about (neg : Bool) (m : Nat) (e : Int) (w ulps : Nat) (bound : Option Int)
  deriving DecidableEq, Repr

/-- The unit in the last place of FP32 at m × 2^e. -/
def ulpExp (m : Nat) (e : Int) : Int := max (topExp m e - 23) (-149)

/-- c lies within unit × 2^p of ± m × 2^e. -/
def withinOf (unit : Nat) (p : Int) (neg : Bool) (m : Nat) (e : Int) (c : FVal) : Bool :=
  let d := distance neg m e c
  !ltScaled unit p d.1 d.2

/-- An approximate result: what the device computes when it lies within the bound of every value of the interval that holds the
exact one (log 14), else the low end rounded toward zero; never an infinity. DESIGN CHOICE (log 14): the ulp of a bound is that of the
binade of the exact value. cap bounds the magnitude, as for ftanh. -/
def settleApprox (fn x : Nat) (cap : Nat) : Approx → Nat × Nat
  | .exactly r => r
  | .about neg m e w ulps bound =>
    let near := (fp32.roundFin .rtz neg m e).1
    let near := if fp32.value near == fp32.value (fp32.infinity neg) then fp32.maxFinite neg else near
    let c := Config.approximation fn x % 2 ^ 32
    let v := fp32.value c
    let unit : Nat × Int := match bound with
      | some b => (1, b)
      | none => (ulps, ulpExp m e)
    let fin : Bool := match v with
      | .fin _ _ _ => true
      | .nan _ | .inf _ => false
    let ok := fin && withinOf unit.1 unit.2 neg m e v && withinOf unit.1 unit.2 neg (m + w) e v && decide (c % 2 ^ 31 ≤ cap)
    (if ok then c else near, 0)

/-- 1 / (m × 2^e) with 96 bits, rounded down. -/
def recipParts (m : Nat) (e : Int) : Nat × Int :=
  let k := Nat.log2 m + 96
  (2 ^ k / m, -e - k)

def approxRcp (x : Nat) : Approx :=
  match fp32.value x with
  | .nan s => .exactly (fp32.canon, if s then flagNV else 0)
  | .inf n => .exactly (fp32.zero n, 0)
  | .fin n m e =>
    if m = 0 then .exactly (fp32.infinity n, flagDZ)
    else if !ltScaled 1 (-128) m e then .exactly (fp32.infinity n, flagOF)
    else if m = 2 ^ Nat.log2 m then .exactly (fp32.encodeExact n 1 (-topExp m e), 0)
    else
      let r := recipParts m e
      .about n r.1 r.2 1 1 none

def approxRsq (x : Nat) : Approx :=
  match fp32.value x with
  | .nan s => .exactly (fp32.canon, if s then flagNV else 0)
  | .inf false => .exactly (fp32.zero false, 0)
  | .inf true => .exactly (fp32.canon, flagNV)
  | .fin n m e =>
    if m = 0 then .exactly (fp32.infinity n, flagDZ)
    else if n then .exactly (fp32.canon, flagNV)
    else
      let q := sqrtParts (m * 2 ^ 64) (e - 64)
      let k := Nat.log2 q.1 + 96
      let lo := 2 ^ k / (q.1 + q.1 % 2)
      let hi := (2 ^ k + q.1 - q.1 % 2 - 1) / (q.1 - q.1 % 2)
      .about false lo (-q.2 - k) (hi - lo) 2 none

def approxExp2 (x : Nat) : Approx :=
  match fp32.value x with
  | .nan s => .exactly (fp32.canon, if s then flagNV else 0)
  | .inf true => .exactly (fp32.zero false, 0)
  | .inf false => .exactly (fp32.infinity false, 0)
  | .fin n m e =>
    if !n && !ltScaled m e 128 0 then .exactly (fp32.infinity false, flagOF)
    else if n && ltScaled 150 0 m e then .exactly (fp32.zero false, 0)
    else
      let k := roundAt .rtz n m e 0
      if !k.2 && (!n || decide (k.1 ≤ 149)) then
        .exactly (fp32.encodeExact false 1 (if n then -(k.1 : Int) else k.1), 0)
      else
        let r := exp2Parts n m e
        .about false r.1 r.2 (min 128 (2 ^ 97 - r.1)) 2 (if topExp r.1 r.2 < -126 then some (-148) else none)

def approxLog2 (x : Nat) : Approx :=
  match fp32.value x with
  | .nan s => .exactly (fp32.canon, if s then flagNV else 0)
  | .inf false => .exactly (fp32.infinity false, 0)
  | .inf true => .exactly (fp32.canon, flagNV)
  | .fin n m e =>
    if m = 0 then .exactly (fp32.infinity true, flagDZ)
    else if n then .exactly (fp32.canon, flagNV)
    else
      let t := topExp m e
      if m = 2 ^ Nat.log2 m then .exactly (ofInteger .rne t)
      else
        let l : Int := t * (2 ^ 80 : Nat) + fixLog2 80 (m * 2 ^ fixBits / 2 ^ Nat.log2 m)
        .about (decide (l < 0)) (if l < 0 then l.natAbs - 2 else l.natAbs) (-80) 2 2 (if t = -1 ∨ t = 0 then some (-22) else none)

def approxTanh (x : Nat) : Approx :=
  match fp32.value x with
  | .nan s => .exactly (fp32.canon, if s then flagNV else 0)
  | .inf n => .exactly (fp32.encodeExact n 1 0, 0)
  | .fin n m e =>
    if ltScaled m e 1 (-12) then .exactly (x % 2 ^ 32, 0)
    else if ltScaled 32 0 m e then .about n (2 ^ fixBits - 64) (-(fixBits : Int)) 64 0 (some (-21))
    else
      let y := (scaled false m (e + fixBits + 64) 0).toNat / 2 ^ 63 * fixLog2e / 2 ^ fixBits
      let p := fixExp2 (y % 2 ^ fixBits) * 2 ^ (y / 2 ^ fixBits)
      let t := (p - 2 ^ fixBits) * 2 ^ fixBits / (p + 2 ^ fixBits)
      .about n t (-(fixBits : Int)) (min 1024 (2 ^ fixBits - t)) 0 (some (-21))

/-- The approximation functions of R153, as Config.approximation numbers them. -/
inductive ApproxFn where
  | rcp | rsq | exp2 | log2 | tanh
  deriving DecidableEq, Repr

/-- ftanh is odd: a negative source gives the negated result of the positive one (R153). -/
def approxF32 (fn : ApproxFn) (x : Nat) : Nat × Nat :=
  let top := fp32.maxBits
  match fn with
  | .rcp => settleApprox 0 x top (approxRcp x)
  | .rsq => settleApprox 1 x top (approxRsq x)
  | .exp2 => settleApprox 2 x top (approxExp2 x)
  | .log2 => settleApprox 3 x top (approxLog2 x)
  | .tanh =>
    if (fp32.value x).isNeg then
      let r := settleApprox 4 (x % 2 ^ 31) 0x3F800000 (approxTanh (x % 2 ^ 31))
      (numFloat .neg 32 r.1, r.2)
    else settleApprox 4 x 0x3F800000 (approxTanh x)

/-- An approximation on one element of a format: widened, approximated, rounded RNE with no further flag (R153). -/
def Fmt.approx (f : Fmt) (fn : ApproxFn) (x : Nat) : Nat × Nat :=
  if f = fp32 then approxF32 fn x
  else
    match f.source x with
    | .nan s => (f.canon, if s then flagNV else 0)
    | .inf n => let r := approxF32 fn (fp32.infinity n); ((f.convert .rne false (fp32.value r.1)).1, r.2)
    | .fin n m e => let r := approxF32 fn (fp32.encodeExact n m e); ((f.convert .rne false (fp32.value r.1)).1, r.2)

end Sys2Proof.Machine
end

