-- ==== Sys2Proof/Machine/Integer.lean ====
section
/-! DEFINITION. Integer, address, predicate and move instructions, majors 0x00 to 0x1F (04_integer R94 to R113). -/

namespace Sys2Proof.Machine

/-! ## The shared operation: a result computed from operands -/

/-- What an operation computes from a thread and its sources A, B, C: the result and the flags of each element. -/
abbrev Op3 := Thread → Nat → Nat → Nat → Nat × List Nat

/-- An integer result, which raises no flag (R97). -/
def intOp (f : Nat → Nat → Nat → Nat) : Op3 := fun _ a b c => (f a b c, [])

/-- The trap enables of a thread: those of its context; no exception traps in a handler (R142, R143). -/
def State.enables (s : State) (t : Tid) : Nat :=
  if t.lane = 32 then 0
  else
    match s.unit? t.uid with
    | some u => (s.ctx u.ctx).te
    | none => 0

def orAll (l : List Nat) : Nat := l.foldl (fun m f => m ||| f) 0

/-- The detail of a floating exception: the flags raised, and the elements that raised an enabled one (R408). -/
def fpDetail (te : Nat) (flags : List Nat) : Nat :=
  orAll flags + 256 * maskOf ((List.range 8).filter fun e => (flags.getD e 0) &&& te != 0)

/-- A result with its flags goes to the receivers; an enabled flag traps instead (R46, R97, R143, R144). -/
def finish (v : View) (s : State) (t : Tid) (rs : List Tid) (r : Nat × List Nat) : TRes :=
  let te := s.enables t
  if orAll r.2 &&& te ≠ 0 then .trap 1 (fpDetail te r.2)
  else .done (rs.foldl (fun s q => s.mapThread q fun th => (v.writeD r.1 th).orFlags (orAll r.2)) s)

/-- The body of every instruction that computes a result from its sources (R93, R97). -/
def compute (op : Op3) (v : View) : Body := fun s0 s t rs act =>
  finish v s t rs (op (s0.thread t) (v.srcA s0 t act) (v.srcB s0 t act) (v.srcC s0 t))

/-- An instruction that computes a result from its sources. -/
def alu (i : Instr) (op : Op3) (s : State) : Out := issue i (eachThread (compute op)) s

/-! ## Element-wise integer operations (R97) -/

/-- Least and greatest value of an element (R97). -/
def Ty.minVal (t : Ty) : Int := if t.isSigned then -(2 ^ (t.elemWidth - 1) : Nat) else 0
def Ty.maxVal (t : Ty) : Int := if t.isSigned then (2 ^ (t.elemWidth - 1) : Nat) - 1 else (2 ^ t.elemWidth : Nat) - 1

/-- The exact value of an element (R97). -/
def elemInt (t : Ty) (x : Nat) : Int := if t.isSigned then toSigned t.elemWidth x else (x % 2 ^ t.elemWidth : Nat)

/-- An exact value narrowed to an element: saturated, or wrapped (R97). -/
def narrow (signed : Bool) (w : Nat) (sat : Bool) (x : Int) : Nat :=
  if sat then
    wrap w (if signed then min (max x (-(2 ^ (w - 1) : Nat))) ((2 ^ (w - 1) : Nat) - 1) else min (max x 0) ((2 ^ w : Nat) - 1))
  else wrap w x

/-- The common pseudocode of R97: an exact operation on each element, then wrap or saturation. -/
def exactElems (t : Ty) (sat : Bool) (f : Int → Int → Int → Int) (a b c : Nat) : Nat :=
  let w := t.elemWidth
  packElems w ((List.range t.elems).map fun e =>
    narrow t.isSigned w sat (f (elemInt t (elem w a e)) (elemInt t (elem w b e)) (elemInt t (elem w c e))))

/-- R99 to R100 as an operation of a view's type. -/
def exactOp (t : Ty) (sat : Bool) (f : Int → Int → Int → Int) : Op3 := intOp (exactElems t sat f)

def opAdd (a b _ : Int) : Int := a + b
def opSub (a b _ : Int) : Int := a - b
def opMul (a b _ : Int) : Int := a * b
def opMad (a b c : Int) : Int := a * b + c
def opMin (a b _ : Int) : Int := min a b
def opMax (a b _ : Int) : Int := max a b
def opAbs (a _ _ : Int) : Int := a.natAbs
def opNeg (a _ _ : Int) : Int := -a

/-- The high half of the exact product (R100). -/
def opMulh (w : Nat) (a b _ : Int) : Int := a * b / (2 ^ w : Nat)

/-- The quotient of R100, truncated toward zero; all ones for a zero divisor. -/
def opDiv (a b _ : Int) : Int := if b = 0 then -1 else Int.tdiv a b

/-- The remainder of R100; the dividend for a zero divisor. -/
def opRem (a b _ : Int) : Int := if b = 0 then a else Int.tmod a b

/-! ## Logic, shifts and bit fields (R101 to R105) -/

/-- a with every bit of a value of n bits inverted. -/
def invert (n a : Nat) : Nat := 2 ^ n - 1 - a % 2 ^ n

def opShl (w a k : Nat) : Nat := if k < w then a % 2 ^ w * 2 ^ k % 2 ^ w else 0
def opShr (w a k : Nat) : Nat := if k < w then a % 2 ^ w / 2 ^ k else 0
def opSar (w a k : Nat) : Nat := wrap w (toSigned w a / (2 ^ min k w : Nat))
def opRol (w a k : Nat) : Nat :=
  let j := k % w
  let x := a % 2 ^ w
  (x * 2 ^ j % 2 ^ w) + x / 2 ^ (w - j)

/-- The length that a control word leaves (R103). -/
def fieldLen (w ctl : Nat) : Nat :=
  let pos := bits ctl 7 0
  if pos < w then min (bits ctl 15 8) (w - pos) else 0

def opBfe (signed : Bool) (w a ctl : Nat) : Nat :=
  let l := fieldLen w ctl
  let f := a / 2 ^ bits ctl 7 0 % 2 ^ l
  if l = 0 then 0 else if signed then wrap w (toSigned l f) else f

def opBfi (w a b ctl : Nat) : Nat :=
  let l := fieldLen w ctl
  let pos := bits ctl 7 0
  let x := a % 2 ^ w
  if l = 0 then x else x % 2 ^ pos + b % 2 ^ l * 2 ^ pos + x / 2 ^ (pos + l) * 2 ^ (pos + l)

/-- The bits of a value, lowest first. -/
def bitList (w a : Nat) : List Bool := (List.range w).map (bit a)

def opPopc (w a : Nat) : Nat := (bitList w a).countP id
def opClz (w a : Nat) : Nat := ((bitList w a).reverse.takeWhile fun b => !b).length
def opBrev (w a : Nat) : Nat := (bitList w a).foldl (fun r b => 2 * r + boolNat b) 0

/-! ## Address, compare, predicate, select, conversion (R106 to R113) -/

/-- lea of R106. -/
def opLea (shift : Nat) (zx : Bool) (a b : Nat) : Nat :=
  wrap 64 ((a : Int) + (if zx then ((b % 2 ^ 32 : Nat) : Int) else toSigned 32 b) * (2 ^ shift : Nat))

/-- The condition of a compare (R107). -/
def compares (c : ICond) (a b : Int) : Bool :=
  match c with
  | .eq => a == b
  | .ne => a != b
  | .lt => decide (a < b)
  | .le => decide (a ≤ b)
  | .gt => decide (b < a)
  | .ge => decide (b ≤ a)

/-- The combine field (R107). -/
def combined (k : Combine) (t p : Bool) : Bool :=
  match k with
  | .none => t
  | .pand => t && p
  | .por => t || p

/-- Bit 4A + 2B + C of a truth table (R109). -/
def opPlop (lut a b c : Nat) : Nat := boolNat (bit lut (4 * a + 2 * b + c))

/-- convert(v) of R113: an element of the source type to one of the destination type. -/
def convertInt (w src : Ty) (sat : Bool) (x : Nat) : Nat := narrow w.isSigned w.elemWidth sat (elemInt src x)

/-- cvti of R113. -/
def opCvti (w src : Ty) (elemNo : Nat) (sat : Bool) (a b : Nat) : Nat :=
  let sw := src.elemWidth
  let cv := convertInt w src sat
  match cvtiRow w src with
  | some (true, _) =>
    let half := w.elems / 2
    packElems w.elemWidth (((List.range half).map fun e => cv (elem sw a e)) ++ ((List.range half).map fun e => cv (elem sw b e)))
  | some (false, _) | none => cv (elem sw a elemNo)

/-- The value of a special register for a thread (R94, R95, R112). DESIGN CHOICE (log 8): on a system core, core reads 512
plus the die and isle reads 64. -/
def State.special (s : State) (t : Tid) (r : SReg) : Nat :=
  match s.unit? t.uid with
  | none => 0
  | some u =>
    match r with
    | .lane => t.lane
    | .crew => t.crew
    | .ncrew => u.desc.crews
    | .unitx => u.index % u.desc.gridx
    | .unity => u.index / u.desc.gridx % u.desc.gridy
    | .unitz => u.index / (u.desc.gridx * u.desc.gridy)
    | .gridx => u.desc.gridx
    | .gridy => u.desc.gridy
    | .gridz => u.desc.gridz
    | .launch => u.launch.toNat
    | .task => u.taskId
    | .version => u.task.runs % 2 ^ 28 * 16 + u.task.depth
    | .prio => u.desc.prio
    | .tmode => boolNat u.task.atomic
    | .core => u.core
    | .isle => isleOf u.core
    | .die => dieOf u.core
    | .device => s.fabric.device
    | .incarnation => s.fabric.incarnation
    | .rslot => u.slot
    | .cycle => s.cycle u.core
    | .cwp n => if n.toNat < u.desc.chans then (u.wptr.getD n.toNat 0).toNat else 0
    | .lrstat => (s.thread t).lrstat.toNat

/-- sreg waits on an outstanding lrun when it reads lrstat (11_atomics_routines R300), and a read of a write pointer is an
observation of its bytes, which changes no state (R277). -/
def sregBody (r : SReg) (v : View) : Body := fun s0 s t rs _ =>
  let busy := r == .lrstat && s0.txns.any fun x => (x.tid == t || x.dests.any (·.1 == t)) && (x.kind matches .lrun ..)
  if busy then .wait .accesses s else finish v s t rs (s0.special t r, [])

/-! ## Meanings -/

def execIaddBase (x : BaseForm) (s : State) : Out := alu (.iaddBase x) (exactOp .i32 false opAdd) s
def execIaddExt (x : Form) (s : State) : Out := alu (.iaddExt x) (exactOp x.ty x.sat opAdd) s
def execIsubBase (x : BaseForm) (s : State) : Out := alu (.isubBase x) (exactOp .i32 false opSub) s
def execIsubExt (x : Form) (s : State) : Out := alu (.isubExt x) (exactOp x.ty x.sat opSub) s
def execImulBase (x : BaseForm) (s : State) : Out := alu (.imulBase x) (exactOp .i32 false opMul) s
def execImulExt (x : Form) (s : State) : Out := alu (.imulExt x) (exactOp x.ty x.sat opMul) s
def execImulhBase (x : BaseForm) (s : State) : Out := alu (.imulhBase x) (exactOp .i32 false (opMulh 32)) s
def execImulhExt (x : Form) (s : State) : Out := alu (.imulhExt x) (exactOp x.ty false (opMulh x.ty.elemWidth)) s
def execImad (x : Form) (s : State) : Out := alu (.imad x) (exactOp x.ty x.sat opMad) s
def execIdivBase (x : BaseForm) (s : State) : Out := alu (.idivBase x) (exactOp .i32 false opDiv) s
def execIdivExt (x : Form) (s : State) : Out := alu (.idivExt x) (exactOp x.ty false opDiv) s
def execIremBase (x : BaseForm) (s : State) : Out := alu (.iremBase x) (exactOp .i32 false opRem) s
def execIremExt (x : Form) (s : State) : Out := alu (.iremExt x) (exactOp x.ty false opRem) s
def execIminBase (x : BaseForm) (s : State) : Out := alu (.iminBase x) (exactOp .i32 false opMin) s
def execIminExt (x : Form) (s : State) : Out := alu (.iminExt x) (exactOp x.ty false opMin) s
def execImaxBase (x : BaseForm) (s : State) : Out := alu (.imaxBase x) (exactOp .i32 false opMax) s
def execImaxExt (x : Form) (s : State) : Out := alu (.imaxExt x) (exactOp x.ty false opMax) s
def execIabsBase (x : BaseForm) (s : State) : Out := alu (.iabsBase x) (exactOp .i32 false opAbs) s
def execIabsExt (x : Form) (s : State) : Out := alu (.iabsExt x) (exactOp x.ty x.sat opAbs) s
def execInegBase (x : BaseForm) (s : State) : Out := alu (.inegBase x) (exactOp .i32 false opNeg) s
def execInegExt (x : Form) (s : State) : Out := alu (.inegExt x) (exactOp x.ty x.sat opNeg) s

def execAndBase (x : BaseForm) (s : State) : Out := alu (.andBase x) (intOp fun a b _ => a &&& b) s
def execAndExt (x : Form) (s : State) : Out := alu (.andExt x) (intOp fun a b _ => a &&& b) s
def execOrBase (x : BaseForm) (s : State) : Out := alu (.orBase x) (intOp fun a b _ => a ||| b) s
def execOrExt (x : Form) (s : State) : Out := alu (.orExt x) (intOp fun a b _ => a ||| b) s
def execXorBase (x : BaseForm) (s : State) : Out := alu (.xorBase x) (intOp fun a b _ => a ^^^ b) s
def execXorExt (x : Form) (s : State) : Out := alu (.xorExt x) (intOp fun a b _ => a ^^^ b) s
def execAndnBase (x : BaseForm) (s : State) : Out := alu (.andnBase x) (intOp fun a b _ => a &&& invert 32 b) s
def execAndnExt (x : Form) (s : State) : Out := alu (.andnExt x) (intOp fun a b _ => a &&& invert x.ty.width b) s
def execNotBase (x : BaseForm) (s : State) : Out := alu (.notBase x) (intOp fun a _ _ => invert 32 a) s
def execNotExt (x : Form) (s : State) : Out := alu (.notExt x) (intOp fun a _ _ => invert x.ty.width a) s

def execShlBase (x : BaseForm) (s : State) : Out := alu (.shlBase x) (intOp fun a b _ => opShl 32 a b) s
def execShlExt (x : Form) (s : State) : Out := alu (.shlExt x) (intOp fun a b _ => opShl x.ty.width a b) s
def execShrBase (x : BaseForm) (s : State) : Out := alu (.shrBase x) (intOp fun a b _ => opShr 32 a b) s
def execShrExt (x : Form) (s : State) : Out := alu (.shrExt x) (intOp fun a b _ => opShr x.ty.width a b) s
def execSarBase (x : BaseForm) (s : State) : Out := alu (.sarBase x) (intOp fun a b _ => opSar 32 a b) s
def execSarExt (x : Form) (s : State) : Out := alu (.sarExt x) (intOp fun a b _ => opSar x.ty.width a b) s
def execRolBase (x : BaseForm) (s : State) : Out := alu (.rolBase x) (intOp fun a b _ => opRol 32 a b) s
def execRolExt (x : Form) (s : State) : Out := alu (.rolExt x) (intOp fun a b _ => opRol x.ty.width a b) s
def execBfe (x : Form) (s : State) : Out := alu (.bfe x) (intOp fun a b _ => opBfe x.ty.isSigned x.ty.width a b) s
def execBfi (x : Form) (s : State) : Out := alu (.bfi x) (intOp fun a b c => opBfi x.ty.width a b c) s
def execPopcBase (x : BaseForm) (s : State) : Out := alu (.popcBase x) (intOp fun a _ _ => opPopc 32 a) s
def execPopcExt (x : Form) (s : State) : Out := alu (.popcExt x) (intOp fun a _ _ => opPopc x.ty.width a) s
def execClz (x : Form) (s : State) : Out := alu (.clz x) (intOp fun a _ _ => opClz x.ty.width a) s
def execBrev (x : Form) (s : State) : Out := alu (.brev x) (intOp fun a _ _ => opBrev x.ty.width a) s

def execLea (shift : BitVec 3) (zx : Bool) (x : Form) (s : State) : Out :=
  alu (.lea shift zx x) (intOp fun a b _ => opLea shift.toNat zx a b) s

def execIcmp (cond : ICond) (comb : Combine) (x : Form) (s : State) : Out :=
  alu (.icmp cond comb x) (intOp fun a b c =>
    boolNat (combined comb (compares cond (elemInt x.ty a) (elemInt x.ty b)) (c != 0))) s

def execPset (all : Bool) (x : Form) (s : State) : Out :=
  alu (.pset all x) (intOp fun a b _ => boolNat (if all then a &&& b == b else a &&& b != 0)) s

def execPlop (lut : BitVec 8) (x : Form) (s : State) : Out :=
  alu (.plop lut x) (intOp fun a b c => opPlop lut.toNat a b c) s

def execSel (x : Form) (s : State) : Out := alu (.sel x) (intOp fun a b c => if c != 0 then b else a) s
def execMovBase (x : BaseForm) (s : State) : Out := alu (.movBase x) (intOp fun _ b _ => b) s
def execMovExt (x : Form) (s : State) : Out := alu (.movExt x) (intOp fun _ b _ => b) s

def execSreg (r : SReg) (x : Form) (s : State) : Out := issue (.sreg r x) (eachThread (sregBody r)) s

def execCvti (src : Ty) (e : BitVec 2) (x : Form) (s : State) : Out :=
  alu (.cvti src e x) (intOp fun a b _ => opCvti x.ty src e.toNat x.sat a b) s

end Sys2Proof.Machine
end

