-- ==== Sys2Proof/Machine/Control.lean ====
section
/-! DEFINITION. Control flow, masks, joins and futures, majors 0x20 to 0x2F (05_control R114 to R133). -/

namespace Sys2Proof.Machine

/-- An address in a code register with bits [1:0] cleared (R121). -/
def codeAddr (v : Nat) : DWord := BitVec.ofNat 64 (v / 4 * 4)

/-- The control-bound fault (R120 to R122). -/
def controlBound (detail : Nat) : FaultInfo := { cause := 0x27, detail }

/-- A run in which every thread of a list waits. -/
def Run.waits (s : State) (ts : List Tid) (w : Wait) : Run := .start (s.waitAll ts w)

/-! ## Branches (R119, R120) -/

/-- br: every active thread goes to the target (R119). -/
def brBody (v : View) : Body := fun s0 s t rs _ => .went (s.setPcs rs ((s0.thread t).pc + BitVec.ofNat 64 v.code))

/-- What brx works on for one thread: the thread, its index and its table address. -/
structure Brx where
  t : Tid
  i : Nat
  tb : Nat
  deriving DecidableEq, Repr

/-- The operands of brx for the active threads; under U = 1 those of the lowest for all (R120, step 1). -/
def brxOperands (v : View) (s : State) (act : List Tid) : List Brx :=
  let table := fun (t : Tid) => match v.x.b with
    | .lit l => ((s.thread t).pc + l).toNat
    | .reg _ => v.srcB s t (act.map (·.lane))
  let own := fun (t : Tid) => ({ t, i := v.srcA s t (act.map (·.lane)), tb := table t } : Brx)
  match act with
  | [] => []
  | t :: _ => if v.x.u then act.map fun q => { own t with t := q } else act.map own

/-- The table read of one thread: its new PC and the leaf used, or the fault (R120, steps 2 and 3). -/
def brxRead (s : State) (b : Brx) : Except FaultInfo (DWord × Nat) :=
  let va := (b.tb + 4 * b.i) % 2 ^ 64
  match s.unit? b.t.uid with
  | none => .error (controlBound b.i)
  | some u =>
    match s.fetchWord u (s.thread b.t).ifMark 0 va with
    | .error r => .error { cause := 0x28, reason := r, addr := va }
    | .ok e => if e % 4 ≠ 0 then .error (controlBound b.i) else .ok (BitVec.ofNat 64 b.tb + BitVec.ofInt 64 (toSigned 32 e), va)

/-- A line enters an L1 instruction cache of 1,024 lines (R16, R448); which line of a full cache goes is a free value (log 77). -/
def State.l1iFill (s : State) (core ctx line pa : Nat) : State :=
  let mine := s.caches.l1i.filter (·.core == core)
  let q := if mine.length < 1024 then (0, s) else s.free
  let rest := if mine.length < 1024 then q.2.caches.l1i else q.2.caches.l1i.erase (mine.getD (q.1 % mine.length) { core, ctx, line, pa })
  { q.2 with caches := { q.2.caches with l1i := { core, ctx, line, pa } :: rest } }

/-- The lines of n fetched bytes: the slice that served one keeps its translation, and the core keeps the line (R447, R448). -/
def State.keepFetch (s : State) (uid va n : Nat) : State :=
  match s.unit? uid with
  | none => s
  | some u => (linesOf va n).foldl (fun s line =>
    if s.caches.l1i.any fun l => l.core == u.core && l.ctx == u.ctx && l.line == line then s
    else match s.leaf? u.ctx (line * 128) with
      | some l => (s.keepLeaf u.ctx (line * 128) l).l1iFill u.core u.ctx line (l.addr (line * 128) / 128)
      | none => s) s

/-- brx for the threads whose index and table registers are full (R120). -/
def brxGo (v : View) (bound : Nat) (s : State) (act : List Tid) : Run :=
  let bs := brxOperands v s act
  let bad := bs.filter fun b => decide (bound < b.i) || b.tb % 4 != 0
  if bad ≠ [] then { st := s, traps := [], faults := bad.map fun b => (b.t, controlBound b.i) }
  else
    let rs := bs.map fun b => (b.t, brxRead s b)
    let failed := rs.filterMap fun r => match r.2 with | .error f => some (r.1, f) | .ok _ => none
    if failed ≠ [] then { st := s, traps := [], faults := failed }
    else .start ((rs.foldl (fun s r => match r.2 with
      | .ok q => ((s.keepFetch r.1.uid q.2 4).setPcs [r.1] q.1).settleAll [r.1]
      | .error _ => s) s).touch)

/-- The threads that pass the full/empty checks issue together; the others wait or trap. Under U = 1 the lowest one is checked
for all, and alone traps (R46). -/
def checkedTogether (v : View) (len : Nat) (s : State) (act : List Tid) (go : State → List Tid → Run) : Run :=
  let lanes := act.map (·.lane)
  if v.x.u then
    match act with
    | [] => .start s
    | t :: _ => match v.check s t lanes with
      | .trap d => (Run.start s).take len t act (.trap 3 d)
      | .wait => .start (s.waitAll act .source)
      | .ready => go s act
  else
    let cs := act.map fun t => (t, v.check s t lanes)
    let ready := (cs.filter fun c => c.2 == .ready).map (·.1)
    let waits := (cs.filter fun c => c.2 == .wait).map (·.1)
    let traps := cs.filterMap fun c => match c.2 with | .trap d => some (c.1, 3, d) | .ready | .wait => none
    let s := s.waitAll waits .source
    if ready = [] then { st := s, traps, faults := [] }
    else
      let r := go s ready
      { r with traps := traps ++ r.traps }

def brxBody (bound : Nat) (v : View) (len : Nat) (s : State) (act : List Tid) : Run := checkedTogether v len s act (brxGo v bound)

/-! ## The return stack (R121, R122) -/

/-- An engine-like write of the thread to its private region comes to the thread's next try, or its fault. -/
def wroteRes (w : Wrote) (s : State) (t : Tid) (addr : Nat) (k : State → TRes) : TRes :=
  match w with
  | .done s => k s
  | .failed b => b.res addr
  | .overflow full => .wait .sealing (s.sealFor t.uid full)
  | .later => .wait .sealing s

/-- A thread keeps what its waiting instruction has taken. -/
def State.latch (s : State) (t : Tid) (l : Latch) : State := s.mapThread t fun th => { th with latch := some l }

/-- One thread pushes a return address; a spill comes after the thread's own accesses to its place (R121, R258). -/
def pushReturn (s : State) (t : Tid) (ra : DWord) : TRes :=
  match s.unit? t.uid with
  | none => .done s
  | some u =>
    let th := s.thread t
    if th.rstack.length < 16 then .done (s.mapThread t fun th => { th with rstack := ra :: th.rstack })
    else if t.lane = 32 ∨ th.spilled = u.desc.priv / 8 then .fault (controlBound 0)
    else if s.committing t.uid then .wait .sealing s
    else if s.privPending u t th.spilled then .wait .accesses s
    else
      wroteRes (s.privWrite u t th.spilled (th.rstack.getLastD 0).toNat) s t (u.privBase t + 8 * th.spilled) fun s =>
        .done (s.mapThread t fun th => { th with rstack := ra :: th.rstack.dropLast, spilled := th.spilled + 1 })

/-- What one thread pops: the address and the state after it; a fill comes after the thread's own accesses to its place, and it
waits for them (none) (R121, R258). -/
def popReturn (s : State) (t : Tid) : Except FaultInfo (Option (DWord × State)) :=
  match s.unit? t.uid with
  | none => .ok (some (0, s))
  | some u =>
    let th := s.thread t
    match th.rstack with
    | x :: xs => .ok (some (x, s.mapThread t fun th => { th with rstack := xs }))
    | [] =>
      if t.lane = 32 ∨ th.spilled = 0 then .error (controlBound 0)
      else if s.privPending u t (th.spilled - 1) then .ok none
      else
        match s.privRead u t (th.spilled - 1) with
        | .error f => .error f
        | .ok q => .ok (some (BitVec.ofNat 64 q.1, q.2.mapThread t fun th => { th with spilled := th.spilled - 1 }))

/-- The part of call and callx of one thread, in an instruction of len bytes: it pushes its own return address and goes to the
target of the leader (R121). reg: the target is a register. -/
def callBody (reg : Bool) (len : Nat) (v : View) : Body := fun s0 s t rs act =>
  match rs with
  | [] => .done s
  | q :: _ =>
    let pc := (s0.thread q).pc
    let target := match (s0.thread q).taken with
      | some a => BitVec.ofNat 64 a
      | none => if reg then codeAddr (v.srcA s0 t act) else pc + BitVec.ofNat 64 v.code
    match pushReturn s q (pc + BitVec.ofNat 64 len) with
    | .done s => .went (s.setPcs [q] target)
    | .wait w s => .wait w ((s.setArrival q.uid q.crew [q.lane] none).latch q (.value target.toNat))
    | r => r

/-- The part of ret of one thread: it pops its own entry, and goes to the target of the leader (R121). -/
def retBody (_ : View) : Body := fun s0 s t rs _ =>
  match rs with
  | [] => .done s
  | q :: _ =>
    let go := fun (target : DWord) => match popReturn s q with
      | .error f => .fault f
      | .ok none => .wait .accesses (s.latch q (.value target.toNat))
      | .ok (some p) => .went (p.2.setPcs [q] target)
    match (s0.thread q).taken, popReturn s0 t with
    | some a, _ => go (BitVec.ofNat 64 a)
    | none, .ok (some p) => go (codeAddr p.1.toNat)
    | none, .ok none => .wait .accesses s
    | none, .error f => if q = t then .fault f else .wait .accesses s

/-! ## Joins and barriers (R127) -/

/-- The lanes of a crew that wait on an arrival set. -/
def Crew.arrivedOn (c : Crew) (n : Nat) : List Nat :=
  (List.range 32).filter fun l => bit (c.arrivals.getD n 0).toNat l && (c.threads.getD l .absent).live && (c.threads.getD l .absent).arrived

/-- When every live lane of the mask has arrived, all that wait are released together, each with the acquire of its barrier,
and the set is empty (R127). -/
def State.release (s : State) (uid c n : Nat) : State :=
  let crew := s.crew uid c
  let on := crew.arrivedOn n
  let missing := crew.mask n &&& crew.liveMask &&& invert 32 (crew.arrivals.getD n 0).toNat
  if missing ≠ 0 ∨ on = [] then s
  else
    ((on.foldl (fun s l => match ((crew.thread l).arrival) with
      | some (.join barrier len) => (if barrier then s.acquireAll ⟨uid, c, l⟩ else s).advance [⟨uid, c, l⟩] len
      | some (.collective _) | some (.due _) | none => s) s).mapCrew uid c fun c => { c with arrivals := c.arrivals.set n 0 }).touch

/-- A mask register of a crew has been written, or one of its threads has exited: its collectives and joins are evaluated
afresh (R117, R123, R127). -/
def State.judge (s : State) (uid c : Nat) : State :=
  let crew := s.crew uid c
  let met := ((List.range 32).filterMap fun l => match (crew.threads.getD l .absent).arrival with
    | some (.collective m) => some ((crew.threads.getD l .absent).pc, m)
    | some (.due _) | some (.join ..) | none => none).eraseDups
  let s := met.foldl (fun s p =>
    let set := crew.members p.2
    let here := crew.gatheredAt p.1
    if here != [] && set.all here.contains then (s.setArrival uid c here (some (.due set))).touch else s) s
  (List.range 16).foldl (fun s n => s.release uid c n) s

/-! ## exit (R123) -/

/-- The accumulators of a completion record with one code (R123). -/
def Rec.add (r : Rec) (code : Nat) : Rec :=
  { orBits := r.orBits ||| code, maxCode := max r.maxCode code, count := if code = 0 then r.count else r.count + 1 }

/-- A thread is gone: its registers and return stack are discarded (R123). -/
def Thread.exited (th : Thread) : Thread :=
  { th with live := false, regs := List.replicate th.regs.length 0, empty := [], preds := 0, rstack := [], spilled := 0, wait := none, arrival := none, latch := none, hold := [], acquire := [], stepping := none }

/-- The destinations of futures in registers that are gone (R129). -/
def RUnit.dropDests (u : RUnit) (t : Tid) : RUnit :=
  RUnit.retire { u with futures := u.futures.map fun f => { f with dests := f.dests.filter (·.1 != t) } }

/-- A thread has an outstanding-transaction entry that has not resolved (R123, R244). -/
def State.hasEntries (s : State) (t : Tid) : Bool :=
  (s.txns.any fun x => x.holders.contains t && x.entry) || s.ops.any fun o => o.tid == t && (o.kind matches .rld | .rld3 | .mcst)

/-- The part of exit of one thread: it takes the code, waits for its own entries and reports its own failures (R123). -/
def exitBody (v : View) : Body := fun s0 s t rs act =>
  match rs with
  | [] => .done s
  | q :: _ =>
    let code := ((s0.thread q).taken).getD (v.srcA s0 t act % 65536)
    if s.hasEntries q then .wait .accesses ((s.setArrival q.uid q.crew [q.lane] none).latch q (.value code))
    else
      match (s.thread q).report with
      | some f => .fault f
      | none =>
        .went ((((s.mapThread q Thread.exited).mapUnit q.uid fun (u : RUnit) => { u with tally := u.tally.add code }).mapUnit q.uid (·.dropDests q)).judge q.uid q.crew)

/-! ## Masks (R125, R126) -/

/-- mset and mop act once for each crew with an active thread in the bundle; the crew's waits on masks are evaluated afresh. -/
def perCrew (s : State) (len : Nat) (act : List Tid) (f : State → Tid → List Tid → State) : Run :=
  .start ((crewsOf act).foldl (fun s c =>
    match act.filter (·.crew == c) with
    | [] => s
    | t :: ts => (((f s t (t :: ts)).advance (t :: ts) len).judge t.uid t.crew).touch) s)

/-- mset, function 0: the value of the lowest active thread of the crew (R125). -/
def msetBody (v : View) (len : Nat) (s : State) (act : List Tid) : Run :=
  checkedTogether v len s act fun s act =>
    perCrew s len act fun s t _ =>
      s.mapCrew t.uid t.crew (·.setMask v.x.d.toNat (v.srcB s t (act.map (·.lane))))

/-- mset add and del: every active thread sets or clears the bit of its lane (R125). -/
def msetBits (add : Bool) (v : View) (len : Nat) (s : State) (act : List Tid) : Run :=
  perCrew s len act fun s t ts =>
    s.mapCrew t.uid t.crew fun c =>
      let m := maskOf (ts.map (·.lane))
      let old := c.mask v.x.d.toNat
      c.setMask v.x.d.toNat (if add then old ||| m else old &&& invert 32 m)

/-- A truth table over two masks (R126). -/
def lutMask (lut a b : Nat) : Nat := maskOf ((List.range 32).filter fun l => bit lut (2 * boolNat (bit a l) + boolNat (bit b l)))

/-- The mask register in source B of mop. -/
def maskB (v : View) : Nat := match v.x.b with | .reg n => n.toNat | .lit _ => 0

/-- mop (R126). -/
def mopBody (lut : Nat) (v : View) (len : Nat) (s : State) (act : List Tid) : Run :=
  perCrew s len act fun s t _ =>
    s.mapCrew t.uid t.crew fun c => c.setMask v.x.d.toNat (lutMask lut (c.mask v.x.a.toNat) (c.mask (maskB v)))

/-! ## mjoin and mbar (R127) -/

/-- One thread reaches a join or a barrier (R127, R245). Its bit of the mask is looked at once; then the release of a barrier, at
crew scope, waits for every earlier access of the thread (R260, R265). One that has arrived waits until it is released. -/
def joinThread (barrier : Bool) (v : View) (len : Nat) (r : Run) (t : Tid) : Run :=
  let s := r.st
  let n := v.x.a.toNat
  let crew := s.crew t.uid t.crew
  match (s.thread t).report with
  | some f => { r with faults := r.faults ++ [(t, f)] }
  | none =>
    if (s.thread t).arrived then { r with st := s.waitAll [t] .collective }
    else if (s.thread t).taken.isNone && !bit (crew.mask n &&& crew.liveMask) t.lane then { r with st := (s.advance [t] len).touch }
    else if barrier && s.outstanding t true true false then { r with st := (s.latch t (.value n)).waitAll [t] .accesses }
    else
      let s := if barrier then s.makeKnown t else s
      let s := (s.mapThread t fun th => { th with arrival := some (.join barrier len) }).waitAll [t] .collective
      let s := s.mapCrew t.uid t.crew fun c => { c with arrivals := c.arrivals.set n ((c.arrivals.getD n 0) ||| (1#32 <<< t.lane)) }
      { r with st := s.touch }

/-- mjoin and mbar: the active threads arrive, then the condition is looked at in each crew. -/
def joinBody (barrier : Bool) (v : View) (len : Nat) (s : State) (act : List Tid) : Run :=
  let r := act.foldl (joinThread barrier v len) (.start s)
  { r with st := (act.map fun t => (t.uid, t.crew)).eraseDups.foldl (fun s c => s.release c.1 c.2 v.x.a.toNat) r.st }

/-! ## yield, nop and brk (R128) -/

def nopBody (_ : View) : Body := fun _ s _ _ _ => .done s

def brkBody (code : Nat) (_ : View) : Body := fun _ _ _ _ _ => .trap 4 code

/-! ## Futures (R130 to R133) -/

/-- What a handle operand names. -/
inductive HandleArg where
  /-- the register is empty, and a future will fill it -/
  | dest (num gen : Nat)
  /-- the register is empty for another reason -/
  | other
  /-- a handle word of a future of the unit -/
  | handle (f : Future)
  /-- a handle word that names no future, or has a reserved bit set -/
  | stale
  | data (w : Nat)
  deriving DecidableEq, Repr

/-- The handle operand of a thread (R49, R130). -/
def handleArg (v : View) (s : State) (t : Tid) : HandleArg :=
  let th := s.thread t
  let n := v.x.a.toNat
  match th.producer n with
  | some (.future num gen) => .dest num gen
  | some (.txn _) => .other
  | none =>
    match handleOf (th.reg n) with
    | none => .data (th.reg n)
    | some h =>
      if bits (th.reg n) 29 26 ≠ 0 then .stale
      else match (s.unit? t.uid).bind fun u => u.future? h.1 h.2 with | some f => .handle f | none => .stale

/-- Whether a future is one of a fabric operation, or of a matrix operation. -/
def State.futureKind (s : State) (uid num gen : Nat) : Bool × Bool :=
  match (s.unit? uid).bind fun u => u.future? num gen with
  | some f => (f.fabric, f.matrix)
  | none => (false, false)

/-- A status is written to the destinations of fwait. -/
def fwaitDone (v : View) (s : State) (rs : List Tid) (w : Nat) : TRes :=
  .done (rs.foldl (fun s q => s.mapThread q (·.writeRegs v.x.d.toNat 1 w)) s)

/-- The array error at an fwait of a direct unit (R188). -/
def arrayFault (w : Nat) : TRes := .fault { cause := 0x26, detail := w % 2 ^ 24 }

/-- fwait (R130, R188, R245), by the future as the threads of the bundle before it leave it. What it waited for it keeps, so that a
loaded word is data, and a matrix status an array error; the status that it has taken with a copy it keeps too. -/
def fwaitBody (v : View) : Body := fun s0 s t rs _ => reporting s0 t <|
  let full := fun (s : State) (k : TRes) => if rs.any fun q => (s.thread q).isEmpty v.x.d.toNat then .wait .dest s else k
  let status := fun (w : Nat) (matrix : Bool) (s : State) =>
    if matrix && bits w 31 24 == 0x82 then arrayFault w else full s (fwaitDone v s rs w)
  match handleArg v s t, (s.thread t).latch with
  | .dest num gen, _ => let k := s.futureKind t.uid num gen; .wait (.future k.1 k.2) (s.latch t (.waited k.2))
  | .other, _ => .wait (.future false false) (s.latch t (.waited false))
  | _, some (.waited matrix) => status ((s.thread t).reg v.x.a.toNat) matrix s
  | _, some (.status w matrix) => status w matrix s
  | .stale, _ => full s (fwaitDone v s rs 0xBE000000)
  | .data w, _ => full s (fwaitDone v s rs w)
  | .handle f, _ =>
    match f.status with
    | none => .wait (.future f.fabric f.matrix) (s.latch t (.awaits f.num f.gen))
    | some w => status w.toNat f.matrix ((s.mapUnit t.uid fun u => (u.mapFuture f.num f.gen fun f => { f with copies := f.copies - 1 }).retire).latch t (.status w.toNat f.matrix))

/-- ftest (R131). -/
def ftestBody (v : View) : Body := fun s0 s t rs _ =>
  let r := match handleArg v s0 t with
    | .dest .. | .other => 0
    | .handle f => boolNat f.status.isSome
    | .stale | .data _ => 1
  .done (rs.foldl (fun s q => s.mapThread q (v.writeD r)) s)

/-- The engine operation of a future is asked to stop (R132). -/
def State.cancelOp (s : State) (uid num gen : Nat) : State :=
  match (s.unit? uid).bind fun u => u.future? num gen with
  | some f => if f.status.isSome then s
    else { s with ops := s.ops.map fun o => if o.id = f.op then { o with cancelled := true } else o }
  | none => s

/-- fcancel (R132). -/
def fcancelBody (v : View) : Body := fun s0 s t _ _ =>
  .done (match handleArg v s0 t with
    | .dest num gen => s.cancelOp t.uid num gen
    | .handle f => s.cancelOp t.uid f.num f.gen
    | .other | .stale | .data _ => s)

/-- A source of an event of a die's system core is pending for a thread (R133, R296, R303, R459, R460). -/
def State.askSystem (s : State) (die : Nat) (t : Tid) (source : Nat) : State :=
  match s.unit? t.uid with
  | none => s
  | some u =>
    let info := u.core % 512 + 65536 * u.slot + 2 ^ 20 * t.lane + 2 ^ 26 * t.crew
    { s with sys := s.sys.modify die fun c => { c with pending := c.pending ++ [{ source, info, thread := some t }] } }

/-- The system core of a thread's die has an event of a source for the thread, pending or not yet done with: until the EVDONE write
the thread stays where it stands (R460). -/
def State.asked (s : State) (t : Tid) (source : Nat) : Bool :=
  match s.unit? t.uid with
  | none => false
  | some u =>
    let c := s.sys.getD (dieOf u.core) .reset
    c.pending.any (fun q => q.thread == some t && q.source == source) || (c.holding == some t && c.evcause.toNat == source)

/-- A thread that finds a table exhausted asks the system core of its die, once, and is held (R133, R460). -/
def heldForTable (s : State) (t : Tid) : TRes :=
  .wait .held (if s.asked t 1 then s else s.askSystem (match s.unit? t.uid with | some u => dieOf u.core | none => 0) t 1)

/-- Copies of a handle go to the receivers, beyond 15 only when the system core has virtualised the count (R133). -/
def giveCopies (v : View) (s : State) (t : Tid) (rs : List Tid) (f : Future) (w : Nat) : TRes :=
  if 15 < f.copies + rs.length ∧ !(s.thread t).virt then heldForTable s t
  else
    let s := s.mapUnit t.uid fun u => u.mapFuture f.num f.gen fun f => { f with copies := f.copies + rs.length }
    .done (rs.foldl (fun s q => s.mapThread q (·.writeRegs v.x.d.toNat 1 w)) s)

/-- fmov (R133), by the future as the threads of the bundle before it leave it. A word for which it has waited is data. -/
def fmovBody (v : View) : Body := fun s0 s t rs _ =>
  match handleArg v s t, (s0.thread t).latch with
  | .dest num gen, _ =>
    (match (s.unit? t.uid).bind fun u => u.future? num gen with
    | some f => giveCopies v s t rs f (handleWord num gen)
    | none => .wait .source s)
  | .other, _ => .wait .source (s.latch t (.waited false))
  | _, some (.waited _) => fwaitDone v s rs ((s0.thread t).reg v.x.a.toNat)
  | .handle f, _ => if f.status.isSome then fwaitDone v s rs (handleWord f.num f.gen) else giveCopies v s t rs f (handleWord f.num f.gen)
  | .stale, _ => fwaitDone v s rs ((s0.thread t).reg v.x.a.toNat)
  | .data w, _ => fwaitDone v s rs w

/-! ## Meanings -/

def execBrBase (u : Bool) (off : BitVec 22) (s : State) : Out := issue (.brBase u off) (eachThread brBody) s
def execBrExt (x : Form) (s : State) : Out := issue (.brExt x) (eachThread brBody) s
def execBrx (bound : BitVec 8) (x : Form) (s : State) : Out := issue (.brx bound x) (brxBody bound.toNat) s
def execCallBase (u : Bool) (off : BitVec 22) (s : State) : Out := issue (.callBase u off) (eachPart (callBody false 4)) s
def execCallExt (x : Form) (s : State) : Out := issue (.callExt x) (eachPart (callBody false 20)) s
def execCallx (x : Form) (s : State) : Out := issue (.callx x) (eachPart (callBody true 12)) s
def execRetBase (u : Bool) (s : State) : Out := issue (.retBase u) (eachPart retBody) s
def execRetExt (x : Form) (s : State) : Out := issue (.retExt x) (eachPart retBody) s
def execExitBase (x : BaseForm) (s : State) : Out := issue (.exitBase x) (eachPart exitBody) s
def execExitExt (x : Form) (s : State) : Out := issue (.exitExt x) (eachPart exitBody) s
def execMset (fn : MsetFn) (x : Form) (s : State) : Out :=
  issue (.mset fn x) (match fn with | .set => msetBody | .add => msetBits true | .del => msetBits false) s
def execMjoin (x : Form) (s : State) : Out := issue (.mjoin x) (joinBody false) s
def execMbar (x : Form) (s : State) : Out := issue (.mbar x) (joinBody true) s
def execMop (lut : BitVec 4) (x : Form) (s : State) : Out := issue (.mop lut x) (mopBody lut.toNat) s
def execYieldBase (u : Bool) (s : State) : Out := issue (.yieldBase u) (eachThread nopBody) s
def execYieldExt (x : Form) (s : State) : Out := issue (.yieldExt x) (eachThread nopBody) s
def execNopBase (u : Bool) (s : State) : Out := issue (.nopBase u) (eachThread nopBody) s
def execNopExt (x : Form) (s : State) : Out := issue (.nopExt x) (eachThread nopBody) s
def execBrk (code : BitVec 4) (x : Form) (s : State) : Out := issue (.brk code x) (eachOwn (brkBody code.toNat)) s
def execFwaitBase (x : BaseForm) (s : State) : Out := issue (.fwaitBase x) (lateDest fwaitBody) s
def execFwaitExt (x : Form) (s : State) : Out := issue (.fwaitExt x) (lateDest fwaitBody) s
def execFtest (x : Form) (s : State) : Out := issue (.ftest x) (eachThread ftestBody) s
def execFcancel (x : Form) (s : State) : Out := issue (.fcancel x) (eachThread fcancelBody) s
def execFmov (x : Form) (s : State) : Out := issue (.fmov x) (eachThread fmovBody) s

end Sys2Proof.Machine
end

