-- ==== Sys2Proof/Machine/Memory.lean ====
section
/-! DEFINITION. Loads, stores, prefetch and flush, buffer lending, and the events that carry a global access through its
home: majors 0x50 to 0x54, 0x56 and 0x58 to 0x5B (09_memory R210, R211, R215 to R226, R229, R235, R237 to R247). -/

namespace Sys2Proof.Machine

/-! ## Addresses (R210) -/

/-- Source B as a signed 32-bit offset. -/
def offsetOf (v : View) (s : State) (t : Tid) (act : List Nat) : Int := toSigned 32 (v.srcB s t act)

/-- The effective address: modulo 2^64, or modulo 2^32 in local space (R210). -/
def eaOf (v : View) (ac : Access) (s : State) (t : Tid) (act : List Nat) : Nat :=
  wrap (if ac.space = .localMem then 32 else 64) ((v.srcA s t act : Int) + offsetOf v s t act)

/-- A write of a lower thread of the same bundle shares a byte with an access and is still on its way (R219, R284). -/
def State.behind (s : State) (x : Txn) : Bool :=
  s.txns.any fun y => y.tid.uid == x.tid.uid && y.step == x.step && decide (y.id < x.id) && y.space == x.space &&
    !y.kind.fabric && y.writePending && overlaps y.va y.size x.va x.size

/-- No earlier access of its thread, nor one of its bundle that goes before it, shares a byte with an access and is still on
its way (R219, R261, R284). -/
def State.first (s : State) (x : Txn) : Bool := !s.overlapping x.tid x.space x.va x.size x.id false && !s.behind x

/-- A provisional run's access to memory that it may not write waits at its home (R337). -/
def State.awaitsFinal (s : State) (x : Txn) (l : Leaf) : Bool :=
  match s.unit? x.tid.uid with
  | some u => !x.orphan && !u.ceilingFinal && s.exposed x.ctx l x.va x.size
  | none => false

/-- An access to a TSO page acts as a release too: earlier accesses of the thread come first (R273). -/
def State.tsoWaits (s : State) (x : Txn) (l : Leaf) : Bool :=
  l.tso && s.txns.any fun y => y.tid == x.tid && decide (y.id < x.id) && (y.writePending || y.readPending)

/-- An access stands in the queue of its line: nothing of its own thread or run holds it back. -/
def State.queues (s : State) (x : Txn) : Bool :=
  s.first x && !(s.unit? x.tid.uid).any (·.task.heldWrites.contains x.id) &&
    (match x.leaf with | some l => !(x.kind.writes && (s.awaitsFinal x l || s.tsoWaits x l)) | none => true)

/-- An access of some kinds that its home accepted before x still waits at the line of x (R284, R293, R310). -/
def State.queuedBefore (s : State) (x : Txn) (kinds : Txn → Bool) : Bool :=
  s.txns.any fun y => y.id != x.id && y.ctx == x.ctx && y.space == .global && (y.phase matches .accepted) && decide (y.acc < x.acc) &&
    (linesOf y.va y.size).any ((linesOf x.va x.size).contains ·) && kinds y && s.queues y

/-- A held write goes behind those of its task that its home was reached by before it, on whatever line (R310). -/
def State.heldEarlier (s : State) (x : Txn) : Bool :=
  x.held && s.txns.any fun y => y.id != x.id && y.held && y.tid.uid == x.tid.uid && y.space == .global && (y.phase matches .accepted) &&
    decide (y.acc < x.acc) && s.queues y &&
    (match x.leaf, y.leaf with | some l, some k => (s.ctx x.ctx).home l x.va == (s.ctx y.ctx).home k y.va | _, _ => false)

/-! ## Starting an access -/

/-- An access as its instruction gives it. -/
structure Req where
  kind : TxnKind
  ac : Access
  va : Nat
  size : Nat
  noSig : Bool := false
  entry : Bool := true
  /-- the receivers hold until the home has accepted (R217, R285) -/
  hold : Bool := false
  /-- bytes of a waiting instruction (R301) -/
  len : Nat := 0
  deriving DecidableEq, Repr

/-- A new access of a thread: its destinations, of k registers each, are empty (R92, R216). -/
def State.startTxn (s : State) (u : RUnit) (t : Tid) (pc : DWord) (q : Req) (d k : Nat) (rs : List Tid) : State :=
  let (id, s) := s.newId
  let x : Txn := { id, tid := t, ctx := u.ctx, core := u.core, pc, kind := q.kind, space := q.ac.space, va := q.va, size := q.size, pa := none, leaf := none, ord := q.ac.ord, scope := q.ac.scope, ep := q.ac.ep.toNat, na := q.ac.na, l1b := q.ac.l1b, noSig := q.noSig, dests := if k = 0 then [] else rs.map fun r => (r, d), phase := .issued, entry := q.entry, grade := .final, target := 0, since := s.clk.now, step := s.clk.stepNo, acc := 0, held := false, after := pc + BitVec.ofNat 64 q.len, orphan := false }
  let held := q.hold || (t.lane == 32 && q.ac.space == .global)
  let s := { s with txns := s.txns ++ [x] }
  (rs.foldl (fun s r => s.mapThread r fun th =>
    let th := if k = 0 then th else th.markEmpty d k (.txn id)
    { th with hold := if held then id :: th.hold else th.hold }) (s.releasing q.ac t)).acquiring q.ac (if k = 0 then [t] else rs)

/-- A release waits for every earlier access of its thread, and is then a report point as the fence is (R245, R260; log 43). -/
def released (s : State) (t : Tid) (ac : Access) (k : TRes) : TRes :=
  if ac.ord = .release ∨ ac.ord = .acqRel then
    if s.outstanding t true true (ac.scope == .fabric) then .wait .accesses s else reporting s t k
  else k

/-! ## ld and ldnc (R216, R217, R220) -/

/-- The value of a load from its bytes (R216). -/
def loadValue (sx : Bool) (n v : Nat) : Nat := if sx then wrap 32 (toSigned (8 * n) v) else v

/-- A load that is complete at issue. -/
def loadNow (v : View) (ac : Access) (s : State) (rs : List Tid) (x : Nat) : TRes :=
  .done ((rs.foldl (fun s q => s.mapThread q (v.writeD x)) s).acquiring ac rs)

/-- A load of local memory or the own vault meets an uncorrectable error: its destinations stay empty, and its thread takes the
memory fault at it (R216, R243). -/
def loadFailed (v : View) (s : State) (t : Tid) (rs : List Tid) (ea : Nat) : TRes :=
  let lanes := maskOf ((rs.filter fun q => q.crew == t.crew && decide (q.lane < 32)).map (·.lane))
  .failed { cause := 0x20, reason := rUncorrectable, addr := ea, lanes := if rs.length ≤ 1 then none else some lanes }
    (rs.foldl (fun s q => s.mapThread q fun th => th.markEmpty v.x.d.toNat v.x.ty.regs (.txn 0)) s)

/-- A load of one thread (R211, R216, R217, R244, R258). An L1 hit waits at its instruction for an earlier access of the thread
to its bytes (R261). -/
def loadBody (sx noSig : Bool) (ac : Access) (v : View) : Body := fun s0 s t rs act =>
  match s.unit? t.uid with
  | none => .done s
  | some u =>
    let ea := eaOf v ac s0 t act
    let n := v.x.ty.bytes
    let sig := fun (s : State) => if noSig then s else s.signRead t.uid ac.space ea n
    match s.accessBad t.uid u.ctx ac.space ea n with
    | some b => b.res ea
    | none =>
      destFull v s0 s rs <|
      if s.numbered t.uid then .wait .sealing s
      else if s.overlapping t ac.space ea n s.clk.nextId true then .wait .accesses s
      else
        let start := fun (hold : Bool) =>
          if s.entryFree t u.core then
            .done (s.startTxn u t (s0.thread t).pc { kind := .load v.x.ty.regs sx, ac, va := ea, size := n, noSig, hold } v.x.d.toNat v.x.ty.regs rs)
          else .wait .entry s
        match ac.space with
        | .localMem =>
          if s.localFlawed t.uid ea n then loadFailed v s t rs ea
          else loadNow v ac s rs (loadValue sx n (leNat (s.loadLocal t.uid ea n)))
        | .vault =>
          if !ownVault u.core ea then start false
          else if s.vaultHeld t.uid ea n then .wait .home s
          else if s.flawed 1 ea n then loadFailed v s t rs ea
          else loadNow v ac (sig s) rs (loadValue sx n (leNat (cellsGet s.vaults ea n)))
        | .global =>
          let own := u.task.version.any fun b => decide (ea ≤ b.va) && decide (b.va < ea + n)
          match s.l1Get u.core u.ctx ea n with
          | some bs =>
            if ac.l1b || own then start true
            else if s.overlapping t .global ea n s.clk.nextId false then .wait .accesses s
            else loadNow v (if (s.leaf? u.ctx ea).any (·.tso) then { ac with ord := .acquire } else ac) (sig s) rs (loadValue sx n (leNat bs))
          | none => start true

/-! ## st and stnc (R218 to R220) -/

/-- A store of one thread (R211, R218, R244, R310, R316, R337). -/
def storeBody (noSig : Bool) (ac : Access) (v : View) : Body := fun s0 s t rs act =>
  match s.unit? t.uid with
  | none => .done s
  | some u =>
    let ea := eaOf v ac s0 t act
    let n := v.x.ty.bytes
    let data := leBytes n (v.srcD s0 t)
    match s.accessBad t.uid u.ctx ac.space ea n with
    | some b => b.res ea
    | none =>
      released s t ac <|
      if s.committing t.uid then .wait .sealing s
      else
        let start := fun (s : State) =>
          if s.entryFree t u.core then
            .done (s.startTxn u t (s0.thread t).pc { kind := .store data, ac, va := ea, size := n, noSig } 0 0 rs)
          else .wait .entry s
        let put := fun (r : Option State) => match r with
          | some s => .done s
          | none => .wait .sealing (s.sealFor t.uid true)
        match ac.space with
        | .localMem => put ((s.releasing ac t).storeLocal t.uid ea data .thr t)
        | .vault =>
          if !ownVault u.core ea then start s
          else if s.vaultHeld t.uid ea n then .wait .home s
          else put ((s.releasing ac t).storeVault t.uid u.ctx ea data .thr t noSig)
        | .global => exposing s t u.ctx ea n start

/-! ## pf and cflush (R226, R229) -/

/-- pf brings a line in, and is dropped when any check fails (R226); a line whose home holds its reads is not brought into L1
(R213, R255). -/
def pfBody (ac : Access) (v : View) : Body := fun s0 s t _ act =>
  match s.unit? t.uid with
  | none => .done s
  | some u =>
    let ea := eaOf v ac s0 t act
    match s.translate u.ctx ea false false with
    | .error _ => .done s
    | .ok l =>
      let s := (s.keepLeaf u.ctx ea l).keepLine u.ctx l ea ac.ep.toNat ac.na
      .done (if ac.l1b || s.lineHeld u.ctx [ea / 128] 0 then s else s.l1Fill u.core u.ctx ea (l.addr ea))

/-- The L1s of a core, or of every one, hold no line of a range, but for its pages that fail translation: what is fetched from
there is read anew (R229, R448). -/
def State.purgeFetch (s : State) (ctx : Nat) (core : Option Nat) (a n : Nat) (caches : Caches) : State :=
  let lo := a / 128 * 128
  let hi := if n = 0 then lo else (a + n - 1) / 128 * 128 + 128
  let ok := fun (p : Nat) => (s.translate ctx (p * 4096) false false).toBool
  let pages := (List.range (if n = 0 then 0 else (hi - 1) / 4096 + 1 - lo / 4096)).map (· + lo / 4096)
  let part := fun (a b : Nat) => ({ base := a, len := some (b - a), core, step := s.clk.stepNo } : Purge)
  let new := if pages.all ok then (if n = 0 then [] else [part lo hi]) else (pages.filter ok).map fun p => part (max lo (p * 4096)) (min hi (p * 4096 + 4096))
  { s with caches }.mapCtx ctx fun c => { c with purges := new ++ c.purges }

/-- cflush drops or cleans the lines of a range, but for those whose translation fails (R229). It comes after the thread's own
earlier writes to them (R250, R261). DESIGN CHOICE (log 83): lines beyond the valid addresses are skipped, and no fault is
raised. -/
def cflushBody (fn : FlushFn) (v : View) : Body := fun s0 s t _ act =>
  match s.unit? t.uid with
  | none => .done s
  | some u =>
    let a := v.srcA s0 t act
    let n := v.srcB s0 t act
    let here := fun (ctx line : Nat) => ctx == u.ctx && n != 0 && decide (a / 128 ≤ line) && decide (line ≤ (a + n - 1) / 128) && (s.translate u.ctx (line * 128) false false).toBool
    let core := if fn = .evict then none else some u.core
    let at_ := fun (k : Nat) => core.isNone || core == some k
    let drop := fun (s : State) =>
      let c := s.caches
      s.purgeFetch u.ctx core a n { c with l1 := c.l1.filter fun (l : L1Line) => !(at_ l.core && here l.ctx l.line), l1i := c.l1i.filter fun (l : ILine) => !(at_ l.core && here l.ctx l.line) }
    let lines := fun (f : List SLine → List SLine) => { s with caches := { s.caches with slines := f s.caches.slines } }
    if s.overlapping t .global (a / 128 * 128) (if n = 0 then 0 else (a + n - 1) / 128 * 128 + 128 - a / 128 * 128) s.clk.nextId true then .wait .accesses s
    else .done (match fn with
      | .writeBack => lines fun l => l.map fun (l : SLine) => if here l.ctx l.line then { l with dirty := false } else l
      | .evict => drop (lines fun l => l.filter fun (l : SLine) => !here l.ctx l.line)
      | .l1 => drop s)

/-! ## bbwait (R235) -/

def bbwaitBody (v : View) : Body := fun s0 s t _ act =>
  let a := v.srcA s0 t act
  match s.blockBad t.uid a 8 8 with
  | some b => b.res a
  | none =>
    reporting s t <|
    if s.localFlawed t.uid a 8 then memFault rUncorrectable a
    else if toSigned 64 (leNat (s.loadLocal t.uid a 8)) ≤ toSigned 32 (v.srcB s0 t act) then .done s else .wait .barrier s

/-! ## Buffer lending (R237 to R240) -/

/-- A control word: key and granule count (R238). -/
def ctlKey (w : Nat) : Nat := bits w 5 0
def ctlCount (w : Nat) : Nat := bits w 13 8 + 1

/-- The granule that stands at a taker's granule number: its owner and number (R237). -/
def RUnit.granuleAt (u : RUnit) (k : Nat) : Option (Nat × Nat) :=
  match u.granules[k]? with
  | some g => if g.holder = .own then some (u.uid, k) else none
  | none => (u.borrowed.find? (·.at_ == k)).map fun b => (b.owner, b.granule)

/-- The granules of a buffer, when the unit holds every one. -/
def RUnit.bufferAt (u : RUnit) (a n : Nat) : Option (List (Nat × Nat)) := ((List.range n).map fun i => u.granuleAt (a / 4096 + i)).mapM id

/-- A granule of its owner's allocation gets a holder. -/
def State.setHolder (s : State) (owner granule : Nat) (h : Holder) (cnt : Option Nat) : State :=
  s.mapUnit owner fun u => { u with granules := u.granules.modify granule fun g => { holder := h, cnt := cnt.getD g.cnt } }

/-- The buffer posted under a key (R237). -/
def State.keyBuf (s : State) (ctx isle key : Nat) : Option KeyBuf := (s.ctx ctx).keys.find? fun k => k.isle == isle && k.key == key

/-- A status goes to the destinations. -/
def statusTo (v : View) (s : State) (rs : List Tid) (w : Nat) : TRes := .done (rs.foldl (fun s q => s.mapThread q (v.writeD w)) s)

/-- A little-endian field of a block. -/
def field (b : List Byte) (off n : Nat) : Nat := leNat ((b.drop off).take n)

/-- A signed little-endian field of a block. -/
def sfield (b : List Byte) (off n : Nat) : Int := toSigned (8 * n) (field b off n)

/-- The space that a code of a request block names. -/
def copySpace (c : Nat) : Space := if c = 1 then .localMem else if c = 2 then .vault else .global

def copySrcSpace (b : List Byte) : Space := copySpace (bits (field b 0x1C 4) 1 0)
def copyDstSpace (b : List Byte) : Space := copySpace (bits (field b 0x1C 4) 3 2)

/-- Bytes that a copy moves (R232). -/
def copyTotal (b : List Byte) : Nat := field b 0x10 4 * field b 0x14 4 * field b 0x18 4

/-- Source and destination of byte x (R232): modulo 2^32 in local space (DESIGN CHOICE, log 84). -/
def copySrc (b : List Byte) (x : Nat) : Nat :=
  let len := field b 0x10 4
  wrap (if copySrcSpace b = .localMem then 32 else 64)
    ((field b 0 8 : Int) + (x / len / field b 0x14 4 : Nat) * sfield b 0x28 4 + (x / len % field b 0x14 4 : Nat) * sfield b 0x20 4 + (x % len : Nat))

def copyDst (b : List Byte) (x : Nat) : Nat :=
  let len := field b 0x10 4
  wrap (if copyDstSpace b = .localMem then 32 else 64)
    ((field b 8 8 : Int) + (x / len / field b 0x14 4 : Nat) * sfield b 0x2C 4 + (x / len % field b 0x14 4 : Nat) * sfield b 0x24 4 + (x % len : Nat))

/-- A copy may still write local memory of a range: the rows that it has not delivered, and its byte barrier (R234, R238). -/
def Op.copyWrites (o : Op) (a n : Nat) : Bool :=
  let b := o.block
  let len := field b 0x10 4
  o.status.isNone && decide (o.pos < copyTotal b) &&
    ((field b 0x30 4 != 0xFFFFFFFF && overlaps (field b 0x30 4) 8 a n) ||
     (copyDstSpace b == .localMem && (List.range (field b 0x18 4 * field b 0x14 4)).any fun row =>
       let x := max o.pos (row * len)
       decide (x < (row + 1) * len) && overlaps (copyDst b x) ((row + 1) * len - x) a n))

/-- An engine operation of the unit, or the fill of a wfetch, may still write local memory of a range (R238, R367). -/
def State.engineWrites (s : State) (uid a n : Nat) : Bool :=
  (s.ops.any fun o => o.tid.uid == uid && (match o.kind with
    | .copy _ => o.copyWrites a n
    | .mdrain | .rld | .dprop _ => true
    | .mcst => overlaps (o.args.getD 1 0) 8 a n
    | .mma _ | .bload | .mzero | .pft | .dapp | .dclr | .rld3 | .ctxsave | .ctxload => false)) ||
  s.work.fills.any fun f => f.tid.uid == uid && overlaps f.addr 16 a n

/-- bgive (R238). -/
def bgiveBody (v : View) : Body := fun s0 s t rs act =>
  match s.unit? t.uid with
  | none => .done s
  | some u =>
    let a := v.srcA s0 t act
    let w := v.srcB s0 t act
    let n := ctlCount w
    let isle := isleOf u.core
    if u.task.atomic then statusTo v s rs 3
    else if a % 4096 ≠ 0 then memFault rMisaligned a
    else
      match u.bufferAt a n with
      | none => .fault { cause := 0x23, addr := a }
      | some parts =>
        if (s.keyBuf u.ctx isle (ctlKey w)).isSome then statusTo v s rs 1
        else if s.outstanding t true true false || s.engineWrites t.uid a (4096 * n) then .wait .accesses s
        else
          let s := parts.foldl (fun s p => s.setHolder p.1 p.2 (.posted (ctlKey w)) (some (n - 1))) s
          let s := s.mapUnit t.uid fun u => { u with borrowed := u.borrowed.filter fun b => !(decide (a / 4096 ≤ b.at_) && decide (b.at_ < a / 4096 + n)) }
          let s := s.makeKnown t
          statusTo v (s.mapCtx u.ctx fun c => { c with keys := { isle, key := ctlKey w, parts } :: c.keys }).touch rs 0

/-- The range at which a taker maps a buffer is allowed (R239). DESIGN CHOICE (log 90): none is for a buffer with granules of
the taker's own allocation and of another unit's. -/
def RUnit.mayMap (u : RUnit) (a : Nat) (parts : List (Nat × Nat)) : Bool :=
  a % 4096 == 0 &&
  (if parts.all fun p => p.1 == u.uid then (List.range parts.length).all fun i => (parts[i]?).map (·.2) == some (a / 4096 + i)
   else parts.all (fun p => p.1 != u.uid) && decide (0x40000 ≤ a) && decide (a + 4096 * parts.length ≤ 0x80000) &&
     !u.borrowed.any fun b => decide (a / 4096 ≤ b.at_) && decide (b.at_ < a / 4096 + parts.length))

/-- A unit takes a posted buffer (R239). -/
def State.takeBuffer (s : State) (u : RUnit) (isle key a : Nat) (parts : List (Nat × Nat)) : State :=
  let s := (List.range parts.length).foldl (fun s i =>
    match parts[i]? with
    | none => s
    | some p =>
      if p.1 = u.uid then s.setHolder p.1 p.2 .own none
      else (s.setHolder p.1 p.2 (.lent u.uid) none).mapUnit u.uid fun u => { u with borrowed := { at_ := a / 4096 + i, owner := p.1, granule := p.2, cnt := parts.length - 1 } :: u.borrowed }) s
  (s.mapCtx u.ctx fun c => { c with keys := c.keys.filter fun k => !(k.isle == isle && k.key == key) }).touch

/-- btake (R239, R245). -/
def btakeBody (wait : Bool) (v : View) : Body := fun s0 s t rs act =>
  match s.unit? t.uid with
  | none => .done s
  | some u =>
    let a := v.srcA s0 t act
    let w := v.srcB s0 t act
    let isle := isleOf u.core
    let go :=
      if u.task.atomic then statusTo v s rs 3
      else
        match s.keyBuf u.ctx isle (ctlKey w) with
        | none => if wait then .wait .key s else statusTo v s rs 1
        | some k =>
          if u.mayMap a k.parts then
            statusTo v (rs.foldl (fun s r => s.acquireAll r) (s.takeBuffer u isle (ctlKey w) a k.parts)) rs 0
          else statusTo v s rs 2
    if wait then reporting s t go else go

/-- binfo (R240). -/
def binfoBody (v : View) : Body := fun s0 s t rs act =>
  match s.unit? t.uid with
  | none => .done s
  | some u =>
    let a := v.srcA s0 t act
    match u.granules[a / 4096]? with
    | some g =>
      statusTo v s rs (match g.holder with
        | .own => 1 + 256 * g.cnt
        | .posted k => 2 + 256 * g.cnt + 2 ^ 16 * k
        | .lent _ => 256 * g.cnt)
    | none =>
      if a < 0x40000 ∨ 0x80000 ≤ a then memFault rRange a
      else
        match u.borrowed.find? (·.at_ == a / 4096) with
        | some b => statusTo v s rs (5 + 256 * b.cnt)
        | none => statusTo v s rs 0

/-! ## The way of a global access (R213, R217, R218, R243 to R247, R285) -/

/-- The line of an access has a store accepted and not yet performed (R213). -/
def State.lineBusy (s : State) (x : Txn) : Bool := s.lineHeld x.ctx (linesOf x.va x.size) x.id

/-- An access writes, so that its page must be writable (R446). -/
def TxnKind.needsWrite : TxnKind → Bool
  | .store _ | .atomic .. | .cas .. | .lrun .. | .gpub .. => true
  | .load .. | .waitv .. | .gread _ | .gwait .. | .launch | .rst _ | .ratom .. => false

/-- The fault of an access at its instruction: its threads stand there again, with their destinations as before (R217). -/
def State.faultAt (s : State) (x : Txn) (f : FaultInfo) : State :=
  let ts := (x.tid :: x.dests.map (·.1)).eraseDups
  let s := ((s.refill x.id x.dests).unhold x).dropTxn x.id
  let s := s.setPcs ts x.pc
  s.raiseFault x.tid f (maskOf ((ts.filter fun q => q.crew == x.tid.crew && decide (q.lane < 32)).map (·.lane))) false

/-- A store-like access keeps its failure until it is reported; others fault at once (R217, R218, R285). -/
def Txn.deferred (x : Txn) : Bool := x.dests.isEmpty && x.kind.writes && (x.kind matches .store _ | .atomic .. | .cas ..)

/-- An uncorrectable error at an access that has been accepted: the party takes it as a memory fault, a handler's atomic at its
instruction (R216, R243, R413). -/
def State.uncorrectable (s : State) (x : Txn) : State :=
  if x.tid.lane = 32 ∧ x.kind.writes then s.faultAt x { cause := 0x20, reason := rUncorrectable, addr := x.va }
  else
  let s := (s.unhold x).dropTxn x.id
  if x.orphan then s.touch else s.raiseFault x.tid { cause := 0x20, reason := rUncorrectable, addr := x.va } (if x.tid.lane < 32 then 2 ^ x.tid.lane else 0) false

/-- Two loads of one bundle from one address (R219). -/
def Txn.loadMate (y x : Txn) : Bool :=
  y.tid.uid == x.tid.uid && y.step == x.step && (y.kind matches .load ..) && y.space == x.space && y.va == x.va && y.size == x.size

/-- The answer of a load: the home fixes the value, and it fills the destinations (R213, R216, R221, R311). -/
def State.loadReply (s : State) (x : Txn) (unc : Bool) : State :=
    match x.kind with
    | .load regs sx =>
      let group := s.txns.filter fun (y : Txn) => y.id == x.id || y.loadMate x
      if !group.all fun y => s.first y && y.phase == x.phase then s
      else
        let answer := fun (s : State) (bs : List Byte) =>
          let s := if x.noSig then s else s.signRead x.tid.uid x.space x.va x.size
          (group.foldl (fun s y => ((s.fill y.id regs (loadValue sx y.size (leNat bs)) y.dests).unhold y).dropTxn y.id) s).touch
        match x.space, x.phase, x.pa, x.leaf with
        | .vault, .issued, _, _ =>
          if s.vaultHeld x.tid.uid x.va x.size then s
          else if unc || s.flawed 1 x.va x.size then (s.uncorrectable x)
          else (answer s (cellsGet s.vaults x.va x.size))
        | .global, .accepted, some pa, some l =>
          if s.lineBusy x then s
          else if unc || s.flawed 0 pa x.size then (s.uncorrectable x)
          else
            let s := s.keepFor x l
            let s := if x.l1b || decide (x.acc < (s.ctx x.ctx).purged x.core x.va) then s else s.l1Fill x.core x.ctx x.va pa
            (answer s (s.viewGlobal x.tid.uid x.va pa x.size))
        | _, _, _, _ => s
    | .store _ | .atomic .. | .cas .. | .lrun .. | .waitv .. | .gread _ | .gpub .. | .gwait .. | .launch | .rst _ | .ratom .. => s

/-- A write is held at its place, and its task seals (R310, R316, R337). -/
def State.holdWrite (s : State) (x : Txn) (full : Bool) : State :=
  ((s.mapUnit x.tid.uid fun u => { u with task := { u.task with heldWrites := u.task.heldWrites ++ [x.id] } }).sealFor x.tid.uid full).mapTxn x.id fun y =>
    { y with held := true, acc := if x.space = .vault then s.clk.stepNo else y.acc }

/-- A sealed or direct run waits for a final ceiling (R337). -/
def State.waitsFinal (s : State) (u : RUnit) : Bool :=
  !u.ceilingFinal && !u.speculative && u.task.phase == .none &&
  (u.crews.any (fun c => c.threads.any fun th => th.wait == some .sealing) ||
    (s.txns.any fun x => x.tid.uid == u.uid && !x.orphan && ((x.phase matches .resend) || ((x.phase matches .accepted) && x.kind.writes && (match x.leaf with | some l => s.awaitsFinal x l | none => false)))) ||
    s.ops.any fun o => o.tid.uid == u.uid && (o.kind matches .mcst) && o.flags == 2)

/-- A run that has been amended is cancelled where it waits for a final ceiling, and re-fired (R337, R489). -/
def State.dropStale (s : State) (uid : Nat) : State :=
  match s.unit? uid with
  | none => s
  | some u =>
    if u.task.stale && u.active && s.waitsFinal u then
      State.haltUnit { s with txns := s.txns.filter fun (x : Txn) => x.tid.uid != uid || !((x.phase matches .resend) || (match x.leaf with | some l => s.awaitsFinal x l | none => false)) } uid .stopped
    else s

/-- STORE_ARRIVAL_AT_HOME: translation and permission; then the version, or the invalidations (R213, R218, R247, R308,
R310, R316). -/
def execStoreArrivalAtHome (id : Nat) (s : State) : Out :=
  match s.txn? id with
  | none => .next s
  | some x =>
    match x.kind, x.phase, x.space with
    | .store data, .issued, .global =>
      if !s.first x then .next s
      else
        match s.translate x.ctx x.va true false with
        | .error r => .next (s.mapTxn id fun x => { x with phase := .failed r }).touch
        | .ok l =>
          let s := (s.keepLeaf x.ctx x.va l).mapTxn id fun x => { x with phase := .accepted, pa := some (l.addr x.va), leaf := some l, acc := s.clk.stepNo }
          let prov := match s.unit? x.tid.uid with | some u => !u.ceilingFinal | none => false
          if x.orphan || !s.speculates x.tid.uid then
            .next (((linesOf x.va x.size).foldl (fun s ln => s.purgeL1 x.ctx ln) s).dropStale x.tid.uid).touch
          else if s.overflowing x.tid.uid then .next (s.holdWrite x true)
          else if l.sealing || (prov && s.exposed x.ctx l x.va x.size) then .next (s.holdWrite x false)
          else
            match s.storeGlobal x.tid.uid x.ctx x.va (l.addr x.va) data .thr x.tid x.noSig with
            | none => .next (s.holdWrite x true)
            | some s => .next (((s.keepLine x.ctx l x.va x.ep x.na).unhold x).dropTxn id).touch
    | _, _, _ => .next s

/-- STORE_PERFORM: the last invalidation has been acknowledged, or the vault is reached (R213, R218, R243, R257, R264, R273,
R312, R337). -/
def execStorePerform (id : Nat) (unc : Bool) (s : State) : Out :=
  match s.txn? id with
  | none => .next s
  | some x =>
    let held := (s.unit? x.tid.uid).any (·.task.heldWrites.contains id)
    match x.kind, x.space, x.phase, x.pa, x.leaf with
    | .store data, .global, .accepted, some pa, some l =>
      let prov := match s.unit? x.tid.uid with | some u => !u.ceilingFinal | none => false
      let waits := l.tso && s.txns.any fun y => y.tid == x.tid && decide (y.id < x.id) && (y.writePending || y.readPending)
      let behind := s.queuedBefore x (·.held) || s.heldEarlier x
      if held || waits || behind || !s.first x || (!x.orphan && prov && s.exposed x.ctx l x.va x.size) then .next s
      else if unc then .next (s.mapTxn id fun x => { x with phase := .failed rUncorrectable }).touch
      else
        let s := (s.writeFor x l).performGlobal x.ctx x.va pa data .thr (some x.tid)
        .next ((s.unhold x).dropTxn id).touch
    | .store data, .vault, .issued, _, _ =>
      let earlier := s.txns.any fun y => y.tid == x.tid && decide (y.id < x.id) && y.space == .vault && y.writePending
      let behind := s.txns.any fun y => y.id != id && y.held && y.space == .vault &&
        (if x.held then decide (y.acc < x.acc) && y.va / 2 ^ 22 == x.va / 2 ^ 22 else (linesOf y.va y.size).any (linesOf x.va x.size).contains)
      if held || earlier || behind || s.vaultHeld x.tid.uid x.va x.size then .next s
      else if s.overflowing x.tid.uid then .next (s.holdWrite x true)
      else if unc then .next (s.mapTxn id fun x => { x with phase := .failed rUncorrectable }).touch
      else
        match s.storeVault x.tid.uid x.ctx x.va data .thr x.tid x.noSig with
        | none => .next (s.holdWrite x true)
        | some s => .next ((s.unhold x).dropTxn id).touch
    | _, _, _, _, _ => .next s

/-- STORE_FAILURE_REPORT: the failure reaches the entry; a handler takes it at once, a stopped unit never (R245, R410,
R413). -/
def execStoreFailureReport (id : Nat) (s : State) : Out :=
  match s.txn? id with
  | none => .next s
  | some x =>
    match x.phase with
    | .failed r =>
      if !(x.kind matches .store _ | .atomic .. | .cas ..) then .next s
      else if x.orphan then .next (s.dropTxn id).touch
      else if x.tid.lane = 32 then .next (s.faultAt x { cause := 0x20, reason := r, addr := x.va })
      else
        let f : StoreFail := { txn := id, pc := x.pc, addr := x.va, reason := r, cause := 0x25, fabric := false, unknown := false, device := 0, since := s.clk.now }
        .next (((s.unhold x).dropTxn id).mapThread x.tid fun th => { th with fails := th.fails ++ [f] }).touch
    | .issued | .accepted | .sleeping | .performed _ | .resend => .next s

/-- The report of a thread is due (R245, R413). -/
def Thread.reportDue (th : Thread) (now : Nat) : Bool := th.fails.any fun q => decide (q.since + 4096 ≤ now)

/-- DEFERRED_STORE_TIMEOUT: 4,096 cycles after a failure reached the entry (R245, R413). -/
def execDeferredStoreTimeout (uid crew lane : Nat) (s : State) : Out :=
  let t : Tid := ⟨uid, crew, lane⟩
  let th := s.thread t
  match th.report with
  | some f =>
    if (s.crew uid crew).frozen || th.stop.isSome || !th.live || !th.reportDue s.clk.now then .next s
    else .next (s.raiseFault t f (if lane < 32 then 2 ^ lane else 0) false)
  | none => .next s

/-! ## Meanings -/

def execLdBase (x : BaseForm) (s : State) : Out := issue (.ldBase x) (lateDest (loadBody false false .base)) s
def execLdExt (sx : Bool) (ac : Access) (x : Form) (s : State) : Out := issue (.ldExt sx ac x) (lateDest (loadBody sx false ac)) s
def execStBase (x : BaseForm) (s : State) : Out := issue (.stBase x) (eachThread (storeBody false .base)) s
def execStExt (ac : Access) (x : Form) (s : State) : Out := issue (.stExt ac x) (eachThread (storeBody false ac)) s
def execLdnc (sx : Bool) (ac : Access) (x : Form) (s : State) : Out := issue (.ldnc sx ac x) (lateDest (loadBody sx true ac)) s
def execStnc (ac : Access) (x : Form) (s : State) : Out := issue (.stnc ac x) (eachThread (storeBody true ac)) s
def execPf (ac : Access) (x : Form) (s : State) : Out := issue (.pf ac x) (eachThread (pfBody ac)) s
def execCflush (fn : FlushFn) (ac : Access) (x : Form) (s : State) : Out := issue (.cflush fn ac x) (eachThread (cflushBody fn)) s
def execBbwait (x : Form) (s : State) : Out := issue (.bbwait x) (eachThread bbwaitBody) s
def execBgive (x : Form) (s : State) : Out := issue (.bgive x) (eachThread bgiveBody) s
def execBtake (wait : Bool) (x : Form) (s : State) : Out := issue (.btake wait x) (eachThread (btakeBody wait)) s
def execBinfo (x : Form) (s : State) : Out := issue (.binfo x) (eachThread binfoBody) s

end Sys2Proof.Machine
end

