-- ==== Sys2Proof/Machine/Engines.lean ====
section
/-! DEFINITION. Engine operations and their futures; tensor prefetch and the copy channels, majors 0x55 and 0x57 (05_control
R129, R133; 07_matrix R188; 09_memory R227, R228, R230 to R236). -/

namespace Sys2Proof.Machine

/-! ## Accepting and completing an operation -/

/-- A status word (R129). -/
def statusWord (code detail : Nat) : Nat := code * 2 ^ 24 + detail % 2 ^ 24

/-- An operation as its instruction gives it; status: it is refused at acceptance and only has to complete. -/
structure OpReq where
  kind : OpKind
  block : List Byte := []
  args : List Nat := []
  status : Option Nat := none
  fabric : Bool := false
  isMatrix : Bool := false
  grade : Grade := .final
  deriving DecidableEq, Repr

/-- An engine operation is accepted: it gets a future number and the destinations its handle (R129, R133). -/
def acceptOp (s : State) (t : Tid) (d : Nat) (rs : List Tid) (q : OpReq) : TRes :=
  match s.unit? t.uid with
  | none => .done s
  | some u =>
    match u.freeNumber with
    | none => .wait .engine s
    | some num =>
      if 1024 ≤ s.coreFutures u.core ∧ !(s.thread t).virt then heldForTable s t
      else
        let (id, s) := s.newId
        let gen := (assocGet u.gens num).getD 0
        let o : Op := { id, tid := t, ctx := u.ctx, core := u.core, kind := q.kind, num, gen, block := q.block, args := q.args, started := false, cancelled := false, pos := 0, flags := 0, rerun := none, status := q.status.map (BitVec.ofNat 32), reason := 0, answered := 0, destFail := none, grade := q.grade, since := s.clk.now, marks := (s.thread t).marks }
        .done ({ s with ops := s.ops ++ [o] }.beginFuture t.uid num id (rs.map fun r => (r, d)) q.fabric q.isMatrix)

def State.op? (s : State) (id : Nat) : Option Op := s.ops.find? (·.id == id)

def State.mapOp (s : State) (id : Nat) (f : Op → Op) : State := { s with ops := s.ops.map fun o => if o.id = id then f o else o }

/-- The operation ends, and its future completes; an array error acts on the unit (R129, R188). -/
def State.finishOp (s : State) (o : Op) (status : Nat) : State :=
  let s := State.act { s with ops := s.ops.filter (·.id != o.id) } o.ctx
  let s := s.mapThread o.tid fun th => if th.acquire.contains o.id then { th.learn (s.ctx o.ctx).marks with acquire := th.acquire.filter (· != o.id) } else th
  let isMatrix := (s.futureKind o.tid.uid o.num o.gen).2
  let s := s.completeFuture o.tid.uid o.num o.gen status
  if isMatrix && bits status 31 24 == 0x82 then
    match s.unit? o.tid.uid with
    | some u =>
      if u.task.atomic then
        (s.raiseFault o.tid { cause := 0x26, detail := status % 2 ^ 24 } (if o.tid.lane < 32 then 2 ^ o.tid.lane else 0) false)
      else s.mapUnit u.uid fun u => { u with arrayErr := some (status % 2 ^ 24) }
    | none => s
  else s

/-! ## pft (R227, R228) -/

/-- The first field of a tensor descriptor that is out of limits, with its offset (R227). -/
def pftBad (s : State) (ctx : Nat) (b : List Byte) (lines : Nat) : Option (Option Nat) :=
  let nd := field b 9 1
  let ext := fun i => field b (0x10 + 4 * i) 4
  if 4 < field b 8 1 then some (some 8)
  else if nd = 0 ∨ 4 < nd then some (some 9)
  else if 2 ≤ field b 0x0A 2 then some (some 0x0A)
  else if field b 0x0C 4 ≠ 0 then some (some 0x0C)
  else
    match (List.range 4).find? fun i => ext i == 0 || (decide (nd ≤ i) && ext i != 1) with
    | some i => some (some (0x10 + 4 * i))
    | none =>
      let va := field b 0x38 8
      let n := ext 0 * ext 1 * ext 2 * ext 3 * 2 ^ field b 8 1
      if 2 ^ 24 < lines then some none
      else if field b 0x0A 2 % 2 = 1 ∧ (va % 128 ≠ 0 ∨ 2 ^ 31 ≤ va ∨ va / 2 ^ 22 ≠ (va + n - 1) / 2 ^ 22 ∨
          !(List.range ((va + n - 1) / 65536 + 1 - va / 65536)).all fun i => s.granted ctx (va + 65536 * i)) then some (some 0x38)
      else none

/-- The addresses of the elements in visiting order (R228). -/
def pftElements (b : List Byte) : List Nat :=
  let ext := fun i => field b (0x10 + 4 * i) 4
  (List.range (ext 3)).flatMap fun (i3 : Nat) => (List.range (ext 2)).flatMap fun (i2 : Nat) => (List.range (ext 1)).flatMap fun (i1 : Nat) => (List.range (ext 0)).map fun (i0 : Nat) =>
    wrap 64 ((field b 0 8 : Int) + i0 * (2 ^ field b 8 1 : Nat) + i1 * sfield b 0x20 8 + i2 * sfield b 0x28 8 + i3 * sfield b 0x30 8)

/-- The lines of the elements, each once, in visiting order. -/
def pftLines (b : List Byte) : List Nat := ((pftElements b).flatMap fun a => linesOf a (2 ^ field b 8 1)).eraseDups

/-- The element bytes, packed, up to the first element that cannot be read. -/
def pftBytes (s : State) (o : Op) (w : Nat) : List Nat → List Byte
  | [] => []
  | a :: as => match s.engineRead (o.reader .pft) .global 0 a w with
    | .ok bs => bs ++ pftBytes s o w as
    | .error _ => []

def pftBody (ac : Access) (v : View) : Body := fun s0 s t rs act =>
  match s.unit? t.uid with
  | none => .done s
  | some u =>
    let a := v.srcA s0 t act
    match s.blockBad t.uid a 64 64, s.engineRead (s.reader u.ctx .pft t) .localMem 0 a 64 with
    | some b, _ => b.res a
    | none, .error b => b.res a
    | none, .ok block => acceptOp s t v.x.d.toNat rs { kind := .pft, block, args := [ac.ep.toNat] }

/-- The end of a pft whose first lines have been filled: with vf the bytes of the elements that lie in those lines go to the
vault, and the future completes (R228). -/
def State.endPft (s : State) (o : Op) (filled : List Nat) (status : Nat) : Out :=
  let w := 2 ^ field o.block 8 1
  if field o.block 0x0A 2 % 2 = 1 then
    let els := (pftElements o.block).takeWhile fun a => (linesOf a w).all filled.contains
    if els.any fun a => s.lineHeld o.ctx (linesOf a w) 0 then .next s
    else match s.engineWrite o.ctx .pft o.tid .vault (field o.block 0x38 8) (pftBytes s o w els) with
    | .done s => .next (s.finishOp o status)
    | .failed _ => .next (s.finishOp o status)
    | .overflow full => .next (s.sealFor o.tid.uid full)
    | .later => .next s
  else .next (s.finishOp o status)

/-- PFT_COMPLETE: the engine fills the next line of the tensor, or the future completes: all lines filled, one that fails, or a
cancel before the first or at the next line (R228, R243). The number of lines that is too large has no field of its own, so
that the detail is a free value (log 15). -/
def execPftComplete (op : Nat) (s : State) : Out :=
  match s.op? op with
  | none => .next s
  | some o =>
    if !(o.kind matches .pft) || s.numbered o.tid.uid then .next s
    else if o.cancelled && o.pos == 0 then .next (s.finishOp o (statusWord 1 0))
    else
      let lines := if (pftBad s o.ctx o.block 0).isSome then [] else pftLines o.block
      match pftBad s o.ctx o.block lines.length with
      | some (some off) => .next (s.finishOp o (statusWord 0xA0 off))
      | some none => let q := s.free; .next (q.2.finishOp o (statusWord 0xA0 q.1))
      | none =>
        if field o.block 0x0A 2 % 2 = 1 && (s.unit? o.tid.uid).any (·.task.atomic) then .next (s.finishOp o (statusWord 0xA1 0))
        else
          let done := lines.take o.pos
          match lines[o.pos]? with
          | none => s.endPft o done 0
          | some l =>
            if o.cancelled then s.endPft o done (statusWord 2 0)
            else
              match s.translate o.ctx (l * 128) false false with
              | .error _ => s.endPft o done (statusWord 0x80 o.pos)
              | .ok leaf =>
                if s.lineHeld o.ctx [l] 0 then .next s
                else if s.flawed 0 (leaf.addr (l * 128)) 128 then s.endPft o done (statusWord 0x80 o.pos)
                else
                  .next (((s.keepLeaf o.ctx (l * 128) leaf).keepLine o.ctx leaf (l * 128) (o.args.headD 0) false).mapOp op fun o =>
                    { o with started := true, pos := o.pos + 1 }).touch

/-! ## Copies (R230 to R236) -/

/-- The status of a request that is refused before any byte: its first field out of limits (R236). The detail for a copy of
more than 2^40 bytes names no one field and is a free value (log 15). -/
def copyBad (s : State) (u : RUnit) (ch : Nat) (b : List Byte) : Option (Option Nat) :=
  let flags := field b 0x1C 4
  let bb := field b 0x30 4
  if u.desc.chans ≤ ch then some (some 0xFFFFFF)
  else if field b 0x10 4 = 0 then some (some 0x10)
  else if field b 0x14 4 = 0 then some (some 0x14)
  else if field b 0x18 4 = 0 then some (some 0x18)
  else if 128 ≤ flags ∨ flags % 4 = 3 ∨ bits flags 3 2 = 3 then some (some 0x1C)
  else if bb ≠ 0xFFFFFFFF ∧ (s.blockBad u.uid bb 8 8).isSome then some (some 0x30)
  else if (b.drop 0x34).any (· != 0) then some (some 0x34)
  else if 2 ^ 40 < copyTotal b then some none
  else none

/-- A copy of a provisional run meets memory that such a run may not write (R337). -/
def copyExposed (s : State) (u : RUnit) (b : List Byte) : Bool :=
  copyDstSpace b == .global && (List.range (field b 0x18 4)).any fun p => (List.range (field b 0x14 4)).any fun r =>
    let n := field b 0x10 4
    let a := copyDst b ((p * field b 0x14 4 + r) * n)
    (linesOf a n).any fun l => match s.leaf? u.ctx (l * 128) with | some leaf => s.exposed u.ctx leaf (l * 128) 128 | none => false

def copyBody (ch : Nat) (v : View) : Body := fun s0 s t rs act =>
  match s.unit? t.uid with
  | none => .done s
  | some u =>
    let a := v.srcA s0 t act
    match s.blockBad t.uid a 64 64, s.engineRead (s.reader u.ctx .copy t) .localMem 0 a 64 with
    | some b, _ => b.res a
    | none, .error b => b.res a
    | none, .ok block =>
      let go := fun (s : State) => match copyBad s u ch block with
        | some (some off) => acceptOp s t v.x.d.toNat rs { kind := .copy ch, block, status := some (statusWord 0xA0 off) }
        | some none => let q := s.free; acceptOp q.2 t v.x.d.toNat rs { kind := .copy ch, block, status := some (statusWord 0xA0 q.1) }
        | none => acceptOp s t v.x.d.toNat rs { kind := .copy ch, block }
      if (copyBad s u ch block).isNone && !u.ceilingFinal && copyExposed s u block then afterFinal s t go else go s

/-- The operation is the oldest of its channel (R232). -/
def State.headOfChannel (s : State) (o : Op) (ch : Nat) : Bool :=
  !s.ops.any fun p => p.tid.uid == o.tid.uid && decide (p.id < o.id) && p.kind == .copy ch

/-- The size of the group that begins at byte x: as far as the row, the line of the destination and 128 bytes allow (R234;
log 16). -/
def copyGroup (b : List Byte) (x : Nat) : Nat := min (field b 0x10 4 - x % field b 0x10 4) (128 - copyDst b x % 128)

/-- The bytes of a group, one after another (R232). -/
def copyBytes (s : State) (o : Op) : Nat → Nat → Wrote
  | _, 0 => .done s
  | x, n + 1 =>
    if (copySrcSpace o.block = .vault && s.vaultHeld o.tid.uid (copySrc o.block x) 1) ||
      (copySrcSpace o.block = .global && s.lineHeld o.ctx [copySrc o.block x / 128] 0) then .later
    else
    match s.engineByte (o.reader .copy) (copySrcSpace o.block) 0 (copySrc o.block x) with
    | .error b => .failed b
    | .ok v =>
      match (s.signRead o.tid.uid (copySrcSpace o.block) (copySrc o.block x) 1).engineWrite o.ctx .copy o.tid (copyDstSpace o.block) (copyDst o.block x) [v] with
      | .done s => copyBytes s o (x + 1) n
      | w => w

/-- The lines that a group of a copy touches in global memory take its hints, and the slices keep their translations (R221,
R231, R447). -/
def copyHints (s : State) (o : Op) (x n : Nat) : State :=
  let fl := field o.block 0x1C 4
  let keep := fun (s : State) (a : Nat) => match s.leaf? o.ctx a with
    | some l => (s.keepLeaf o.ctx a l).keepLine o.ctx l a (bits fl 5 4) (bit fl 6)
    | none => s
  let s := if copySrcSpace o.block = .global then [copySrc o.block x, copySrc o.block (x + n - 1)].foldl keep s else s
  if copyDstSpace o.block = .global then keep s (copyDst o.block x) else s

/-- The barrier of a copy counts a group down (R234). -/
def copyBarrier (s : State) (o : Op) (n : Nat) : Option State :=
  let bb := field o.block 0x30 4
  if bb = 0xFFFFFFFF then some s
  else s.storeLocal o.tid.uid bb (leBytes 8 (leNat (s.loadLocal o.tid.uid bb 8) + (2 ^ 64 - n))) .copy o.tid

/-- COPY_GROUP_DELIVERED: the next group of a copy is delivered and counted, or fails (R232 to R236, R310). -/
def execCopyGroupDelivered (op : Nat) (unc : Bool) (s : State) : Out :=
  match s.op? op with
  | none => .next s
  | some o =>
    match o.kind with
    | .copy ch =>
      if s.numbered o.tid.uid || o.status.isSome || o.cancelled || !s.headOfChannel o ch || decide (copyTotal o.block ≤ o.pos) then .next s
      else
        let n := copyGroup o.block o.pos
        let fail := fun (s : State) => (s.mapOp op fun o => { o with status := some (BitVec.ofNat 32 (statusWord 0x80 o.answered)) }).touch
        if unc then .next (fail s)
        else
          match copyBytes (copyHints s o o.pos n) o o.pos n with
          | .failed _ => .next (fail s)
          | .overflow full => .next (s.sealFor o.tid.uid full)
          | .later => .next s
          | .done s1 =>
            match copyBarrier s1 o n with
            | none => .next (s.sealFor o.tid.uid true)
            | some s1 =>
              let s1 := s1.mapUnit o.tid.uid fun u => { u with wptr := u.wptr.modify ch (· + BitVec.ofNat 64 n) }
              .next (s1.mapOp op fun o => { o with started := true, pos := o.pos + n, answered := o.answered + 1 }).touch
    | .mma _ | .bload | .mdrain | .mzero | .pft | .dprop _ | .dapp | .dclr | .rld | .rld3 | .mcst | .ctxsave | .ctxload => .next s

/-- COPY_COMPLETE: the copy at the head of its channel ends (R236). -/
def execCopyComplete (op : Nat) (s : State) : Out :=
  match s.op? op with
  | none => .next s
  | some o =>
    match o.kind with
    | .copy ch =>
      if !s.headOfChannel o ch then .next s
      else
        match o.status with
        | some w => .next (s.finishOp o w.toNat)
        | none =>
          if copyTotal o.block ≤ o.pos then .next (s.finishOp o 0)
          else if o.cancelled then .next (s.finishOp o (statusWord (if o.pos = 0 then 1 else 2) 0))
          else .next s
    | .mma _ | .bload | .mdrain | .mzero | .pft | .dprop _ | .dapp | .dclr | .rld | .rld3 | .mcst | .ctxsave | .ctxload => .next s

/-! ## Meanings -/

def execPft (ac : Access) (x : Form) (s : State) : Out := issue (.pft ac x) (eachThread (pftBody ac)) s
def execCopy (ch : BitVec 3) (x : Form) (s : State) : Out := issue (.copy ch x) (eachThread (copyBody ch.toNat)) s

end Sys2Proof.Machine
end

