-- ==== Sys2Proof/Machine/Order.lean ====
section
/-! DEFINITION. The fences, majors 0x60 to 0x62 (10_ordering R248 to R254). -/

namespace Sys2Proof.Machine

/-- What a fence of a kind waits for: earlier writes, earlier reads (R250, R251). A release fence waits for reads too, since it
orders them before later writes. -/
def waitsReads : FenceKind → Bool
  | .full | .acq | .rel => true
  | .ww => false

def waitsWrites : FenceKind → Bool
  | .full | .rel | .ww => true
  | .acq => false

/-- A fence acts on what its thread knows of pfences: as a release it makes them known, as an acquire it learns of others
(R250, R252). -/
def State.synchronise (s : State) (kind : FenceKind) (t : Tid) : State :=
  let s := match kind with | .full | .rel => s.makeKnown t | .acq | .ww => s
  let known := s.known t.uid
  match kind with | .full | .acq => (if known = [] then s else s.mapThread t (·.learn known)) | .rel | .ww => s

/-- A fence waits, is then a report point for what has failed until then, and acts (R245, R251; log 92). DESIGN CHOICE (log 91): a fence of a scope below fabric
orders against every agent that one of a wider scope orders against. -/
def fenceBody (kind : FenceKind) (scope : Scope) (_ : View) : Body := fun _ s t _ _ =>
  if s.outstanding t (waitsWrites kind) (waitsReads kind) (scope == .fabric) then .wait .accesses s else reporting s t (.done (s.synchronise kind t))

/-- A thread has made a pfence from a path to another: the accesses of the second that come after it see the writes of the first
(R252). -/
def State.markPath (s : State) (t : Tid) (p q : Path) : State :=
  let s := if p = .thr ∧ q = .thr then s.synchronise .full t else s
  s.mapThread t fun th => { th with marks := putMark (p, q, s.clk.stepNo) th.marks }

/-- pfence waits as a full fence of unit scope, then acts (R252). -/
def pfenceBody (p q : Path) (_ : View) : Body := fun _ s t _ _ =>
  if s.outstanding t true true false then .wait .accesses s
  else reporting s t (.done (s.markPath t p q))

/-- ifence: later fetches of the thread see what stands now (R253). -/
def ifenceBody (_ : View) : Body := fun _ s t _ _ =>
  if s.outstanding t true false false then .wait .accesses s
  else reporting s t <| .done (s.mapThread t fun th => { th with ifMark := s.clk.stepNo })

def execFenceBase (u : Bool) (s : State) : Out := issue (.fenceBase u) (eachOwn (fenceBody .full .device)) s
def execFenceExt (kind : FenceKind) (scope : Scope) (x : Form) (s : State) : Out := issue (.fenceExt kind scope x) (eachOwn (fenceBody kind scope)) s
def execPfence (src dst : Path) (x : Form) (s : State) : Out := issue (.pfence src dst x) (eachOwn (pfenceBody src dst)) s
def execIfence (x : Form) (s : State) : Out := issue (.ifence x) (eachOwn ifenceBody) s

end Sys2Proof.Machine
end

