-- ==== Sys2Proof/Machine/Atomics.lean ====
section
/-! DEFINITION. Atomics, line routines and waits, majors 0x68 to 0x6F, with their events (11_atomics_routines R280 to R304). -/

namespace Sys2Proof.Machine

/-! ## Fixed atomics (R282, R283) -/

/-- A float function on each element, without flags (R283). -/
def floatAtom (ty : Ty) (f : Fmt → Nat → Nat → Nat) (a b : Nat) : Nat :=
  packElems ty.elemWidth ((List.range ty.elems).map fun e => f (fmtOf ty) (elem ty.elemWidth a e) (elem ty.elemWidth b e))

/-- The function of an atomic on the old value and the operand (R282, R283). -/
def atomValue (fn : AtomFn) (ty : Ty) (old v : Nat) : Nat :=
  match fn with
  | .add => if ty.isFloat then floatAtom ty (fun f a b => (f.add .rne false (f.source a) (f.source b)).1) old v else (exactElems ty false opAdd old v 0)
  | .min => if ty.isFloat then floatAtom ty (fun f a b => (f.minMax false a b).1) old v else exactElems ty false opMin old v 0
  | .max => if ty.isFloat then floatAtom ty (fun f a b => (f.minMax true a b).1) old v else exactElems ty false opMax old v 0
  | .and => old &&& v
  | .or => old ||| v
  | .xor => old ^^^ v
  | .exch => v % 2 ^ ty.width

/-- What an access leaves at its address, from what stands there (R282). -/
def TxnKind.newValue (k : TxnKind) (old : Nat) : Nat :=
  match k with
  | .atomic fn ty v => atomValue fn ty old v
  | .cas _ cmp swap => if old = cmp then swap else old
  | .load .. | .store _ | .lrun .. | .waitv .. | .gread _ | .gpub .. | .gwait .. | .launch | .rst _ | .ratom .. => old

/-- The order of an access that acts as an acquire too (R273). -/
def withAcquire (ac : Access) : Access :=
  { ac with ord := match ac.ord with | .plain | .acquire => .acquire | .release | .acqRel => .acqRel }

/-- An atomic of one thread: at once where the bytes are the core's own, else on its way (R282, R284 to R286). fetch: the old
value comes back. -/
def atomicAccess (k : TxnKind) (fetch : Bool) (ac : Access) (v : View) : Body := fun s0 s t rs act =>
  match s.unit? t.uid with
  | none => .done s
  | some u =>
    let ea := v.srcA s0 t act
    let n := v.x.ty.bytes
    match s.accessBad t.uid u.ctx ac.space ea n with
    | some b => b.res ea
    | none =>
      destFull v s0 s rs <|
      sealed s t fun s =>
      released s t ac <|
      let ac := if ac.space = .global ∧ (s.leaf? u.ctx ea).any (·.tso) then withAcquire ac else ac
      let back := fun (s : State) (old : Nat) => .done ((if fetch then rs.foldl (fun s q => s.mapThread q (v.writeD old)) (s.releasing ac t) else s.releasing ac t).acquiring ac [t])
      let start := fun (hold : Bool) (s : State) =>
        if s.entryFree t u.core then
          .done (s.startTxn u t (s0.thread t).pc { kind := k, ac, va := ea, size := n, hold } v.x.d.toNat (if fetch then v.x.ty.regs else 0) rs)
        else .wait .entry s
      match ac.space with
      | .localMem =>
        if s.localFlawed t.uid ea n then memFault rUncorrectable ea
        else
        let old := leNat (s.loadLocal t.uid ea n)
        let new := k.newValue old
        if new = old then back s old
        else (match s.storeLocal t.uid ea (leBytes n new) .thr t with
          | some s => back s old
          | none => .wait .sealing s)
      | .vault =>
        if !ownVault u.core ea then start false s
        else if s.vaultHeld t.uid ea n then .wait .home s
        else if s.flawed 1 ea n then memFault rUncorrectable ea
        else
          let old := leNat (cellsGet s.vaults ea n)
          let new := k.newValue old
          if new = old then back s old
          else (match s.storeVault t.uid u.ctx ea (leBytes n new) .thr t false with
            | some s => back s old
            | none => .wait .sealing s)
      | .global => exposing s t u.ctx ea n (start fetch)

def atomBody (fn : AtomFn) (fetch : Bool) (ac : Access) (v : View) : Body := fun s0 s t rs act =>
  atomicAccess (.atomic fn v.x.ty (v.srcB s0 t act)) fetch ac v s0 s t rs act

def acasBody (nf : Bool) (ac : Access) (v : View) : Body := fun s0 s t rs act =>
  atomicAccess (.cas v.x.ty (v.srcB s0 t act) (v.srcC s0 t)) (!nf) ac v s0 s t rs act

/-- Accesses that perform at a line one at a time, in their order of arrival (R284). -/
def Txn.atomicLike (x : Txn) : Bool := x.kind matches .atomic .. | .cas .. | .lrun ..

/-- ATOMIC_PERFORM: one read and one write at the home or the vault, behind the atomics that arrived before it (R284 to R287,
R266). It gives its entry up (R285). -/
def execAtomicPerform (id : Nat) (unc : Bool) (s : State) : Out :=
  match s.txn? id with
  | none => .next s
  | some x =>
    if !(x.kind matches .atomic .. | .cas ..) || !s.first x then .next s
    else
      let bad := if x.deferred then (s.mapTxn id fun x => { x with phase := .failed rUncorrectable }).touch else s.uncorrectable x
      let finish := fun (s : State) (old : Nat) =>
        if x.dests.isEmpty then ((s.unhold x).dropTxn id).touch else (s.mapTxn id fun x => { x with phase := .performed old, entry := false }).touch
      match x.space, x.phase, x.pa, x.leaf with
      | .global, .accepted, some pa, some l =>
        if s.lineBusy x || s.awaitsFinal x l || s.tsoWaits x l || s.queuedBefore x Txn.atomicLike then .next s
        else if unc || s.flawed 0 pa x.size then .next bad
        else
          let old := s.word pa x.size
          let new := x.kind.newValue old
          let s := s.writeFor x l
          .next (finish (if new = old then s else s.performGlobal x.ctx x.va pa (leBytes x.size new) .thr (some x.tid)) old)
      | .vault, .issued, _, _ =>
        if s.vaultHeld x.tid.uid x.va x.size then .next s
        else if unc || s.flawed 1 x.va x.size then .next bad
        else
          let old := leNat (cellsGet s.vaults x.va x.size)
          let new := x.kind.newValue old
          if new = old then .next (finish s old)
          else (match s.storeVault x.tid.uid x.ctx x.va (leBytes x.size new) .thr x.tid false with
            | some s => .next (finish s old)
            | none => .next s)
      | _, _, _, _ => .next s

/-- ATOMIC_REPLY: the old value fills the destinations (R285). -/
def execAtomicReply (id : Nat) (s : State) : Out :=
  match s.txn? id with
  | none => .next s
  | some x =>
    match x.kind, x.phase with
    | .atomic _ ty _, .performed v => .next (((s.fill id ty.regs v x.dests).unhold x).dropTxn id).touch
    | .cas ty _ _, .performed v => .next (((s.fill id ty.regs v x.dests).unhold x).dropTxn id).touch
    | _, _ => .next s

/-! ## Line routines (R288 to R300) -/

/-- The operation code of a routine word and its fields (R289). -/
def rop (w : Nat) : Nat := bits w 31 27
def rT (w : Nat) : Nat := bits w 26 24
def rD (w : Nat) : Nat := bits w 23 17
def rA (w : Nat) : Nat := bits w 16 10
def rB (w : Nat) : Nat := bits w 9 3
def rP (w : Nat) : Nat := bits w 2 0

/-- The types that an operation accepts (R290). -/
def ropTypes (op : Nat) : List Nat :=
  if op ≤ 0x04 ∨ op = 0x0B then [0, 1]
  else if op ≤ 0x0A ∨ op = 0x12 ∨ op = 0x13 then [2]
  else if op ≤ 0x11 then [3, 4, 5]
  else [0]

/-- A destination entry: l, t or v (R288). -/
def ropDest (d : Nat) : Bool := decide (d < 32) || (decide (36 ≤ d) && decide (d < 64)) || d == 68 || d == 69

/-- The first reason for which a routine word is invalid (R291). -/
def routineInvalid (w : Nat) : Option Nat :=
  let op := rop w
  let imm := op == 0x14 || op == 0x15
  let cmp := op == 0x0B || op == 0x11
  if 0x16 ≤ op then some 1
  else if !(ropTypes op).contains (rT w) then some 2
  else if (if cmp then decide (8 ≤ rD w) || (op == 0x11 && rT w != 3 && rD w % 2 == 1) else !ropDest (rD w)) ||
      (!imm && decide (70 ≤ rA w)) || (!imm && op != 0x13 && decide (70 ≤ rB w)) then some 3
  else if (if imm then bit w 16 else (op == 0x13 && rB w != 0) || (op != 0x12 && !cmp && rP w != 0) || (op == 0x0B && decide (6 ≤ rP w))) then some 4
  else none

/-- The registers of a routine: entries, predicates and flags (R288). -/
structure RRegs where
  ent : List Nat
  preds : Nat
  flags : Nat
  deriving DecidableEq, Repr

def RRegs.get (r : RRegs) (n : Nat) : Nat := r.ent.getD n 0
def RRegs.put (r : RRegs) (n v : Nat) : RRegs := { r with ent := r.ent.set n (v % 2 ^ 32) }
def RRegs.setP (r : RRegs) (n : Nat) (b : Bool) : RRegs :=
  { r with preds := if b then r.preds ||| 2 ^ n else r.preds &&& invert 8 (2 ^ n) }

/-- The float format and element count of a routine type. -/
def rFloat (t : Nat) : Ty := if t = 3 then .f32 else if t = 4 then .f16x2 else .bf16x2

/-- A float operation of a routine on each element; it never raises DZ (R290). -/
def RRegs.float (r : RRegs) (t d : Nat) (f : Fmt → Nat → Nat → Nat → Nat × Nat) (a b c : Nat) : RRegs :=
  let ty := rFloat t
  let w := ty.elemWidth
  let rs := (List.range ty.elems).map fun e => f (fmtOf ty) (elem w a e) (elem w b e) (elem w c e)
  { r.put d (packElems w (rs.map (·.1))) with flags := r.flags ||| (orAll (rs.map (·.2)) &&& 23) }

/-- The integer type of a routine. -/
def rInt (t : Nat) : Ty := if t = 0 then .i32 else .u32

def icondOf (p : Nat) : ICond :=
  match p with
  | 0 => .eq
  | 1 => .ne
  | 2 => .lt
  | 3 => .le
  | 4 => .gt
  | _ => .ge

def fcondOf (p : Nat) : FCond :=
  match p with
  | 0 => .eq
  | 1 => .ne
  | 2 => .lt
  | 3 => .le
  | 4 => .gt
  | 5 => .ge
  | 6 => .un
  | _ => .ord

/-- One routine instruction (R290). -/
def RRegs.exec (r : RRegs) (w : Nat) : RRegs :=
  let t := rT w
  let d := rD w
  let a := r.get (rA w)
  let b := r.get (rB w)
  let imm := w % 65536
  let int := fun f => r.put d (exactElems (rInt t) false f a b 0)
  match rop w with
  | 0x00 => int opAdd
  | 0x01 => int opSub
  | 0x02 => int opMul
  | 0x03 => int opMin
  | 0x04 => int opMax
  | 0x05 => r.put d (a &&& b)
  | 0x06 => r.put d (a ||| b)
  | 0x07 => r.put d (a ^^^ b)
  | 0x08 => r.put d (opShl 32 a b)
  | 0x09 => r.put d (opShr 32 a b)
  | 0x0A => r.put d (opSar 32 a b)
  | 0x0B => r.setP d (compares (icondOf (rP w)) (elemInt (rInt t) a) (elemInt (rInt t) b))
  | 0x0C => r.float t d (fun f x y _ => f.add .rne false (f.source x) (f.source y)) a b 0
  | 0x0D => r.float t d (fun f x y _ => f.mulAdd .rne false (f.source x) (f.source y) none) a b 0
  | 0x0E => r.float t d (fun f x y z => f.mulAdd .rne false (f.source x) (f.source y) (some (f.source z))) a b (r.get d)
  | 0x0F => r.float t d (fun f x y _ => f.minMax false x y) a b 0
  | 0x10 => r.float t d (fun f x y _ => f.minMax true x y) a b 0
  | 0x11 =>
    let ty := rFloat t
    (List.range ty.elems).foldl (fun r e =>
      let f := fmtOf ty
      let q := fcompare (fcondOf (rP w)) (f.source (elem ty.elemWidth a e)) (f.source (elem ty.elemWidth b e))
      { r.setP (d + e) q.1 with flags := r.flags ||| q.2 }) r
  | 0x12 => r.put d (if bit r.preds (rP w) then b else a)
  | 0x13 => r.put d a
  | 0x14 => r.put d (wrap 32 (toSigned 16 imm))
  | 0x15 => r.put d (imm * 65536 + r.get d % 65536)
  | _ => r

/-- The register space at the start of a routine (R288, R293). -/
def RRegs.init (line ops consts : List Nat) : RRegs :=
  { ent := line ++ ops ++ List.replicate 28 0 ++ consts ++ [0, 0], preds := 0, flags := 0 }

/-- The little-endian words of bytes. -/
def wordsOf (bs : List Byte) : List Nat := (List.range (bs.length / 4)).map fun i => field bs (4 * i) 4

/-- Address of a routine table entry (R296). -/
def State.routineEntry (s : State) (ctx num : Nat) : Nat := (s.ctx ctx).rtbase.toNat + 512 * num

/-- The entry that a home slice has for a routine: its cached image, or the entry in memory (R296, R299). -/
def State.routineImage (s : State) (slice ctx num : Nat) : List Byte :=
  match s.caches.images.find? fun i => i.slice == slice && i.ctx == ctx && i.num == num with
  | some i => i.entry
  | none => cellsGet s.mem (s.routineEntry ctx num) 512

/-- The slice keeps an image, up to 16 (R296). -/
def State.keepImage (s : State) (slice ctx num : Nat) (entry : List Byte) : State :=
  let c := s.caches
  if c.images.any fun i => i.slice == slice && i.ctx == ctx && i.num == num then s
  else
    let mine := c.images.filter (·.slice == slice)
    let rest := if mine.length < 16 then c.images else c.images.erase (mine.getLastD { slice, ctx, num, entry })
    { s with caches := { c with images := { slice, ctx, num, entry } :: rest } }

/-- Every slice drops its images of a routine (R297). -/
def State.dropImages (s : State) (ctx num : Nat) : State :=
  { s with caches := { s.caches with images := s.caches.images.filter fun i => !(i.ctx == ctx && i.num == num) } }

/-- The count of a valid table entry; none when it holds no valid routine (R296). -/
def entryCount (e : List Byte) : Option Nat :=
  let st := field e 0 4
  let c := bits st 14 8
  if bit st 0 && bits st 7 1 == 0 && !bit st 15 && c != 0 && decide (c ≤ 64) then some c else none

/-- The status word of an lrun (R300). -/
def lrunStatus (code num flags : Nat) (wr : Bool) (count : Nat) : Nat :=
  code * 2 ^ 24 + num * 2 ^ 16 + flags * 256 + 128 * boolNat wr + count

/-- The result and status that an lrun answers with, as one value. -/
def lrunAnswer (v status : Nat) : Nat := v + 2 ^ 64 * status

/-- Operands a0 to a3 of an lrun: q[B], or the literal (R295). -/
def lrunOps (b : Nat) : List Word := (elems 32 4 b).map (BitVec.ofNat 32)

def lrunBody (num : Nat) (ac : Access) (v : View) : Body := fun s0 s t rs act =>
  match s.unit? t.uid with
  | none => .done s
  | some u =>
    let ea := v.srcA s0 t act
    match s.accessBad t.uid u.ctx .global ea 128 with
    | some b => b.res ea
    | none =>
      destFull v s0 s rs <|
      sealed s t fun s =>
      released s t ac <|
      exposing s t u.ctx ea 128 fun s =>
      if s.entryFree t u.core then
        .done (s.startTxn u t (s0.thread t).pc { kind := .lrun num (lrunOps (v.srcB s0 t act)), ac, va := ea, size := 128, hold := true } v.x.d.toNat 2 rs)
      else .wait .entry s

/-- The routine runs on the line: the new line, the result and the status (R293). -/
def runRoutine (line : List Byte) (ops : List Word) (entry : List Byte) (num count : Nat) : List Byte × Nat × Nat :=
  let words := wordsOf line
  let image := (wordsOf ((entry.drop 0x20).take 256)).take count
  let r := image.foldl RRegs.exec (.init words (ops.map (·.toNat)) (wordsOf ((entry.drop 0x10).take 16)))
  let out := (r.ent.take 32).flatMap (leBytes 4)
  (out, r.get 68 + 2 ^ 32 * r.get 69, lrunStatus 0 num r.flags (out != line) count)

/-- LRUN_HOLD: the image is looked up, and the routine runs on the held line (R293, R294, R296, R299). A table address that
the walker cannot resolve goes to the system core of the slice's die first, and holds the thread (R460). -/
def execLrunHold (id : Nat) (unc : Bool) (s : State) : Out :=
  match s.txn? id with
  | none => .next s
  | some x =>
    match x.kind, x.phase, x.pa, x.leaf with
    | .lrun num ops, .accepted, some pa, some l =>
      if !s.first x || s.lineBusy x || s.awaitsFinal x l || s.tsoWaits x l || s.queuedBefore x (fun _ => true) then .next s
      else
        let answer := fun (s : State) (v st : Nat) => (s.mapTxn id fun x => { x with phase := .performed (lrunAnswer v st) }).touch
        let slice := (s.ctx x.ctx).home l x.va
        let cached := s.caches.images.any fun i => i.slice == slice && i.ctx == x.ctx && i.num == num
        if !cached && !paOk (s.routineEntry x.ctx num) then
          if x.target = 0 then
            .next ((x.tid :: x.dests.map (·.1)).eraseDups.foldl (fun s t => s.mapThread t fun th => { th with hold := id :: th.hold })
              ((s.askSystem (slice / 32) x.tid 3).mapTxn id fun x => { x with phase := .sleeping })).touch
          else .next (answer s 0 (lrunStatus 2 num 0 false 0))
        else if !cached && s.flawed 0 (s.routineEntry x.ctx num) 512 then .next (answer s 0 (lrunStatus 2 num 0 false 0))
        else
          let entry := s.routineImage slice x.ctx num
          let s := s.keepImage slice x.ctx num entry
          match entryCount entry with
          | none => .next (answer s 0 (lrunStatus 1 num 0 false 0))
          | some count =>
            if unc || s.flawed 0 pa 128 then .next (answer s 0 (lrunStatus 0x80 num 0 false 0))
            else
              let line := cellsGet s.mem pa 128
              let r := runRoutine line ops entry num count
              let s := s.writeFor x l
              .next (answer (if r.1 = line then s else s.performGlobal x.ctx x.va pa r.1 .thr (some x.tid)) r.2.1 r.2.2)
    | _, _, _, _ => .next s

/-- LRUN_COMPLETE: result and status reach the invoking threads; the status of the latest lrun in program order stands (R295,
R300). -/
def execLrunComplete (id : Nat) (s : State) : Out :=
  match s.txn? id with
  | none => .next s
  | some x =>
    match x.kind, x.phase with
    | .lrun .., .performed r =>
      let s := (x.dests.map (·.1)).foldl (fun s t => s.mapThread t fun th =>
        if th.lrTxn < id then { th with lrstat := BitVec.ofNat 32 (r / 2 ^ 64), lrTxn := id } else th) s
      .next (((s.fill id 2 r x.dests).unhold x).dropTxn id).touch
    | _, _ => .next s

/-- Invocations bound to the present image of a routine have not all completed (R297). -/
def State.routineBound (s : State) (ctx num : Nat) : Bool :=
  s.txns.any fun x => x.ctx == ctx && (match x.kind, x.phase with | .lrun n _, .performed _ => n == num | _, _ => false)

/-- The words that lrdef reads, or the refusal with its address (R243, R297). -/
def readWords (s : State) (ctx uid a : Nat) : Nat → Except (Nat × Nat) (List Nat)
  | 0 => .ok []
  | n + 1 =>
    match s.translate ctx a false false with
    | .error r => .error (r, a)
    | .ok l => if s.flawed 0 (l.addr a) 4 then .error (rUncorrectable, a) else do
      let ws ← readWords s ctx uid (a + 4) n
      .ok (leNat (s.viewGlobal uid a (l.addr a) 4) :: ws)

/-- lrdef (R297). Its read comes after the thread's own accesses to the words (R258, R262). -/
def lrdefBody (v : View) : Body := fun s0 s t rs act =>
  match s.unit? t.uid with
  | none => .done s
  | some u =>
    let a := v.srcA s0 t act
    let ctl := v.srcB s0 t act
    let n := bits ctl 5 0
    let c := bits ctl 13 8 + 1
    if a % 4 ≠ 0 then memFault rMisaligned a
    else if 2 ^ 57 < a + 4 * c then memFault rRange (max a (2 ^ 57))
    else
      sealed s t fun s =>
      if s.overlapping t .global a (4 * c) s.clk.nextId true then .wait .accesses s
      else if s.lineHeld u.ctx (linesOf a (4 * c)) 0 then .wait .home s
      else match readWords s u.ctx t.uid a c with
      | .error q => memFault q.1 q.2
      | .ok ws =>
        let s := s.keepRead u.ctx .global a (4 * c)
        match (List.range c).find? fun i => (routineInvalid (ws.getD i 0)).isSome with
        | some i => statusTo v s rs (0x01000000 ||| ((routineInvalid (ws.getD i 0)).getD 0 * 256) ||| i)
        | none =>
          if s.routineBound u.ctx n then .wait .system s
          else
            let at_ := s.routineEntry u.ctx n
            let gen := (field (cellsGet s.mem at_ 4) 2 2 + 1) % 65536
            let entry := leBytes 4 (1 + 256 * c + 65536 * gen) ++ List.replicate 12 0 ++ leBytes 16 (v.srcC s0 t) ++
              (ws ++ List.replicate (64 - c) 0).flatMap (leBytes 4) ++ List.replicate 224 0
            statusTo v ((s.performPhysical at_ entry .thr).dropImages u.ctx n) rs 0

/-- lrdrop (R298). -/
def lrdropBody (v : View) : Body := fun s0 s t _ act =>
  match s.unit? t.uid with
  | none => .done s
  | some u =>
    let n := bits (v.srcB s0 t act) 5 0
    sealed s t fun s =>
    let at_ := s.routineEntry u.ctx n
    let st := s.word at_ 4
    let next := (st % 65536 - st % 2) + 65536 * ((st / 65536 + 1) % 65536)
    if bit st 0 && s.routineBound u.ctx n then .wait .system s
    else .done ((s.performPhysical at_ (leBytes 4 next) .thr).dropImages u.ctx n)

/-! ## Waits (R301 to R303) -/

/-- A waiting instruction of one thread begins its wait, behind the thread's earlier accesses to the bytes (R258, R301, R341).
The thread does not run again before the wait has ended or has been left. -/
def waitBody (q : Req) (k : Nat) (v : View) : Body := fun s0 s t rs _ =>
  match s.unit? t.uid with
  | none => .done s
  | some u =>
    if rs.any fun r => (s0.thread r).anyEmpty v.x.d.toNat k then .wait .dest s
    else if s.overlapping t .global q.va q.size s.clk.nextId false then .wait .accesses s
    else .wait (.line false) (s.startTxn u t (s0.thread t).pc q v.x.d.toNat k rs).touch

/-- The runner of an instruction of len bytes that waits with its own destination empty. -/
def waitRun (f : Nat → View → Body) (v : View) (len : Nat) (s : State) (act : List Tid) : Run := lateDest (f len) v len s act

def waitvBody (timed : Bool) (ac : Access) (len : Nat) (v : View) : Body := fun s0 s t rs act =>
  match s.unit? t.uid with
  | none => .done s
  | some u =>
    let ea := v.srcA s0 t act
    let n := v.x.ty.bytes
    match s.accessBad t.uid u.ctx .global ea n with
    | some b => b.res ea
    | none =>
      reporting s t <|
      sealed s t fun s =>
      waitBody { kind := .waitv v.x.ty (v.srcB s0 t act) (if timed then some (v.srcC s0 t) else none), ac, va := ea, size := n, entry := false, len } v.x.ty.regs v s0 s t rs act

/-- Wait slots of a slice that are taken (R303). -/
def State.slotsTaken (s : State) (slice : Nat) : Nat :=
  (s.txns.filter fun x => (x.kind matches .waitv .. | .gwait ..) && (x.phase matches .sleeping) && x.target == 0 &&
    (match x.leaf with | some l => (s.ctx x.ctx).home l x.va == slice | none => false)).length

/-- A wait falls asleep, the last of all waits; its threads wait externally where the page says so (R372). -/
def State.sleep (s : State) (x : Txn) (virtual : Nat) : State :=
  let s := (x.tid :: x.dests.map (·.1)).eraseDups.foldl (fun s t => s.mapThread t fun th => { th with wait := some (.line (x.leaf.any (·.xw))) }) s
  State.touch { s with txns := (s.txns.filter fun (y : Txn) => y.id != x.id) ++ [{ x with phase := .sleeping, since := s.clk.now, target := virtual }] }

/-- A wait whose request the home has accepted: it ends at once, or takes a slot, or goes to the system core (R301, R303). -/
def State.beginWait (s : State) (x : Txn) (l : Leaf) (done : Bool) : State :=
  if done then s.endWait x
  else if s.slotsTaken ((s.ctx x.ctx).home l x.va) < 128 then s.sleep x 0
  else (s.askSystem (dieOf x.core) x.tid 2).sleep x 1

/-- What would end a wait has come: one whose event the system core still has stays until the EVDONE write, and ends when its word is
next read (R303, R460). -/
def State.endOrMark (s : State) (x : Txn) : State :=
  if x.target ≠ 0 ∧ s.asked x.tid 2 then s.mapTxn x.id fun x => { x with target := 2 } else s.endWait x

/-- The part of LOAD_TRANSLATION_ACK that is the home's look at a waitv or a gwait (R301, R341). -/
def State.lookAt (s : State) (id : Nat) : State :=
  match s.txn? id with
  | none => s
  | some x =>
    match x.phase, x.pa, x.leaf, x.kind with
    | .accepted, some pa, some l, .waitv _ expect limit => s.beginWait x l (s.word pa x.size != expect || limit == some 0)
    | .accepted, some pa, some l, .gwait g seq => (s.know x.ctx x.va).beginWait x l (gwaitDone (s.recordState pa) g seq)
    | _, _, _, _ => s

/-- The home has accepted a gpub: one of a sealed or direct run goes to the record as a publication at once (R340). -/
def State.gpubAccepted (s : State) (id : Nat) : State :=
  match s.txn? id with
  | none => s
  | some x =>
    match x.kind, x.phase, s.unit? x.tid.uid with
    | .gpub g same, .accepted, some u =>
      if u.speculative then s
      else
        let (pid, s) := s.newId
        { s with grades := { s.grades with pubs := s.grades.pubs ++ [{ id := pid, ctx := x.ctx, addr := x.va, grade := g, same, depth := u.task.depth, by_ := some (u.launch, u.index, u.taskId), txn := some id, raise := none }] } }
    | _, _, _ => s

/-- LOAD_TRANSLATION_ACK: the home has translated and checked an access that holds its thread (R217, R285, R294, R301). -/
def execLoadTranslationAck (id : Nat) (s : State) : Out :=
  match s.txn? id with
  | none => .next s
  | some x =>
    if !(x.phase matches .issued) || x.space != .global || x.kind.fabric || (x.kind matches .store _) ||
      ((x.kind matches .waitv .. | .gwait ..) && s.lineBusy x) then .next s
    else
      match s.translate x.ctx x.va x.kind.needsWrite false with
      | .error r =>
        if x.deferred then .next (s.mapTxn id fun x => { x with phase := .failed r }).touch
        else .next (s.faultAt x { cause := 0x20, reason := r, addr := x.va })
      | .ok l =>
        let s := (s.keepLeaf x.ctx x.va l).mapTxn id fun x => { x with phase := .accepted, pa := some (l.addr x.va), leaf := some l, acc := s.clk.stepNo }
        let s := if x.tid.lane = 32 && x.kind.writes then s else x.dests.foldl (fun s d => s.mapThread d.1 (·.freed id s.clk.now)) s
        let s := if l.tso && x.kind.reads then s.acquireAll x.tid else s
        .next (((s.lookAt id).gpubAccepted id).dropStale x.tid.uid).touch

/-- WAITV_TIMEOUT: the cycles of a waitv with to have passed (R301). -/
def execWaitvTimeout (id : Nat) (s : State) : Out :=
  match s.txn? id with
  | none => .next s
  | some x =>
    match x.kind, x.phase with
    | .waitv _ _ (some n), .sleeping => if x.since + n ≤ s.clk.now then .next (s.endOrMark x) else .next s
    | _, _ => .next s

/-- WAIT_RECHECK_TIMER: the system core reads the word of a wait that it holds again (R303), once its event is done with
(R460). -/
def execWaitRecheckTimer (id : Nat) (s : State) : Out :=
  match s.txn? id with
  | none => .next s
  | some x =>
    if s.asked x.tid 2 then .next s
    else match x.kind, x.phase, x.pa with
    | .waitv _ expect _, .sleeping, some pa =>
      if x.target = 2 ∨ (x.target = 1 ∧ s.word pa x.size ≠ expect) then .next (s.endWait x) else .next s
    | .gwait g seq, .sleeping, some pa =>
      if x.target ≠ 0 ∧ gwaitDone (s.recordState pa) g seq then .next (s.endWait x) else .next s
    | _, _, _ => .next s

/-- wakev (R302). -/
def wakevBody (v : View) : Body := fun s0 s t rs act =>
  match s.unit? t.uid with
  | none => .done s
  | some u =>
    let a := v.srcA s0 t act
    let n := v.srcB s0 t act
    if 2 ^ 57 ≤ a then memFault rRange a
    else
    reporting s t <|
    sealed s t fun s =>
    if s.outstanding t true true false then .wait .accesses s
    else
      match s.translate u.ctx a false false with
      | .error r => memFault r a
      | .ok l =>
        let s := (s.makeKnown t).keepLeaf u.ctx a l
        let all := s.txns.filter fun x => x.ctx == u.ctx && x.va / 128 == a / 128 && (x.kind matches .waitv ..) && (x.phase matches .sleeping)
        let ws := if n = 0 then all else all.take n
        statusTo v (ws.foldl (fun s x => s.endOrMark x) s) rs ws.length

/-! ## Meanings -/

def execAtom (fn : AtomFn) (ac : Access) (x : Form) (s : State) : Out := issue (.atom fn ac x) (lateDest (atomBody fn true ac)) s
def execAred (fn : AtomFn) (ac : Access) (x : Form) (s : State) : Out := issue (.ared fn ac x) (eachThread (atomBody fn false ac)) s
def execAcas (nf : Bool) (ac : Access) (x : Form) (s : State) : Out := issue (.acas nf ac x) (lateDest (acasBody nf ac)) s
def execLrdef (x : Form) (s : State) : Out := issue (.lrdef x) (eachThread lrdefBody) s
def execLrun (n : BitVec 6) (ac : Access) (x : Form) (s : State) : Out := issue (.lrun n ac x) (lateDest (lrunBody n.toNat ac)) s
def execLrdrop (x : Form) (s : State) : Out := issue (.lrdrop x) (eachThread lrdropBody) s
def execWaitv (timed : Bool) (ac : Access) (x : Form) (s : State) : Out := issue (.waitv timed ac x) (waitRun (waitvBody timed ac)) s
def execWakev (x : Form) (s : State) : Out := issue (.wakev x) (eachThread wakevBody) s

end Sys2Proof.Machine
end

