-- ==== Sys2Proof/Machine/Float.lean ====
section
/-! DEFINITION. Floating-point instructions, majors 0x30 to 0x3F (06_float R140 to R160). -/

namespace Sys2Proof.Machine

/-- Results of single elements packed, with the flags of each. -/
def packResults (w : Nat) (rs : List (Nat × Nat)) : Nat × List Nat := (packElems w (rs.map (·.1)), rs.map (·.2))

/-- An operation on each element of a float type (R146). -/
def floatElems (t : Ty) (f : Nat → Nat → Nat → Nat × Nat) (a b c : Nat) : Nat × List Nat :=
  let w := t.elemWidth
  packResults w ((List.range t.elems).map fun e => f (elem w a e) (elem w b e) (elem w c e))

/-- An element-wise arithmetic operation under a rounding field (R145, R147). -/
def arith (t : Ty) (rnd : Rnd) (f : Fmt → RMode → FVal → FVal → FVal → Nat × Nat) : Op3 := fun th a b c =>
  let fm := fmtOf t
  floatElems t (fun x y z => f fm (rmode rnd th.fsr) (fm.source x) (fm.source y) (fm.source z)) a b c

def opFadd (sat : Bool) (f : Fmt) (m : RMode) (a b _ : FVal) : Nat × Nat := f.add m sat a b
def opFsub (sat : Bool) (f : Fmt) (m : RMode) (a b _ : FVal) : Nat × Nat := f.add m sat a b.negate
def opFmul (sat : Bool) (f : Fmt) (m : RMode) (a b _ : FVal) : Nat × Nat := f.mulAdd m sat a b none
def opFfma (sat : Bool) (f : Fmt) (m : RMode) (a b c : FVal) : Nat × Nat := f.mulAdd m sat a b (some c)
def opFsqrt (sat : Bool) (f : Fmt) (m : RMode) (a _ _ : FVal) : Nat × Nat := f.sqrt m sat a

/-- fmin and fmax of a type (R148). -/
def minMaxOp (t : Ty) (greater : Bool) : Op3 := fun _ a b c =>
  floatElems t (fun x y _ => (fmtOf t).minMax greater x y) a b c

/-- An approximation of a type (R153). -/
def approxOp (t : Ty) (fn : ApproxFn) : Op3 := fun _ a b c => floatElems t (fun x _ _ => (fmtOf t).approx fn x) a b c

/-- fcmp (R149). -/
def fcmpOp (t : Ty) (cond : FCond) (comb : Combine) : Op3 := fun _ a b c =>
  let f := fmtOf t
  let r := fcompare cond (f.source a) (f.source b)
  (boolNat (combined comb r.1 (c != 0)), [r.2])

/-- fsel (R150). -/
def fselOp (t : Ty) (cond : ICond) : Op3 := fun _ a b c =>
  floatElems t (fun x y z => (if selects cond ((fmtOf t).source z) then x else y, 0)) a b c

/-- cvtf (R154 to R156): the elements of the sources, each converted, laid out as elements or as registers. -/
def cvtfOp (w src : Ty) (rnd : Rnd) (sat : Bool) : Op3 := fun th a b _ =>
  let mode := rmode rnd th.fsr
  let fd := fmtOf w
  let fs := fmtOf src
  let conv := fun x => fd.convert mode sat (fs.convSource x)
  let sw := src.elemWidth
  match w, src with
  | .f32, .i32 => packResults 32 [ofInteger mode (toSigned 32 a)]
  | .f32, .u32 => packResults 32 [ofInteger mode (a % 2 ^ 32 : Nat)]
  | .i32, .f32 => packResults 32 [toInteger mode true 32 (fp32.value a)]
  | .u32, .f32 => packResults 32 [toInteger mode false 32 (fp32.value a)]
  | _, _ =>
    match cvtfRow w src with
    | some (nd, na, nb, _) =>
      if nd = 1 then
        -- one register of results: elements of A, then of B
        let each := if nb = 0 then src.elems else w.elems / 2
        packResults w.elemWidth ((elems sw (if na = 0 then 0 else each) a ++ elems sw (if nb = 0 then 0 else each) b).map conv)
      else
        -- several registers of results, each holding as many elements as its width takes
        packResults w.elemWidth ((elems sw src.elems a).map conv)
    | none => (0, [])

/-- fpack without hdr (R158): elements 0 to 3 from q[A], 4 to 7 from q[B], header in C. -/
def fpackOp : Op3 := fun _ a b c =>
  packResults 4 ((elems 32 4 a ++ elems 32 4 b).map fun x => packCode x (bits c 7 0) (bits c 15 8))

/-- funpack (R159): four codes of A under the header in B. -/
def funpackOp (hi : Bool) : Op3 := fun _ a b _ =>
  packResults 32 ((elems 4 4 (if hi then a / 2 ^ 16 else a)).map fun c => unpackCode c (bits b 7 0) (bits b 15 8))

/-- The fsr word of a thread, TE included (R142). -/
def State.fsrWord (s : State) (t : Tid) : Nat :=
  let te := match s.unit? t.uid with | some u => (s.ctx u.ctx).te | none => 0
  te * 256 + (s.thread t).fsr.toNat

/-- fsrr (R160): with clr it clears the flags of the thread that it read. -/
def fsrrBody (clr : Bool) (v : View) : Body := fun s0 s t rs _ =>
  let s := rs.foldl (fun s q => s.mapThread q fun th => v.writeD (s0.fsrWord t) th) s
  .done (if clr then s.mapThread t fun th => { th with fsr := th.fsr &&& 0x60 } else s)

/-- The fields of fsr that fsrw writes (R160). -/
def fsrMask : FsrField → BitVec 7
  | .both => 0x7F
  | .flags => 0x1F
  | .rm => 0x60

/-- fsrw (R160). -/
def fsrwBody (m : BitVec 7) (v : View) : Body := fun s0 s t rs act =>
  let b := BitVec.ofNat 7 (v.srcB s0 t act)
  .done (rs.foldl (fun s q => s.mapThread q fun th => { th with fsr := (th.fsr &&& ~~~m) ||| (b &&& m) }) s)

/-! ## Meanings -/

def execFaddBase (x : BaseForm) (s : State) : Out := alu (.faddBase x) (arith .f32 .fsr (opFadd false)) s
def execFaddExt (rnd : Rnd) (x : Form) (s : State) : Out := alu (.faddExt rnd x) (arith x.ty rnd (opFadd x.sat)) s
def execFsubBase (x : BaseForm) (s : State) : Out := alu (.fsubBase x) (arith .f32 .fsr (opFsub false)) s
def execFsubExt (rnd : Rnd) (x : Form) (s : State) : Out := alu (.fsubExt rnd x) (arith x.ty rnd (opFsub x.sat)) s
def execFmulBase (x : BaseForm) (s : State) : Out := alu (.fmulBase x) (arith .f32 .fsr (opFmul false)) s
def execFmulExt (rnd : Rnd) (x : Form) (s : State) : Out := alu (.fmulExt rnd x) (arith x.ty rnd (opFmul x.sat)) s
def execFfma (rnd : Rnd) (x : Form) (s : State) : Out := alu (.ffma rnd x) (arith x.ty rnd (opFfma x.sat)) s
def execFminBase (x : BaseForm) (s : State) : Out := alu (.fminBase x) (minMaxOp .f32 false) s
def execFminExt (x : Form) (s : State) : Out := alu (.fminExt x) (minMaxOp x.ty false) s
def execFmaxBase (x : BaseForm) (s : State) : Out := alu (.fmaxBase x) (minMaxOp .f32 true) s
def execFmaxExt (x : Form) (s : State) : Out := alu (.fmaxExt x) (minMaxOp x.ty true) s
def execFcmp (cond : FCond) (comb : Combine) (x : Form) (s : State) : Out := alu (.fcmp cond comb x) (fcmpOp x.ty cond comb) s
def execFsel (cond : ICond) (x : Form) (s : State) : Out := alu (.fsel cond x) (fselOp x.ty cond) s
def execFrcp (x : Form) (s : State) : Out := alu (.frcp x) (approxOp x.ty .rcp) s
def execFrsq (x : Form) (s : State) : Out := alu (.frsq x) (approxOp x.ty .rsq) s
def execFsqrt (rnd : Rnd) (x : Form) (s : State) : Out := alu (.fsqrt rnd x) (arith x.ty rnd (opFsqrt x.sat)) s
def execFexp2 (x : Form) (s : State) : Out := alu (.fexp2 x) (approxOp x.ty .exp2) s
def execFlog2 (x : Form) (s : State) : Out := alu (.flog2 x) (approxOp x.ty .log2) s
def execFtanh (x : Form) (s : State) : Out := alu (.ftanh x) (approxOp x.ty .tanh) s
def execFclass (x : Form) (s : State) : Out := alu (.fclass x) (intOp fun a _ _ => (fmtOf x.ty).classify a) s
def execCvtf (src : Ty) (rnd : Rnd) (x : Form) (s : State) : Out := alu (.cvtf src rnd x) (cvtfOp x.ty src rnd x.sat) s
def execFpackHdr (x : Form) (s : State) : Out :=
  alu (.fpackHdr x) (fun _ a b _ => let r := packHeader a b; (r.1, [r.2])) s
def execFpack (x : Form) (s : State) : Out := alu (.fpack x) fpackOp s
def execFunpack (hi : Bool) (x : Form) (s : State) : Out := alu (.funpack hi x) (funpackOp hi) s
def execFsrr (clr : Bool) (x : Form) (s : State) : Out := issue (.fsrr clr x) (eachThread (fsrrBody clr)) s
def execFsrw (field : FsrField) (x : Form) (s : State) : Out := issue (.fsrw field x) (eachThread (fsrwBody (fsrMask field))) s

end Sys2Proof.Machine
end

