-- ==== Sys2Proof/Machine/CrossLane.lean ====
section
/-! DEFINITION. Cross-lane instructions, majors 0x48 to 0x4E: the vote, reduction and scan, permutation, the weighted sample,
and the handler's reading and patching of frozen lanes (08_crosslane R193 to R208). -/

namespace Sys2Proof.Machine

/-! ## The shared end of a crew-collective (R193, R202) -/

/-- The active participants get their results and the flags, or all of them trap on an enabled flag (R202). -/
def collectEnd (len : Nat) (s : State) (act : List Tid) (flags : Nat) (write : Tid → Thread → Thread) : Run :=
  match act with
  | [] => .start s
  | t0 :: _ =>
    let te := s.enables t0
    if flags &&& te ≠ 0 then { st := s, traps := act.map fun t => (t, 1, fpDetail te [flags]), faults := [] }
    else .start ((act.foldl (fun s t => s.mapThread t fun th => (write t th).orFlags flags) s).advance act len).touch

/-- The bit of one lane, or 1 for every lane with a value of true. -/
def laneBits (l : List (Nat × Bool)) : Nat := maskOf ((l.filter (·.2)).map (·.1))

/-! ## Vote (R199) -/

/-- What a vote gives from the predicates of the active participants. -/
def voteResult (fn : VoteFn) (ps : List (Nat × Bool)) : Nat :=
  match fn with
  | .ballot => laneBits ps
  | .all => boolNat (ps.all (·.2))
  | .any => boolNat (ps.any (·.2))
  | .uni => boolNat (ps.all (·.2) || ps.all (!·.2))

def voteBody (fn : VoteFn) (v : View) (len : Nat) (s : State) (act : List Tid) : Run :=
  let r := voteResult fn (act.map fun t => (t.lane, (s.thread t).pred v.x.a.toNat))
  collectEnd len s act 0 fun _ th => v.writeD r th

/-! ## Reduction and scan (R200 to R202) -/

/-- One value of the accumulator: an exact integer, or the bits of a float or of a b type. -/
abbrev Acc := Int

/-- A source value as an accumulator holds it. -/
def accOf (t : Ty) (v : Nat) : Acc := if t = .i32 ∨ t = .u32 ∨ t = .i64 ∨ t = .u64 then elemInt t v else (v % 2 ^ t.width : Nat)

/-- The identity of a combine (R200). -/
def combineIdentity (c : RComb) (t : Ty) : Acc :=
  match c with
  | .add => 0
  | .min => if t.isFloat then (fp32.infinity false : Nat) else Ty.maxVal t
  | .max => if t.isFloat then (fp32.infinity true : Nat) else Ty.minVal t
  | .and => (2 ^ t.width - 1 : Nat)
  | .or | .xor => 0

/-- One combine step, and the flags that it raises (R200). -/
def combineStep (c : RComb) (t : Ty) (m : RMode) (a b : Acc) : Acc × Nat :=
  let x := a.toNat
  let y := b.toNat
  let float := fun (r : Nat × Nat) => ((r.1 : Int), r.2)
  match c with
  | .add => if t.isFloat then float (fp32.add m false (fp32.source x) (fp32.source y)) else (a + b, 0)
  | .min => if t.isFloat then float (fp32.minMax false x y) else (min a b, 0)
  | .max => if t.isFloat then float (fp32.minMax true x y) else (max a b, 0)
  | .and => ((x &&& y : Nat), 0)
  | .or => ((x ||| y : Nat), 0)
  | .xor => ((x ^^^ y : Nat), 0)

/-- The exclusive and inclusive values of the participants in lane order, and the flags; none: no value yet (R201). -/
def combineScan (c : RComb) (t : Ty) (m : RMode) : Option Acc → List Acc → List (Acc × Acc) × Nat
  | _, [] => ([], 0)
  | none, v :: vs =>
    let r := combineScan c t m (some v) vs
    ((combineIdentity c t, v) :: r.1, r.2)
  | some acc, v :: vs =>
    let q := combineStep c t m acc v
    let r := combineScan c t m (some q.1) vs
    ((acc, q.1) :: r.1, q.2 ||| r.2)

/-- fin of R201: an integer sum is narrowed, every other value stands. -/
def combineFin (c : RComb) (t : Ty) (sat : Bool) (x : Acc) : Nat :=
  if c = .add ∧ !t.isFloat then narrow t.isSigned t.width sat x else wrap t.width x

/-- The results of cred and cscan for the participants in lane order (R201). -/
def combineResults (c : RComb) (t : Ty) (m : RMode) (sat scan excl : Bool) (vs : List Nat) : List Nat × Nat :=
  let r := combineScan c t m none (vs.map (accOf t))
  let last := match r.1.getLast? with | some p => p.2 | none => 0
  (r.1.map fun p => combineFin c t sat (if !scan then last else if excl then p.1 else p.2), r.2)

def combineBody (c : RComb) (rnd : Rnd) (scan excl : Bool) (v : View) (len : Nat) (s : State) (act : List Tid) : Run :=
  let lanes := act.map (·.lane)
  let m := match act with | [] => RMode.rne | t :: _ => rmode rnd (s.thread t).fsr
  let r := combineResults c v.x.ty m v.x.sat scan excl (act.map fun t => v.srcA s t lanes)
  collectEnd len s act r.2 fun t th => v.writeD (r.1.getD (lanes.idxOf t.lane) 0) th

/-! ## Permutation (R203) -/

/-- The value that a lane gets: source A of the lane it names, or 0. -/
def permValue (wraps : Bool) (v : View) (s : State) (act : List Tid) (t : Tid) : Nat :=
  let lanes := act.map (·.lane)
  let b := v.srcB s t lanes
  let i := if wraps then b % 32 else b
  if lanes.contains i then v.srcA s { t with lane := i } lanes else 0

def cpermBody (wraps : Bool) (v : View) (len : Nat) (s : State) (act : List Tid) : Run :=
  collectEnd len s act 0 fun t th => v.writeD (permValue wraps v s act t) th

/-! ## Sample (R204, R205) -/

/-- A weight as sample uses it, and whether it was invalid (R204). -/
def sampleWeight (w : Nat) : Nat × Nat :=
  let x := fp32.value w
  if x.isNan then (0, flagNV) else if x.isZero then (0, 0) else if x.isNeg then (0, flagNV) else (w, 0)

/-- The u of R205. -/
def sampleU (u : Nat) : Nat × Nat :=
  let x := fp32.value u
  if x.isNan then (0, flagNV)
  else if x.isZero then (u, 0)
  else if x.isNeg then (0, flagNV)
  else if x.cmp (fp32.value 0x3F800000) == .lt then (u, 0)
  else (0x3F7FFFFF, flagNV)

/-- The prefix sums from a value on, and their flags (R204). -/
def samplePrefixes : Nat → List Nat → List Nat × Nat
  | _, [] => ([], 0)
  | p, w :: ws =>
    let q := fp32.add .rne false (fp32.value p) (fp32.value w)
    let r := samplePrefixes q.1 ws
    (q.1 :: r.1, q.2 ||| r.2)

/-- The lane drawn, whether one was, and the flags: from the 32 weights and u (R204). -/
def sampleDraw (ws : List Nat) (u : Nat) : Nat × Bool × Nat :=
  let cs := ws.map sampleWeight
  let ps := samplePrefixes 0 (cs.map (·.1))
  let total := ps.1.getLastD 0
  let uu := sampleU u
  let flags := orAll (cs.map (·.2)) ||| ps.2 ||| uu.2
  if total = 0 then (0xFFFFFFFF, false, flags)
  else
    let t := fp32.mulAdd .rne false (fp32.value uu.1) (fp32.value total) none
    let above := (List.range 32).find? fun l => (fcompare .gt (fp32.value (ps.1.getD l 0)) (fp32.value t.1)).1
    let last := ((List.range 32).filter fun l => !(fp32.value ((cs.getD l (0, 0)).1)).isZero).getLastD 0
    (above.getD last, true, flags ||| t.2)

def sampleBody (v : View) (len : Nat) (s : State) (act : List Tid) : Run :=
  match act with
  | [] => .start s
  | t0 :: _ =>
    let lanes := act.map (·.lane)
    let ws := (List.range 32).map fun l => if lanes.contains l then v.srcA s { t0 with lane := l } lanes else 0
    let r := sampleDraw ws (v.srcB s t0 lanes)
    collectEnd len s act r.2.2 fun _ th => (v.writeD r.1 th).setPred v.x.c.toNat r.2.1

/-! ## Reading and patching frozen lanes (R206 to R208) -/

/-- The lane that B names. -/
def laneOf (v : View) (s : State) (t : Tid) (act : List Nat) : Tid := { t with lane := v.srcB s t act % 32 }

/-- The element that xget reads (R207). -/
def xgetValue (kind : XKind) (fe : Bool) (ty : Ty) (n : Nat) (th : Thread) : Nat :=
  if !th.live then 0
  else
    match kind with
    | .gpr => if fe then boolNat (!th.isEmpty n) else th.readRegs n ty.regs
    | .pred => boolNat (th.pred n)
    | .fsr => th.fsr.toNat
    | .pc => (th.wrotePc.getD th.pc).toNat

def xgetBody (kind : XKind) (fe : Bool) (v : View) : Body := fun s0 s t rs act =>
  let q := laneOf v s0 t act
  let th := s0.thread q
  let x := if kind = .fsr ∧ th.live then s0.fsrWord q else xgetValue kind fe v.x.ty v.x.c.toNat th
  .done (rs.foldl (fun s r => s.mapThread r (v.writeD x)) s)

/-- Destinations of futures in registers that are written over: the futures count as written into them (R208, R133). -/
def RUnit.displace (u : RUnit) (t : Tid) (n k : Nat) : RUnit :=
  RUnit.retire { u with futures := u.futures.map fun f => { f with dests := f.dests.filter fun d => !(d.1 == t && decide (n ≤ d.2) && decide (d.2 < n + k)) } }

/-- The element that xput writes (R208). -/
def Thread.patch (kind : XKind) (k n x : Nat) (th : Thread) : Thread :=
  match kind with
  | .gpr => (th.writeRegs n k x).markFull n k
  | .pred => th.setPred n (bit x 0)
  | .fsr => { th with fsr := BitVec.ofNat 7 (x % 128) }
  | .pc => { th with wrotePc := some (BitVec.ofNat 64 (x / 4 * 4)) }

def xputBody (kind : XKind) (v : View) : Body := fun s0 s t _ act =>
  let q := laneOf v s0 t act
  if !(s0.thread q).live then .done s
  else
    let s := s.mapThread q (Thread.patch kind v.x.ty.regs v.x.c.toNat (v.srcA s0 t act))
    .done (if kind = .gpr then s.mapUnit q.uid (·.displace q v.x.c.toNat v.x.ty.regs) else s)

/-! ## Meanings -/

def execVote (fn : VoteFn) (x : Form) (s : State) : Out := issue (.vote fn x) (voteBody fn) s
def execCred (comb : RComb) (rnd : Rnd) (x : Form) (s : State) : Out := issue (.cred comb rnd x) (combineBody comb rnd false false) s
def execCscan (comb : RComb) (rnd : Rnd) (excl : Bool) (x : Form) (s : State) : Out := issue (.cscan comb rnd excl x) (combineBody comb rnd true excl) s
def execCperm (wrap : Bool) (x : Form) (s : State) : Out := issue (.cperm wrap x) (cpermBody wrap) s
def execSample (x : Form) (s : State) : Out := issue (.sample x) sampleBody s
def execXget (kind : XKind) (fe : Bool) (x : Form) (s : State) : Out := issue (.xget kind fe x) (eachThread (xgetBody kind fe)) s
def execXput (kind : XKind) (x : Form) (s : State) : Out := issue (.xput kind x) (eachThread (xputBody kind)) s

end Sys2Proof.Machine
end

