-- ==== Sys2Proof/Machine/Levels.lean ====
section
/-! DEFINITION. Launches and their units: descriptors, counters, completion records, the ends of the levels, cancels, and the
fit of a unit on a core (05_control R123, R124; 12_tasks_grades R335; 13_launch_schedule R344 to R346, R353 to R359, R363,
R364, R368). -/

namespace Sys2Proof.Machine

/-! ## Records of launches and of their units -/

def State.launch? (s : State) (id : BitVec 32) : Option Launch := s.work.launches.find? (·.id == id)

def State.mapLaunches (s : State) (f : Launch → Launch) : State := { s with work := { s.work with launches := s.work.launches.map f } }

def State.mapLaunch (s : State) (id : BitVec 32) (f : Launch → Launch) : State := s.mapLaunches fun l => if l.id = id then f l else l

/-- The units of a launch. -/
def Desc.total (d : Desc) : Nat := d.gridx * d.gridy * d.gridz

/-- A unit that has not been placed. -/
def UnitRec.fresh (index : Nat) : UnitRec :=
  { index, at_ := .unplaced, released := false, runs := 0, depth := 0, inputs := [], published := [], refire := none, held := false, withdrawn := [], again := false, budget := [],
    handlers := [], restarts := 0, sealFirst := false }

def Launch.unitRec (l : Launch) (i : Nat) : UnitRec := (l.units.find? (·.index == i)).getD (.fresh i)

def Launch.mapRec (l : Launch) (i : Nat) (f : UnitRec → UnitRec) : Launch :=
  { l with units := f (l.unitRec i) :: l.units.filter (·.index != i) }

/-- A launch has started, and every unit of it has triggered or ended once (R328, R356). -/
def Launch.released (l : Launch) : Bool := l.state != .waiting && (l.units.filter (·.released)).length == l.desc.total

/-- A launch has ended (R355). -/
def Launch.ended (l : Launch) : Bool :=
  match l.state with
  | .complete | .refused => true
  | .cancelled => l.counter == 0
  | .waiting | .started => false

/-! ## Stores by the device, error records (R354, R460) -/

/-- A pending error record of a die's system core: source 5 (R460). -/
def State.errorEvent (s : State) (die info : Nat) : State :=
  { s with sys := s.sys.modify die fun c => { c with pending := c.pending ++ [({ source := 5, info, thread := none } : SysSource)] } }.touch

/-- A store by the device at device scope; when translation, permission or an uncorrectable error
prevents it, it is dropped, and an error record goes to the die's system
core (R354). -/
def State.deviceStore (s : State) (ctx die va : Nat) (bs : List Byte) : State :=
  match s.translate ctx va true false with
  | .error _ => s.errorEvent die va
  | .ok l =>
    if s.flawed 0 (l.addr va) bs.length then s.errorEvent die va
    else s.performAt ctx l va bs .thr none

/-! ## Completion records (R124, R354) -/

/-- The accumulators of two records together; the count saturates. -/
def Rec.join (a b : Rec) : Rec := { orBits := a.orBits ||| b.orBits, maxCode := max a.maxCode b.maxCode, count := min (a.count + b.count) (2 ^ 32 - 1) }

/-- The bytes of a unit completion record (R124). -/
def Rec.unitBytes (r : Rec) (flags index : Nat) : List Byte :=
  leBytes 2 r.orBits ++ leBytes 2 r.maxCode ++ leBytes 2 r.count ++ leBytes 2 flags ++ leBytes 8 index

/-- The bytes of a level completion record (R354). -/
def Rec.levelBytes (r : Rec) (faults state : Nat) : List Byte :=
  leBytes 2 r.orBits ++ leBytes 2 r.maxCode ++ leBytes 4 r.count ++ leBytes 4 faults ++ leBytes 4 state

def LevelAcc.zero : LevelAcc := { tally := .zero, faults := 0, cancelled := false }

/-- A unit's record is added to a level; flags: bit 0 cancelled, bit 1 ended by a fault. -/
def LevelAcc.add (a : LevelAcc) (r : Rec) (flags : Nat) : LevelAcc :=
  { tally := a.tally.join r, faults := min (a.faults + boolNat (bit flags 1)) (2 ^ 32 - 1), cancelled := a.cancelled || bit flags 0 }

/-- The accumulators of the phase of a launch, and of the job, change. -/
def State.mapLevels (s : State) (ctx : Nat) (tag : Option Nat) (f : LevelAcc → LevelAcc) : State :=
  s.mapCtx ctx fun c =>
    { c with
      job := f c.job,
      phases := c.phases.map fun p => if tag = some p.1 then (p.1, f p.2) else p }

/-- A unit of a launch ends: its record is written, the levels take it in, the launch counter is decremented, and the watchdog of
its context takes notice (R123, R124, R353, R368, R373). -/
def State.unitEnded (s : State) (id : BitVec 32) (index die : Nat) (r : Rec) (flags : Nat) : State :=
  match s.launch? id with
  | none => s
  | some l =>
    let s := if l.desc.crec = 0 then s else s.deviceStore l.ctx die (l.desc.crec + 16 * index) (r.unitBytes flags index)
    let s := s.mapLaunch id fun l =>
      { l.mapRec index (fun (q : UnitRec) => { q with at_ := .ended, released := true, again := false, budget := [] }) with
        counter := l.counter - 1, tally := l.tally.join r, faults := min (l.faults + boolNat (bit flags 1)) (2 ^ 32 - 1), cancelled := l.cancelled || bit flags 0 }
    let s : State := { s with work := { s.work with waiting := s.work.waiting.filter fun w => !(w.1 == id && w.2.1 == index) } }
    ((s.mapLevels l.ctx l.tag (·.add r flags)).act l.ctx).touch

/-! ## Ends of the levels (R335, R353 to R355) -/

/-- A launch counts in a firing. -/
def Firing.has (f : Firing) (l : Launch) : Bool := l.firing == some (f.slot, f.num)

/-- The state word that a record of a context holds now; absent when it cannot be read or is invalid (R351). -/
def State.inputNow (s : State) (ctx addr : Nat) : Nat × Nat :=
  match s.translate ctx addr false false with
  | .ok l => if s.recordInvalid (l.addr addr) then (0, 0) else (s.word (l.addr addr + 0x0C) 4, s.word (l.addr addr + 0x10) 4)
  | .error _ => (0, 0)

/-- No run of a launch is pending or held. -/
def Launch.settled (l : Launch) : Bool := l.units.all fun r => r.refire.isNone

/-- R335: the graph of a firing is complete; a firing that a cancel covers needs no grades. -/
def State.graphDone (s : State) (f : Firing) : Bool :=
  let ls := s.work.launches.filter f.has
  ls.all (·.ended) && (f.cancelled || (ls.all (fun l => l.state == .cancelled || l.state == .refused || l.settled) &&
    (s.grades.regs.filter fun g => ls.any fun l => l.id == g.launch).all fun g => (s.inputNow g.ctx g.addr).1 % 4 == 3))

/-- A launch completes when it has started and its counter is 0; its record is written once (R354, R355). -/
def State.endLaunch (s : State) (l : Launch) : State :=
  let l := if l.state = .started ∧ l.counter = 0 then { l with state := .complete } else l
  if !l.ended then s
  else
    let code := match l.state with | .refused => 3 | .cancelled => 2 | .complete | .waiting | .started => if l.cancelled then 2 else 1
    let s := if l.recorded || l.desc.lrec == 0 then s else s.deviceStore l.ctx 0 l.desc.lrec (l.tally.levelBytes l.faults code)
    s.mapLaunch l.id fun (q : Launch) => { q with state := l.state, recorded := true }

def State.gslot (s : State) (n : Nat) : GSlot := (assocGet s.work.gslots n).getD .reset

def State.mapGslot (s : State) (n : Nat) (f : GSlot → GSlot) : State :=
  { s with work := { s.work with gslots := assocSet s.work.gslots n (f (s.gslot n)) } }

/-- A firing leaves its slot: its record is written, and its launches are gone (R335, R350, R354). -/
def State.closeFiring (s : State) (f : Firing) (refused : Bool) : State :=
  let ls := s.work.launches.filter f.has
  let r := ls.foldl (fun r (l : Launch) => r.join l.tally) Rec.zero
  let faults := ls.foldl (fun n (l : Launch) => min (n + l.faults) (2 ^ 32 - 1)) 0
  let cancelled := f.cancelled || ls.any fun l => l.state == .cancelled || l.cancelled
  let g := s.gslot f.slot
  let code := if refused then 3 else if cancelled then 2 else 1
  let s := if g.frec = 0 then s else s.deviceStore f.ctx 0 (g.frec.toNat + 16 * (f.num % 64)) (r.levelBytes faults code)
  let s := s.mapGslot f.slot fun g => { g with done := (g.done + 1) % 2 ^ 24, cancelled := g.cancelled || (!refused && cancelled), refused := g.refused || refused }
  { s with
    work := { s.work with
      firings := s.work.firings.filter (· != f),
      launches := s.work.launches.filter fun l => !f.has l },
    grades := { s.grades with regs := s.grades.regs.filter fun q => !ls.any (·.id == q.launch) } }.touch

/-- Live device-side launches of a phase (R353). -/
def State.liveDevice (s : State) (ctx tag : Nat) : Nat :=
  (s.work.launches.filter fun l => l.ctx == ctx && l.deviceSide && l.tag == some tag && !l.ended).length

/-- The counter of a phase (R353). -/
def State.phaseCount (s : State) (ctx tag : Nat) : Nat :=
  (s.work.firings.filter fun f => f.ctx == ctx && f.tag == tag).length + s.liveDevice ctx tag

/-- The phases of a context whose counters are 0 write their records and close (R355). -/
def State.endPhases (s : State) (ctx : Nat) : State :=
  (s.ctx ctx).phases.foldl (fun s p =>
    if s.phaseCount ctx p.1 = 0 then
      (s.deviceStore ctx 0 ((s.ctx ctx).phrec.toNat + 16 * p.1) (p.2.tally.levelBytes p.2.faults (if p.2.cancelled then 2 else 1))).mapCtx ctx fun c =>
        { c with phases := c.phases.filter (·.1 != p.1) }
    else s) s

/-- Whatever level has reached its end ends now (R355). -/
def State.settleLevels (s : State) : State :=
  let s := s.work.launches.foldl State.endLaunch s
  let s := s.work.firings.foldl (fun s f => if f.started && s.graphDone f then s.closeFiring f false else s) s
  let s : State := { s with work := { s.work with launches := s.work.launches.filter fun l => !(l.firing.isNone && l.ended) } }
  s.ctxs.foldl (fun s c => s.endPhases c.1) s

/-! ## Descriptors (R344, R345) -/

/-- A launch descriptor from its 128 bytes. -/
def descOf (b : List Byte) : Desc :=
  { entry := field b 0 8, handler := field b 8 8, gridx := field b 0x10 4, gridy := field b 0x14 4, gridz := field b 0x18 4, regs := field b 0x1C 2, crews := field b 0x1E 2, loc := field b 0x20 4, priv := field b 0x24 4, atomic := field b 0x28 1 == 1, prio := field b 0x29 1, accs := field b 0x2A 1, bslots := field b 0x2B 1, chans := field b 0x2C 1, diemask := field b 0x2D 1, hint := field b 0x2E 2, vbase := field b 0x30 2, vstride := field b 0x32 2, limsize := field b 0x34 4, limage := field b 0x38 8, args := field b 0x40 8, crec := field b 0x48 8, lrec := field b 0x50 8, scratch := field b 0x58 8, sslots := field b 0x60 4, sstride := field b 0x64 4 }

/-- The private region of each thread and, in atomic mode, the checkpoint area (R346). -/
def scratchNeed (crews priv regs : Nat) (atomic : Bool) : Nat :=
  crews * 32 * priv + if atomic then crews * 32 * (4 * regs + 64) + 4096 else 0

/-- The scratch need of a unit (R346). -/
def Desc.scratchNeed (d : Desc) : Nat := Machine.scratchNeed d.crews d.priv d.regs d.atomic

/-- A field of a descriptor lies outside R344, or breaks R345. -/
def Desc.outside (d : Desc) (b : List Byte) : Bool :=
  d.entry % 4 != 0 || decide (d.regs < 32) || decide (256 < d.regs) || d.regs % 8 != 0 || decide (d.crews < 1) || decide (32 < d.crews) ||
  d.loc % 4096 != 0 || decide (262144 < d.loc) || d.priv % 128 != 0 || decide (d.priv < 128) || decide (65536 < d.priv) ||
  decide (1 < field b 0x28 1) || decide (3 < d.prio) || decide (4 < d.accs) || decide (16 < d.bslots) || decide (8 < d.chans) ||
  decide (2 < d.hint) || decide (511 < d.vbase) || decide (511 < d.vstride) || decide (d.loc < d.limsize) || d.limage % 128 != 0 ||
  d.args % 128 != 0 || d.crec % 16 != 0 || d.lrec % 16 != 0 || d.scratch % 4096 != 0 || d.sslots == 0 || d.sstride % 4096 != 0 ||
  (b.drop 0x68).any (· != 0) ||
  [d.entry, d.handler, d.limage, d.args, d.crec, d.lrec, d.scratch].any (fun a => decide (2 ^ 57 ≤ a)) ||
  decide (d.sstride < d.scratchNeed) || decide (524288 < d.crews * 32 * d.regs * 4)

/-- The dies that may receive units of a launch (R344). -/
def Desc.dies (d : Desc) : List Nat := (List.range 8).filter fun k => d.diemask == 0 || bit d.diemask k

/-- A die holds an enabled isle. -/
def State.dieEnabled (s : State) (die : Nat) : Bool := (List.range 8).any fun i => !s.isleDisabled (die * 8 + i)

/-- R345, at the start of a launch. -/
def State.refuses (s : State) (l : Launch) : Bool := l.bad || !(l.desc.dies.any s.dieEnabled)

/-- The 128 bytes of a descriptor in global memory, or the reason why they cannot be read. -/
def State.readBlock (s : State) (ctx va : Nat) : Nat → Except Nat (List Byte)
  | 0 => .ok []
  | n + 1 =>
    match s.translate ctx va false false with
    | .error r => .error r
    | .ok l => do
      let bs ← s.readBlock ctx (va + 1) n
      .ok (cellGet s.mem (l.addr va) :: bs)

/-! ## Cancel (R363, R364) -/

/-- A resident unit is cancelled. One that holds a commit number ends after its merge (R364). -/
def State.cancelUnit (s : State) (uid : Nat) : State :=
  match s.unit? uid with
  | none => s
  | some u =>
    if s.numbered uid || u.fault.isSome then s
    else
      match u.fate with
      | .faulted | .cancelled | .ended => s
      | .running | .saving | .draining _ | .stopped => s.haltUnit uid .cancelled

/-- Granules of a unit are lent or posted (R237). -/
def RUnit.sharing (u : RUnit) : Bool := u.granules.any fun g => g.holder != .own

/-- Ended units whose allocation is whole again leave their core, or the parked-unit table (R241, R431). -/
def State.reap (s : State) : State :=
  { s with
    units := s.units.filter fun u => !(u.fate == .ended && !u.sharing),
    images := s.images.filter fun m => !(m.unit.crews == [] && !m.unit.sharing) }

/-- The ends of the units that an ending unit has withdrawn (R368). -/
def State.endWithdrawn (s : State) (die : Nat) (ws : List (BitVec 32 × Nat)) (flags : Nat) : State :=
  ws.foldl (fun s w => s.unitEnded w.1 w.2 die .zero (match s.launch? w.1 with | some l => flags ||| boolNat (l.state == .cancelled) | none => flags)) s

/-- A parked unit ends in its image: a cancel, or the debugger's End (R363, R437). Its image stays, emptied, while its granules
are lent or posted (R241, R431). -/
def State.endParked (s : State) (u : RUnit) (flags : Nat) : State :=
  let s := u.borrowed.foldl (fun s b => s.setHolder b.owner b.granule .own none) s
  let s := (s.unitEnded u.launch u.index (dieOf u.core) u.tally flags).endWithdrawn (dieOf u.core) u.withdrawn flags
  let s := s.mapUnit u.uid fun u => { u with crews := [], borrowed := [], futures := [] }
  State.reap { s with
    ops := s.ops.filter (·.tid.uid != u.uid),
    txns := (s.txns.filter fun (x : Txn) => x.tid.uid != u.uid || !(x.phase matches .resend)).map fun (x : Txn) => if x.tid.uid = u.uid then { x with orphan := true } else x } |>.touch

/-- Launches of a list and, transitively, those that depend on them by an edge (R363). -/
def State.dependants (s : State) : Nat → List (BitVec 32) → List (BitVec 32)
  | 0, ids => ids
  | n + 1, ids =>
    let more := (s.work.launches.filter fun l => !ids.contains l.id && l.deps.any ids.contains).map (·.id)
    if more = [] then ids else s.dependants n (ids ++ more)

/-- The unplaced and parked units of a cancelled launch end now; its resident units are stopped, and its phase and its job have a
part that was cancelled (R354). Of one that has completed the
pending and held re-fires are dropped (R335, R363). -/
def State.cancelLaunch (s : State) (id : BitVec 32) : State :=
  match s.launch? id with
  | none => s
  | some l =>
    let drop := fun (r : UnitRec) => { r with refire := none, held := false }
    if l.state == .cancelled || l.state == .refused then s
    else if l.ended then s.mapLaunch id fun (l : Launch) => { l with state := .cancelled, units := l.units.map drop }
    else
      let s := (s.mapLaunch id fun (l : Launch) => { l with state := .cancelled, units := l.units.map drop }).mapLevels l.ctx l.tag fun a => { a with cancelled := true }
      let out := (List.range l.desc.total).filter fun i =>
        match (l.unitRec i).at_ with
        | .unplaced => true
        | .resident _ | .parked | .withdrawn _ | .ended => false
      let s : State := out.foldl (fun s i => (s.unitEnded id i 0 .zero 1).endWithdrawn 0 (l.unitRec i).withdrawn 1) s
      let s := (s.images.filter fun m => m.unit.launch == id && m.unit.crews != []).foldl (fun s m => s.endParked m.unit 1) s
      let s : State := { s with
        grades := { s.grades with pubs := s.grades.pubs.filter fun p => !(p.raise.isSome && (p.by_.any fun b => b.1 == id)) },
        work := { s.work with waiting := s.work.waiting.filter (·.1 != id) } }
      (s.units.filter fun (u : RUnit) => u.launch == id && !u.isSystem).foldl (fun s u => s.cancelUnit u.uid) s

/-- Launches, and what depends on them, are cancelled. -/
def State.cancelLaunches (s : State) (ids : List (BitVec 32)) : State :=
  ((s.dependants s.work.launches.length ids).foldl State.cancelLaunch s).touch

/-- Whether the slot of a graph is bound to a context (R459). -/
def GSlot.boundTo (g : GSlot) (ctx : Nat) : Bool := g.bound.getLsbD 9 && bits g.bound.toNat 8 0 == ctx

/-- The firings that a cancel of a level covers; operand as R361 reads it. -/
def State.covered (s : State) (level : Level) (ctx operand : Nat) : List Firing :=
  match level with
  | .launch => []
  | .graph => s.work.firings.filter fun f => f.ctx == ctx && f.slot == operand % 64
  | .phase => s.work.firings.filter fun f => f.ctx == ctx && f.tag == operand % 256
  | .job => s.work.firings.filter fun f => f.ctx == ctx

/-- The launches that a cancel of a level names. -/
def State.coveredLaunches (s : State) (level : Level) (ctx operand : Nat) : List Launch :=
  match level with
  | .launch => s.work.launches.filter fun l => l.ctx == ctx && l.id.toNat == operand
  | .graph => s.work.launches.filter fun l => l.ctx == ctx && l.firing.any (·.1 == operand % 64)
  | .phase => s.work.launches.filter fun l => l.ctx == ctx && l.tag == some (operand % 256)
  | .job => s.work.launches.filter fun l => l.ctx == ctx

/-- The level exists and has not ended (R363, R371). -/
def State.levelLive (s : State) (level : Level) (ctx operand : Nat) : Bool :=
  match level with
  | .launch => (s.coveredLaunches .launch ctx operand).any fun l => !l.ended
  | .graph => s.covered .graph ctx operand != []
  | .phase => s.phaseCount ctx (operand % 256) != 0
  | .job => (s.ctx ctx).ctxctl.getLsbD 0

/-- A cancel of a level in a context (R363): a queued firing that it covers ends with nothing started. -/
def State.cancelLevel (s : State) (level : Level) (ctx operand : Nat) : State :=
  let fs := s.covered level ctx operand
  let ids := (s.coveredLaunches level ctx operand).map (·.id)
  let s : State := { s with work := { s.work with firings := s.work.firings.map fun (f : Firing) => if fs.contains f then { f with cancelled := true } else f } }
  let tags : List Nat := match level with
    | .launch => (s.coveredLaunches level ctx operand).filterMap fun (l : Launch) => l.tag
    | .graph | .phase | .job => fs.map fun (f : Firing) => f.tag
  let s := s.mapCtx ctx fun c =>
    { c with
      job := { c.job with cancelled := true },
      phases := c.phases.map fun p => if tags.contains p.1 then (p.1, { p.2 with cancelled := true }) else p }
  let s := (s.work.firings.filter fun f => f.cancelled && !f.started).foldl (fun s f => s.closeFiring f false) s
  (s.cancelLaunches ids).settleLevels

/-! ## Starting a launch (R345, R352) -/

/-- A launch that is refused completes at once, and its dependants are cancelled (R345). -/
def State.refuseLaunch (s : State) (id : BitVec 32) : State :=
  let s := s.mapLaunch id fun (l : Launch) => { l with state := .refused, counter := 0 }
  (s.cancelLaunches ((s.work.launches.filter fun l => l.deps.contains id).map (·.id))).touch

/-- A launch whose dependences hold starts, or is refused (R345, R352, R355). -/
def State.startLaunch (s : State) (id : BitVec 32) : State :=
  match s.launch? id with
  | none => s
  | some l =>
    if l.state != .waiting then s
    else if s.refuses l then s.refuseLaunch id
    else (s.mapLaunch id fun (l : Launch) => { l with state := .started, startedAt := s.clk.now }).touch

/-- A new launch, waiting, with none of its units placed. -/
def Launch.fresh (id : BitVec 32) (ctx : Nat) (desc : Desc) (bad : Bool) (limit : Nat) (firing : Option (Nat × Nat)) (tag : Option Nat) : Launch :=
  { id, ctx, desc, bad, state := .waiting, limit, firing, tag, preds := [], deps := [], counter := desc.total, next := 0, units := [], tally := .zero, faults := 0, cancelled := false, recorded := false, deviceSide := false, startedAt := 0 }

/-- Completion edges into a launch are satisfied (R328, R356); a producer that is gone has ended. -/
def State.edgesHold (s : State) (l : Launch) : Bool :=
  l.preds.all fun p => match s.launch? p with | none => true | some q => q.released || q.state == .complete

/-! ## The fit of a unit on a core (R17, R18, R30, R346, R358, R359) -/

/-- Units resident on a core; one that has ended keeps only its local memory (R241). -/
def State.residents (s : State) (core : Nat) : List RUnit := s.units.filter fun u => u.core == core && u.fate != .ended

def Desc.threads (d : Desc) : Nat := d.crews * 32

/-- The sum of a quantity over the units of a core. -/
def State.coreSum (s : State) (core : Nat) (f : Desc → Nat) : Nat := (s.residents core).foldl (fun n u => n + f u.desc) 0

/-- Free register bytes of a core. -/
def State.freeRegs (s : State) (core : Nat) : Nat := 524288 - s.coreSum core fun d => d.threads * d.regs * 4

/-- A unit of a descriptor fits on a core now. -/
def State.fitsCore (s : State) (d : Desc) (core : Nat) : Bool :=
  !s.isleDisabled (isleOf core) && decide ((s.residents core).length < 16) &&
  decide (s.coreSum core Desc.threads + d.threads ≤ 2048) &&
  decide (s.coreSum core (fun d => d.threads * d.regs * 4) + d.threads * d.regs * 4 ≤ 524288) &&
  decide ((s.units.filter (·.core == core)).foldl (fun n u => n + u.desc.loc) 0 + d.loc ≤ 262144) &&
  decide (s.coreSum core (·.accs) + d.accs ≤ 4) && decide (s.coreSum core (·.bslots) + d.bslots ≤ 16) &&
  decide (s.coreSum core (·.chans) + d.chans ≤ 8)

/-- The scratch slot of a unit is free (R346). -/
def State.slotFree (s : State) (l : Launch) (index : Nat) : Bool :=
  !(l.units.any fun r => r.index != index && r.index % l.desc.sslots == index % l.desc.sslots &&
    (match r.at_ with | .resident _ | .parked => true | .unplaced | .withdrawn _ | .ended => false))

/-- The hinted core of a unit, when the hint counts (R30, R358). -/
def State.hinted (s : State) (d : Desc) (index : Nat) : Option Nat :=
  let core := if d.hint = 1 then d.vbase else (d.vbase + index * d.vstride) % 512
  if d.hint = 0 ∨ s.isleDisabled (isleOf core) ∨ !d.dies.contains (dieOf core) then none else some core

/-- The first of a list of cores by most free register bytes, then lowest number. -/
def State.bestCore (s : State) (cores : List Nat) : Option Nat :=
  cores.foldl (fun b c => match b with
    | none => some c
    | some x => if s.freeRegs x < s.freeRegs c then some c else some x) none

/-- The cores of a die on which a unit fits. -/
def State.fitting (s : State) (d : Desc) (die : Nat) : List Nat := ((List.range 64).map (die * 64 + ·)).filter (s.fitsCore d)

/-- Free thread capacity of a die: of the cores of its enabled isles. -/
def State.freeThreads (s : State) (die : Nat) : Nat :=
  ((List.range 64).map (die * 64 + ·)).foldl (fun n c => if s.isleDisabled (isleOf c) then n else n + (2048 - s.coreSum c Desc.threads)) 0

/-- The core on which a unit is placed, when it fits somewhere (R358, R359). -/
def State.coreFor (s : State) (d : Desc) (index : Nat) : Option Nat :=
  match s.hinted d index with
  | some core =>
    let fit := s.fitting d (dieOf core)
    if fit.contains core then some core
    else
      match s.bestCore (fit.filter fun c => isleOf c == isleOf core) with
      | some c => some c
      | none => s.bestCore fit
  | none =>
    let dies := d.dies.filter fun k => s.fitting d k != []
    match dies.foldl (fun b k => match b with
      | none => some k
      | some x => if s.freeThreads x < s.freeThreads k then some k else some x) none with
    | some k => s.bestCore (s.fitting d k)
    | none => none

/-- Crews bound to a quarter of a core. -/
def State.quarterLoad (s : State) (core q : Nat) : Nat :=
  (s.residents core).foldl (fun n u => n + (u.crews.filter (·.quarter == q)).length) 0

/-- The quarters of n new crews: each goes to the quarter with the fewest (R359). -/
def quartersFor (load : List Nat) : Nat → List Nat
  | 0 => []
  | n + 1 =>
    let q := (List.range 4).foldl (fun b k => if load.getD k 0 < load.getD b 0 then k else b) 0
    q :: quartersFor (load.modify q (· + 1)) n

/-- The lowest resident slot of a core that no unit holds (R359). -/
def State.freeSlot (s : State) (core : Nat) : Nat :=
  ((List.range 16).find? fun k => !(s.residents core).any (·.slot == k)).getD 0

end Sys2Proof.Machine
end

