-- ==== Sys2Proof/Machine/Grades.lean ====
section
/-! DEFINITION. Restarts of tasks, graded publications and their consumers, and the grade instructions, majors 0x73 to 0x75
(12_tasks_grades R314, R315, R325 to R341). -/

namespace Sys2Proof.Machine

/-! ## Inputs of a run (R328, R329) -/

/-- The inputs that a launch has registered, as they stand now (R328). -/
def State.inputsOf (s : State) (id : BitVec 32) : List Input :=
  (s.grades.regs.filter (·.launch == id)).map fun g =>
    let q := s.inputNow g.ctx g.addr
    { addr := g.addr, state := q.1, dseq := q.2, thr := g.thr }

/-- Inputs that see a record with a new state word and sequence. -/
def seeRecord (addr state dseq : Nat) (is : List Input) : List Input :=
  is.map fun (i : Input) => if i.addr = addr then { i with state, dseq } else i

/-- The grade that a ceiling allows (R329). -/
def capGrade (asked : Grade) (final : Bool) : Grade :=
  if asked = .guess ∨ final ∨ gradeRank asked ≤ 2 then asked else .provisional

/-! ## Restart (R314, R315) -/

/-- A handler that a restart has stopped: its registers are no part of a checkpoint (R416). -/
def Thread.idle (h : Thread) : Thread := { h.unstop with live := false, empty := [], wait := none, arrival := none, latch := none, hold := [], acquire := [], fails := [], rstack := [] }

/-- The crews that a restart from the entry gives: placement state, but the quarters and the budgets stay (R91, R369). -/
def RUnit.entryCrews (u : RUnit) (now : Nat) : List Crew :=
  u.crews.map fun (c : Crew) => { Crew.fresh u.desc.regs (BitVec.ofNat 64 u.desc.entry) c.quarter now u.placedAt with budget := c.budget.go now, handler := c.handler.idle }

/-- The crews of a checkpoint, with the budgets of now; a handler that was running is abandoned, and pending events are dropped
(R419). -/
def RUnit.checkpointCrews (u : RUnit) (cp : Checkpoint) (now : Nat) : List Crew :=
  (List.range cp.crews.length).filterMap fun i =>
    (cp.crews[i]?).map fun (c : Crew) =>
      { c.mapAll (fun (th : Thread) => { th.unstop with readySince := now, urgent := none, tried := 0 }) with frozen := false, event := none, pending := [], budget := (u.crew i).budget.go now, quarter := (u.crew i).quarter, handler := (u.crew i).handler.idle }

/-- The status of a future that a restart ends: cancelled, started or not; mzero always completes, one of a slot that the unit has
not with 0xA0 and a detail that the spec leaves open (R182, R191, R314). -/
def State.cancelledStatus (s : State) (u : RUnit) (op detail : Nat) : Nat :=
  match s.ops.find? (·.id == op) with
  | some o => if o.kind == .mzero then (if o.args.headD 0 < u.accs.length then 0 else statusWord 0xA0 detail) else if o.started then 0x02000000 else 0x01000000
  | none => 0x01000000

/-- R314: a restart; a task that holds a commit number is never restarted (R313). depth: that of the new run, when an
amendment gives it. -/
def State.restartTask (s : State) (uid : Nat) (counted : Bool) (depth : Option Nat) : State :=
  match s.unit? uid with
  | none => s
  | some u =>
    if !u.speculative || s.numbered uid then s
    else
      let kept := match u.task.checkpoint with | some cp => cp.futures | none => []
      let (detail, s) := s.free
      let statuses := kept.map fun f => (f.num, f.gen, match f.status with | some w => w.toNat | none => s.cancelledStatus u f.op detail)
      let s := s.discardVersion uid
      let n := if counted then min (u.task.restarts + 1) 15 else u.task.restarts
      let inputs := s.inputsOf u.launch
      let s := s.mapUnit uid fun u =>
        { u with
          crews := (match u.task.checkpoint with | some cp => u.checkpointCrews cp s.clk.now | none => u.entryCrews s.clk.now),
          futures := kept, tally := .zero, progress := none, arrayErr := none,
          task := { u.task with runs := u.task.runs + 1, restarts := n, sealFirst := decide (3 ≤ n), stale := false, inputs, published := [], depth := depth.getD u.task.depth } }
      let s := statuses.foldl (fun s f => s.completeFuture uid f.1 f.2.1 f.2.2) s
      let s := if 3 ≤ n then s.beginCommit uid .seal else s
      s.touch

/-! ## Amendment (R330, R333) -/

/-- A re-fire is wanted at a depth, held beyond the limit; several are one (R330, R333). -/
def UnitRec.wants (r : UnitRec) (d limit : Nat) : UnitRec :=
  let d := max d (r.refire.getD 0)
  { r with refire := some d, held := r.held || decide (limit < d) }

def State.wantRefire (s : State) (id : BitVec 32) (index d : Nat) : State :=
  s.mapLaunch id fun l => l.mapRec index (·.wants d l.limit)

/-- A run in progress is amended with new data (R333, R337). DESIGN CHOICE (log 30): one that holds a commit number already runs on,
marked stale, and is fired again at its end. -/
def State.amendRun (s : State) (u : RUnit) (d limit : Nat) : State :=
  if u.speculative && !s.numbered u.uid then
    if d ≤ limit then s.restartTask u.uid false (some d)
    else (s.haltUnit u.uid .stopped).wantRefire u.launch u.index d
  else
    let s := (s.mapUnit u.uid fun u => { u with task := { u.task with stale := true } }).wantRefire u.launch u.index d
    s.dropStale u.uid

/-- A run is resident or saved, and has not ended. -/
def RUnit.inRun (u : RUnit) : Bool :=
  match u.fate with
  | .running | .saving | .draining _ => true
  | .faulted | .cancelled | .stopped | .ended => false

/-- The signatures of a task hold a line (R311). -/
def RUnit.signs (u : RUnit) : Bool := u.task.rsig != [] || u.task.wsig != []

/-! ## Raises (R331) -/

/-- The task identifier of a unit of a launch (R306). -/
def taskIdOf (id : BitVec 32) (index : Nat) : Nat := id.toNat % 1024 * 2 ^ 22 + index % 2 ^ 22

/-- raise(K) for a unit without a run in progress: what its last run published is published again, at the grade that its
ceiling now allows. -/
def State.raiseRec (s : State) (l : Launch) (r : UnitRec) : State :=
  let fin := r.inputs.all fun i => i.state % 4 == 3
  r.published.foldl (fun s p =>
    let g := capGrade p.grade fin
    match s.translate l.ctx p.addr false false with
    | .error _ => s
    | .ok leaf =>
      let pa := leaf.addr p.addr
      if !s.recordInvalid pa && decide (s.word (pa + 0x0C) 4 % 4 < gradeRank g) && s.word (pa + 0x10) 4 == p.dseq &&
          !s.grades.pubs.any (fun q => q.raise.isSome && q.ctx == l.ctx && q.addr == p.addr && q.grade == g) then
        let (id, s) := s.newId
        State.touch { s with grades := { s.grades with pubs := s.grades.pubs ++ [{ id, ctx := l.ctx, addr := p.addr, grade := g, same := true, depth := 0, by_ := some (l.id, r.index, taskIdOf l.id r.index), txn := none, raise := some p.dseq }] } }
      else s) s

/-! ## Consumers (R331, R333) -/

/-- The dseq that a run has recorded for a record: its own, or else the one its launch registered (R328, R331). -/
def recordedSeq (addr reg : Nat) (is : List Input) : Nat := match is.find? (·.addr == addr) with | some i => i.dseq | none => reg

/-- A parked run, whose version a flush has discarded, is amended with new data: it restarts as a new run, or stops beyond the
depth limit (R330, R333, R427). -/
def State.amendFlushed (s : State) (m : Image) (d limit : Nat) : State :=
  let u := m.unit
  if d ≤ limit then
    let inputs := s.inputsOf u.launch
    { s with images := s.images.map fun (q : Image) => if q.unit.uid = u.uid then
        { q with unit := { q.unit with task := { q.unit.task with runs := q.unit.task.runs + 1, stale := false, inputs, published := [], depth := d } } } else q }
  else
    let s := s.mapLaunch u.launch fun l => l.mapRec u.index fun (r : UnitRec) => { r with at_ := .unplaced, runs := u.task.runs, inputs := u.task.inputs, withdrawn := u.withdrawn }
    State.wantRefire { s with images := s.images.filter (·.unit.uid != u.uid), ops := s.ops.filter (·.tid.uid != u.uid) } u.launch u.index d

/-- A registered consumer launch meets a publication of new data or of the same bytes; every one of its units takes the row of
its own state (R331, R333). A run that has been stopped, or that a fault ends, is re-fired in its place or at its end. -/
def State.consume (s : State) (id : BitVec 32) (addr state dseq : Nat) : State :=
  match s.launch? id with
  | none => s
  | some l =>
    let d := state / 16 % 16 + 1
    let reg := ((s.grades.regs.find? fun g => g.launch == id && g.addr == addr).map (·.dseq)).getD dseq
    let s : State := { s with grades := { s.grades with regs := s.grades.regs.map fun (g : Registration) => if g.launch = id ∧ g.addr = addr then { g with state, dseq } else g } }
    let new := fun (is : List Input) => recordedSeq addr reg is != dseq
    let lost := fun (u : RUnit) => u.fate == .stopped || u.fate == .faulted || (u.inRun && u.speculative && u.fault.isSome)
    let s := (s.units.filter fun (u : RUnit) => u.launch == id && !u.isSystem && u.inRun && !lost u).foldl (fun (s : State) (u : RUnit) =>
      if new u.task.inputs then s.amendRun u d l.limit
      else s.mapUnit u.uid fun u => { u with task := { u.task with inputs := seeRecord addr state dseq u.task.inputs } }) s
    let s := (s.units.filter fun (u : RUnit) => u.launch == id && !u.isSystem && lost u && new u.task.inputs).foldl (fun (s : State) (u : RUnit) => s.wantRefire id u.index d) s
    let s := s.images.foldl (fun (s : State) (m : Image) =>
      if m.unit.launch != id || m.unit.crews.isEmpty then s
      else if new m.unit.task.inputs && m.unit.speculative then s.amendFlushed m d l.limit
      else
        let s := if new m.unit.task.inputs then s.wantRefire id m.unit.index d else s
        { s with images := s.images.map fun (q : Image) =>
            if q.addr = m.addr ∧ q.unit.ctx = m.unit.ctx then
              { q with unit := { q.unit with task := if new q.unit.task.inputs then { q.unit.task with stale := true } else { q.unit.task with inputs := seeRecord addr state dseq q.unit.task.inputs } } }
            else q }) s
    let idle := fun (r : UnitRec) => (match r.at_ with | .ended => true | .unplaced => r.refire.isSome | .resident _ | .parked | .withdrawn _ => false)
    let s := s.mapLaunch id fun (l : Launch) =>
      { l with units := l.units.map fun (r : UnitRec) =>
          if !idle r then r
          else if new r.inputs then r.wants d l.limit
          else { r with inputs := seeRecord addr state dseq r.inputs } }
    ((s.launch? id).map (·.units)).getD [] |>.foldl (fun (s : State) (r : UnitRec) =>
      if r.at_ = .ended ∧ r.refire.isNone ∧ r.inputs.any (·.addr == addr) then s.raiseRec l r else s) s

/-- A publishing run's own launch sees what it published, in its parked units too (R331). -/
def State.ownRecord (s : State) (id : BitVec 32) (addr state dseq : Nat) : State :=
  let s : State := { s with
    grades := { s.grades with regs := s.grades.regs.map fun (g : Registration) => if g.launch = id ∧ g.addr = addr then { g with state, dseq } else g },
    units := s.units.map fun (u : RUnit) => if u.launch = id ∧ !u.isSystem then { u with task := { u.task with inputs := seeRecord addr state dseq u.task.inputs } } else u,
    images := s.images.map fun (m : Image) => if m.unit.launch = id then { m with unit := { m.unit with task := { m.unit.task with inputs := seeRecord addr state dseq m.unit.task.inputs } } } else m }
  s.mapLaunch id fun (l : Launch) => { l with units := l.units.map fun (r : UnitRec) => { r with inputs := seeRecord addr state dseq r.inputs } }

/-- R331: a publication at its record's home: the state after, the status, and the record's dseq. by_: the launch and task of
the publishing run; none for an external agent. DESIGN CHOICE (log 30): a record that no longer translates when the publication
performs gives status 1. DEDUCED (log 30): R306's full launch id has no field in R325's record, whose layout the model follows. -/
def State.publish (s : State) (ctx addr : Nat) (g : Grade) (same : Bool) (depth : Nat) (by_ : Option (BitVec 32 × Nat)) : State × Nat × Nat :=
  match s.translate ctx addr true false with
  | .error _ => (s, 1, 0)
  | .ok l =>
    let pa := l.addr addr
    let s := s.know ctx addr
    let st := s.word (pa + 0x0C) 4
    let old := s.word (pa + 0x10) 4
    if s.recordInvalid pa then (s, 1, 0)
    else if st % 4 = 3 then (s, if same then 0 else 2, old)
    else
      let seq := if st / 256 + 1 = 2 ^ 24 then 1 else st / 256 + 1
      let dseq := if same then old else seq
      let new := seq * 256 + (if g = .final then 0 else depth % 16) * 16 + gradeRank g
      let producer := match by_ with | some b => b.2 | none => 0xFFFFFFFF
      let s := s.performAt ctx l (addr + 0x0C) (leBytes 4 new ++ leBytes 4 dseq ++ leBytes 4 producer) .thr none
      let ids := ((s.grades.regs.filter fun q => q.ctx == ctx && q.addr == addr).map (·.launch)).eraseDups
      let s := ids.foldl (fun (s : State) id => if by_.any (·.1 == id) then s.ownRecord id addr new dseq else s.consume id addr new dseq) s
      ((s.act ctx).touch, 0, dseq)

/-! ## PUBLICATION -/

/-- A publication of a sealed or direct run, with its status for its thread (R329, R340). -/
def State.publishFor (s : State) (p : Pub) (x : Txn) : State :=
  let u? := s.unit? x.tid.uid
  let fin := match u? with | some u => u.ceilingFinal | none => true
  let q := s.publish p.ctx p.addr (capGrade p.grade fin) p.same p.depth (p.by_.map fun b => (b.1, b.2.2))
  let s := if q.2.1 = 0 then
      q.1.mapUnit x.tid.uid fun u => { u with task := { u.task with published := u.task.published ++ [{ addr := p.addr, grade := p.grade, dseq := q.2.2 }] } }
    else q.1
  (((s.fill x.id 1 q.2.1 x.dests).unhold x).dropTxn x.id).touch

/-- A raise, if what it was made for still stands (R331); the record keeps its depth. -/
def State.publishRaise (s : State) (p : Pub) (dseq : Nat) : State :=
  match s.translate p.ctx p.addr true false with
  | .error _ => s
  | .ok l =>
    let st := s.word (l.addr p.addr + 0x0C) 4
    if st % 4 < gradeRank p.grade ∧ s.word (l.addr p.addr + 0x10) 4 = dseq then
      (s.publish p.ctx p.addr p.grade true (st / 16 % 16) (p.by_.map fun b => (b.1, b.2.2))).1
    else s

/-- PUBLICATION: a publication on its way reaches its record (R331). -/
def execPublication (id : Nat) (s : State) : Out :=
  match s.grades.pubs.find? (·.id == id) with
  | none => .next s
  | some p =>
    let s : State := { s with grades := { s.grades with pubs := s.grades.pubs.filter fun (q : Pub) => q.id != id } }
    match p.txn, p.raise with
    | some t, _ => (match s.txn? t with
      | some x => .next ((s.publishFor p x).settleLevels).touch
      | none => .next s.touch)
    | none, some dseq => .next ((s.publishRaise p dseq).settleLevels).touch
    | none, none => .next ((s.publish p.ctx p.addr p.grade p.same p.depth (p.by_.map fun b => (b.1, b.2.2))).1.settleLevels).touch

/-! ## External publications (R336) -/

/-- A write of 8 bytes on the pubw word of a record that the grade engine knows (R336): it publishes, or is dropped with an
error record. -/
def State.extPublish (s : State) (src : ExtSource) (ctx addr : Nat) (l : Leaf) (value : Nat) : State :=
  let pa := l.addr addr
  let g := gradeOf value
  let die := (s.ctx ctx).home l addr / 32
  let below := g != .final && (match src with | .host => true | .peer => !l.gx)
  if s.word (pa + 0x18) 4 % 2 = 0 ∨ value / 8 ≠ 0 ∨ g = .absent ∨ below then s.errorEvent die addr
  else
    let q := s.publish ctx addr g (bit value 2) 0 none
    if q.2.1 = 2 then q.1.errorEvent die addr else q.1

/-- EXTERNAL_PUBLICATION (R336): a block that the grade engine does not know takes an ordinary write. -/
def execExternalPublication (src : ExtSource) (ctx addr : Nat) (value : DWord) (s : State) : Out :=
  match s.translate ctx addr true false with
  | .error _ => .next s
  | .ok l =>
    if s.grades.known.contains (ctx, addr) then .next ((s.extPublish src ctx addr l value.toNat).settleLevels).touch
    else .next (s.performAt ctx l (addr + 0x20) (leBytes 8 value.toNat) .thr none)

/-! ## gread, gpub, gwait (R339 to R341) -/

/-- The access field of a grade instruction. -/
def gradeAccess (ord : Ord) : Access := { Access.base with ord, scope := .device }

/-- A run records an input, and its launch registers it (R328, R339). -/
def State.registerInput (s : State) (uid addr state dseq : Nat) : State :=
  match s.unit? uid with
  | none => s
  | some u =>
    let s := s.know u.ctx addr
    let s : State := if s.grades.regs.any fun g => g.launch == u.launch && g.addr == addr then s
      else { s with grades := { s.grades with regs := s.grades.regs ++ [({ launch := u.launch, ctx := u.ctx, addr, thr := 1, state, dseq } : Registration)] } }
    s.mapUnit uid fun u =>
      { u with task := { u.task with inputs := if u.task.inputs.any (·.addr == addr) then seeRecord addr state dseq u.task.inputs else u.task.inputs ++ [({ addr, state, dseq, thr := 1 } : Input)] } }

/-- The home's answer to a gread (R339). -/
def State.greadReply (s : State) (x : Txn) (pa : Nat) (peek : Bool) : State :=
  let st := s.recordState pa
  let s := s.know x.ctx x.va
  let s := if peek || st == 8 then s else s.registerInput x.tid.uid x.va st (s.word (pa + 0x10) 4)
  (((s.fill x.id 1 st x.dests).unhold x).dropTxn x.id).touch

/-- The home's answer to a gpub of an unsealed task: the publication is pending until the commit (R340). -/
def State.gpubReply (s : State) (x : Txn) (pa : Nat) (g : Grade) : State :=
  let bad := s.recordInvalid pa
  let s := s.know x.ctx x.va
  let s := if bad then s
    else s.mapUnit x.tid.uid fun u => { u with task := { u.task with pubs := (u.task.pubs.filter fun (p : PubReq) => p.addr != x.va) ++ [({ addr := x.va, grade := g, dseq := 0 } : PubReq)] } }
  (((s.fill x.id 1 (boolNat bad) x.dests).unhold x).dropTxn x.id).touch

def greadBody (peek : Bool) (v : View) : Body := fun s0 s t rs act =>
  match s.unit? t.uid with
  | none => .done s
  | some u =>
    let ea := eaOf v (gradeAccess .acquire) s0 t act
    match s.accessBad t.uid u.ctx .global ea 64 with
    | some b => b.res ea
    | none =>
      if s.numbered t.uid then .wait .sealing s
      else if s.overlapping t .global ea 64 s.clk.nextId true then .wait .accesses s
      else if s.entryFree t u.core then
        .done (s.startTxn u t (s0.thread t).pc { kind := .gread peek, ac := gradeAccess .acquire, va := ea, size := 64, noSig := true, hold := true } v.x.d.toNat 1 rs)
      else .wait .entry s

def gpubBody (g : Grade) (same : Bool) (v : View) : Body := fun s0 s t rs act =>
  match s.unit? t.uid with
  | none => .done s
  | some u =>
    let ea := eaOf v (gradeAccess .plain) s0 t act
    match s.accessBad t.uid u.ctx .global ea 64 with
    | some b => b.res ea
    | none =>
      let start := fun (ord : Ord) =>
        if s.entryFree t u.core then
          TRes.done (s.startTxn u t (s0.thread t).pc { kind := .gpub g same, ac := gradeAccess ord, va := ea, size := 64, noSig := true, hold := true } v.x.d.toNat 1 rs)
        else .wait .entry s
      if s.committing t.uid then .wait .sealing s
      else if u.speculative then start .plain
      else released s t (gradeAccess .release) (start .release)

def gwaitBody (g : Grade) (chg : Bool) (len : Nat) (v : View) : Body := fun s0 s t rs act =>
  match s.unit? t.uid with
  | none => .done s
  | some u =>
    let ea := eaOf v (gradeAccess .acquire) s0 t act
    match s.accessBad t.uid u.ctx .global ea 64 with
    | some b => b.res ea
    | none => reporting s t <| waitBody { kind := .gwait g (if chg then some (v.srcC s0 t) else none), ac := gradeAccess .acquire, va := ea, size := 64, noSig := true, entry := false, len } 1 v s0 s t rs act

def execGread (peek : Bool) (x : Form) (s : State) : Out := issue (.gread peek x) (eachThread (greadBody peek)) s
def execGpub (grade : Grade) (same : Bool) (x : Form) (s : State) : Out := issue (.gpub grade same x) (eachThread (gpubBody grade same)) s
def execGwait (grade : Grade) (chg : Bool) (x : Form) (s : State) : Out := issue (.gwait grade chg x) (waitRun (gwaitBody grade chg)) s

end Sys2Proof.Machine
end

