-- ==== Sys2Proof/Machine/Tasks.lean ====
section
/-! DEFINITION. Chunk control, the commit and its events, spawned consumers, and the end of a unit: majors 0x70 to 0x72
(12_tasks_grades R305 to R324, R332, R334, R342; 05_control R123; 09_memory R241, R246). -/

namespace Sys2Proof.Machine

/-! ## Chunks (R307, R315, R321) -/

/-- The address and size of a unit's checkpoint area (R346). -/
def RUnit.checkpointArea (u : RUnit) : Nat × Nat :=
  (u.desc.scratch + u.index % u.desc.sslots * u.desc.sstride + u.desc.crews * 32 * u.desc.priv, u.desc.crews * 32 * (4 * u.desc.regs + 64) + 4096)

/-- The core writes a checkpoint into the unit's area, page by page; what its bytes are is left open (R307, R346; log 86). -/
def State.writeArea (s : State) (u : RUnit) : State :=
  let a := u.checkpointArea.1
  let n := u.checkpointArea.2
  let (seed, s) := s.free
  (List.range ((a + n - 1) / 4096 + 1 - a / 4096)).foldl (fun s i =>
    let lo := max a ((a / 4096 + i) * 4096)
    let hi := min (a + n) ((a / 4096 + i + 1) * 4096)
    match s.translate u.ctx lo true false with
    | .ok l => s.performAt u.ctx l lo ((List.range (hi - lo)).map fun k => Config.checkpointByte seed (lo - a + k)) .thr none
    | .error _ => s) s

/-- A new chunk begins with the state that the threads have now; its checkpoint is written before any thread issues (R307). -/
def State.newChunk (s : State) (uid : Nat) : State :=
  match s.unit? uid with
  | none => s
  | some u =>
    ((s.mapUnit uid fun u =>
      { u with task := { u.task with isSealed := false, sealFirst := false, restarts := 0, chunk := (u.task.chunk + 1) % 65536, checkpoint := some { crews := u.crews, futures := u.futures } } }).writeArea u).releaseUnit u

/-- The live threads of a unit, with their lanes. -/
def RUnit.liveThreads (u : RUnit) : List (Tid × Thread) :=
  (List.range u.crews.length).flatMap fun c => (List.range 32).filterMap fun l =>
    let th := (u.crew c).thread l
    if th.live then some (⟨u.uid, c, l⟩, th) else none

/-- The unit counts as triggered, once (R321, R356). -/
def State.trigger (s : State) (uid : Nat) : State :=
  match s.unit? uid with
  | none => s
  | some u => ((s.releaseUnit u).mapUnit uid fun u => { u with triggered := true }).mapLaunch u.launch fun l => l.mapRec u.index fun r => { r with released := true }

/-- The threads that wait at a chunk end go on, each after its own tcommit or trigger (R321). -/
def State.releaseChunk (s : State) (uid : Nat) : State :=
  match s.unit? uid with
  | none => s
  | some u => (s.advance (u.liveThreads.map (·.1)) 12).touch

/-- Outstanding entries of a unit have resolved, but those of writes held for an overflow (R246, R313, R317), and so have the
answers of its performed atomics, which fill registers of the checkpoint to come (R307); an rld stalled on a held write is
flagged 1. -/
def State.resolved (s : State) (u : RUnit) : Bool :=
  (s.txns.all fun x => x.tid.uid != u.uid || !(x.entry || (x.phase matches .performed _)) || u.task.heldWrites.contains x.id) &&
  (s.ops.all fun o => o.tid.uid != u.uid || !(o.kind matches .rld | .rld3 | .mcst) || o.flags == 1)

/-- Every live thread has arrived at a chunk end: the unit's chunk ends as its mode says (R321). -/
def State.chunkEnd (s : State) (uid : Nat) (trig : Bool) : State :=
  match s.unit? uid with
  | none => s
  | some u =>
    let mark := fun (s : State) => if trig then s.trigger uid else s
    if u.speculative then s.beginCommit uid (if trig then .trigger else .chunk)
    else if !s.resolved u || u.task.phase != .none then s
    else if u.task.atomic then (mark (((s.releaseToken uid).releaseChunk uid).newChunk uid)).settleLevels.touch
    else if u.liveThreads.any fun q => s.outstanding q.1 true true false then s
    else (mark (s.releaseChunk uid)).settleLevels.touch

/-- Threads arrive at a chunk end; when all live threads of the unit wait at the same function, the chunk ends (R321). -/
def arriveChunk (trig : Bool) (s : State) (act : List Tid) : Run :=
  match act with
  | [] => .start s
  | t :: _ =>
    let new := act.any fun q => (s.thread q).wait != some (.chunk trig)
    let s := s.waitAll act (.chunk trig)
    let s := if new then s.touch else s
    match s.unit? t.uid with
    | none => .start s
    | some u => .start (if u.liveThreads.all (fun q => q.2.wait == some (.chunk trig)) then s.chunkEnd t.uid trig else s)

/-- Whether the unit of a bundle runs as a direct task. -/
def State.direct (s : State) (act : List Tid) : Bool :=
  match act with
  | t :: _ => (match s.unit? t.uid with | some u => !u.task.atomic | none => false)
  | [] => false

/-- tcommit: in a direct unit each thread acts alone, as a fence (R321). -/
def tcommitRun (v : View) (len : Nat) (s : State) (act : List Tid) : Run :=
  if s.direct act then eachOwn (fenceBody .full .device) v len s act else arriveChunk false s act

/-- trigger: in a direct unit it is a release, and so a report point of each thread (R245, R321). -/
def triggerRun (_ : View) (_ : Nat) (s : State) (act : List Tid) : Run :=
  let faults := if s.direct act then act.filterMap fun t => (s.thread t).report.map fun f => (t, f) else []
  if faults ≠ [] then { st := s, traps := [], faults } else arriveChunk true s act

/-- tabort: one thread acts, for the whole unit (R322). -/
def tabortRun (endUnit : Bool) (v : View) (_ : Nat) (s : State) (act : List Tid) : Run :=
  match act with
  | [] => .start s
  | t :: _ =>
    match v.check s t [t.lane] with
    | .trap d => { st := s, traps := [(t, 3, d)], faults := [] }
    | .wait => .start (s.waitAll [t] .source)
    | .ready =>
      if s.numbered t.uid then .start (s.waitAll act .sealing)
      else if s.speculates t.uid && !endUnit then .start (s.restartTask t.uid false none)
      else { st := s, traps := [], faults := [(t, { cause := 0x29, detail := if endUnit then v.srcA s t [t.lane] % 65536 else 0 })] }

/-- tseal (R323). -/
def tsealBody (_ : View) : Body := fun _ s t _ _ => sealed s t fun s => .done s

/-- The word of tstat (R324). -/
def State.taskState (s : State) (u : RUnit) : Nat :=
  u.task.chunk % 65536 + 2 ^ 18 * boolNat u.task.atomic + 2 ^ 19 * boolNat u.task.isSealed +
  2 ^ 20 * boolNat (s.commits.tokens.any fun k => k.2 == u.uid) + 2 ^ 21 * boolNat u.task.stale +
  2 ^ 22 * (if u.ceilingFinal then 3 else 2) + 2 ^ 24 * (u.task.depth % 16) + 2 ^ 28 * min u.task.restarts 15

def tstatBody (v : View) : Body := fun s0 s t rs _ =>
  match s0.unit? t.uid with
  | none => .done s
  | some u => statusTo v s rs (s0.taskState u)

/-! ## Spawned consumers (R342) -/

/-- A field of a spawn block is out of limits. -/
def spawnBad (b : List Byte) : Bool :=
  let n := field b 8 1
  let r := fun i => field b (0x10 + 8 * i) 8
  field b 0 8 % 128 != 0 || decide (2 ^ 57 ≤ field b 0 8) || decide (n < 1) || decide (4 < n) || decide (field b 9 1 < 1) || decide (15 < field b 9 1) ||
  ((b.drop 0x0A).take 6).any (· != 0) || (b.drop 0x34).any (· != 0) ||
  (List.range 4).any fun i =>
    if i < n then r i % 64 != 0 || decide (2 ^ 57 ≤ r i) || decide (field b (0x30 + i) 1 < 1) || decide (3 < field b (0x30 + i) 1)
    else r i != 0 || field b (0x30 + i) 1 != 0

/-- A spawn as its block gives it. -/
def spawnReq (b : List Byte) : SpawnReq :=
  { ldesc := field b 0 8, depth := field b 9 1, recs := (List.range (field b 8 1)).map fun i => (field b (0x10 + 8 * i) 8, field b (0x30 + i) 1) }

/-- Places taken in the table of spawned consumers. -/
def State.spawnsTaken (s : State) : Nat := (s.work.launches.filter fun l => l.id.toNat / 2 ^ 25 == 65).length + s.work.reserved

/-- A launch of a descriptor in memory, as a new launch of the issuer's firing and phase. -/
def State.newLaunch (s : State) (u : RUnit) (id : BitVec 32) (bs : Option (List Byte)) (limit : Nat) (dev : Bool) : Launch :=
  let b := bs.getD (List.replicate 128 0)
  let d := descOf b
  let own := s.launch? u.launch
  { Launch.fresh id u.ctx d (bs.isNone || d.outside b) limit (own.bind (·.firing)) (own.bind (·.tag)) with deviceSide := dev }

/-- A spawned consumer comes into being; one whose record cannot be read or is invalid is refused (R342, R351). DESIGN CHOICE
(log 30): the records of a refused one are registered and counted for the completion of the graph all the same. -/
def State.spawn (s : State) (u : RUnit) (q : SpawnReq) : State :=
  let seq := (s.work.spawnCount + 1) % 2 ^ 17
  let id := BitVec.ofNat 32 (65 * 2 ^ 25 + seq * 256)
  let bs := match s.readBlock u.ctx q.ldesc 128 with | .ok b => some b | .error _ => none
  let l := s.newLaunch u id bs q.depth false
  let s : State := { s with work := { s.work with spawnCount := s.work.spawnCount + 1, launches := s.work.launches ++ [l] } }
  let bad := q.recs.any fun r => match s.translate u.ctx r.1 false false with
    | .error _ => true
    | .ok leaf => s.recordInvalid (leaf.addr r.1)
  let s := q.recs.foldl (fun s r => s.know u.ctx r.1) s
  let s : State := { s with grades := { s.grades with regs := s.grades.regs ++ q.recs.map fun r =>
    let now := s.inputNow u.ctx r.1
    ({ launch := id, ctx := u.ctx, addr := r.1, thr := r.2, state := now.1, dseq := now.2 } : Registration) } }
  (if bad then s.refuseLaunch id else s).touch

/-- tspawn (R342). -/
def tspawnBody (v : View) : Body := fun s0 s t rs act =>
  match s.unit? t.uid with
  | none => .done s
  | some u =>
    let a := v.srcA s0 t act
    match s.blockBad t.uid a 64 64 with
    | some b => b.res a
    | none =>
      let b := s.loadLocal t.uid a 64
      if spawnBad b then statusTo v s rs 2
      else if 4096 ≤ s.spawnsTaken then statusTo v s rs 1
      else if u.speculative then
        if s.committing t.uid then .wait .sealing s
        else
          let s := s.mapUnit t.uid fun u => { u with task := { u.task with spawns := u.task.spawns ++ [spawnReq b] } }
          statusTo v { s with work := { s.work with reserved := s.work.reserved + 1 } } rs 0
      else statusTo v (s.spawn u (spawnReq b)) rs 0

/-! ## The end of a unit (R123, R241, R331) -/

/-- The ctxsave operations that have asked for a unit complete (R455). -/
def State.answerSave (s : State) (uid code : Nat) : State :=
  (s.ops.filter fun o => (o.kind matches .ctxsave) && o.args.headD 0 == uid).foldl (fun s o => s.finishOp o (statusWord code 0)) s

/-- The unit leaves its core: borrowed granules return, and its own stay while they are lent or posted (R241). -/
def State.leaveCore (s : State) (u : RUnit) : State :=
  let s := (s.releaseToken u.uid).answerSave u.uid 0x41
  let s := u.borrowed.foldl (fun s b => s.setHolder b.owner b.granule .own none) s
  let s : State := { s with ops := s.ops.filter (·.tid.uid != u.uid), work := { s.work with fills := s.work.fills.filter (·.tid.uid != u.uid) } }
  ((s.mapUnit u.uid fun u => { u with fate := .ended, borrowed := [], futures := [], crews := [], fault := none, task := .fresh u.task.atomic }).reap.act u.ctx).touch

/-- A unit ends, and with it the units that it has withdrawn (R123, R368); flags of its record. What the run has seen and
published stays with the launch, and a run that ends raises (R331). -/
def State.endUnit (s : State) (u : RUnit) (flags : Nat) : State :=
  let die := dieOf u.core
  let s := s.releaseUnit u
  let s := s.unitEnded u.launch u.index die u.tally flags
  let s := s.endWithdrawn die u.withdrawn flags
  let s := s.mapLaunch u.launch fun l => l.mapRec u.index fun (r : UnitRec) =>
    { r with runs := u.task.runs + 1, depth := u.task.depth, inputs := if flags = 0 then u.task.inputs else r.inputs, published := if flags = 0 then u.task.published else r.published }
  let s := s.leaveCore u
  let s := match s.launch? u.launch with
    | some l => if flags = 0 ∧ (l.unitRec u.index).refire.isNone then s.raiseRec l (l.unitRec u.index) else s
    | none => s
  s.settleLevels.touch

/-- A stopped run leaves its core without an end: its re-fire takes its place (R333, R337). -/
def State.endStopped (s : State) (u : RUnit) : State :=
  let s := s.mapLaunch u.launch fun l => l.mapRec u.index fun (r : UnitRec) => { r with at_ := .unplaced, runs := u.task.runs + 1, inputs := u.task.inputs, budget := [], withdrawn := u.withdrawn }
  (s.leaveCore u).settleLevels.touch

/-- Every future of a unit has completed. -/
def RUnit.futuresDone (u : RUnit) : Bool := u.futures.all fun f => f.status.isSome

/-- Nothing of a unit is on its way. -/
def State.quiet (s : State) (uid : Nat) : Bool :=
  s.txns.all (fun x => x.tid.uid != uid) && s.ops.all (fun o => o.tid.uid != uid)

/-- UNIT_END (R123, R188, R363, R410): the last thread has exited and the futures are complete, or a fault or a cancel has
stopped the unit and what it issued has come to its end. -/
def execUnitEnd (uid : Nat) (s : State) : Out :=
  match s.unit? uid with
  | none => .next s
  | some u =>
    if u.isSystem || u.fault.isSome then .next s
    else
      match u.fate with
      | .running | .draining _ =>
        if !u.liveThreads.isEmpty || !u.futuresDone || u.task.phase != .none || !s.quiet uid || (s.work.fills.any fun f => f.tid.uid == uid) then .next s
        else
          match u.arrayErr with
          | some d => .next (s.raiseFault ⟨uid, 0, 0⟩ { cause := 0x26, detail := d } 0 false)
          | none => if u.speculative then .next (s.beginCommit uid .finish) else .next (s.endUnit u 0)
      | .faulted => if s.quiet uid then .next (s.endUnit u 2) else .next s
      | .cancelled => if s.quiet uid then .next (s.endUnit u 1) else .next s
      | .stopped => if s.quiet uid then .next (s.endStopped u) else .next s
      | .saving | .ended => .next s

/-! ## The commit (R312, R313, R317) -/

/-- COMMIT_TOKEN_GRANT: the token of a die goes to the first task of its queue whose entries have resolved (R313, R317). -/
def execCommitTokenGrant (die : Nat) (s : State) : Out :=
  if s.commits.tokens.any (·.1 == die) then .next s
  else
    match s.commits.queue.find? fun uid => match s.unit? uid with
      | some u => dieOf u.core == die && u.task.phase == .wanting && u.active && s.resolved u
      | none => false with
    | none => .next s
    | some uid =>
      let s : State := { s with commits := { s.commits with tokens := (die, uid) :: s.commits.tokens, queue := s.commits.queue.filter (· != uid) } }
      .next (s.mapUnit uid fun (u : RUnit) => { u with task := { u.task with phase := .token } }).touch

/-- The first thread of a unit that has recorded a failure, with its report (R245, R246). -/
def RUnit.firstReport (u : RUnit) : Option (Tid × FaultInfo) :=
  (List.range u.crews.length).findSome? fun c => (List.range 32).findSome? fun l =>
    (((u.crew c).thread l).report).map fun f => (⟨u.uid, c, l⟩, f)

/-- A line of a context, or a vault line, is in the read signature of a unit. -/
def RUnit.readLine (u : RUnit) (ctx : Nat) (k : LineKey) : Bool := (k.space == .vault || u.ctx == ctx) && u.task.rsig.contains k

/-- A unit has read a line that a commit with a number has still to merge, since its arbiter tested that commit (R313;
log 85). -/
def State.mergesRead (s : State) (u : RUnit) : Bool :=
  s.units.any fun o => o.uid != u.uid && s.numbered o.uid && o.task.wsig.any fun k => u.readLine o.ctx k

/-- COMMIT_START: a failed store aborts the task (R246); else, once every lower write signature has been tested at its die,
the task takes its number, and its write signature goes to all eight arbiters (R313). -/
def execCommitStart (uid : Nat) (s : State) : Out :=
  match s.unit? uid with
  | none => .next s
  | some u =>
    if !u.active || !s.resolved u then .next s
    else
      match u.task.phase, u.firstReport with
      | .none, _ | .numbered _, _ => .next s
      | _, some (t, f) => .next (s.raiseFault t f (2 ^ t.lane) false)
      | .wanting, none => .next s
      | .token, none =>
        let die := dieOf u.core
        if s.commits.sigs.any (·.die == die) || s.commits.addrs.any (·.die == die) then .next s
        else if s.mergesRead u then .next (s.restartTask uid true none)
        else
          let n := s.commits.next
          let lines := u.task.wsig.map fun k => (u.ctx, k)
          let s : State := { s with commits := { s.commits with next := n + 1, sigs := s.commits.sigs ++ (List.range 8).map fun d => ({ die := d, uid, n, lines } : SigMsg) } }
          .next (s.mapUnit uid fun (u : RUnit) => { u with task := { u.task with phase := .numbered n, untested := List.range 8 } }).touch

/-- The unsealed tasks of a die whose read signature hits, or is taken to hit (R311, R312, R313). An empty signature hits nothing, so
that the fourth attempt, which seals before its first instruction, is not restarted (R315). -/
def State.signatureHits (s : State) (die : Nat) (source : Option Nat) (falseHits : List Nat) (hit : RUnit → Bool) : List Nat :=
  (s.units.filter fun u => u.speculative && dieOf u.core == die && source != some u.uid && u.inRun && !s.numbered u.uid &&
    (hit u || (falseHits.contains u.uid && u.signs))).map (·.uid)

/-- WRITE_SIGNATURE_ARRIVAL: an arbiter tests the next write signature, in the order of the numbers (R313). -/
def execWriteSignatureArrival (die : Nat) (falseHits : List Nat) (s : State) : Out :=
  match s.commits.sigs.find? (·.die == die) with
  | none => .next s
  | some m =>
    let hits := s.signatureHits die (some m.uid) falseHits fun u => m.lines.any fun k => u.readLine k.1 k.2
    let s : State := { s with commits := { s.commits with sigs := s.commits.sigs.erase m } }
    let s := s.mapUnit m.uid fun u => { u with task := { u.task with untested := u.task.untested.filter (· != die) } }
    .next (hits.foldl (fun s uid => s.restartTask uid true none) s).touch

/-- CONFLICT_ADDRESS_ARRIVAL: an arbiter tests the address of a marked line that was written (R312). -/
def execConflictAddressArrival (die : Nat) (falseHits : List Nat) (s : State) : Out :=
  match s.commits.addrs.find? (·.die == die) with
  | none => .next s
  | some m =>
    let hits := s.signatureHits die m.source falseHits fun u => u.readLine m.ctx m.line
    let s : State := { s with commits := { s.commits with addrs := s.commits.addrs.erase m } }
    .next (hits.foldl (fun s uid => s.restartTask uid true none) s).touch

/-- The merge leaves every byte of a record's data unchanged (R332). -/
def State.sameData (s : State) (u : RUnit) (pa : Nat) : Bool :=
  let data := s.word pa 8
  let size := s.word (pa + 8) 4
  u.task.version.all fun (b : VByte) => !(decide (data ≤ b.va) && decide (b.va < data + size)) || cellGet s.mem b.pa == b.val

/-- A pending publication with its grade-only decision; none when R331 would refuse it (R332, R334). -/
def State.pendingPub (s : State) (u : RUnit) (p : PubReq) : Option (PubReq × Bool) :=
  match s.translate u.ctx p.addr true false with
  | .error _ => some (p, true)
  | .ok l =>
    let pa := l.addr p.addr
    if s.recordInvalid pa then some (p, true)
    else if s.word (pa + 0x0C) 4 % 4 = 3 ∧ !s.sameData u pa then none
    else some (p, s.sameData u pa)

/-- The writes of a chunk to each byte of its logged vault lines become visible together: no reader sees the bytes between
(R268). -/
def together (log : List (LineKey × Nat × List Byte)) (h : List Old) : List Old :=
  log.foldl (fun h e =>
    if e.1.space != .vault then h
    else (List.range 128).foldl (fun h i =>
      let mine := fun (o : Old) => o.space == 1 && o.addr == e.1.line * 128 + i && o.made.all fun m => decide (e.2.1 ≤ m.step)
      let made := (h.filter mine).flatMap (·.made)
      if made = [] then h else { space := 1, addr := e.1.line * 128 + i, val := e.2.2.getD i 0, made } :: h.filter (!mine ·)) h) h

/-- Every version line is written at its home, as one step: its writes keep their paths and threads (R268, R313). -/
def State.mergeVersion (s : State) (u : RUnit) : State :=
  let s := u.task.versionLines.foldl (fun (s : State) line => match s.leaf? u.ctx (line * 128) with | some l => s.enterLines u.ctx l (line * 128) 128 | none => s) s
  let s := u.task.version.foldl (fun (s : State) (b : VByte) => (s.soil u.ctx b.va b.pa 1).writeMade b.pa [b.val] b.made) s
  let s : State := { s with hist := together u.task.undo (s.hist.filter (·.space != versionSpace u.uid)) }
  u.task.version.foldl (fun (s : State) (b : VByte) => (s.purgeL1 u.ctx (b.va / 128)).wake (some (u.ctx, b.va / 128)) b.pa) s

/-- The pending publications of a commit are performed (R313, R329, R331). -/
def State.commitPubs (s : State) (u : RUnit) (ps : List (PubReq × Bool)) : State :=
  ps.foldl (fun s p =>
    let fin := match s.unit? u.uid with | some u => u.ceilingFinal | none => true
    let q := s.publish u.ctx p.1.addr (capGrade p.1.grade fin) p.2 u.task.depth (some (u.launch, u.taskId))
    if q.2.1 = 0 then q.1.mapUnit u.uid fun u => { u with task := { u.task with published := u.task.published ++ [{ p.1 with dseq := q.2.2 }] } }
    else q.1) s

/-- What follows the merge, by the goal of the commit (R317, R321). -/
def State.afterMerge (s : State) (uid : Nat) (goal : CommitGoal) : State :=
  match goal with
  | .chunk => ((s.releaseToken uid).releaseChunk uid).newChunk uid
  | .trigger => (((s.releaseToken uid).releaseChunk uid).newChunk uid).trigger uid
  | .seal => s.mapUnit uid fun u => { u with task := { u.task with isSealed := true, heldWrites := [], overflow := false } }
  | .finish => (match s.unit? uid with | some u => s.endUnit u 0 | none => s)

/-- A lower-numbered commit that merges a line of this one has still to merge (R313). -/
def State.mergesBefore (s : State) (u : RUnit) (n : Nat) : Bool :=
  s.units.any fun o => (match o.task.phase with | .numbered m => decide (m < n) | .none | .wanting | .token => false) && o.ctx == u.ctx &&
    o.task.versionLines.any u.task.versionLines.contains

/-- The launch of a unit has been cancelled. -/
def State.launchCancelled (s : State) (u : RUnit) : Bool := match s.launch? u.launch with | some l => l.state == .cancelled | none => false

/-- COMMIT_MERGE: all eight arbiters have tested the signature: the version merges, publications and spawns are performed
(R268, R313, R334, R364). A task that has read a line of it since its arbiter's test restarts (log 85). -/
def execCommitMerge (uid : Nat) (s : State) : Out :=
  match s.unit? uid with
  | none => .next s
  | some u =>
    match u.task.phase with
    | .none | .wanting | .token => .next s
    | .numbered n =>
      if u.task.untested ≠ [] ∨ s.mergesBefore u n ∨ u.fault.isSome then .next s
      else
        let ps := u.task.pubs.map fun p => (p, s.pendingPub u p)
        match ps.find? (·.2.isNone) with
        | some p =>
          let t := (u.liveThreads.map (·.1)).headD ⟨uid, 0, 0⟩
          .next (s.raiseFault t { cause := 0x2A, addr := p.1.addr } (2 ^ t.lane) false)
        | none =>
          let late := (s.units.filter fun o => o.uid != uid && o.speculative && o.inRun && !s.numbered o.uid && u.task.wsig.any fun k => o.readLine u.ctx k).map (·.uid)
          let s := late.foldl (fun s v => s.restartTask v true none) (s.mergeVersion u)
          let s := s.mapUnit uid fun u => { u with task := { u.task with version := [], undo := [], rsig := [], wsig := [], pubs := [], spawns := [], phase := .none } }
          let s := s.commitPubs u (ps.filterMap (·.2))
          let s : State := { s with work := { s.work with reserved := s.work.reserved - u.task.spawns.length } }
          let s := u.task.spawns.foldl (fun s q => s.spawn u q) s
          if s.launchCancelled u then .next ((s.releaseToken uid).haltUnit uid .cancelled)
          else .next ((s.afterMerge uid u.task.goal).settleLevels).touch

/-! ## Meanings -/

def execTspawn (x : Form) (s : State) : Out := issue (.tspawn x) (eachThread tspawnBody) s
def execTcommit (x : Form) (s : State) : Out := issue (.tcommit x) tcommitRun s
def execTrigger (x : Form) (s : State) : Out := issue (.trigger x) triggerRun s
def execTabort (endUnit : Bool) (x : Form) (s : State) : Out := issue (.tabort endUnit x) (tabortRun endUnit) s
def execTseal (x : Form) (s : State) : Out := issue (.tseal x) (eachThread tsealBody) s
def execTstat (x : Form) (s : State) : Out := issue (.tstat x) (eachThread tstatBody) s

end Sys2Proof.Machine
end

