-- ==== Sys2Proof/Machine/Launch.lean ====
section
/-! DEFINITION. Firings, launches, placement, fetched work, cancels, counters and budgets, with their events; majors 0x76 and
0x77 (13_launch_schedule R343 to R373), and the answer of a home to a read (09_memory R216, 12_tasks_grades R339, R340). -/

namespace Sys2Proof.Machine

/-! ## Device-side launch (R365) -/

/-- Live device-side launches of a context. -/
def State.deviceLaunches (s : State) (ctx : Nat) : Nat := (s.work.launches.filter fun l => l.ctx == ctx && l.deviceSide && !l.ended).length

/-- A launch from the 128 bytes of a descriptor: the identifier or the error (R365). -/
def State.launchFrom (s : State) (u : RUnit) (b : List Byte) : Nat × State :=
  let id := BitVec.ofNat 32 (64 * 2 ^ 25 + (s.work.devCount + 1) % 2 ^ 17 * 256)
  let limit := match s.launch? u.launch with | some l => l.limit | none => 15
  let l := s.newLaunch u id (some b) limit true
  if s.refuses l then (0xFFFFFFFF, s)
  else if 256 ≤ s.deviceLaunches u.ctx then (0xFFFFFFFE, s)
  else
    let s : State := { s with work := { s.work with devCount := s.work.devCount + 1, launches := s.work.launches ++ [{ l with state := .started, startedAt := s.clk.now }] } }
    (id.toNat, s)

/-- The home's answer to the read of a launch (R365). -/
def State.launchReply (s : State) (x : Txn) (pa : Nat) : State :=
  match s.unit? x.tid.uid with
  | none => s.dropTxn x.id
  | some u =>
    let q := s.launchFrom u (s.viewGlobal x.tid.uid x.va pa 128)
    ((((q.2.fill x.id 1 q.1 x.dests).unhold x).dropTxn x.id).settleLevels).touch

/-- launch (R362, R365): the reads of a U = 0 bundle are made, and start their launches, in the order of its threads. -/
def launchBody (v : View) : Body := fun s0 s t rs act =>
  match s.unit? t.uid with
  | none => .done s
  | some u =>
    let ea := v.srcA s0 t act
    match s.accessBad t.uid u.ctx .global ea 128 with
    | some b => b.res ea
    | none =>
      sealed s t fun s =>
      released s t (gradeAccess .release) <|
      .done (s.startTxn u t (s0.thread t).pc { kind := .launch, ac := gradeAccess .release, va := ea, size := 128, noSig := true, entry := false, hold := true } v.x.d.toNat 1 rs)

/-- LOAD_DATA_REPLY: the home answers a load, a grade read or check, or the read of a descriptor (R216, R217, R339, R340,
R365). -/
def execLoadDataReply (id : Nat) (unc : Bool) (s : State) : Out :=
  match s.txn? id with
  | none => .next s
  | some x =>
    let other := fun (k : Nat → State) => match x.phase, x.pa with
      | .accepted, some pa => if s.lineBusy x || !s.first x then .next s else if unc then .next (s.uncorrectable x) else .next (k pa)
      | _, _ => .next s
    match x.kind with
    | .load .. => .next (s.loadReply x unc)
    | .gread peek => other fun pa => s.greadReply x pa peek
    | .gpub g _ => if s.speculates x.tid.uid then other fun pa => s.gpubReply x pa g else .next s
    | .launch => if s.txns.any fun y => (y.kind matches .launch) && y.tid.uid == x.tid.uid && y.pc == x.pc && decide (y.id < id) then .next s
      else other fun pa => s.launchReply x pa
    | .store _ | .atomic .. | .cas .. | .lrun .. | .waitv .. | .gwait .. | .rst _ | .ratom .. => .next s

/-! ## Fetching work (R366 to R368) -/

def wfetchBody (v : View) : Body := fun s0 s t _ act =>
  match s.unit? t.uid with
  | none => .done s
  | some u =>
    let m := v.srcA s0 t act
    match s.blockBad t.uid m 16 16 with
    | some b => b.res m
    | none =>
      sealed s t fun s =>
      match s.storeLocal t.uid (m + 12) (leBytes 4 0) .thr t with
      | none => .wait .sealing (s.beginCommit t.uid .seal)
      | some s =>
        let (id, s) := s.newId
        .done ((State.touch { s with work := { s.work with fills := s.work.fills ++ [{ id, tid := t, addr := m, launch := BitVec.ofNat 32 (v.srcB s0 t act) }] } }).act u.ctx)

/-- What the graph engine answers to a wfetch: coordinates, flag, and the unit withdrawn (R367). -/
def State.fetched (s : State) (u : RUnit) (id : BitVec 32) : List Nat × Nat × Option Nat :=
  let own := (s.launch? u.launch).bind (·.firing)
  match s.launch? id with
  | none => ([0, 0, 0], 3, none)
  | some l =>
    if l.ctx ≠ u.ctx ∨ l.firing ≠ own ∨ own.isNone then ([0, 0, 0], 3, none)
    else if l.ended ∨ l.state = .cancelled ∨ l.next = l.desc.total then ([0xFFFFFFFF, 0xFFFFFFFF, 0xFFFFFFFF], 2, none)
    else
      let i := l.next
      let d := l.desc
      ([i % d.gridx, i / d.gridx % d.gridy, i / (d.gridx * d.gridy)], 1, some i)

/-- WFETCH_FILL: the engine writes the mailbox, the flag last (R310, R367). -/
def execWfetchFill (id : Nat) (s : State) : Out :=
  match s.work.fills.find? (·.id == id) with
  | none => .next s
  | some f =>
    let gone : State := { s with work := { s.work with fills := s.work.fills.filter fun (q : Fill) => q.id != id } }
    match s.unit? f.tid.uid with
    | none => .next gone
    | some u =>
      let q := s.fetched u f.launch
      let take := fun (s : State) => match q.2.2 with
        | none => s
        | some i => (s.mapLaunch f.launch fun l => { l.mapRec i (fun (r : UnitRec) => { r with at_ := .withdrawn u.uid }) with next := l.next + 1 }).mapUnit u.uid fun u => { u with withdrawn := u.withdrawn ++ [(f.launch, i)] }
      match gone.engineWrite u.ctx .thr f.tid .localMem f.addr (q.1.flatMap (leBytes 4) ++ leBytes 4 q.2.1) with
      | .done s => .next ((take s).act u.ctx).touch
      | .failed _ => .next (take gone).touch
      | .overflow full => .next (s.sealFor u.uid full)
      | .later => .next s

/-! ## cancel, ccount, progress, budget (R363, R369 to R371) -/

def cancelBody (level : Level) (v : View) : Body := fun s0 s t rs act =>
  match s.unit? t.uid with
  | none => .done s
  | some u =>
    sealed s t fun s =>
    let operand := v.srcB s0 t act
    let live := s.levelLive level u.ctx operand
    let s := rs.foldl (fun s q => s.mapThread q (v.writeD (boolNat !live))) s
    .done (if live then s.cancelLevel level u.ctx operand else s)

/-- The counter of a level (R353, R371). -/
def State.levelCount (s : State) (level : Level) (ctx operand : Nat) : Nat :=
  match level with
  | .launch => (match s.coveredLaunches .launch ctx operand with | l :: _ => if l.ended then 0 else l.counter | [] => 0)
  | .graph => (s.covered .graph ctx operand).length
  | .phase => s.phaseCount ctx (operand % 256)
  | .job => (s.work.launches.filter fun l => l.ctx == ctx && !l.ended).length

def ccountBody (level : Level) (v : View) : Body := fun s0 s t rs act =>
  match s.unit? t.uid with
  | none => .done s
  | some u =>
    let n := s.levelCount level u.ctx (v.srcB s0 t act)
    statusTo v (if n = 0 then rs.foldl (fun s r => s.acquireAll r) s else s) rs n

def progressBody (v : View) : Body := fun s0 s t _ act =>
  .done (s.mapUnit t.uid fun u => { u with progress := some (v.srcA s0 t act % 65536) })

/-- The counter of a budget (R369). -/
def Budget.count (now : Nat) : Budget → Nat
  | .disarmed => 0
  | .running e => e - now
  | .paused l => l

def budgetBody (v : View) : Body := fun s0 s t rs act =>
  let n := v.srcA s0 t act
  let old := (s.crew t.uid t.crew).budget.count s.clk.now
  let s := s.mapCrew t.uid t.crew fun c => { c with budget := if n = 0 then .disarmed else .running (s.clk.now + n) }
  statusTo v s rs old

/-- BUDGET_OVERRUN: the counter of a crew reaches 0 (R369). -/
def execBudgetOverrun (uid crew : Nat) (s : State) : Out :=
  match s.unit? uid with
  | none => .next s
  | some u =>
    let c := u.crew crew
    match c.budget with
    | .running e =>
      if !u.active || c.frozen || decide (s.clk.now < e) then .next s
      else
        let s := s.mapCrew uid crew fun c => { c with budget := .disarmed }
        let lanes := (List.range 32).filter fun l => (c.thread l).live
        .next (if lanes = [] then s.touch else s.takeTrap uid crew { cause := 6, lanes := lanes.map fun l => (l, 0) } false)
    | .disarmed | .paused _ => .next s

/-! ## Graph tables and firings (R348 to R352) -/

/-- An edge of a graph table. -/
structure Edge where
  src : Nat
  dst : Nat
  graded : Bool
  thr : Nat
  addr : Nat
  deriving DecidableEq, Repr

/-- A binding of a graph table. -/
structure Binding where
  param : Nat
  launch : Nat
  fld : Nat
  deriving DecidableEq, Repr

/-- A graph table as the engine reads it. -/
structure GraphTable where
  nlaunch : Nat
  depth : Nat
  doff : Nat
  edges : List Edge
  bindings : List Binding
  deriving DecidableEq, Repr

/-- Nodes that remain when those without an edge from a remaining one are taken away, again and again; none when acyclic. -/
def cycleNodes (es : List Edge) : Nat → List Nat → List Nat
  | 0, ns => ns
  | k + 1, ns => cycleNodes es k (ns.filter fun n => es.any fun e => e.dst == n && ns.contains e.src)

/-- Consecutive pieces of n bytes. -/
def pieces (n : Nat) : Nat → List Byte → List (List Byte)
  | 0, _ => []
  | k + 1, b => b.take n :: pieces n k (b.drop n)

def edgeOk (n : Nat) (b : List Byte) : Bool :=
  let kind := field b 2 1
  let g := field b 3 1
  let r := field b 8 8
  decide (field b 0 1 < n) && decide (field b 1 1 < n) && field b 4 4 == 0 &&
  (if kind = 0 then g == 0 && r == 0 else kind == 1 && decide (1 ≤ g) && decide (g ≤ 3) && r % 64 == 0)

def bindingOk (n : Nat) (b : List Byte) : Bool :=
  decide (field b 0 1 < 64) && decide (field b 1 1 < n) && decide (field b 2 1 < 4) && field b 3 1 == 0

/-- The graph table at an address of a context; none when it cannot be read or breaks R348. -/
def State.readGraph (s : State) (ctx gtab : Nat) : Option GraphTable :=
  match s.readBlock ctx gtab 32 with
  | .error _ => none
  | .ok h =>
    let n := field h 0 1
    let eoff := field h 0x0C 4
    let boff := field h 0x10 4
    if n = 0 ∨ field h 1 1 = 0 ∨ 15 < field h 1 1 ∨ 256 < field h 4 2 ∨ field h 6 2 ≠ 0 ∨ field h 8 4 % 128 ≠ 0 ∨ eoff % 16 ≠ 0 ∨ boff % 4 ≠ 0 ∨ (h.drop 0x14).any (· != 0) then none
    else
      match s.readBlock ctx (gtab + eoff) (16 * field h 2 2), s.readBlock ctx (gtab + boff) (4 * field h 4 2) with
      | .ok eb, .ok bb =>
        let es := pieces 16 (field h 2 2) eb
        let bs := pieces 4 (field h 4 2) bb
        let edges := es.map fun b => ({ src := field b 0 1, dst := field b 1 1, graded := field b 2 1 == 1, thr := field b 3 1, addr := field b 8 8 } : Edge)
        let binds := bs.map fun b => ({ param := field b 0 1, launch := field b 1 1, fld := field b 2 1 } : Binding)
        if es.all (edgeOk n) && bs.all (bindingOk n) && cycleNodes edges n (List.range n) == [] &&
            (binds.map fun b => (b.launch, b.fld)).eraseDups.length == binds.length
        then some { nlaunch := n, depth := field h 1 1, doff := field h 8 4, edges, bindings := binds }
        else none
      | _, _ => none

/-- A binding applied to a descriptor (R351). -/
def Desc.bind (d : Desc) (b : Binding) (p : DWord) : Desc :=
  let x := p.toNat % 2 ^ 32
  match b.fld with
  | 0 => { d with gridx := x }
  | 1 => { d with gridy := x }
  | 2 => { d with gridz := x }
  | _ => { d with args := p.toNat }

/-- R351: a bound args value that refuses the firing. -/
def bindingBad (b : Binding) (p : DWord) : Bool := b.fld == 3 && p != 0 && (p.toNat % 128 != 0 || decide (2 ^ 57 ≤ p.toNat))

/-- The identifier of launch k of a firing (R343). -/
def launchId (slot num k : Nat) : BitVec 32 := BitVec.ofNat 32 (slot * 2 ^ 25 + num % 2 ^ 17 * 256 + k)

/-- Launch k of a firing, with its descriptor bound (R351, R352). -/
def State.launchOf (s : State) (f : Firing) (g : GraphTable) (k : Nat) : Launch :=
  let bs := match s.readBlock f.ctx (f.gtab + g.doff + 128 * k) 128 with | .ok b => some b | .error _ => none
  let b := bs.getD (List.replicate 128 0)
  let d := (g.bindings.filter (·.launch == k)).foldl (fun d b => d.bind b (f.params.getD b.param 0)) (descOf b)
  let into := g.edges.filter (·.dst == k)
  let src := fun (e : Edge) => launchId f.slot f.num e.src
  { Launch.fresh (launchId f.slot f.num k) f.ctx d (bs.isNone || d.outside b) g.depth (some (f.slot, f.num)) (some f.tag) with
    preds := (into.filter (!·.graded)).map src, deps := into.map src }

/-- FIRING_START: the oldest firing of a slot starts, or is refused (R350 to R352). The grade engine
knows every record that an edge names (R336); a consumer is registered on those that can be read and are valid (log 30). -/
def execFiringStart (slot : Nat) (s : State) : Out :=
  match s.work.firings.find? (·.slot == slot) with
  | none => .next s
  | some f =>
    if f.started then .next s
    else
      match s.readGraph f.ctx f.gtab with
      | none => .next (s.closeFiring f true).settleLevels
      | some g =>
        if g.bindings.any fun b => bindingBad b (f.params.getD b.param 0) then .next (s.closeFiring f true).settleLevels
        else
          let ls := (List.range g.nlaunch).map (s.launchOf f g)
          let graded := g.edges.filter (·.graded)
          let s : State := { s with work := { s.work with
            firings := s.work.firings.map (fun (q : Firing) => if q = f then { q with started := true } else q),
            launches := s.work.launches ++ ls } }
          let failing := fun (e : Edge) => match s.translate f.ctx e.addr false false with
            | .error _ => true
            | .ok l => s.recordInvalid (l.addr e.addr)
          let good := graded.filter (!failing ·)
          let s := graded.foldl (fun s e => s.know f.ctx e.addr) s
          let regs := good.map fun e =>
            let now := s.inputNow f.ctx e.addr
            ({ launch := launchId slot f.num e.dst, ctx := f.ctx, addr := e.addr, thr := e.thr, state := now.1, dseq := now.2 } : Registration)
          let s : State := { s with grades := { s.grades with regs := s.grades.regs ++ regs } }
          let bad := (graded.filter failing).map fun e => launchId slot f.num e.dst
          let s := bad.eraseDups.foldl (fun s id => s.refuseLaunch id) s
          let s := (ls.filter fun l => l.deps.isEmpty).foldl (fun s l => s.startLaunch l.id) s
          .next (s.settleLevels).touch

/-- REPLAY_WRITE (R350). -/
def execReplayWrite (slot : Nat) (value : DWord) (s : State) : Out :=
  let g := s.gslot slot
  let live := (s.work.firings.filter (·.slot == slot)).length
  if 4 ≤ live ∨ 256 ≤ value.toNat ∨ g.bound.getLsbD 9 = false ∨ 64 ≤ slot then .next (if 64 ≤ slot then s else s.mapGslot slot fun g => { g with dropped := true })
  else
    let ctx := bits g.bound.toNat 8 0
    let tag := value.toNat
    let f : Firing := { slot, num := g.replays + 1, ctx, tag, gtab := g.gtab.toNat, params := g.params, started := false, cancelled := false }
    let s := s.mapGslot slot fun g => { g with replays := g.replays + 1 }
    let s : State := { s with work := { s.work with firings := s.work.firings ++ [f] } }
    .next (s.mapCtx ctx fun c => if c.phases.any (·.1 == tag) then c else { c with phases := c.phases ++ [(tag, LevelAcc.zero)] }).touch

/-- A CANCEL write of a graph slot acts as the cancel instruction does, in the context to which the slot is bound (R349,
R363). -/
def State.cancelWrite (s : State) (slot code : Nat) (level : Level) (value operand : Nat) : State :=
  let g := s.gslot slot
  let ctx := bits g.bound.toNat 8 0
  if value % 4 = code ∧ g.bound.getLsbD 9 ∧ s.levelLive level ctx operand then s.cancelLevel level ctx operand else s

def execCancelLaunchWrite (slot : Nat) (value : DWord) (s : State) : Out := .next (s.cancelWrite slot 0 .launch value.toNat (value.toNat / 2 ^ 32))
def execCancelGraphWrite (slot : Nat) (value : DWord) (s : State) : Out := .next (s.cancelWrite slot 1 .graph value.toNat slot)
def execCancelPhaseWrite (slot : Nat) (value : DWord) (s : State) : Out := .next (s.cancelWrite slot 2 .phase value.toNat (bits value.toNat 15 8))
def execCancelJobWrite (slot : Nat) (value : DWord) (s : State) : Out := .next (s.cancelWrite slot 3 .job value.toNat 0)

/-! ## Starts (R328, R330, R352, R356) -/

/-- The registrations of a launch. -/
def State.regsOf (s : State) (id : BitVec 32) : List Registration := s.grades.regs.filter (·.launch == id)

/-- LAUNCH_START: a launch without graded inputs starts when its edges hold (R352, R356). -/
def execLaunchStart (launch : Nat) (s : State) : Out :=
  match s.launch? (BitVec.ofNat 32 launch) with
  | none => .next s
  | some l =>
    if l.state = .waiting ∧ s.regsOf l.id = [] ∧ s.edgesHold l then .next (s.startLaunch l.id).settleLevels else .next s

/-- Every registered input of a launch holds its threshold; all: every one is final. -/
def State.inputsHold (s : State) (id : BitVec 32) (all : Bool) : Bool :=
  (s.regsOf id).all fun g => decide ((if all then 3 else g.thr) ≤ (s.inputNow g.ctx g.addr).1 % 4)

/-- A unit whose re-fire may start now: its index and depth (R330, R333). -/
def State.refirable (s : State) (l : Launch) : Option (UnitRec × Nat) :=
  l.units.findSome? fun r =>
    match r.refire, r.at_ with
    | some d, .ended | some d, .unplaced =>
      if r.held then (if s.inputsHold l.id true then some (r, 0) else none)
      else if s.inputsHold l.id false then some (r, d) else none
    | _, _ => none

/-- CONSUMER_FIRE: a waiting consumer fires when its edges and thresholds hold; later, an amended unit fires again (R328, R330,
R333). -/
def execConsumerFire (launch : Nat) (s : State) : Out :=
  match s.launch? (BitVec.ofNat 32 launch) with
  | none => .next s
  | some l =>
    match l.state with
    | .waiting => if s.regsOf l.id ≠ [] ∧ s.edgesHold l ∧ s.inputsHold l.id false then .next (s.startLaunch l.id).settleLevels else .next s
    | .started | .complete =>
      (match s.refirable l with
      | none => .next s
      | some (r, d) =>
        .next (s.mapLaunch l.id fun l =>
          { l.mapRec r.index (fun (r : UnitRec) => { r with at_ := .unplaced, refire := none, held := false, again := true, depth := d, handlers := [], restarts := 0, sealFirst := false }) with
            state := .started, counter := if r.at_ = .ended then l.counter + 1 else l.counter }).touch)
    | .cancelled | .refused => .next s

/-! ## Placement (R347, R357 to R359) -/

/-- The unit that a launch offers: one that is offered again, else the next index (R357, R427). -/
def Launch.candidate (l : Launch) : Option Nat :=
  let again := (l.units.filter fun r => r.again && r.at_ == .unplaced).map (·.index)
  match again with
  | i :: is => some (is.foldl min i)
  | [] => if l.next < l.desc.total then some l.next else none

/-- The core on which the unit that a launch offers fits now. -/
def State.placeable (s : State) (l : Launch) : Option (Nat × Nat) :=
  if l.state != .started || s.host.noPlace then none
  else
    match l.candidate with
    | none => none
    | some i => if s.slotFree l i then (s.coreFor l.desc i).map fun c => (i, c) else none

/-- A launch comes before another in the order of offers (R357). -/
def Launch.before (a b : Launch) : Bool := decide (b.desc.prio < a.desc.prio) || (a.desc.prio == b.desc.prio && decide (a.startedAt < b.startedAt))

/-- A unit as placement makes it (R91, R347, R359); one that a flush has returned to unplaced has its handler contexts and its counts
(R419, R427). Its threads start with what the context's releases have made known (R270). -/
def State.newUnit (s : State) (l : Launch) (index core uid : Nat) (loc : List Host.Cell) : RUnit :=
  let d := l.desc
  let r := l.unitRec index
  let qs := quartersFor ((List.range 4).map (s.quarterLoad core)) d.crews
  let crew := fun (k q : Nat) =>
    let c := Crew.fresh d.regs (BitVec.ofNat 64 d.entry) q s.clk.now s.clk.stepNo
    let h := r.handlers.getD k (.fresh 64 0 false s.clk.now s.clk.stepNo)
    { c with
      budget := (r.budget.getD k .disarmed).go s.clk.now
      threads := c.threads.map fun th => th.learn (s.ctx l.ctx).marks
      handler := h.learn (s.ctx l.ctx).marks }
  { uid, ctx := l.ctx, core, slot := s.freeSlot core, launch := l.id, index, desc := d, crews := (List.range d.crews).map fun k => crew k (qs.getD k 0), loc, granules := List.replicate (d.loc / 4096) { holder := .own, cnt := 0 }, borrowed := [], futures := [], gens := [], accs := List.replicate d.accs .fresh, bslots := List.replicate d.bslots .fresh, wptr := List.replicate 8 0, tally := .zero, progress := none, triggered := false, withdrawn := r.withdrawn, task := { Task.fresh d.atomic with runs := r.runs, depth := r.depth, restarts := r.restarts, sealFirst := r.sealFirst, inputs := s.inputsOf l.id }, fate := .running, fault := none, arrayErr := none, placedAt := s.clk.stepNo }

/-- The local memory of a unit at placement, or the reason and address of a copy that fails (R347). -/
def State.localImage (s : State) (ctx : Nat) (d : Desc) : Except (Nat × Nat) (List Host.Cell) :=
  match s.readBlock ctx d.limage (if d.limage = 0 then 0 else d.limsize), s.readBlock ctx d.args (if d.args = 0 ∨ d.loc < 4096 then 0 else 128) with
  | .error r, _ => .error (r, d.limage)
  | .ok _, .error r => .error (r, d.args)
  | .ok a, .ok b => .ok (cellsPut (cellsPut [] 0 a) 0 b)

/-- A unit is placed on a core, and one that a flush has stopped in its fourth attempt seals first (R315, R427); when its local memory cannot be filled it ends by the memory fault before it runs (R347). -/
def State.place (s : State) (l : Launch) (index core : Nat) : State :=
  let (uid, s) := s.newId
  let image := s.localImage l.ctx l.desc
  let u := s.newUnit l index core uid (match image with | .ok c => c | .error _ => [])
  let s : State := { s with units := s.units ++ [u], work := { s.work with waiting := s.work.waiting.filter fun w => !(w.1 == l.id && w.2.1 == index) } }
  let s := s.mapLaunch l.id fun q =>
    { q.mapRec index (fun (r : UnitRec) => { r with at_ := .resident uid, again := false, refire := none, held := false, budget := [], withdrawn := [], handlers := [], restarts := 0, sealFirst := false }) with next := max q.next (index + 1) }
  let s := (s.act l.ctx).touch
  match image with
  | .ok _ => if u.task.sealFirst then s.beginCommit uid .seal else s
  | .error e => s.takeFault ⟨uid, 0, 0⟩ { cause := 0x20, reason := e.1, addr := e.2 } 0 false

/-- UNIT_PLACEMENT: a launch offers its unit; it is placed when it fits and no launch before it has a unit that fits, else it
waits, offered, from the first time that it is (R357, R358, R424). -/
def execUnitPlacement (launch index : Nat) (s : State) : Out :=
  match s.launch? (BitVec.ofNat 32 launch) with
  | none => .next s
  | some l =>
    if l.candidate ≠ some index ∨ l.state ≠ .started ∨ s.host.noPlace then .next s
    else if s.work.launches.any fun q => q.before l && (s.placeable q).isSome then .next s
    else
      match s.placeable l with
      | some (_, core) => .next (s.place l index core)
      | none =>
        if s.work.waiting.any fun w => w.1 == l.id && w.2.1 == index then .next s
        else
          let s := s.mapLaunch l.id fun q => { q.mapRec index (fun (r : UnitRec) => { r with again := true }) with next := max q.next (index + 1) }
          .next (State.touch { s with work := { s.work with waiting := s.work.waiting ++ [(l.id, index, s.clk.now)] } })

/-! ## The deadlock watchdog (R372, R373) -/

/-- A thread waits externally (R372). -/
def Thread.external (th : Thread) : Bool :=
  th.live && (th.stop.isSome || (match th.wait with | some (.line true) | some (.future true _) | some .fabric => true | _ => false))

/-- DEADLOCK_WATCHDOG: the timer of a context has reached its timeout (R373). -/
def execDeadlockWatchdog (ctx : Nat) (s : State) : Out :=
  let timeout := 1024 * ((s.ctx ctx).timers.toNat % 65536)
  let us := s.units.filter fun u => u.ctx == ctx && !u.isSystem && u.inRun && u.fault.isNone
  let ext := us.any fun u => u.crews.any fun c => (c.handler :: c.threads).any Thread.external
  if timeout = 0 ∨ us = [] ∨ ext ∨ s.clk.now < (assocGet s.clk.acts ctx).getD 0 + timeout then .next s
  else
    .next ((us.foldl (fun s u =>
      let t := (u.liveThreads.map (·.1)).headD ⟨u.uid, 0, 0⟩
      s.raiseFault t { cause := 0x2B } (2 ^ t.lane) false) s).act ctx).touch

/-! ## Meanings -/

def execLaunch (x : Form) (s : State) : Out := issue (.launch x) (eachThread launchBody) s
def execWfetch (x : Form) (s : State) : Out := issue (.wfetch x) (eachThread wfetchBody) s
def execCancel (level : Level) (x : Form) (s : State) : Out := issue (.cancel level x) (eachThread (cancelBody level)) s
def execCcount (level : Level) (x : Form) (s : State) : Out := issue (.ccount level x) (eachThread (ccountBody level)) s
def execProgress (x : Form) (s : State) : Out := issue (.progress x) (eachThread progressBody) s
def execBudget (x : Form) (s : State) : Out := issue (.budget x) (eachThread budgetBody) s

end Sys2Proof.Machine
end

