-- ==== Sys2Proof/Machine/Draft.lean ====
section
/-! DEFINITION. The draft engines and the token rings, major 0x7E (17_generation_host R461 to R470). -/

namespace Sys2Proof.Machine

/-! ## Sequences and their index (R461, R464) -/

/-- A sequence word names a die and a number (R461). -/
def seqDie (w : Nat) : Nat := bits w 26 24
def seqNum (w : Nat) : Nat := bits w 23 0

def State.seq? (s : State) (ctx w : Nat) : Option DSeq := s.draft.find? fun d => d.die == seqDie w && d.ctx == ctx && d.num == seqNum w

/-- The stamp of an index entry: the number that its operation drew when it executed, then its place within it. -/
def stamp (id i : Nat) : Nat := id * 1024 + i

/-- Tokens appended in order: each k-gram of 1 to 7 that ends at one is indexed, and tokens older than the last 16,384 leave the
history (R464); the entries of their k-grams match no longer, and stay in the index until they are replaced. Index entries are
end position, length and stamp. -/
def DSeq.append (d : DSeq) (id : Nat) : Nat → List Nat → DSeq
  | _, [] => d
  | i, t :: ts =>
    let p := d.base + d.tokens.length
    let n := d.tokens.length + 1
    let new := ((List.range 7).filter fun k => decide (k + 1 ≤ n)).map fun k => (p, k + 1, stamp id (i * 7 + k))
    let toks := d.tokens ++ [t]
    let drop := toks.length - 16384
    DSeq.append { d with tokens := toks.drop drop, base := d.base + drop, idx := d.idx ++ new } id (i + 1) ts

/-- Entries of a die's index. -/
def State.indexSize (s : State) (die : Nat) : Nat := (s.draft.filter (·.die == die)).foldl (fun n d => n + d.idx.length) 0

/-- The oldest stamp of a die's index. -/
def State.oldestStamp (s : State) (die : Nat) : Option Nat :=
  ((s.draft.filter (·.die == die)).flatMap fun d => d.idx.map fun e => e.2.2).foldl (fun m x => match m with | none => some x | some y => some (min x y)) none

/-- Entries beyond the capacity replace the least recently added ones of any sequence (R464). -/
def State.trimIndex (s : State) (die : Nat) : Nat → State
  | 0 => s
  | n + 1 =>
    match s.oldestStamp die with
    | none => s
    | some k => State.trimIndex { s with draft := s.draft.map fun (d : DSeq) => if d.die = die then { d with idx := d.idx.filter fun e => e.2.2 != k } else d } die n

/-- A draft of a sequence replaced in the engine. -/
def State.putSeq (s : State) (d : DSeq) : State :=
  { s with draft := d :: s.draft.filter fun (q : DSeq) => !(q.die == d.die && q.ctx == d.ctx && q.num == d.num) }

/-! ## Proposals (R465) -/

/-- The k-gram that ends at position j of a history is its last k-gram, and is indexed. -/
def DSeq.matchesAt (d : DSeq) (k j : Nat) : Bool :=
  d.idx.any (fun e => e.1 == d.base + j && e.2.1 == k) &&
    (d.tokens.drop (j + 1 - k)).take k == d.tokens.drop (d.tokens.length - k)

/-- The largest position below L - 1 where the last k-gram occurred. -/
def DSeq.latest (d : DSeq) (k : Nat) : Option Nat :=
  let l := d.tokens.length
  if l < k then none else ((List.range (l - 1)).reverse.filter fun j => decide (k - 1 ≤ j)).find? fun j => d.matchesAt k j

/-- The proposal of up to m tokens, and the k by which it was found (R465); k is 0 when nothing was found. -/
def DSeq.propose (d : DSeq) (m : Nat) : List Nat × Nat :=
  match [7, 6, 5, 4, 3, 2, 1].findSome? fun k => (d.latest k).map fun j => (k, j) with
  | some (k, j) => ((d.tokens.drop (j + 1)).take (min m (d.tokens.length - 1 - j)), k)
  | none => ([], 0)

/-! ## dprop, dapp, dclr (R463 to R467) -/

/-- A sequence word with a nonzero bit in [31:27] is refused (R467). -/
def seqBad (w : Nat) : Bool := bits w 31 27 != 0

def dpropBody (limit : Nat) (v : View) : Body := fun s0 s t rs act =>
  let w := v.srcA s0 t act
  let b := v.srcB s0 t act
  match s.blockBad t.uid b 64 64 with
  | some q => q.res b
  | none => acceptOp s t v.x.d.toNat rs { kind := .dprop limit, args := [w, b], status := if seqBad w then some (statusWord 0xA0 0) else none }

/-- The check of the tokens of a dapp at issue (R463). -/
def State.tokensBad (s : State) (uid a count : Nat) : Option Bad :=
  if a % 4 ≠ 0 then some (.mem rMisaligned)
  else match s.unit? uid with
    | none => some (.mem rRange)
    | some u => if u.desc.loc < a + 4 * count then some (.mem rRange) else if count = 0 then none else s.blockBad uid a (4 * count) 4

def dappBody (v : View) : Body := fun s0 s t rs act =>
  let w := v.srcA s0 t act
  let b := v.srcB s0 t act
  let n := v.srcC s0 t
  match s.tokensBad t.uid b n with
  | some q => q.res b
  | none =>
    sealed s t fun s =>
    let block := if n ≤ 64 then s.loadLocal t.uid b (4 * n) else []
    let bad := seqBad w || n == 0 || decide (64 < n) || (wordsOf block).any fun x => decide (2 ^ 24 ≤ x)
    acceptOp s t v.x.d.toNat rs { kind := .dapp, block, args := [w], status := if bad then some (statusWord 0xA0 0) else none }

def dclrBody (v : View) : Body := fun s0 s t rs act =>
  let w := v.srcA s0 t act
  sealed s t fun s =>
  acceptOp s t v.x.d.toNat rs { kind := .dclr, args := [w], status := if seqBad w then some (statusWord 0xA0 0) else none }

/-! ## DRAFT_OP_EXECUTE -/

def OpKind.draft : OpKind → Bool
  | .dprop _ | .dapp | .dclr => true
  | .mma _ | .bload | .mdrain | .mzero | .copy _ | .pft | .rld | .rld3 | .mcst | .ctxsave | .ctxload => false

/-- An operation is the first accepted of those that wait on its sequence (R463). -/
def State.firstOnSeq (s : State) (o : Op) : Bool :=
  !s.ops.any fun q => q.kind.draft && q.ctx == o.ctx && q.args.headD 0 % 2 ^ 27 == o.args.headD 0 % 2 ^ 27 && decide (q.id < o.id)

/-- The output of a proposal: 16 words. -/
def proposalBytes (ts : List Nat) : List Byte := (ts ++ List.replicate (16 - ts.length) 0).flatMap (leBytes 4)

/-- DRAFT_OP_EXECUTE: the engine runs an operation as one step, in the order of its sequence (R463 to R467). -/
def execDraftOpExecute (op : Nat) (s : State) : Out :=
  match s.op? op with
  | none => .next s
  | some o =>
    let w := o.args.headD 0
    if !o.kind.draft || !s.firstOnSeq o then .next s
    else if o.cancelled then .next (s.finishOp o (statusWord 0x01 0)).touch
    else
      match o.status, o.kind, s.seq? o.ctx w with
      | some st, _, _ => .next (s.finishOp o st.toNat).touch
      | none, .dprop limit, some d =>
        let r := d.propose limit
        (match s.engineWrite o.ctx .draft o.tid .localMem (o.args.getD 1 0) (proposalBytes r.1) with
        | .done s => .next (s.finishOp o (statusWord 0 (r.1.length + 256 * r.2))).touch
        | .failed _ => .next (s.finishOp o (statusWord 0 (r.1.length + 256 * r.2))).touch
        | .overflow full => .next (s.sealFor o.tid.uid full)
        | .later => .next s)
      | none, .dapp, some d =>
        let (k, s) := s.newId
        let d := d.append k 0 (wordsOf o.block)
        let s := s.putSeq d
        .next ((s.trimIndex d.die (s.indexSize d.die - 2097152)).finishOp o (statusWord 0 d.tokens.length)).touch
      | none, .dapp, none =>
        if 1024 ≤ (s.draft.filter (·.die == seqDie w)).length then .next (s.finishOp o (statusWord 0xA2 0)).touch
        else
          let (k, s) := s.newId
          let d := ({ die := seqDie w, ctx := o.ctx, num := seqNum w, base := 0, tokens := [], idx := [] } : DSeq).append k 0 (wordsOf o.block)
          let s := s.putSeq d
          .next ((s.trimIndex d.die (s.indexSize d.die - 2097152)).finishOp o (statusWord 0 d.tokens.length)).touch
      | none, .dclr, some d =>
        .next (State.finishOp { s with draft := s.draft.filter (· != d) } o 0).touch
      | none, _, _ => .next (s.finishOp o (statusWord 0xA1 0)).touch

/-! ## rpub (R468, R469) -/

/-- A token-ring descriptor as it stands (R468). -/
structure Ring where
  base : Nat
  nslots : Nat
  bad : Bool
  tail : Nat
  head : Nat
  deriving DecidableEq, Repr

def ringOf (b : List Byte) : Ring :=
  let n := field b 8 4
  { base := field b 0 8, nslots := n, tail := field b 0x10 8, head := field b 0x18 8,
    bad := field b 0x0C 4 != 0 || (b.drop 0x20).any (· != 0) || !((List.range 25).any fun k => decide (7 ≤ k) && n == 2 ^ k) }

/-- A store of an rpub: its address and bytes. -/
abbrev RingStore := Nat × List Byte

/-- Stores performed in order at their homes; the first that cannot be, with its reason (R469). -/
def State.ringStores (s : State) (ctx : Nat) (t : Tid) : List RingStore → State × Option (Nat × Nat)
  | [] => (s, none)
  | (a, bs) :: more =>
    match s.translate ctx a true false with
    | .error r => (s, some (r, a))
    | .ok l => State.ringStores (s.performAt ctx l a bs .thr (some t)) ctx t more

/-- The publication of a step at the ring's home; the release comes before its stores, whose order is kept (R469). -/
def ringPublish (v : View) (s : State) (u : RUnit) (t : Tid) (rs : List Tid) (a step n : Nat) (tokens : List Nat) : TRes :=
  match s.readBlock u.ctx a 64 with
  | .error r => memFault r a
  | .ok b =>
    let q := ringOf b
    if q.bad || decide (1024 < n) then statusTo v s rs 3
    else if step ≤ q.tail / 2 ^ 32 then statusTo v s rs 2
    else if q.nslots < (q.tail + (2 ^ 32 - q.head % 2 ^ 32)) % 2 ^ 32 + n then statusTo v s rs 1
    else if s.outstanding t true true false then .wait .accesses s
    else
      reporting s t <|
      let p := q.tail % 2 ^ 32
      let stores := (List.range n).map fun i => (q.base + 4 * ((p + i) % q.nslots), leBytes 4 (tokens.getD i 0))
      match (s.makeKnown t).ringStores u.ctx t (stores ++ [(a + 0x10, leBytes 8 (step * 2 ^ 32 + (p + n) % 2 ^ 32))]) with
      | (s, none) => statusTo v s rs 0
      | (s, some f) => .failed { cause := 0x20, reason := f.1, addr := f.2 } s

def rpubBody (v : View) : Body := fun s0 s t rs act =>
  match s.unit? t.uid with
  | none => .done s
  | some u =>
    let a := v.srcA s0 t act
    let b := v.srcB s0 t act
    match s.blockBad t.uid b 8 16 with
    | some q => q.res b
    | none =>
      let n := leNat (s.loadLocal t.uid b 4)
      let step := leNat (s.loadLocal t.uid (b + 4) 4)
      match (if n ≤ 1024 then s.blockBad t.uid b (8 + 4 * n) 16 else none) with
      | some q => q.res b
      | none =>
        if a % 64 ≠ 0 then memFault rMisaligned a
        else
          sealed s t fun s =>
          afterFinal s t fun s =>
          ringPublish v s u t rs a step n (if n ≤ 1024 then wordsOf (s.loadLocal t.uid (b + 8) (4 * n)) else [])

/-! ## Meanings -/

def execDprop (maxCode : BitVec 4) (x : Form) (s : State) : Out := issue (.dprop maxCode x) (eachThread (dpropBody (16 - maxCode.toNat))) s
def execDapp (x : Form) (s : State) : Out := issue (.dapp x) (eachThread dappBody) s
def execDclr (x : Form) (s : State) : Out := issue (.dclr x) (eachThread dclrBody) s
def execRpub (x : Form) (s : State) : Out := issue (.rpub x) (eachThread rpubBody) s

end Sys2Proof.Machine
end

