-- ==== Sys2Proof/Machine/Fabric.lean ====
section
/-! DEFINITION. Fabric instructions, majors 0x78 to 0x7B, packets and their arrival, landing windows, the death and the return
of peers (14_fabric R374 to R407, R489). -/

namespace Sys2Proof

open Machine

/-! ## Packets (R376) -/

/-- A packet without identities. -/
def Packet.of (kind addr tag len aux : Nat) (flags : BitVec 8) (payload : List Byte) : Packet :=
  { dst := 0, src := 0, dinc := 0, sinc := 0, domain := 0, kind := BitVec.ofNat 8 kind, flags, seq := 0, addr := BitVec.ofNat 64 addr, tag := BitVec.ofNat 32 tag, len := BitVec.ofNat 16 len, aux := BitVec.ofNat 16 aux, payload, req := 0, rinc := 0, win := 0, off := 0, total := 0, plane := 0, auth := [] }

/-- A field of the header that must be zero is not, or a length is out of bounds (R376). -/
def Packet.headerBad (p : Packet) : Bool :=
  decide (8192 ≤ p.dst.toNat) || decide (4096 ≤ p.src.toNat) || decide (32 ≤ p.flags.toNat) || decide (2 ^ 52 ≤ p.addr.toNat) || decide (256 < p.len.toNat)

/-- A field of the payload that must be zero is not (R376). -/
def Packet.payloadBad (p : Packet) : Bool := p.kind == 2 && (field p.payload 3 1 != 0 || decide (8192 ≤ field p.payload 0 2))

/-- A field that must be zero is not, or a length is out of bounds (R376). -/
def Packet.malformed (p : Packet) : Bool := p.headerBad || p.payloadBad

/-- The kinds that R376 assigns. -/
def Packet.knownKind (p : Packet) : Bool := [1, 2, 3, 4, 5, 0x10, 0x11, 0x12, 0x13, 0x14, 0x20, 0x21, 0x22].contains p.kind.toNat

def Packet.toGroup (p : Packet) : Bool := p.dst.getLsbD 12

/-- The stream of numbers that a packet belongs to: its source's to this device, or to a group (R377). -/
def Packet.stream (p : Packet) : Nat := p.src.toNat + 4096 * (if p.toGroup then p.dst.toNat else 0)

/-- The bytes of a header (R376). -/
def Packet.header (p : Packet) : List Byte :=
  leBytes 2 p.dst.toNat ++ leBytes 2 p.src.toNat ++ leBytes 2 p.dinc.toNat ++ leBytes 2 p.sinc.toNat ++ leBytes 2 p.domain.toNat ++
  leBytes 1 p.kind.toNat ++ leBytes 1 p.flags.toNat ++ leBytes 4 p.seq.toNat ++ leBytes 8 p.addr.toNat ++ leBytes 4 p.tag.toNat ++
  leBytes 2 p.len.toNat ++ leBytes 2 p.aux.toNat

/-- The nonce of a packet (R485). -/
def Packet.nonce (p : Packet) : List Byte :=
  leBytes 2 p.src.toNat ++ leBytes 2 p.dst.toNat ++ leBytes 2 p.sinc.toNat ++ leBytes 2 p.dinc.toNat ++ leBytes 4 p.seq.toNat

/-- The die whose system core serves a packet's edge die: E0 has ports 0 to 7 and E1 ports 8 to 15 (R13; log 39). -/
def Packet.die (p : Packet) : Nat := if p.plane.toNat < 8 then 0 else 3

/-- The grade that a packet carries. -/
def Packet.grade (p : Packet) : Grade := if p.flags.getLsbD 1 then gradeOf (bits p.flags.toNat 3 2) else .final

end Sys2Proof

namespace Sys2Proof.Machine

/-! ## Addresses, domains, grades -/

/-- The fabric domain of a context (R374). -/
def Context.domain (c : Context) : Nat := bits c.ctxctl.toNat 47 32

/-- An instruction of the fabric in a context without a domain faults (R374). -/
def inDomain (s : State) (u : RUnit) (addr : Nat) (k : TRes) : TRes := if (s.ctx u.ctx).domain = 0 then memFault rDomain addr else k

/-- Device or group of a fabric address, and the virtual address there. -/
def fabTarget (a : Nat) : Nat := bits a 63 52
def fabVa (a : Nat) : Nat := a % 2 ^ 52

/-- The grade that a run's accesses carry (R389): its ceiling, or final. -/
def RUnit.carries (u : RUnit) : Grade := if u.ceilingFinal then .final else .provisional

/-- The run has graded inputs. -/
def RUnit.graded (u : RUnit) : Bool := !u.task.inputs.isEmpty

/-! ## Sending (R376, R377) -/

def packetFlags (ordered graded last : Bool) (g : Grade) : BitVec 8 :=
  BitVec.ofNat 8 (boolNat ordered + 2 * boolNat graded + 4 * gradeRank g + 16 * boolNat last)

/-- The incarnation of a device as this device knows it; its own it always knows (R374, R381). -/
def State.knownIncarnation (s : State) (x : Nat) : Option Nat :=
  if x = s.fabric.device then some s.fabric.incarnation else assocGet s.fabric.peers x

/-- The context that a domain names. -/
def State.ctxOfDomain (s : State) (d : Nat) : Option Nat :=
  if d = 0 then none else (List.range 512).find? fun c => (s.ctx c).domain == d && (s.ctx c).ctxctl.getLsbD 0

/-- The confidential context that a domain names (R458, R485). -/
def State.confidential (s : State) (d : Nat) : Option Nat := (s.ctxOfDomain d).filter fun c => (s.ctx c).ctxctl.getLsbD 1

/-- A plane is up for a target (R378). -/
def Fabric.planeUp (f : Fabric) (plane target : Nat) : Bool :=
  !f.planesDown.contains (plane, target) && (!f.portsDown.contains plane || f.planesBack.contains (plane, target))

/-- A port's link is in use: it has not gone down, or a target has joined on it again. -/
def Fabric.portUp (f : Fabric) (port : Nat) : Bool := !f.portsDown.contains port || f.planesBack.any (·.1 == port)

/-- A packet of this device with its header's identities filled in and the next number of its target. -/
def State.address (s : State) (dst : Nat) (group : Bool) (domain : Nat) (p : Packet) : Packet :=
  let key := dst + 4096 * boolNat group
  { p with dst := BitVec.ofNat 16 key, src := BitVec.ofNat 16 s.fabric.device, dinc := BitVec.ofNat 16 (if group then 0 else (s.knownIncarnation dst).getD 0), sinc := BitVec.ofNat 16 s.fabric.incarnation, domain := BitVec.ofNat 16 domain, seq := BitVec.ofNat 32 ((assocGet s.fabric.seqs key).getD 0) }

/-- The key under which a confidential context talks with a peer or in a group: the link key derived at the peer's admission; without
one there is no key, and what leaves is sealed under number 0 (R483, R485; log 88). -/
def Context.keyFor (c : Context) (group : Bool) (peer ctx : Nat) : Nat :=
  if group then Config.groupKey ctx peer else (assocGet c.linkKeys peer).getD 0

/-- A packet as it travels: that of a confidential context is ciphered, with its tag (R485). -/
def State.ciphered (s : State) (p : Packet) : Packet :=
  match s.confidential p.domain.toNat with
  | none => p
  | some c =>
    let epoch := (assocGet s.fabric.rekeys p.dst.toNat).getD 0
    let r := Config.gcmSeal (Config.renewedKey ((s.ctx c).keyFor p.toGroup (p.dst.toNat % 4096) c) epoch) p.nonce p.header p.payload
    { p with payload := fitBytes p.payload.length r.1, auth := fitBytes 16 r.2 }

/-- What leaves for a packet: it travels on one of the planes that are up for its target; without one, nothing leaves (R375). -/
def State.wire (s : State) (seg : Nat) (p : Packet) : List Sent :=
  let target := p.dst.toNat % 4096
  let ups := (List.range 16).filter fun k => if p.toGroup then s.fabric.portUp k else s.fabric.planeUp k target
  if ups = [] then []
  else [.packet { s.ciphered p with plane := BitVec.ofNat 4 (ups.getD (Config.planeOf p.dst.toNat p.tag.toNat seg % ups.length) 0) }]

/-- A packet leaves for a target, with the segment number within its transaction. The keys of the pair are renewed before the
number reaches 2^31 (R375, R377, R485). -/
def State.emit (s : State) (dst : Nat) (group : Bool) (domain : Nat) (p : Packet) (seg : Nat := 0) : State :=
  let key := dst + 4096 * boolNat group
  let n := (assocGet s.fabric.seqs key).getD 0
  let rekeys := if (n + 1) % 2 ^ 31 = 0 then assocSet s.fabric.rekeys key ((assocGet s.fabric.rekeys key).getD 0 + 1) else s.fabric.rekeys
  { s with
    outbox := s.outbox ++ s.wire seg (s.address dst group domain p),
    fabric := { s.fabric with seqs := assocSet s.fabric.seqs key ((n + 1) % 2 ^ 32), rekeys } }

/-! ## Failure of a fabric access (R382, R390) -/

/-- A failure reaches the entries of an access; fetching destinations are full again with their previous contents. -/
def State.fabFail (s : State) (x : Txn) (reason : Nat) (unknown : Bool) : State :=
  let s := ((s.refill x.id x.dests).unhold x).dropTxn x.id
  if x.orphan then s.touch
  else
    let f : StoreFail := { txn := x.id, pc := x.pc, addr := x.va, reason, cause := if reason = 0x0B then 0x24 else 0x25, fabric := true, unknown, device := x.target, since := s.clk.now }
    (x.holders.foldl (fun s t => s.mapThread t fun th => { th with fails := th.fails ++ [f] }) s).touch

/-- An earlier rst or ratom of a thread of some meets n bytes of a target and has not been answered. -/
def State.writesEarlier (s : State) (ts : List Tid) (a n before : Nat) : Bool :=
  s.txns.any fun y => y.kind.fabric && decide (y.id < before) && overlaps y.va y.size a n && y.holders.any ts.contains

/-- An earlier access of a thread of some, a read of the fabric included, meets n bytes of a target and has not been answered
(R271, R377). -/
def State.meetsEarlier (s : State) (ts : List Tid) (a n before : Nat) : Bool :=
  s.writesEarlier ts a n before ||
  s.ops.any fun o => ts.contains o.tid && decide (o.id < before) && (o.kind matches .rld | .rld3) && o.status.isNone && overlaps (o.args.headD 0) (o.args.getD 2 0) a n

/-- A packet of the thread of an access that has left before, and has not been acknowledged, meets its bytes (R377). -/
def State.sentBefore (s : State) (x : Txn) : Bool :=
  (s.txns.any fun y => y.id != x.id && y.kind.fabric && (y.phase matches .issued) && overlaps y.va y.size x.va x.size && y.holders.any x.holders.contains) ||
  s.ops.any fun o => x.holders.contains o.tid && o.started && (o.kind matches .rld | .rld3) && o.status.isNone && overlaps (o.args.headD 0) (o.args.getD 2 0) x.va x.size

/-- The packet of an rst or ratom leaves, with the grade that the access carries now. -/
def State.sendAccess (s : State) (x : Txn) (graded : Bool) : State :=
  let ordered := s.sentBefore x
  let dom := (s.ctx x.ctx).domain
  let flags := packetFlags ordered graded true x.grade
  match x.kind with
  | .rst data => s.emit x.target false dom (.of 0x03 (fabVa x.va) x.id x.size 0 flags data)
  | .ratom fn ty v _ =>
    let code := match fn with | .add => 0 | .min => 1 | .max => 2 | .and => 3 | .or => 4 | .xor => 5
    s.emit x.target false dom (.of 0x04 (fabVa x.va) x.id x.size (code + 16 * ty.code) flags (leBytes x.size v))
  | .load .. | .store _ | .atomic .. | .cas .. | .lrun .. | .waitv .. | .gread _ | .gpub .. | .gwait .. | .launch => s

/-- A fabric access is issued: its packet leaves, or its target is dead and it fails (R379, R390). -/
def State.startFabric (s : State) (u : RUnit) (t : Tid) (pc : DWord) (q : Req) (d k : Nat) (rs : List Tid) : State :=
  let id := s.clk.nextId
  let s := s.startTxn u t pc q d k rs
  let target := fabTarget q.va
  let s := s.mapTxn id fun x => { x with target, grade := u.carries }
  match s.txn? id with
  | none => s
  | some x => if s.fabric.dead.contains target then s.fabFail x 0x0B false else s.sendAccess x u.graded

/-! ## rst (R389) -/

def rstBody (ac : Access) (v : View) : Body := fun s0 s t _ act =>
  match s.unit? t.uid with
  | none => .done s
  | some u =>
    let ea := wrap 64 ((v.srcA s0 t act : Int) + toSigned 32 (v.srcB s0 t act))
    let n := v.x.ty.bytes
    inDomain s u ea <|
    if ea % n ≠ 0 then memFault rMisaligned ea
    else
      sealed s t fun s =>
      released s t ac <|
      if s.entryFree t u.core then
        .done (s.startFabric u t (s0.thread t).pc { kind := .rst (leBytes n (v.srcD s0 t)), ac, va := ea, size := n } 0 0 [])
      else .wait .entry s

/-! ## ratom (R391) -/

def atomFnOf : RComb → AtomFn
  | .add => .add
  | .min => .min
  | .max => .max
  | .and => .and
  | .or => .or
  | .xor => .xor

/-- One participant of a ratom: its thread, address and value. -/
structure Part where
  t : Tid
  ea : Nat
  v : Nat
  deriving DecidableEq, Repr

/-- The lanes of one address reduced: the members, each with what it combines the answer with, and the value sent. -/
def reduceParts (fn : RComb) (ty : Ty) (d : Nat) : List Part → List (Dest × Option Nat) × Option Nat
  | [] => ([], none)
  | ps => ps.foldl (fun r p => match r.2 with
      | none => (r.1 ++ [((p.t, d), none)], some p.v)
      | some acc => (r.1 ++ [((p.t, d), some acc)], some (atomValue (atomFnOf fn) ty acc p.v))) ([], none)

/-- One access for each distinct address, in the order of the lowest lanes (R391). -/
def State.ratomAll (s : State) (u : RUnit) (pc : DWord) (fn : RComb) (nf : Bool) (ac : Access) (ty : Ty) (d : Nat) (ps : List Part) : State :=
  ((ps.map (·.ea)).eraseDups).foldl (fun s ea =>
    let g := ps.filter (·.ea == ea)
    let r := reduceParts fn ty d g
    let t := match g with | p :: _ => p.t | [] => ⟨u.uid, 0, 0⟩
    s.startFabric u t pc { kind := .ratom fn ty (r.2.getD 0) r.1, ac, va := ea, size := ty.bytes } d (if nf then 0 else ty.regs) (if nf then [] else g.map (·.t))) s

/-- ratom for a complete participation set (R387, R391). -/
def ratomBody (fn : RComb) (nf : Bool) (ac : Access) (v : View) (len : Nat) (s : State) (act : List Tid) : Run :=
  match act with
  | [] => .start s
  | t0 :: _ =>
    match s.unit? t0.uid with
    | none => .start s
    | some u =>
      let lanes := act.map (·.lane)
      let ps := act.map fun t => ({ t, ea := v.srcA s t lanes, v := v.srcB s t lanes } : Part)
      let faults := ps.filterMap fun p =>
        if (s.ctx u.ctx).domain = 0 then some (p.t, ({ cause := 0x20, reason := rDomain, addr := p.ea } : FaultInfo))
        else if p.ea % v.x.ty.bytes ≠ 0 then some (p.t, { cause := 0x20, reason := rMisaligned, addr := p.ea })
        else none
      let rel := ac.ord == .release || ac.ord == .acqRel
      let reports := if rel then act.filterMap fun t => (s.thread t).report.map fun f => (t, f) else []
      if faults ≠ [] then { st := s, traps := [], faults }
      else if s.speculates u.uid then .start ((s.beginCommit u.uid .seal).waitAll act .sealing)
      else if s.committing u.uid then .start (s.waitAll act .sealing)
      else if reports ≠ [] then { st := s, traps := [], faults := reports }
      else if rel && act.any fun t => s.outstanding t true true (ac.scope == .fabric) then .start (s.waitAll act .accesses)
      else if (act.any fun t => decide (8 ≤ s.entries t)) || decide (512 < s.coreEntries u.core + act.length) then .start (s.waitAll act .entry)
      else .start (((act.foldl (·.releasing ac ·) s).ratomAll u (s.thread t0).pc fn nf ac v.x.ty v.x.d.toNat ps).advance act len).touch

/-- The answer of a ratom reaches its members (R391). -/
def State.fillRatom (s : State) (x : Txn) (fn : RComb) (ty : Ty) (members : List (Dest × Option Nat)) (old : Nat) : State :=
  let s := if x.dests.isEmpty then s
    else members.foldl (fun s m => s.mapThread m.1.1 fun th =>
      th.fillRegs x.id m.1.2 ty.regs (match m.2 with | none => old | some v => atomValue (atomFnOf fn) ty old v)) s
  ((s.unhold x).dropTxn x.id).touch

/-! ## rld, rld3, mcst (R388, R393, R398) -/

/-- The segments of n bytes from an address: at most 256 bytes, none across 4 KiB; fuel bounds their number. -/
def segments : Nat → Nat → Nat → List (Nat × Nat)
  | 0, _, _ => []
  | fuel + 1, a, n =>
    if n = 0 then []
    else
      let k := min n (min 256 (4096 - a % 4096))
      (a, k) :: segments fuel (a + k) (n - k)

def segmentsOf (a n : Nat) : List (Nat × Nat) := segments (n / 256 + n / 4096 + 3) a n

/-- The export table of a context holds no valid entry. -/
def Context.exportsNothing (c : Context) : Bool := (List.range 64).all fun i => !((assocGet c.exportTab (4 * i + 2)).getD 0).getLsbD 35

/-- A status that names a lost peer (R401). -/
def peerLost (dev party : Nat) (timeout : Bool) : Nat := statusWord 0x81 (dev % 4096 + party % 4 * 4096 + 16384 * boolNat timeout)

/-- An operation that is refused at its acceptance completes at once (R388, R398, R401). -/
def State.finishNow (s : State) (id : Nat) (status : Nat) : State :=
  match s.op? id with
  | some o => s.finishOp o status
  | none => s

/-- A global range meets memory that a provisional run may not write (R337). -/
def State.rangeExposed (s : State) (ctx a n : Nat) : Bool :=
  (linesOf a n).any fun l => match s.leaf? ctx (l * 128) with | some leaf => s.exposed ctx leaf (l * 128) 128 | none => false

def rldBody (ac : Access) (v : View) : Body := fun s0 s t rs act =>
  match s.unit? t.uid with
  | none => .done s
  | some u =>
    let src := v.srcA s0 t act
    let dst := v.srcB s0 t act
    let n := v.srcC s0 t
    let bad : Option Bad := match ac.space with
      | .localMem => if n = 0 then none else s.blockBad t.uid dst n 1
      | .vault => if n = 0 then none else if 2 ^ 31 < dst + n then some (.mem rRange)
        else if (List.range ((dst + n - 1) / 65536 + 1 - dst / 65536)).all fun i => s.granted u.ctx (max dst (dst / 65536 * 65536 + 65536 * i)) then none else some (.mem rVault)
      | .global => none
    inDomain s u src <|
    match bad with
    | some b => b.res dst
    | none =>
      let go := fun (s : State) =>
        if s.meetsEarlier [t] src n s.clk.nextId then TRes.wait .accesses s
        else if !s.entryFree t u.core then TRes.wait .entry s
        else
          let target := fabTarget src
          let own := target == s.fabric.device && (s.ctx u.ctx).exportsNothing
          let status := if n = 0 ∨ 1048576 < n ∨ own then some (statusWord 0xA0 0)
            else if s.fabric.dead.contains target then some (peerLost target 1 false)
            else none
          let id := s.clk.nextId
          match acceptOp s t v.x.d.toNat rs { kind := .rld, args := [src, dst, n, match ac.space with | .global => 0 | .localMem => 1 | .vault => 2], status, fabric := true } with
          | .done s =>
            if let some w := status then .done (s.finishNow id w)
            else
              let s := (segmentsOf (fabVa src) n).zipIdx.foldl (fun s q => let g := q.1; s.emit target false (s.ctx u.ctx).domain (.of 0x01 (g.1 % 2 ^ 52) id g.2 0 (packetFlags false false (g.1 + g.2 == fabVa src + n) .absent) []) q.2) s
              let s := s.mapOp id fun o => { o with started := true }
              .done (s.acquiring ac [t])
          | r => r
      if ac.space == .global && !u.ceilingFinal && s.rangeExposed u.ctx dst n then afterFinal s t go else go s

/-- rld3 (R398, R400). -/
def rld3Body (v : View) : Body := fun s0 s t rs act =>
  match s.unit? t.uid with
  | none => .done s
  | some u =>
    let src := v.srcA s0 t act
    let spec := v.srcB s0 t act
    let n := v.srcC s0 t
    inDomain s u src <|
    sealed s t fun s =>
      if s.meetsEarlier [t] src n s.clk.nextId then TRes.wait .accesses s
      else if !s.entryFree t u.core then TRes.wait .entry s
      else
        let owner := fabTarget src
        let dev := bits spec 11 0
        let group := bit spec 12
        let status := if bits spec 15 13 ≠ 0 ∨ bits spec 31 22 ≠ 0 ∨ n = 0 ∨ 1048576 < n then some (statusWord 0xA0 0)
          else if s.fabric.dead.contains owner then some (peerLost owner 1 false)
          else if !group && s.fabric.dead.contains dev then some (peerLost dev 2 false)
          else none
        let id := s.clk.nextId
        match acceptOp s t v.x.d.toNat rs { kind := .rld3, args := [src, spec, n], status, fabric := true } with
        | .done s =>
          if let some w := status then .done (s.finishNow id w)
          else
            let body := leBytes 2 (dev + 4096 * boolNat group) ++ leBytes 1 (bits spec 21 16) ++ leBytes 1 0 ++ leBytes 4 n ++ leBytes 8 (spec / 2 ^ 32)
            .done ((s.emit owner false (s.ctx u.ctx).domain (.of 0x02 (fabVa src) id 16 0 (packetFlags false false true .absent) body)).mapOp id fun o => { o with started := true })
        | r => r

/-- The multicast write of an operation leaves, ordered behind an earlier one of its thread to the same line of the group (R377,
R393). -/
def State.sendMcst (s : State) (o : Op) (graded : Bool) : State :=
  let a := o.args.headD 0
  let ordered := s.ops.any fun y => y.id != o.id && y.tid == o.tid && (y.kind matches .mcst) && y.started && y.flags != 2 && y.args.headD 0 == a
  s.emit (fabTarget a) true (s.ctx o.ctx).domain (.of 0x05 (fabVa a) o.id 128 0 (packetFlags ordered graded true o.grade) o.block)

/-- mcst (R393). -/
def mcstBody (ac : Access) (v : View) : Body := fun s0 s t rs act =>
  match s.unit? t.uid with
  | none => .done s
  | some u =>
    let dst := v.srcA s0 t act
    let src := v.srcB s0 t act
    let rcd := v.srcC s0 t
    inDomain s u dst <|
    match s.blockBad t.uid src 128 128, s.blockBad t.uid rcd 8 8 with
    | some b, _ => b.res src
    | none, some b => b.res rcd
    | none, none =>
      if fabVa dst % 128 ≠ 0 then memFault rMisaligned dst
      else if s.localFlawed t.uid src 128 then memFault rUncorrectable src
      else
        sealed s t fun s =>
        released s t ac <|
        if !s.entryFree t u.core then .wait .entry s
        else
          let id := s.clk.nextId
          match acceptOp s t v.x.d.toNat rs { kind := .mcst, block := s.loadLocal t.uid src 128, args := [dst, rcd], fabric := true, grade := u.carries } with
          | .done s => (match s.op? id with
            | some o => .done (((s.releasing ac t).sendMcst o u.graded).mapOp id fun o => { o with started := true })
            | none => .done s)
          | r => r

/-! ## rfence (R403) -/

/-- A fabric access of a thread, to a device when one is named, has not reached its point. -/
def State.fabPending (s : State) (t : Tid) (dev : Option Nat) : Bool :=
  let toward := fun (d : Nat) => match dev with | some x => x == d | none => true
  (s.txns.any fun x => x.holders.contains t && x.kind.fabric && toward x.target) ||
  (s.ops.any fun o => o.tid == t && (match o.kind with
    | .rld | .rld3 => toward (fabTarget (o.args.headD 0))
    | .mcst => dev.isNone
    | .mma _ | .bload | .mdrain | .mzero | .copy _ | .pft | .dprop _ | .dapp | .dclr | .ctxsave | .ctxload => false))

def rfenceBody (dev : Bool) (v : View) : Body := fun s0 s t _ act =>
  match s.unit? t.uid with
  | none => .done s
  | some u =>
    inDomain s u 0 <|
    if s.fabPending t (if dev then some (v.srcB s0 t act % 4096) else none) then .wait .fabric s else reporting s t (.done s)

/-! ## Landing windows (R395 to R397) -/

/-- A window as its descriptor gives it. -/
def windowOf (b : List Byte) : Window :=
  let fl := field b 0x0D 1
  { num := field b 0x0C 1, base := field b 0 8, size := field b 8 4, vault := bit fl 0, group := bit fl 1, rlo := field b 0x10 2, rhi := field b 0x12 2, olo := field b 0x14 2, ohi := field b 0x16 2, ctr := field b 0x18 8 }

/-- A field of a window descriptor is out of limits (R395). -/
def windowBad (b : List Byte) : Bool :=
  let w := windowOf b
  w.base % 128 != 0 || decide (2 ^ 57 ≤ w.base) || w.size % 128 != 0 || decide (w.size < 128) || decide (2 ^ 30 < w.size) || decide (63 < w.num) ||
  decide (3 < field b 0x0D 1) || field b 0x0E 2 != 0 || [w.rlo, w.rhi, w.olo, w.ohi].any (fun d => decide (4095 < d)) ||
  w.ctr % 16 != 0 || decide (2 ^ 57 ≤ w.ctr) || (b.drop 0x20).any (· != 0)

/-- Why n bytes of a window cannot be written now: 3 unmapped, 4 permission or grant (R396, R398). -/
def State.windowReason (s : State) (ctx : Nat) (vault : Bool) (a n : Nat) : Option Nat :=
  if vault then
    if decide (a + n ≤ 2 ^ 31) && (List.range ((a + n - 1) / 65536 + 1 - a / 65536)).all (fun i => s.granted ctx (max a (a / 65536 * 65536 + 65536 * i))) then none else some 4
  else
    let bad := (List.range ((a + n - 1) / 4096 + 1 - a / 4096)).filterMap fun i =>
      match s.translate ctx (max a (a / 4096 * 4096 + 4096 * i)) true false with
      | .ok _ => none
      | .error r => some (if r = rPermission then 4 else 3)
    if bad.contains 3 then some 3 else bad.head?

/-- The counter block of a window written (R397). -/
def State.writeCounter (s : State) (ctx ctr resolved refused state : Nat) : State :=
  match s.translate ctx ctr true false with
  | .error _ => s
  | .ok l => s.performAt ctx l ctr (leBytes 8 resolved ++ leBytes 4 refused ++ leBytes 4 state) .fab none

/-- The resolved, refused and state words of a window's counter. -/
def State.counterOf (s : State) (ctx ctr : Nat) : Nat × Nat × Nat :=
  match s.translate ctx ctr false false with
  | .error _ => (0, 0, 0)
  | .ok l => (s.word (l.addr ctr) 8, s.word (l.addr ctr + 8) 4, s.word (l.addr ctr + 12) 4)

/-- A segment is counted, as one step (R397). -/
def State.countSegment (s : State) (ctx : Nat) (w : Window) (n refused : Nat) : State :=
  let c := s.counterOf ctx w.ctr
  s.writeCounter ctx w.ctr ((c.1 + n) % 2 ^ 64) (min (c.2.1 + refused) (2 ^ 32 - 1)) c.2.2

def Context.window? (c : Context) (n : Nat) : Option Window := c.windows.find? (·.num == n)

/-- A window closes with a state (R396, R397). -/
def State.closeWindow (s : State) (ctx : Nat) (w : Window) (state : Nat) : State :=
  let c := s.counterOf ctx w.ctr
  (s.writeCounter ctx w.ctr c.1 c.2.1 state).mapCtx ctx fun c => { c with windows := c.windows.filter fun q => q.num != w.num }

/-- lwin (R395, R396). -/
def lwinBody (v : View) : Body := fun s0 s t rs act =>
  match s.unit? t.uid with
  | none => .done s
  | some u =>
    let a := v.srcA s0 t act
    inDomain s u a <|
    match s.blockBad t.uid a 64 64 with
    | some b => b.res a
    | none =>
      sealed s t fun s =>
      if s.outstanding t true true true then .wait .accesses s
      else
        reporting s t <|
        let b := s.loadLocal t.uid a 64
        let w := windowOf b
        if windowBad b then statusTo v s rs 2
        else if ((s.ctx u.ctx).window? w.num).isSome then statusTo v s rs 1
        else if (s.windowReason u.ctx w.vault w.base w.size).isSome ∨ (s.windowReason u.ctx false w.ctr 16).isSome then statusTo v s rs 3
        else statusTo v ((((s.makeKnown t).writeCounter u.ctx w.ctr 0 0 1).mapCtx u.ctx fun c => { c with windows := c.windows ++ [w] })).touch rs 0

/-- lwin.close: every segment that has been admitted has been written and counted, since each is one step (R396).
An earlier access of the thread to the counter goes first. -/
def lwinCloseBody (v : View) : Body := fun s0 s t rs act =>
  match s.unit? t.uid with
  | none => .done s
  | some u =>
    let n := v.srcB s0 t act
    inDomain s u 0 <|
    sealed s t fun s =>
    match (s.ctx u.ctx).window? n with
    | none => statusTo v s rs 1
    | some w => if s.overlapping t .global w.ctr 16 s.clk.nextId false then .wait .accesses s else statusTo v (s.closeWindow u.ctx w 2).touch rs 0

/-! ## Accepting packets (R376, R377, R380) -/

/-- The numbers of a stream that have been performed or refused: all below the head, and the others of the list. -/
def State.seenOf (s : State) (stream : Nat) : List Nat := (assocGet s.fabric.seen stream).getD [0]

/-- The head moves over the numbers that have been seen; fuel: their count. -/
def advanceSeen : Nat → Nat → List Nat → List Nat
  | 0, n, rest => n :: rest
  | k + 1, n, rest => if rest.contains n then advanceSeen k ((n + 1) % 2 ^ 32) (rest.filter (· != n)) else n :: rest

/-- A packet has performed or been refused; the keys of a stream are renewed as its numbers pass a multiple of 2^31 (R377,
R485). -/
def State.noteSeq (s : State) (p : Packet) : State :=
  let l := s.seenOf p.stream
  let rest := l.drop 1 ++ [p.seq.toNat]
  let now := advanceSeen rest.length (l.headD 0) rest
  let key := 2 ^ 26 + p.stream
  let rekeys := if now.headD 0 / 2 ^ 31 = l.headD 0 / 2 ^ 31 then s.fabric.rekeys else assocSet s.fabric.rekeys key ((assocGet s.fabric.rekeys key).getD 0 + 1)
  { s with fabric := { s.fabric with seen := assocSet s.fabric.seen p.stream now, rekeys } }

/-- The link of a packet's plane has been heard (R378). -/
def State.hear (s : State) (p : Packet) : State := { s with fabric := { s.fabric with lastHeard := assocSet s.fabric.lastHeard p.plane.toNat s.clk.now } }

/-- R379, R380: a packet is dropped, or its source's incarnation is known. -/
def State.fromPeer (s : State) (p : Packet) : Option State :=
  let src := p.src.toNat
  let f := s.fabric
  if !f.joined || f.dead.contains src || (!p.toGroup && (p.dst.toNat != f.device || p.dinc.toNat != f.incarnation)) then none
  else
    match s.knownIncarnation src with
    | some i => if i = p.sinc.toNat then some s else none
    | none => some { s with fabric := { f with peers := assocSet f.peers src p.sinc.toNat } }

/-- A packet that R376 or R485 makes the receiver drop: the receiving die's system core is sent an error record. -/
def State.dropMalformed (s : State) (p : Packet) : State := s.errorEvent p.die p.src.toNat

/-- A packet as its receiver reads it: that of an attested peer in a confidential context is deciphered; none when its tag fails,
or when the peer is not attested, so that there is no key. A request of such a peer is read as far as its header, and refused
(R384, R485). -/
def State.deciphered (s : State) (p : Packet) : Option Packet :=
  match s.confidential p.domain.toNat with
  | none => some p
  | some c =>
    if !(s.ctx c).attested.contains (p.src.toNat, p.sinc.toNat) then (if p.kind.toNat ≤ 5 then some p else none)
    else
      let epoch := (assocGet s.fabric.rekeys (2 ^ 26 + p.stream)).getD 0 + boolNat (p.seq.toNat / 2 ^ 31 != (s.seenOf p.stream).headD 0 / 2 ^ 31)
      (Config.gcmOpen (Config.renewedKey ((s.ctx c).keyFor p.toGroup (if p.toGroup then p.dst.toNat % 4096 else p.src.toNat) c) epoch) p.nonce p.header p.payload p.auth).map fun b => { p with payload := fitBytes p.payload.length b, auth := [] }

/-- A packet's payload can be read: in a confidential context only that of an attested peer (R485). -/
def State.readable (s : State) (p : Packet) : Bool :=
  match s.confidential p.domain.toNat with
  | none => true
  | some c => (s.ctx c).attested.contains (p.src.toNat, p.sinc.toNat)

/-- A module that is shut down, or has no power, takes no notice of what comes (R488). -/
def State.dark (s : State) : Bool := s.host.shut || !s.host.powered

/-- What a receiver does with a packet of one of its kinds. -/
def State.receive (s : State) (p : Packet) (kinds : List Nat) (k : State → Packet → State) : State :=
  if s.dark || !kinds.contains p.kind.toNat then s
  else
    let s := s.hear p
    if p.headerBad then s.dropMalformed p
    else
      match s.fromPeer p with
      | none => s
      | some s =>
        match s.deciphered p with
        | none => s.dropMalformed p
        | some q => if q.payloadBad && s.readable p then s.dropMalformed p else (k s q).touch

/-! ## Rights at a target (R384) -/

/-- A valid export entry covers n bytes, admits the source and grants a right: 0 read, 1 write, 2 atomic. -/
def Context.exports (c : Context) (va n src right : Nat) : Bool :=
  (List.range 64).any fun i =>
    let r := fun k => ((assocGet c.exportTab (4 * i + k)).getD 0).toNat
    bit (r 2) 35 && bit (r 2) (32 + right) && decide (r 0 ≤ va) && decide (va + n ≤ r 0 + r 1) &&
      decide (bits (r 2) 11 0 ≤ src) && decide (src ≤ bits (r 2) 27 16)

/-- The map bytes of the lines that n bytes of a graded-export page touch (R405). -/
def mapBytes (l : Leaf) (va n : Nat) : List Nat := (linesOf va n).map fun k => l.gmap + (k * 128 - l.va) / 128

/-- The checks of R384 on n bytes at an address: the context and the leaf, or the reason of the negative. A write below final never
reaches host-visible memory, a graded-export page or not (R27; log 89). -/
def State.checked (s : State) (p : Packet) (src va n right : Nat) (unc : Bool) : Except Nat (Nat × Leaf) :=
  match s.ctxOfDomain p.domain.toNat with
  | none => .error 0x01
  | some ctx =>
    let c := s.ctx ctx
    if c.ctxctl.getLsbD 1 && !c.attested.contains (src, (s.knownIncarnation src).getD 0) then .error 0x0C
    else if !c.exports va n src right then .error 0x02
    else
      match s.translate ctx va (right != 0) false with
      | .error r => .error (if r = rPermission then 0x04 else 0x03)
      | .ok l =>
        if right != 0 && p.grade != .final && (!l.gx || l.sealing) then .error 0x05
        else if right == 0 && l.gx && (mapBytes l va n).any (fun a => bit (cellGet s.mem a).toNat 2 && (cellGet s.mem a).toNat % 4 != 3) then .error 0x05
        else if unc || s.flawed 0 (l.addr va) n || (right != 0 && s.flawed 0 (l.addr va / 128 * 128) 128) then .error 0x0A
        else .ok (ctx, l)

/-! ## Requests at their target (R384, R391, R393, R405) -/

/-- The grade map of a graded-export page notes a fabric write (R405). -/
def State.noteGrade (s : State) (l : Leaf) (va n : Nat) (g : Grade) : State :=
  if l.gx then (mapBytes l va n).foldl (fun s a => s.performPhysical a (leBytes 1 (gradeRank g + 4)) .fab) s else s

/-- The answer to an rst, a ratom or a multicast write. -/
def State.acknowledge (s : State) (p : Packet) (reason : Nat) (payload : List Byte) : State :=
  s.emit p.src.toNat false p.domain.toNat (.of 0x13 p.addr.toNat p.tag.toNat payload.length reason 0 payload)

/-- A write, an atomic or a multicast write performs at its target, or is refused, and is answered. -/
def State.performRequest (s : State) (p : Packet) (unc : Bool) : State :=
  let va := p.addr.toNat
  let n := p.payload.length
  let src := p.src.toNat
  let atomic := p.kind == 4
  let s := s.noteSeq p
  match s.checked p src va (max n 1) (if atomic then 2 else 1) unc with
  | .error r => s.acknowledge p r []
  | .ok (ctx, l) =>
    let pa := l.addr va
    let s := s.keepLeaf ctx va l
    if atomic then
      match Ty.ofCode (bits p.aux.toNat 15 4), ([AtomFn.add, .min, .max, .and, .or, .xor])[p.aux.toNat % 16]? with
      | some ty, some fn =>
        let old := s.word pa n
        let new := atomValue fn ty old (leNat p.payload)
        let s := if new = old then s else s.performAt ctx l va (leBytes n new) .fab none
        (s.noteGrade l va n p.grade).acknowledge p 0 (leBytes n old)
      | _, _ => s.dropMalformed p
    else if p.kind == 3 && n == 8 && va % 64 == 0x20 && s.grades.known.contains (ctx, va - 0x20) then
      (((s.extPublish .peer ctx (va - 0x20) l (leNat p.payload)).settleLevels).noteGrade l va n p.grade).acknowledge p 0 []
    else ((s.performAt ctx l va p.payload .fab none).noteGrade l va n p.grade).acknowledge p 0 []

/-- A read, or an atomic, of a peer meets a line whose home holds every read (R213, step 3): the packet waits. -/
def State.readHeld (s : State) (p : Packet) (va n : Nat) : Bool :=
  match s.ctxOfDomain p.domain.toNat with
  | none => false
  | some ctx => s.lineHeld ctx (linesOf va n) 0

/-- An atomic waits at its home. -/
def State.atomicHeld (s : State) (p : Packet) : Bool := p.kind == 4 && s.readHeld p p.addr.toNat p.payload.length

/-- Held packets of a stream whose turn has come are performed; fuel: their number (R213, R377). -/
def State.drainHeld (s : State) (stream : Nat) : Nat → State
  | 0 => s
  | k + 1 =>
    match s.fabric.heldPackets.find? fun h => h.src == stream && h.pkt.seq.toNat == (s.seenOf stream).headD 0 && !s.atomicHeld h.pkt with
    | none => s
    | some h => (State.performRequest { s with fabric := { s.fabric with heldPackets := s.fabric.heldPackets.erase h } } h.pkt h.unc).drainHeld stream k

/-- A request packet is performed, or held when it is ordered and an earlier one is missing (R377). An atomic to a line whose home
holds every read is still to arrive (R213). -/
def State.arriveRequest (s : State) (p : Packet) (unc : Bool) : State :=
  if s.atomicHeld p then s
  else if p.flags.getLsbD 0 && (s.seenOf p.stream).headD 0 != p.seq.toNat then { s with fabric := { s.fabric with heldPackets := s.fabric.heldPackets ++ [{ src := p.stream, pkt := p, unc }] } }
  else
    let s := s.performRequest p unc
    s.drainHeld p.stream s.fabric.heldPackets.length

/-- Held packets whose turn has come, and that nothing holds any longer, are performed. -/
def State.drainAll (s : State) : State :=
  (s.fabric.heldPackets.map (·.src)).eraseDups.foldl (fun s k => s.drainHeld k s.fabric.heldPackets.length) s

/-- A packet that is never held has arrived: the packets that waited for it are performed. -/
def State.arrived (s : State) (p : Packet) : State :=
  let s := s.noteSeq p
  s.drainHeld p.stream s.fabric.heldPackets.length

def execWritePacket (p : Packet) (unc : Bool) (s : State) : Out := .next (s.receive p [3] fun s p => s.arriveRequest p unc)
def execAtomicPacket (p : Packet) (unc : Bool) (s : State) : Out := .next (s.receive p [4] fun s p => s.arriveRequest p unc)
def execMulticastWrite (p : Packet) (unc : Bool) (s : State) : Out := .next (s.receive p [5] fun s p => s.arriveRequest p unc)

/-- The bytes of a read, when it is admitted. -/
def State.readFor (s : State) (p : Packet) (src va n : Nat) (unc : Bool) : Except Nat (List Byte) :=
  match s.checked p src va n 0 unc with
  | .error r => .error r
  | .ok q => .ok (cellsGet s.mem (q.2.addr va) n)

/-- The home slices of what a peer reads keep its translations (R447). -/
def State.keepFor? (s : State) (p : Packet) (va n : Nat) : State :=
  match s.ctxOfDomain p.domain.toNat with
  | some ctx => s.keepRead ctx .global va n
  | none => s

/-- READ_REQUEST: the owner answers a read, or sends the segments of a third-party read to the recipient (R384, R398). unc: an
uncorrectable error is met in the first segment; those that stand in memory are met where they stand. A read of a line whose home
holds every read is still to arrive (R213). -/
def execReadRequest (p : Packet) (unc : Bool) (s : State) : Out :=
  .next (s.receive p [1, 2] fun s p =>
    let src := p.src.toNat
    let va := p.addr.toNat
    if s.readHeld p va (if p.kind == 1 then p.len.toNat else field p.payload 4 4) then s
    else State.arrived (p := p) <|
    if p.kind == 1 then
      let n := p.len.toNat
      match s.readFor p src va n unc with
      | .ok bs => (s.keepFor? p va n).emit src false p.domain.toNat (.of 0x10 va p.tag.toNat n 0 (packetFlags false false (p.flags.getLsbD 4) .absent) bs)
      | .error r => s.emit src false p.domain.toNat (.of 0x11 va p.tag.toNat n r (packetFlags false false (p.flags.getLsbD 4) .absent) [])
    else
      let dst := field p.payload 0 2
      let n := field p.payload 4 4
      let group := bit dst 12
      if !group && s.fabric.dead.contains (dst % 4096) then s
      else
        (segmentsOf va n).zipIdx.foldl (fun s k =>
          let g := k.1
          let last := packetFlags false false (g.1 + g.2 == va + n) .absent
          let s := s.keepFor? p g.1 g.2
          let q := match s.readFor p src g.1 g.2 (unc && g.1 == va) with
            | .ok bs => Packet.of 0x10 (g.1 - va) p.tag.toNat g.2 0 last bs
            | .error r => Packet.of 0x11 (g.1 - va) p.tag.toNat g.2 r last []
          s.emit (dst % 4096) group p.domain.toNat { q with req := p.src, rinc := p.sinc, win := BitVec.ofNat 8 (field p.payload 2 1), off := BitVec.ofNat 64 (field p.payload 8 8), total := BitVec.ofNat 32 n } k.2) s)

/-! ## Data, and what it completes (R388, R397 to R402) -/

/-- The status with which an rld ends: that of a cancel, or by the order of R388 (R407). -/
def rldStatus (o : Op) : Nat :=
  if o.cancelled then statusWord 0x02 0
  else
    match o.destFail with
    | some i => statusWord 0x80 i
    | none => if o.reason ≠ 0 then statusWord 0x83 (o.reason + 4096 * fabTarget (o.args.headD 0)) else 0

/-- What an answer to a segment of an rld comes to. -/
inductive Answered where
  | done (s : State)
  /-- the write cannot be made yet, so that the packet is still to arrive; full: the task seals first, for an overflow or not -/
  | later (full : Option Bool)
  deriving DecidableEq, Repr

/-- An answer to a segment of an rld (R388). -/
def State.rldAnswer (s : State) (o : Op) (p : Packet) : Answered :=
  let src := fabVa (o.args.headD 0)
  let n := o.args.getD 2 0
  let sp : Space := match o.args.getD 3 0 with | 0 => .global | 1 => .localMem | _ => .vault
  let index := (segmentsOf src n).findIdx fun g => g.1 % 2 ^ 52 == p.addr.toNat
  let step := fun (s : State) (o : Op) =>
    let o := { o with answered := o.answered + 1, flags := 0 }
    let s := s.mapOp o.id fun _ => o
    if o.answered = (segmentsOf src n).length then s.finishOp o (rldStatus o) else s
  if p.kind == 0x11 then .done (step s { o with reason := if o.reason = 0 then p.aux.toNat else o.reason })
  else
    match s.engineWrite o.ctx .fab o.tid sp (wrap (if sp = .localMem then 32 else 64) ((o.args.getD 1 0 : Int) + (p.addr.toNat - src : Nat))) p.payload with
    | .done s => .done (step s o)
    | .failed _ => .done (step s { o with destFail := some (o.destFail.getD index) })
    | .overflow full => .later (some full)
    | .later => .later none

/-- Bytes of a landing window in global memory are written page by page. -/
def State.landPages (s : State) (ctx a : Nat) (bs : List Byte) : State :=
  match s.pagesOf ctx a bs.length with
  | .error _ => s
  | .ok ps => ps.foldl (fun s p => s.performAt ctx p.2.2 p.1 ((bs.drop (p.1 - a)).take p.2.1) .fab none) s

/-- An uncorrectable error stands in n bytes of a window (R398). -/
def State.landFlawed (s : State) (ctx : Nat) (vault : Bool) (a n : Nat) : Bool :=
  if vault then s.flawed 1 a n
  else match s.pagesOf ctx a n with
    | .error _ => false
    | .ok ps => ps.any fun p => s.flawed 0 (p.2.2.addr p.1) p.2.1

/-- Why a segment is refused at its window, or 0 (R398). -/
def State.landReason (s : State) (p : Packet) (ctx : Nat) (w : Window) (unc : Bool) : Nat :=
  let at_ := w.base + p.off.toNat + p.addr.toNat
  let n := p.len.toNat
  if p.toGroup && !w.group then 0x06
  else if !(decide (w.rlo ≤ p.req.toNat) && decide (p.req.toNat ≤ w.rhi)) then 0x07
  else if !(decide (w.olo ≤ p.src.toNat) && decide (p.src.toNat ≤ w.ohi)) then 0x08
  else if w.size < p.off.toNat + p.total.toNat then 0x09
  else if p.kind == 0x10 then (match s.windowReason ctx w.vault at_ n with
    | some r => r
    | none => if unc || s.landFlawed ctx w.vault at_ n then 0x0A else 0)
  else 0

/-- The bytes of an admitted segment are written (R312, R398). -/
def State.landBytes (s : State) (p : Packet) (ctx : Nat) (w : Window) : State :=
  let at_ := w.base + p.off.toNat + p.addr.toNat
  if w.vault then ((linesOf at_ p.payload.length).foldl (fun s l => s.conflicts ctx ⟨.vault, l⟩ none) (s.writeVault at_ p.payload .fab none)).touch
  else s.landPages ctx at_ p.payload

/-- A segment of a transfer has been settled at its recipient; after the last one the completion goes to the requester, unless it
has died or rejoined, or the transfer is one of an earlier life of it (R398, R400). A domain that names no context opens no window; its transfers stand under number 512. -/
def State.settleSegment (s : State) (p : Packet) (ctx refuse : Nat) : State :=
  let owner := p.src.toNat
  let req := p.req.toNat
  let total := p.total.toNat
  let mine := fun (x : Xfer) => x.ctx == ctx && x.win == p.win.toNat && x.owner == owner && x.requester == req && x.tag == p.tag.toNat
  let x0 : Xfer := (s.fabric.xfers.find? mine).getD { ctx, win := p.win.toNat, owner, requester := req, tag := p.tag.toNat, total, seen := 0, ownReason := 0, recReason := 0, gone := (s.knownIncarnation req).any (· != p.rinc.toNat) }
  let x := { x0 with seen := x0.seen + p.len.toNat, ownReason := if x0.ownReason = 0 ∧ p.kind == 0x11 then p.aux.toNat else x0.ownReason, recReason := if x0.recReason = 0 then refuse else x0.recReason }
  let others := s.fabric.xfers.filter fun y => !mine y
  if total ≤ x.seen then
    let s : State := { s with fabric := { s.fabric with xfers := others } }
    if x.gone || s.fabric.dead.contains req then s
    else s.emit req false p.domain.toNat (.of 0x12 0 p.tag.toNat 0 (x.ownReason + 256 * x.recReason) 0 [])
  else { s with fabric := { s.fabric with xfers := others ++ [x] } }

/-- A segment reaches a landing window (R398); none while a task has logged a vault line of it, so that the packet is still to
arrive (R308). -/
def State.landSegment (s : State) (p : Packet) (unc : Bool) : Option State :=
  match s.ctxOfDomain p.domain.toNat with
  | none => some (s.settleSegment p 512 0x06)
  | some ctx =>
    match (s.ctx ctx).window? p.win.toNat with
    | none => some (s.settleSegment p ctx 0x06)
    | some w =>
      let refuse := s.landReason p ctx w unc
      let wrote := refuse == 0 && p.kind == 0x10
      if wrote && w.vault && s.vaultLogged none (w.base + p.off.toNat + p.addr.toNat) p.payload.length then none
      else
        let s := if wrote then s.landBytes p ctx w else s
        some ((s.countSegment ctx w p.len.toNat (if wrote then 0 else p.len.toNat)).settleSegment p ctx refuse)

/-- The answer to an rst or a ratom (R389, R390, R489): a reason fails the access, or sends it again later; none completes it,
and fills the destinations of a fetching ratom from the payload. -/
def State.accessAnswer (s : State) (p : Packet) : State :=
  match s.txns.find? fun (x : Txn) => x.id == p.tag.toNat && x.kind.fabric && (x.phase matches .issued) with
  | none => s
  | some x =>
    let reason := p.aux.toNat
    if reason = 5 ∧ x.grade ≠ .final ∧ !x.orphan then (s.mapTxn x.id fun x => { x with phase := .resend }).dropStale x.tid.uid
    else if reason ≠ 0 then s.fabFail x reason false
    else
      match x.kind with
      | .ratom fn ty _ members => s.fillRatom x fn ty members (leNat p.payload)
      | .rst _ | .load .. | .store _ | .atomic .. | .cas .. | .lrun .. | .waitv .. | .gread _ | .gpub .. | .gwait .. | .launch => ((s.unhold x).dropTxn x.id).touch

/-- A segment of an rld of this device arrives, or an answer under a segment's kind to an rst or a ratom. -/
def State.takeSegment (s : State) (p : Packet) : State :=
  match s.ops.find? fun (o : Op) => o.id == p.tag.toNat && (o.kind matches .rld) && o.status.isNone with
  | none => (s.accessAnswer p).arrived p
  | some o =>
    match s.rldAnswer o p with
    | .done s => s.arrived p
    | .later none => s
    | .later (some full) => if s.speculates o.tid.uid then (s.mapOp o.id fun o => { o with flags := 1 }).sealFor o.tid.uid full else s

/-- DATA_SEGMENT: a data or negative segment reaches the requester of an rld, or a recipient (R388, R398). A vault line that
another task has logged, or a version that overflows, makes the packet wait (R308, R310). A peer may answer an rst or a ratom
with these kinds too, since R376 gives no kind for that answer by name. -/
def execDataSegment (p : Packet) (unc : Bool) (s : State) : Out :=
  .next (s.receive p [0x10, 0x11] fun s p =>
    if p.total = 0 then s.takeSegment p
    else match s.landSegment p unc with
      | some s => s.arrived p
      | none => s)

/-- COMPLETION_PACKET: the recipient's completion of an rld3 to a device (R402). -/
def execCompletionPacket (p : Packet) (s : State) : Out :=
  .next (s.receive p [0x12] fun s p =>
    State.arrived (p := p) <|
    match s.ops.find? fun (o : Op) => o.id == p.tag.toNat && (o.kind matches .rld3) && o.status.isNone with
    | none => s
    | some o =>
      if p.aux = 0 then s.finishOp o 0 else s.finishOp o (statusWord 0x83 (p.aux.toNat % 256 + 256 * (p.aux.toNat / 256))))

/-- ACKNOWLEDGEMENT: the answer to an rst or a ratom (R389, R390, R489). -/
def execAcknowledgement (p : Packet) (s : State) : Out := .next (s.receive p [0x13] fun s p => (s.accessAnswer p).arrived p)

/-- AGGREGATED_ACKNOWLEDGEMENT: the switches' answer to a multicast write or a group delivery (R380, R394, R399, R489). Its
payload is the record of R394. -/
def execAggregatedAcknowledgement (p : Packet) (s : State) : Out :=
  if s.dark then .next s
  else
  let s := s.hear p
  if p.kind != 0x14 then .next s
  else if p.malformed then .next (s.dropMalformed p)
  else if !s.fabric.joined || p.dinc.toNat != s.fabric.incarnation then .next s
  else
    let acks := field p.payload 0 2
    let negs := field p.payload 2 2
    let status := if negs = 0 then statusWord 0 (acks % 4096) else statusWord 0xA6 (acks % 4096 + negs % 4096 * 4096)
    match s.ops.find? fun (o : Op) => o.id == p.tag.toNat && o.status.isNone with
    | none => .next s
    | some o =>
      match o.kind with
      | .rld3 => if bit (o.args.getD 1 0) 12 then .next (s.finishOp o status).touch else .next s
      | .mcst =>
        if negs ≠ 0 ∧ field p.payload 6 1 = 5 ∧ o.grade ≠ .final ∧ o.cancelled then .next (State.touch { s with ops := s.ops.filter (·.id != o.id) })
        else if negs ≠ 0 ∧ field p.payload 6 1 = 5 ∧ o.grade ≠ .final then .next ((s.mapOp o.id fun o => { o with flags := 2 }).dropStale o.tid.uid).touch
        else
          (match s.engineWrite o.ctx .fab o.tid .localMem (o.args.getD 1 0) (p.payload.take 8) with
          | .done s => .next (s.finishOp o status).touch
          | .failed _ => .next (s.finishOp o (statusWord 0x80 0)).touch
          | .overflow full => .next (s.sealFor o.tid.uid full)
          | .later => .next s)
      | .mma _ | .bload | .mdrain | .mzero | .copy _ | .pft | .dprop _ | .dapp | .dclr | .rld | .ctxsave | .ctxload => .next s

/-- FABRIC_RESEND_FINAL: a refused access of a run whose ceiling is now final is sent again (R489). -/
def execFabricResendFinal (id : Nat) (s : State) : Out :=
  let fin := fun (uid : Nat) => match s.unitOf? uid with | some u => u.ceilingFinal | none => false
  match s.txn? id, s.op? id with
  | some x, _ =>
    if (x.phase matches .resend) && fin x.tid.uid then
      let x := { x with phase := .issued, grade := .final, since := s.clk.now }
      .next ((s.mapTxn id fun _ => x).sendAccess x true).touch
    else .next s
  | none, some o =>
    if (o.kind matches .mcst) && o.flags == 2 && fin o.tid.uid then
      let o := { o with flags := 0, grade := .final, since := s.clk.now }
      .next ((s.mapOp id fun _ => o).sendMcst o true).touch
    else .next s
  | none, none => .next s

/-- The fabric timeout of a context in core cycles (R12, R382). -/
def Context.fabTimeout (c : Context) : Nat := bits c.timers.toNat 31 16 * 1250

/-- FABRIC_TIMEOUT (R382, R390, R401). -/
def execFabricTimeout (id : Nat) (s : State) : Out :=
  match s.txn? id, s.op? id with
  | some x, _ =>
    if x.kind.fabric && (x.phase matches .issued) && decide (x.since + (s.ctx x.ctx).fabTimeout ≤ s.clk.now) then .next (s.fabFail x 0x0B true) else .next s
  | none, some o =>
    if o.status.isSome || !o.started || o.flags == 2 || decide (s.clk.now < o.since + (s.ctx o.ctx).fabTimeout) then .next s
    else
      let dev := fabTarget (o.args.headD 0)
      match o.kind with
      | .rld => .next (s.finishOp o (peerLost dev 1 true)).touch
      | .rld3 | .mcst => .next (s.finishOp o (peerLost dev 3 true)).touch
      | .mma _ | .bload | .mdrain | .mzero | .copy _ | .pft | .dprop _ | .dapp | .dclr | .ctxsave | .ctxload => .next s
  | none, none => .next s

/-! ## Links, death and return of peers (R378, R379, R381, R400) -/

/-- HEARTBEAT_TIMER: a heartbeat leaves on an idle link. -/
def execHeartbeatTimer (port : Nat) (s : State) : Out :=
  if 16 ≤ port ∨ !s.fabric.portUp port then .next s
  else .next (s.send (.packet { Packet.of 0x20 0 0 0 0 0 [] with plane := BitVec.ofNat 4 port, src := BitVec.ofNat 16 s.fabric.device, sinc := BitVec.ofNat 16 s.fabric.incarnation }))

/-- HEARTBEAT: the link has been heard. -/
def execHeartbeat (port : Nat) (s : State) : Out :=
  if 16 ≤ port then .next s else .next { s with fabric := { s.fabric with lastHeard := assocSet s.fabric.lastHeard port s.clk.now } }

/-- LINK_DEATH_TIMEOUT: nothing heard for 10 µs: the plane is down for every target. -/
def execLinkDeathTimeout (port : Nat) (s : State) : Out :=
  if 16 ≤ port ∨ !s.fabric.portUp port ∨ s.clk.now < (assocGet s.fabric.lastHeard port).getD 0 + 12500 then .next s
  else .next ((State.send { s with fabric := { s.fabric with
    portsDown := port :: s.fabric.portsDown.filter (· != port), planesBack := s.fabric.planesBack.filter (·.1 != port) } } (.linkDown port))).touch

/-- Outstanding requests that name a device complete or fail as "peer lost" (R379, R381). -/
def State.loseRequests (s : State) (x : Nat) : State :=
  let s := (s.txns.filter fun y => y.kind.fabric && y.target == x).foldl (fun (s : State) (y : Txn) => s.fabFail y 0x0B false) s
  (s.ops.filter fun o => o.status.isNone && (o.kind matches .rld | .rld3)).foldl (fun (s : State) (o : Op) =>
    let spec := o.args.getD 1 0
    if fabTarget (o.args.headD 0) = x then s.finishOp o (peerLost x 1 false)
    else if (o.kind matches .rld3) && bits spec 11 0 == x && !bit spec 12 then s.finishOp o (peerLost x 2 false)
    else s) s

/-- Windows open to exactly one device, which is gone, close; then the transfers that it had begun are resolved as refused,
in the windows just closed too (R379, R400). -/
def State.loseWindows (s0 : State) (x : Nat) : State :=
  let s := s0
  let s := s.ctxs.foldl (fun (s : State) c =>
    ((s.ctx c.1).windows.filter fun w => (w.rlo == x && w.rhi == x) || (w.olo == x && w.ohi == x)).foldl (fun s w => s.closeWindow c.1 w (3 + 65536 * x)) s) s
  let lost := s.fabric.xfers.filter (·.owner == x)
  let s : State := { s with fabric := { s.fabric with xfers := s.fabric.xfers.filter (·.owner != x) } }
  lost.foldl (fun (s : State) (q : Xfer) =>
    let s := match (s0.ctx q.ctx).window? q.win with
      | some w => s.countSegment q.ctx w (q.total - q.seen) (q.total - q.seen)
      | none => s
    if q.requester = x ∨ q.gone ∨ s.fabric.dead.contains q.requester then s
    else s.emit q.requester false (s.ctx q.ctx).domain (.of 0x12 0 q.tag 0 (q.ownReason + 256 * (if q.recReason = 0 then 0x0B else q.recReason)) 0 [])) s

/-- The completions of what a device has requested go to it no more (R400). -/
def Fabric.forget (f : Fabric) (x : Nat) : Fabric :=
  { f with xfers := f.xfers.map fun q => if q.requester = x then { q with gone := true } else q, heldPackets := f.heldPackets.filter (·.pkt.src.toNat != x) }

/-- A device is declared dead (R379). -/
def State.declareDead (s : State) (x : Nat) : State :=
  let s : State := { s with fabric := { s.fabric.forget x with dead := x :: s.fabric.dead } }
  ((s.loseRequests x).loseWindows x).touch

/-- DEATH_NOTICE (R378). -/
def execDeathNotice (plane target : Nat) (s : State) : Out :=
  if 16 ≤ plane ∨ s.dark then .next s
  else
    let s : State := { s with fabric := { s.fabric with lastHeard := assocSet s.fabric.lastHeard plane s.clk.now, planesDown := (plane, target) :: s.fabric.planesDown.filter (· != (plane, target)) } }
    let gone := (List.range 16).all fun k => !s.fabric.planeUp k target
    if gone && !s.fabric.dead.contains target then .next (s.declareDead target) else .next s.touch

/-- JOIN: a peer's new incarnation is recorded; requests to the older one are lost, and the plane on which the join arrives is used
for the peer again (R378, R381, R400). -/
def execJoin (p : Packet) (s : State) : Out :=
  if s.dark then .next s
  else
  let s := s.hear p
  if p.kind != 0x22 then .next s
  else if p.malformed then .next (s.dropMalformed p)
  else
    let x := p.src.toNat
    let inc := p.sinc.toNat
    let f := s.fabric
    let here := (p.plane.toNat, x)
    let planes := f.planesDown.filter (· != here)
    let back := if f.portsDown.contains p.plane.toNat then here :: f.planesBack.filter (· != here) else f.planesBack
    if assocGet f.peers x = some inc then .next { s with fabric := { f with planesDown := planes, planesBack := back, dead := f.dead.filter (· != x) } }
    else
      let s := if (assocGet f.peers x).isSome then (s.loseRequests x).loseWindows x else s
      let f := s.fabric.forget x
      let rekeys := f.rekeys.filter fun q => q.1 != x && !(decide (2 ^ 26 ≤ q.1) && q.1 % 4096 == x)
      .next (State.touch { s with fabric := { f with peers := assocSet f.peers x inc, planesDown := planes, planesBack := back, dead := f.dead.filter (· != x), seen := assocSet (f.seen.filter fun q => q.1 % 4096 != x) x [0], seqs := assocSet f.seqs x 0, rekeys } })

/-- RESERVED_KIND_PACKET (R376). -/
def execReservedKindPacket (p : Packet) (s : State) : Out :=
  .next (if s.dark || (p.knownKind && !p.headerBad && !(p.payloadBad && s.readable p)) then s else (s.hear p).dropMalformed p)

/-! ## Meanings -/

def execRld (ac : Access) (x : Form) (s : State) : Out := issue (.rld ac x) (eachThread (rldBody ac)) s
def execRld3 (ac : Access) (x : Form) (s : State) : Out := issue (.rld3 ac x) (eachThread rld3Body) s
def execRst (ac : Access) (x : Form) (s : State) : Out := issue (.rst ac x) (eachThread (rstBody ac)) s
def execMcst (ac : Access) (x : Form) (s : State) : Out := issue (.mcst ac x) (eachThread (mcstBody ac)) s
def execRatom (fn : RComb) (nf : Bool) (ac : Access) (x : Form) (s : State) : Out := issue (.ratom fn nf ac x) (ratomBody fn nf ac) s
def execRfence (dev : Bool) (x : Form) (s : State) : Out := issue (.rfence dev x) (eachThread (rfenceBody dev)) s
def execLwin (x : Form) (s : State) : Out := issue (.lwin x) (eachThread lwinBody) s
def execLwinClose (x : Form) (s : State) : Out := issue (.lwinClose x) (eachThread lwinCloseBody) s

end Sys2Proof.Machine
end

