-- ==== Sys2Proof/Machine/Groups.lean ====
section
/-! DEFINITION. Ready threads and the bundles that they form (01_machine R17; 13_launch_schedule R360; 05_control R116). -/

namespace Sys2Proof.Machine

/-- Nothing but a wait of its own keeps the thread of a lane from its next instruction; a unit that is to be sealed before its first
instruction runs nothing until it is (R315). -/
def State.unbound (s : State) (u : RUnit) (crew lane : Nat) : Bool :=
  let c := u.crew crew
  let th := c.thread lane
  let free := if lane = 32 then c.event.isSome else !c.frozen && (u.task.isSealed || !u.task.sealFirst)
  free && th.live && th.stop.isNone && u.active && s.host.powered && !s.host.shut && th.hold == [] && th.acquire == []

/-- The thread of a lane may issue now: it waits under no rule (R360). -/
def State.ready (s : State) (u : RUnit) (crew lane : Nat) : Bool := ((u.crew crew).thread lane).wait.isNone && s.unbound u crew lane

/-- What a thread waits for at its instruction may have come, since the machine has moved. A wait at a line ends at its home, and a
receiver waits for the trap of its bundle while the crew of that is frozen (R46, R301). -/
def State.stirs (s : State) (u : RUnit) (crew lane : Nat) : Bool :=
  let th := (u.crew crew).thread lane
  (match th.wait with
    | none | some (.line _) => false
    | some (.uniform k) => !(u.crew k).frozen
    | some _ => true) && decide (th.tried ≤ s.clk.moved) && s.unbound u crew lane

/-- The ready threads of a crew; lane 32 is the handler context. -/
def State.readyLanes (s : State) (u : RUnit) (crew : Nat) : List Nat := (List.range 33).filter (s.ready u crew)

/-- The PCs of lanes of a crew, each once. -/
def Crew.pcsOf (c : Crew) (lanes : List Nat) : List DWord := (lanes.map fun l => (c.thread l).pc).eraseDups

/-- Lanes of a crew, in groups that stand at one PC; the handler stands alone. -/
def Crew.groups (c : Crew) (crew : Nat) (lanes : List Nat) : List (DWord × Bool × List (Nat × Nat)) :=
  let own := lanes.filter (· != 32)
  ((c.pcsOf own).map fun pc => (pc, false, (own.filter fun l => (c.thread l).pc == pc).map fun l => (crew, l))) ++
    (if lanes.contains 32 then [((c.thread 32).pc, true, [(crew, 32)])] else [])

/-- A crew's ready threads, in groups. -/
def State.crewGroups (s : State) (u : RUnit) (crew : Nat) : List (DWord × Bool × List (Nat × Nat)) := (u.crew crew).groups crew (s.readyLanes u crew)

/-- A group joins the first bundle of its PC and kind that it fits; the threads of a crew stay together (R17, R116). -/
def packGroup : List (DWord × Bool × List (Nat × Nat)) → DWord × Bool × List (Nat × Nat) → List (DWord × Bool × List (Nat × Nat))
  | [], g => [g]
  | b :: bs, g =>
    if b.1 == g.1 && b.2.1 == g.2.1 && decide (b.2.2.length + g.2.2.length ≤ 32) then (b.1, b.2.1, b.2.2 ++ g.2.2) :: bs
    else b :: packGroup bs g

/-- The crews of a unit that are bound to a quarter. -/
def RUnit.crewsIn (u : RUnit) (quarter : Nat) : List Nat := (List.range u.crews.length).filter fun k => (u.crew k).quarter == quarter

/-- The bundles that a unit's ready threads form in a quarter. -/
def State.bundlesOf (s : State) (u : RUnit) (quarter : Nat) : List Bundle :=
  (((u.crewsIn quarter).flatMap (s.crewGroups u)).foldl packGroup []).map fun g =>
    { core := u.core, quarter, uid := u.uid, pc := g.1, threads := g.2.2 }

/-- REGROUPING: the regrouping stage of a quarter forms its bundles anew (R17). -/
def execRegrouping (core quarter : Nat) (s : State) : Out :=
  let new := (s.units.filter (·.core == core)).flatMap fun u => s.bundlesOf u quarter
  .next { s with sched := { s.sched with bundles := (s.sched.bundles.filter fun b => !(b.core == core && b.quarter == quarter)) ++ new } }

/-- THREAD_URGENT: a thread that has been ready for 64 cycles became urgent then (R360). -/
def execThreadUrgent (uid crew lane : Nat) (s : State) : Out :=
  match s.unit? uid with
  | none => .next s
  | some u =>
    let th := (u.crew crew).thread lane
    if s.ready u crew lane && th.urgent.isNone && decide (th.readySince + 64 ≤ s.clk.now) then
      .next (s.mapThread ⟨uid, crew, lane⟩ fun (th : Thread) => { th with urgent := some (th.readySince + 64) })
    else .next s

/-! ## The order of service (R360) -/

/-- The least of the numbers, if there is one. -/
def least : List Nat → Option Nat
  | [] => none
  | x :: xs => some (xs.foldl min x)

/-- The threads of a bundle that still stand at its PC and are ready. -/
def State.bundleThreads (s : State) (b : Bundle) : List (Nat × Nat) :=
  match s.unit? b.uid with
  | none => []
  | some u => b.threads.filter fun q => s.ready u q.1 q.2 && ((u.crew q.1).thread q.2).pc == b.pc

/-- What ranks a bundle: since when it holds an urgent thread, its priority, the age of its oldest thread, its PC. -/
structure Rank where
  urgent : Option Nat
  prio : Nat
  oldest : Nat
  pc : Nat
  deriving DecidableEq, Repr

def State.rank (s : State) (b : Bundle) : Rank :=
  let ths := (s.bundleThreads b).map fun q => s.thread ⟨b.uid, q.1, q.2⟩
  { urgent := least (ths.filterMap fun th => if th.readySince + 64 ≤ s.clk.now then some (th.readySince + 64) else none), prio := match s.unit? b.uid with | some u => u.desc.prio | none => 0,
    oldest := (least (ths.map (·.readySince))).getD 0, pc := b.pc.toNat }

/-- R360: urgent bundles first, the one urgent for longest; then by priority, age and lowest PC. -/
def Rank.before (a b : Rank) : Bool :=
  match a.urgent, b.urgent with
  | some x, some y => decide (x < y) || (x == y && decide (a.pc < b.pc))
  | some _, none => true
  | none, some _ => false
  | none, none =>
    decide (b.prio < a.prio) || (a.prio == b.prio && (decide (a.oldest < b.oldest) || (a.oldest == b.oldest && decide (a.pc < b.pc))))

/-- The bundle that a quarter's path issues next (R360). -/
def State.bestBundle (s : State) : List Bundle → Option Bundle
  | [] => none
  | b :: bs => some (bs.foldl (fun o c => if (s.rank c).before (s.rank o) then c else o) b)

/-- A bundle goes to the uniform path of its quarter: a handler, or an instruction with U = 1 (R17, R46, R417). -/
def State.uniformPath (s : State) (b : Bundle) : Bool :=
  match s.bundleThreads b, s.unit? b.uid with
  | q :: _, some u => q.2 == 32 || bit (s.wordAt u (s.thread ⟨b.uid, q.1, q.2⟩)) 29
  | _, _ => false

/-- The quarters that have a ready thread. -/
def State.readyQuarters (s : State) : List (Nat × Nat) :=
  (s.units.flatMap fun u => (List.range u.crews.length).filterMap fun k =>
    if (s.readyLanes u k).isEmpty then none else some (u.core, (u.crew k).quarter)).eraseDups

end Sys2Proof.Machine
end

