-- ==== Sys2Proof/Machine/Traps.lean ====
section
/-! DEFINITION. Trap instructions, majors 0x7C, the events of traps and faults, and debug stops and commands (15_traps R410 to
R423, R433 to R437). -/

namespace Sys2Proof.Machine

/-! ## trap (R421) -/

def trapBody (v : View) : Body := fun s0 _ t _ act => .trap 5 (v.srcB s0 t act % 65536)

/-! ## resume (R422) -/

/-- A thread that stands at another PC has arrived nowhere. -/
def State.movePc (s : State) (t : Tid) (pc : DWord) : State :=
  let s := s.mapThread t fun th => { th with pc, arrival := none, latch := none, wrotePc := none }
  s.mapCrew t.uid t.crew fun c => { c with arrivals := c.arrivals.map fun a => a &&& ~~~(1#32 <<< t.lane) }

/-- Where a lane continues after the service of an event with the skip mask given (R422); none: it executes again. A skipped
lane whose word cannot be fetched stays, and takes the fetch fault there. -/
def State.resumePc (s : State) (u : RUnit) (skip : Nat) (e : TrapEvent) (l : Nat) (th : Thread) : Option DWord :=
  match th.wrotePc with
  | some pc => some pc
  | none =>
    if e.lanes.any (·.1 == l) && bit skip l then
      match s.fetchWord u th.ifMark 0 th.pc.toNat with
      | .ok w => some (th.pc + BitVec.ofNat 64 (4 * wordCount w))
      | .error _ => none
    else none

/-- The handler of a crew has served its event (R422); the step of a lane of the event ends (R437). -/
def State.resume (s : State) (uid crew skip : Nat) : State :=
  match s.unit? uid with
  | none => s
  | some u =>
    let c := u.crew crew
    match c.event with
    | none => s
    | some e =>
      let s := (List.range 32).foldl (fun s l =>
        let th := c.thread l
        if th.live then (match s.resumePc u skip e l th with | some pc => s.movePc ⟨uid, crew, l⟩ pc | none => s) else s) s
      (s.leaveHandler uid crew).stepped (e.lanes.map fun q => ⟨uid, crew, q.1⟩)

def resumeBody (v : View) : Body := fun s0 s t _ act => .went (s.resume t.uid t.crew (v.srcB s0 t act))

/-! ## hret (R423) -/

def hretBody (_ : View) : Body := fun _ s t rs _ =>
  match s.unit? t.uid with
  | none => .done s
  | some u =>
    let k := s.sys.getD (dieOf u.core) .reset
    if !k.evmask.getLsbD 0 then .fault { cause := 0x21 }
    else .went ({ s with sys := s.sys.modify (dieOf u.core) fun c => { c with evmask := 0 } }.setPcs rs k.evpc)

/-! ## USER_TRAP_ENTRY, FAULT -/

/-- USER_TRAP_ENTRY: a frozen crew that serves no event enters its handler for the first that is pending (R415, R416). -/
def execUserTrapEntry (uid crew : Nat) (s : State) : Out :=
  let c := s.crew uid crew
  match c.event, c.pending with
  | none, e :: es => .next ((s.mapCrew uid crew fun (c : Crew) => { c with pending := es, frozen := true, budget := c.budget.pause s.clk.now }).enterHandler uid crew e)
  | _, _ => .next s

/-- FAULT: a fault that a unit has met takes its effect (R410). -/
def execFault (uid : Nat) (s : State) : Out := .next (s.settleFault uid)

/-! ## Debug stops (R435, R436) -/

/-- A thread is about to execute at an enabled breakpoint (R435); one that has arrived, or has taken its value, is past that
(R195). -/
def State.atBreakpoint (s : State) (u : RUnit) (t : Tid) : Bool :=
  let c := s.ctx u.ctx
  let th := (u.crew t.crew).thread t.lane
  c.dbctl.getLsbD 0 && !u.isSystem && decide (t.lane < 32) && th.live && th.stop.isNone && !th.passBp && !th.arrived && th.latch.isNone &&
    c.bps.any fun b => b.getLsbD 0 && bits b.toNat 56 2 == bits th.pc.toNat 56 2

/-- Lanes of a crew stop under one handle with a record; in crew-stop mode the whole crew freezes (R435, R436). -/
def State.breakAt (s : State) (u : RUnit) (crew : Nat) (lanes : List Nat) : State :=
  let c := s.ctx u.ctx
  let whole := c.dbctl.getLsbD 1
  let stopped := if whole then (List.range 32).filter fun l => let th := (u.crew crew).thread l; th.live && th.stop.isNone else lanes
  let handle := s.freshHandle u.ctx
  let s := s.mapCtx u.ctx fun c => { c with nextHandle := handle }
  let s := if whole then (s.leaveWaits fun t => t.uid == u.uid && t.crew == crew && t.lane != 32).mapCrew u.uid crew (·.freeze s.clk.now) else s
  let s := stopped.foldl (fun s l => s.mapThread ⟨u.uid, crew, l⟩ fun th => { th with stop := some { handle, cause := 0x40 } }) s
  (s.stopRecord u crew 0x40 handle stopped).touch

/-- PC_BREAKPOINT: a thread about to execute at a breakpoint stops, and with it those of its crew in the same bundle (R435). -/
def execPcBreakpoint (uid crew lane : Nat) (s : State) : Out :=
  match s.unit? uid with
  | none => .next s
  | some u =>
    let t : Tid := ⟨uid, crew, lane⟩
    if !u.active || (u.crew crew).frozen || !s.atBreakpoint u t then .next s
    else
      let mates := match s.sched.issue with
        | some (i, ts) => if i = uid ∧ ts.contains (crew, lane) then (ts.filter fun q => q.1 == crew && s.atBreakpoint u ⟨uid, q.1, q.2⟩).map (·.2) else [lane]
        | none => [lane]
      .next (s.breakAt u crew mates)

/-! ## Stop handles (R434, R437) -/

/-- The threads of a crew, the handler last, that stand stopped under a handle. -/
def Crew.stoppedUnder (c : Crew) (h : Nat) : List Nat :=
  (List.range 33).filter fun l => match (c.thread l).stop with | some q => q.handle == h | none => false

/-- The unit under a stop handle. -/
def State.handleUnit (s : State) (ctx h : Nat) : Option RUnit := (s.unitsOf ctx).find? fun u => u.crews.any fun c => c.stoppedUnder h != [] || c.threads.any fun th => th.stepping == some h

/-- DSTAT bit 0 is set: a bad command or selection (R434). -/
def State.badDebug (s : State) (ctx : Nat) : State := s.mapCtx ctx fun c => { c with dstat := c.dstat ||| 1 }

/-- The whole crew is stopped by a crew-stop (R436). -/
def Crew.crewStopped (c : Crew) : Bool := c.frozen && c.event.isNone

/-- The threads on which a command acts (R434, R437): in crew-stop mode the whole crew, and so in a crew-stop; a handler cannot be
named by its lane. -/
def commanded (u : RUnit) (mode : Bool) (value : Nat) : List Tid :=
  let crew := bits value 20 16
  let c := u.crew crew
  ((c.stoppedUnder (value % 65536)).filter fun l => mode || c.crewStopped || l == 32 || bit value (32 + l)).map fun l => ⟨u.uid, crew, l⟩

/-- A command on the threads under an open handle; otherwise DSTAT bit 0 (R434). -/
def State.command (s : State) (ctx value action : Nat) (go : State → RUnit → List Tid → State) : State :=
  if bits value 23 22 ≠ action then s
  else
    match s.handleUnit ctx (value % 65536) with
    | none => s.badDebug ctx
    | some u => match commanded u ((s.ctx ctx).dbctl.getLsbD 1) value with
      | [] => s.badDebug ctx
      | ts => go s u ts

/-- Stopped threads go on, at the PC written for them if any; a crew-stop is over, but the budget of a parked unit's crew stands
until its restore (R430, R437). step: each stops again under its handle after one instruction; without it, in crew-stop mode, a step
that another thread of the crew still makes under the handle is over too. -/
def State.letGo (s : State) (u : RUnit) (ts : List Tid) (step : Bool) : State :=
  let crew := (ts.map (·.crew)).headD 0
  let c := u.crew crew
  let s := ts.foldl (fun s t =>
    let th := c.thread t.lane
    let s := match th.wrotePc with | some pc => s.movePc t pc | none => s
    s.mapThread t fun th => { th with stop := none, passBp := true, readySince := s.clk.now, urgent := none, stepping := if step then th.stop.map (·.handle) else none }) s
  let s := if (s.ctx u.ctx).dbctl.getLsbD 1 && !step then s.mapCrew u.uid crew (·.mapAll fun (th : Thread) => { th with stepping := none }) else s
  (if c.crewStopped then s.mapCrew u.uid crew fun (c : Crew) => { c with frozen := false, budget := if (s.unit? u.uid).isSome then c.budget.go s.clk.now else c.budget } else s).touch

def execDcmdContinue (ctx : Nat) (value : DWord) (s : State) : Out := .next (s.command ctx value.toNat 0 fun s u ts => s.letGo u ts false)
def execDcmdStep (ctx : Nat) (value : DWord) (s : State) : Out := .next (s.command ctx value.toNat 1 fun s u ts => s.letGo u ts true)

/-- The End command on a unit that no fault ends: it ends as by a fault, cause 0x2D; its record names every lane of the crew that
stands stopped under the handle (R410, R412, R437). -/
def State.endHeld (s : State) (u : RUnit) (t : Tid) (handle : Nat) : State :=
  let th := (u.crew t.crew).thread t.lane
  let flags := boolNat u.speculative + 2 * boolNat (t.lane == 32) + 4 * boolNat (u.task.atomic && u.task.isSealed)
  let lanes := (List.range 32).filter fun l => (((u.crew t.crew).thread l).stop).any (·.handle == handle)
  let s := s.addRecord u (recordBytes u t th.pc.toNat (s.wordAt u th) (maskOf lanes) flags handle { cause := 0x2D, detail := handle })
  match s.unit? u.uid with
  | some _ => ((if u.speculative then s.discardVersion u.uid else (s.releaseToken u.uid).stopEngines u.uid).leaveWaits (·.uid == u.uid)).mapUnit u.uid fun u =>
      { u.mapThreads (fun (th : Thread) => th.unwait.unstop) with fault := none, fate := .faulted, task := { u.task with phase := .none } }
  | none => s.endParked u 2

/-- The End command (R437): a fault that the unit has met takes its effect first, with its own record (R410). -/
def State.endByDebugger (s : State) (u : RUnit) (t : Tid) (handle : Nat) : State :=
  let s := s.settleFault u.uid
  match s.unitOf? u.uid with
  | some u => if u.fate == .faulted then s else s.endHeld u t handle
  | none => s

def execDcmdEnd (ctx : Nat) (value : DWord) (s : State) : Out :=
  .next (s.command ctx value.toNat 2 fun s u ts => (s.endByDebugger u (ts.headD ⟨u.uid, 0, 0⟩) (value.toNat % 65536)).touch)

/-- DCMD_REFUSED: the reserved action (R434). -/
def execDcmdRefused (ctx : Nat) (value : DWord) (s : State) : Out := .next (if bits value.toNat 23 22 = 3 then s.badDebug ctx else s)

/-! ## DSEL and DDATA (R434) -/

/-- The thread that DSEL selects, when it is stopped, alone or with its unit, or its crew is frozen; the kind and number with it. -/
def State.selected (s : State) (ctx : Nat) : Option (RUnit × Tid × XKind × Bool × Nat) :=
  let d := (s.ctx ctx).dsel.toNat
  match s.handleUnit ctx (d % 65536), XKind.ofCode (bits d 28 27) with
  | some u, some kind =>
    let crew := bits d 20 16
    let lane := if bit d 26 then 32 else bits d 25 21
    let c := u.crew crew
    let th := c.thread lane
    let n := bits d 39 32
    let fits := match kind with
      | .gpr => decide (n < th.regs.length)
      | .pred => decide (n < 128)
      | .fsr | .pc => n == 0
    if decide (crew < u.crews.length) && fits && (th.stop.isSome || c.frozen || u.isHeld) then some (u, ⟨u.uid, crew, lane⟩, kind, bit d 29, n) else none
  | _, _ => none

/-- DDATA holds a value. -/
def State.holdDdata (s : State) (ctx v : Nat) : State := s.mapCtx ctx fun c => { c with ddata := BitVec.ofNat 64 v }

/-- A read of DDATA: what xget would give; for a bad selection DSTAT bit 0, and what DDATA held, which does not change (log 56). -/
def State.ddata (s : State) (ctx : Nat) : Nat × State :=
  match s.selected ctx with
  | none => ((s.ctx ctx).ddata.toNat, s.badDebug ctx)
  | some (u, t, kind, fe, n) =>
    let th := (u.crew t.crew).thread t.lane
    let v := if kind = .fsr ∧ th.live then (s.ctx ctx).te * 256 + th.fsr.toNat else xgetValue kind fe .b32 n th
    (v, s.holdDdata ctx v)

/-- A write of DDATA: as xput does. -/
def State.putDdata (s : State) (ctx value : Nat) : State :=
  match s.selected ctx with
  | none => s.badDebug ctx
  | some (u, t, kind, _, n) =>
    let s := s.holdDdata ctx value
    let th := (u.crew t.crew).thread t.lane
    if !th.live then s
    else if kind = .pc ∧ t.lane = 32 then s.setPcs [t] (BitVec.ofNat 64 (value / 4 * 4))
    else
      let s := s.mapThread t (Thread.patch kind 1 n value)
      if kind = .gpr then s.mapUnit t.uid (·.displace t n 1) else s

def execDdataRead (ctx : Nat) (s : State) : Out :=
  let (v, s) := s.ddata ctx
  .next (s.send (.value (BitVec.ofNat 64 v)))

def execDdataWrite (ctx : Nat) (value : DWord) (s : State) : Out := .next (s.putDdata ctx value.toNat)

/-! ## Meanings -/

def execTrap (x : Form) (s : State) : Out := issue (.trap x) (eachThread trapBody) s
def execResume (x : Form) (s : State) : Out := issue (.resume x) (eachThread resumeBody) s
def execHret (x : Form) (s : State) : Out := issue (.hret x) (eachThread hretBody) s

end Sys2Proof.Machine
end

