-- ==== Sys2Proof/Machine/Preempt.lean ====
section
/-! DEFINITION. Pre-emption, context images, ctxsave and ctxload (15_traps R424 to R432; 16_translation_system R455, R456;
09_memory R241; 12_tasks_grades R314). -/

namespace Sys2Proof.Machine

/-! ## The form of a pre-emption (R425, R426) -/

/-- Entries that an isle's parked-unit table holds (R431). -/
def State.parkedOn (s : State) (isle : Nat) : Nat := (s.images.filter fun m => m.parkedIsle == some isle).length

/-- Other units of an isle that are being saved with granules lent or posted. -/
def State.parkingOn (s : State) (isle uid : Nat) : Nat := (s.units.filter fun u => isleOf u.core == isle && u.uid != uid && u.fate == .saving && !u.speculative && u.sharing).length

/-- A unit whose granules are lent or posted needs an entry of its isle's parked-unit table that no unit has or is about to take
(R425, R431). -/
def State.mayPark (s : State) (u : RUnit) : Bool := !u.sharing || decide (s.parkedOn (isleOf u.core) + s.parkingOn (isleOf u.core) u.uid < 16)

/-- The forms of pre-emption (R425). -/
inductive Preemption where
  | drain | flush | save
  deriving DecidableEq, Repr

/-- The form that the core chooses; none: the request is withdrawn (R425, R426). -/
def State.preemptForm (s : State) (u : RUnit) (mayDrain : Bool) : Option Preemption :=
  if mayDrain && (match u.progress with | some p => decide (57344 ≤ p) | none => false) then some .drain
  else if u.speculative then some .flush
  else if s.mayPark u then some .save
  else if mayDrain then some .drain
  else none

/-- The unit's threads stop, and those that wait leave their waits (R428, steps 1 and 2). -/
def State.stopIssue (s : State) (uid : Nat) : State :=
  ((s.leaveWaits (·.uid == uid)).mapUnit uid fun u => { u.mapThreads Thread.unwait with fate := .saving }).touch

/-- A unit comes under pre-emption in a form. -/
def State.startForm (s : State) (uid : Nat) (f : Preemption) : State :=
  match f with
  | .drain => (s.mapUnit uid fun u => { u with fate := .draining s.clk.now }).touch
  | .flush | .save => s.stopIssue uid

/-- A unit that may be pre-empted: it runs, is not under pre-emption, and is not held for the debugger (R410, R424). -/
def RUnit.preemptable (u : RUnit) : Bool := !u.isSystem && u.fate == .running && u.fault.isNone && !u.isHeld

/-- A request for the pre-emption of a resident unit (R424, R425). -/
def State.preempt (s : State) (uid : Nat) : State :=
  match s.unit? uid with
  | none => s
  | some u => if u.preemptable then (match s.preemptForm u true with | some f => s.startForm uid f | none => s) else s

/-- The request is withdrawn: the unit runs on (R426). -/
def State.withdraw (s : State) (uid code : Nat) : State :=
  ((s.mapUnit uid fun u => { u with fate := .running }).answerSave uid code).touch

/-- PREEMPT_REQUEST: a context switch of the core, or a request of the host through the privileged path (R424, R425). -/
def execPreemptRequest (uid : Nat) (s : State) : Out := .next (s.preempt uid)

/-- A die may receive a unit of a launch: the hinted one, or any that the launch names (R344, R358). -/
def State.dieFor (s : State) (d : Desc) (index die : Nat) : Bool :=
  match s.hinted d index with
  | some core => dieOf core == die
  | none => d.dies.contains die

/-- A waiting unit of a launch, whose scratch slot is free, would fit without a unit of lower priority (R346, R358, R424). -/
def State.makesRoom (s : State) (l : Launch) (index : Nat) (v : RUnit) : Bool :=
  decide (v.desc.prio < l.desc.prio) && s.slotFree l index && s.dieFor l.desc index (dieOf v.core) && (s.dropUnit v.uid).fitsCore l.desc v.core

/-- PREEMPT_PRIORITY_WAIT: a unit of higher priority has waited 65,536 cycles for a fit on the die (R424); the system core's
source 7 is due as well (R460). -/
def execPreemptPriorityWait (launch index victim : Nat) (s : State) : Out :=
  match s.launch? (BitVec.ofNat 32 launch), s.unit? victim with
  | some l, some v =>
    let late := l.state == .started && (l.unitRec index).at_ == .unplaced && s.work.waiting.any fun w => w.1 == l.id && w.2.1 == index && decide (w.2.2 + 65536 ≤ s.clk.now)
    if !late || !v.preemptable || (s.placeable l).isSome || !s.makesRoom l index v then .next s
    else
      let s := s.preempt victim
      .next { s with sys := s.sys.modify (dieOf v.core) fun c => { c with pending := c.pending ++ [({ source := 7, info := v.core % 512 + 65536 * v.slot, thread := none } : SysSource)] } }
  | _, _ => .next s

/-- DRAIN_TIMEOUT: 2^20 cycles after the request the choice is made again without the drain (R426); not while the unit is held after
a fault (R410). -/
def execDrainTimeout (uid : Nat) (s : State) : Out :=
  match s.unit? uid with
  | none => .next s
  | some u =>
    match u.fate with
    | .draining since =>
      if s.clk.now < since + 2 ^ 20 ∨ u.fault.isSome ∨ u.isHeld then .next s
      else (match s.preemptForm u false with
        | some f => .next (s.startForm uid f)
        | none => .next (s.withdraw uid 0x44))
    | .running | .saving | .faulted | .cancelled | .stopped | .ended => .next s

/-! ## Images (R429) -/

/-- The bytes of a unit's image: the header, and what Jorlan's own layout takes. -/
def RUnit.imageSize (u : RUnit) : Nat := 256 + (Config.imageBody u.desc.crews u.desc.regs u.desc.loc).toNat

/-- An address at which an image of n bytes fits in the save pool of a context. -/
def Context.inPool (c : Context) (a n : Nat) : Bool := decide (c.spbase.toNat ≤ a) && decide (a + n ≤ c.spbase.toNat + c.spsize.toNat)

/-- An open stop handle of a unit, or 0. -/
def RUnit.handle (u : RUnit) : Nat :=
  (u.crews.findSome? fun c => (c.handler :: c.threads).findSome? fun th => th.stop.map (·.handle)).getD 0

/-- The header of an image (R429). -/
def RUnit.header (u : RUnit) (kind : Nat) : List Byte :=
  leBytes 1 kind ++ leBytes 1 u.desc.crews ++ leBytes 2 u.desc.regs ++
  leBytes 4 (boolNat (u.task.atomic && u.task.isSealed) + 2 * boolNat u.triggered + 4 * boolNat (u.handle != 0) + 8 * boolNat u.sharing) ++
  leBytes 4 u.launch.toNat ++ leBytes 2 u.handle ++ leBytes 2 0 ++ leBytes 8 u.index ++ leBytes 8 u.imageSize ++ List.replicate 224 0

/-- A header that R429 allows. -/
def headerOk (b : List Byte) : Bool :=
  (field b 0 1 == 1 || field b 0 1 == 2) && decide (1 ≤ field b 1 1) && decide (field b 1 1 ≤ 32) && decide (32 ≤ field b 2 2) &&
  decide (field b 2 2 ≤ 256) && field b 2 2 % 8 == 0 && field b 4 4 / 16 == 0 && field b 0x0E 2 == 0 && (b.drop 0x20).all (· == 0)

/-- Where the image of a unit goes: the address that ctxsave named, or the next free bytes of the pool; none when the pool has
no room for it there (R429, R455). -/
def State.imageAt (s : State) (u : RUnit) : Option (Nat × State) :=
  match s.ops.find? fun o => (o.kind matches .ctxsave) && o.args.headD 0 == u.uid with
  | some o => if (s.ctx u.ctx).inPool (o.args.getD 1 0) u.imageSize then some (o.args.getD 1 0, s) else none
  | none =>
    let c := s.ctx u.ctx
    let a := (c.spbase.toNat + c.spUsed + 255) / 256 * 256
    if c.inPool a u.imageSize then some (a, s.mapCtx u.ctx fun c => { c with spUsed := a + u.imageSize - c.spbase.toNat }) else none

/-- A core that no unit has: that of the accesses of a parked unit. -/
def noCore : Nat := 1023

/-- The accesses and operations of a unit take a core's number. -/
def State.moveWork (s : State) (uid core : Nat) : State :=
  { s with
    txns := s.txns.map fun (x : Txn) => if x.tid.uid = uid then { x with core } else x,
    ops := s.ops.map fun (o : Op) => if o.tid.uid = uid then { o with core } else o }

/-- A unit leaves its core for an image at an address (R428, step 5; R429, R431). -/
def State.park (s : State) (u : RUnit) (a kind : Nat) : State :=
  let s := s.performPhysical a (u.header kind) .thr
  let crews := u.crews.map fun (c : Crew) => { c with budget := c.budget.pause s.clk.now }
  let m : Image := { addr := a, kind, unit := { u with crews, fate := .running }, parkedIsle := if u.sharing then some (isleOf u.core) else none }
  let s := (s.dropUnit u.uid).moveWork u.uid noCore
  let s : State := { s with images := s.images.filter (fun (q : Image) => q.addr != a || q.unit.sharing) ++ [m] }
  (s.mapLaunch u.launch fun l => l.mapRec u.index fun (r : UnitRec) => { r with at_ := .parked }).touch

/-! ## SAVE (R190, R236, R279, R304, R407, R428) -/

/-- An operation for which a save waits (R428, step 3; R463). -/
def Op.delaysSave (o : Op) : Bool :=
  match o.kind with
  | .mma _ | .bload | .mdrain | .mzero | .mcst | .dprop _ => true
  | .copy _ => copyDstSpace o.block == .localMem
  | .rld => o.args.getD 3 0 == 1
  | .pft | .dapp | .dclr | .rld3 | .ctxsave | .ctxload => false

/-- Nothing for which a save waits is left of a unit; fabric writes and atomics are not waited for (R428). -/
def State.saveReady (s : State) (uid : Nat) : Bool :=
  (s.txns.all fun x => x.tid.uid != uid || (x.kind matches .rst _ | .ratom ..)) &&
  (s.ops.all fun o => o.tid.uid != uid || !o.delaysSave) &&
  (s.work.fills.all fun f => f.tid.uid != uid)

/-- SAVE: once its operations have finished, the image of the unit is written and its resources are freed (R428). A pool
without room for it withdraws the request (R455), and so does a parked-unit table that is full by now (R426, R431). A unit that is
held after a fault stays resident (R410). -/
def execSave (uid : Nat) (s : State) : Out :=
  match s.unit? uid with
  | none => .next s
  | some u =>
    if u.fate != .saving || u.speculative || u.fault.isSome || u.isHeld || !s.saveReady uid then .next s
    else if !s.mayPark u then .next (s.withdraw uid 0x44)
    else
      let s := s.releaseToken uid
      match s.imageAt u with
      | none => .next (s.withdraw uid 0xA3)
      | some (a, s) => .next ((s.park u a 1).answerSave uid 0x40).touch

/-! ## FLUSH_AND_RESTART (R314, R427) -/

/-- The version of an unsealed task is discarded: in its first chunk the unit is unplaced again, in a later one it is imaged
(R427). -/
def execFlushAndRestart (uid : Nat) (s : State) : Out :=
  match s.unit? uid with
  | none => .next s
  | some u =>
    if u.fate != .saving || !u.speculative || u.fault.isSome || s.numbered uid then .next s
    else
      let s := ((s.restartTask uid false none).releaseToken uid).mapUnit uid fun u => { u with task := { u.task with phase := .none } }
      match u.task.checkpoint, s.unit? uid with
      | none, some v =>
        let budget := v.crews.map fun c => c.budget.pause s.clk.now
        let handlers := v.crews.map (·.handler)
        let s := s.mapLaunch v.launch fun l => l.mapRec v.index fun (r : UnitRec) => { r with at_ := .unplaced, again := true, budget, handlers, restarts := v.task.restarts, sealFirst := v.task.sealFirst, runs := v.task.runs, depth := v.task.depth }
        .next ((s.answerSave uid 0x42).leaveCore v).settleLevels
      | some _, some v =>
        (match s.imageAt v with
        | none => .next (s.withdraw uid 0xA3)
        | some (a, s) => .next ((s.park v a 2).answerSave uid 0x43).touch)
      | _, none => .next s

/-! ## RESTORE (R241, R359, R430) -/

/-- The core on which a parked unit is placed (R359): of its own isle while it holds or lends buffers (R241). -/
def State.restoreCore (s : State) (u : RUnit) : Option Nat :=
  if u.sharing || !u.borrowed.isEmpty then
    s.bestCore (((List.range 8).map (isleOf u.core * 8 + ·)).filter (s.fitsCore u.desc))
  else s.coreFor u.desc u.index

/-- A unit reloaded on a core from its image (R430): everything but core, slot and quarters keeps its value. -/
def State.reloaded (s : State) (u : RUnit) (core : Nat) : RUnit :=
  let qs := quartersFor ((List.range 4).map (s.quarterLoad core)) u.crews.length
  let now := s.clk.now
  let th := fun (th : Thread) => { th with readySince := now, urgent := none, tried := 0 }
  let crews := (List.range u.crews.length).map fun i =>
    let c := u.crew i
    { c.mapAll th with handler := th c.handler, quarter := qs.getD i 0, budget := if c.frozen then c.budget else c.budget.go now }
  { u with core, slot := s.freeSlot core, crews, fate := .running }

/-- The debug stops of a restored unit are recorded anew with their handles (R432). -/
def State.restop (s : State) (u : RUnit) : State :=
  (List.range u.crews.length).foldl (fun s c =>
    let stops := (List.range 32).filterMap fun l => ((u.crew c).thread l).stop.map fun q => (l, q)
    (stops.map (·.2)).eraseDups.foldl (fun s q =>
      if q.cause = 0 then s else s.stopRecord u c q.cause q.handle ((stops.filter (·.2 == q)).map (·.1))) s) s

/-- The launch of an image is live. -/
def State.imageLive (s : State) (m : Image) : Bool :=
  match s.launch? m.unit.launch with
  | some l => l.state != .cancelled && !m.unit.crews.isEmpty
  | none => false

/-- RESTORE: a ctxload places its image's unit as soon as a core fits; a flagged task first takes the token of its new die
(R430, R456). -/
def execRestore (op : Nat) (s : State) : Out :=
  match s.op? op with
  | none => .next s
  | some o =>
    if !(o.kind matches .ctxload) then .next s
    else
      let a := o.args.headD 0
      match s.images.find? (·.addr == a) with
      | none => .next (s.finishOp o (statusWord 0xA0 0))
      | some m =>
        if !headerOk (cellsGet s.mem a 256) || !s.imageLive m then .next (s.finishOp o (statusWord 0xA0 0))
        else
          match s.restoreCore m.unit with
          | none => .next s
          | some core =>
            let retake := m.unit.task.atomic && m.unit.task.isSealed
            if s.host.noPlace || (retake && s.commits.tokens.any (·.1 == dieOf core)) then .next s
            else
              let u := s.reloaded m.unit core
              let s := State.moveWork { s with images := s.images.filter (· != m), units := s.units ++ [u] } u.uid core
              let s : State := if retake then { s with commits := { s.commits with tokens := (dieOf core, u.uid) :: s.commits.tokens } } else s
              let s := s.mapLaunch u.launch fun l => l.mapRec u.index fun (r : UnitRec) => { r with at_ := .resident u.uid }
              let s := (s.finishOp o 0).restop u
              let s := if u.speculative && u.task.sealFirst then s.beginCommit u.uid .seal else s
              .next (s.act u.ctx).touch

/-! ## ctxsave and ctxload (R455, R456) -/

/-- An operation that completes as it is accepted. -/
def acceptDone (s : State) (t : Tid) (d : Nat) (rs : List Tid) (kind : OpKind) (code : Nat) : TRes :=
  match acceptOp s t d rs { kind } with
  | .done q => (match q.ops.getLast? with
    | some o => if o.tid = t ∧ o.kind = kind then .done (q.finishOp o (statusWord code 0)) else .done q
    | none => .done q)
  | r => r

def ctxsaveBody (v : View) : Body := fun s0 s t rs act =>
  let w := v.srcA s0 t act
  let a := v.srcB s0 t act
  let d := v.x.d.toNat
  match s.units.find? fun u => !u.isSystem && u.fate != .ended && u.core == bits w 8 0 && u.slot == bits w 19 16 with
  | none => acceptDone s t d rs .ctxsave 0xA0
  | some u =>
    let c := s.ctx u.ctx
    if a % 256 ≠ 0 ∨ !c.inPool a 1 then acceptDone s t d rs .ctxsave 0xA0
    else if u.fate == .saving || (u.fate matches .draining _) then acceptDone s t d rs .ctxsave 0xA1
    else if !u.preemptable then acceptDone s t d rs .ctxsave 0xA0
    else
      let imaged := match s.preemptForm u true with
        | some .save => true
        | some .flush => u.task.checkpoint.isSome
        | some .drain | none => false
      if imaged && !c.inPool a u.imageSize then acceptDone s t d rs .ctxsave 0xA3
      else
        match acceptOp s t d rs { kind := .ctxsave, args := [u.uid, a] } with
        | .done s => .done (s.preempt u.uid)
        | r => r

def ctxloadBody (v : View) : Body := fun s0 s t rs act =>
  acceptOp s t v.x.d.toNat rs { kind := .ctxload, args := [v.srcA s0 t act] }

/-! ## Meanings -/

def execCtxsave (x : Form) (s : State) : Out := issue (.ctxsave x) (eachThread ctxsaveBody) s
def execCtxload (x : Form) (s : State) : Out := issue (.ctxload x) (eachThread ctxloadBody) s

end Sys2Proof.Machine
end

