-- ==== Sys2Proof/Machine/System.lean ====
section
/-! DEFINITION. Shootdowns, pin windows, system registers and the events of the system cores, major 0x7D (16_translation_system
R449 to R460; 09_memory R225; 12_tasks_grades R318; 15_traps R412; 17_generation_host R481 for a context's measurement). -/

namespace Sys2Proof.Machine

/-! ## SHA-256, for measurements (R481) -/

/-- The primes below a number. -/
def primesBelow (n : Nat) : List Nat := (List.range n).filter fun k => decide (2 ≤ k) && (List.range k).all fun d => decide (d < 2) || k % d != 0

/-- The largest number of b bits, added to r, whose k-th power is at most n. -/
def rootFrom (k n : Nat) : Nat → Nat → Nat
  | 0, r => r
  | b + 1, r => rootFrom k n b (if (r + 2 ^ b) ^ k ≤ n then r + 2 ^ b else r)

/-- The first 32 bits of the fraction of the k-th root of p, for a root below 16. -/
def rootFraction (k p : Nat) : Nat := rootFrom k (p * 2 ^ (32 * k)) 36 0 % 2 ^ 32

/-- The round constants of SHA-256 come from the cube roots of the first 64 primes. -/
def shaK : List Nat := (primesBelow 312).map (rootFraction 3)

/-- The initial hash value comes from the square roots of the first 8 primes. -/
def shaInit : List Word := (primesBelow 20).map fun p => BitVec.ofNat 32 (rootFraction 2 p)

/-- A big-endian word of four bytes. -/
def beWord (b : List Byte) : Word := BitVec.ofNat 32 (b.foldl (fun n x => n * 256 + x.toNat) 0)

/-- The four bytes of a word, most significant first. -/
def beBytes (w : Word) : List Byte := [24, 16, 8, 0].map fun k => BitVec.ofNat 8 (w.toNat / 2 ^ k)

/-- A word rotated right by two amounts and combined with a third word. -/
def twist (a b : Nat) (w z : Word) : Word := w.rotateRight a ^^^ (w.rotateRight b ^^^ z)

/-- The message schedule, latest word first, extended by n words. -/
def shaExtend : Nat → List Word → List Word
  | 0, ws => ws
  | n + 1, ws =>
    let w := fun k => ws.getD k 0
    shaExtend n ((twist 7 18 (w 14) (w 14 >>> 3) + twist 17 19 (w 1) (w 1 >>> 10) + w 6 + w 15) :: ws)

/-- One round on the eight working words. -/
def shaRound (v : List Word) (kw : Nat × Word) : List Word :=
  let x := fun k => v.getD k 0
  let chosen := x 6 ^^^ (x 4 &&& (x 5 ^^^ x 6))
  let most := (x 0 &&& x 1) ||| (x 2 &&& (x 0 ||| x 1))
  let t := twist 6 11 (x 4) ((x 4).rotateRight 25) + chosen + kw.2 + BitVec.ofNat 32 kw.1 + x 7
  (twist 2 13 (x 0) ((x 0).rotateRight 22) + most + t) :: x 0 :: x 1 :: x 2 :: (x 3 + t) :: (v.drop 4).take 3

/-- The hash value after one block of 64 bytes. -/
def shaBlock (h : List Word) (b : List Byte) : List Word :=
  let first := ((List.range 16).map fun i => beWord ((b.drop (4 * i)).take 4)).reverse
  let v := (shaK.zip (shaExtend 48 first).reverse).foldl shaRound h
  (h.zip v).map fun p => p.1 + p.2

/-- SHA-256 of a message. -/
def sha256 (m : List Byte) : List Byte :=
  let n := m.length
  let len := (List.range 8).reverse.map fun k => BitVec.ofNat 8 (8 * n / 2 ^ (8 * k))
  let p := m ++ [0x80#8] ++ List.replicate ((119 - n % 64) % 64) 0 ++ len
  ((List.range (p.length / 64)).foldl (fun h i => shaBlock h ((p.drop (64 * i)).take 64)) shaInit).flatMap beBytes

/-- The bytes of every page table reachable from a table of a level, each before those that it points to (R445, R481). -/
def tableBytes (mem : List Host.Cell) : Nat → Nat → List Byte
  | 0, table => cellsGet mem table (if (List.range 512).any fun i => let e := pte mem (table + 8 * i); bit e 0 && bit e 6 then 8192 else 4096)
  | lvl + 1, table =>
    cellsGet mem table 4096 ++ (List.range 512).flatMap fun i =>
      let e := pte mem (table + 8 * i)
      if pointerOk (lvl + 1) e then tableBytes mem lvl (ptePa e) else []

/-- The measurement of a context (R481). -/
def State.measure (s : State) (ctx : Nat) : List Byte :=
  let c := s.ctx ctx
  sha256 ([c.ptroot, c.rtbase, c.vgrant].flatMap (fun r => leBytes 8 r.toNat) ++ c.peermeas.flatMap (fun r => leBytes 8 r.toNat) ++
    (List.range 256).flatMap (fun i => leBytes 8 ((assocGet c.exportTab i).getD 0).toNat) ++ tableBytes s.mem 4 c.ptroot.toNat)

/-! ## Purges of ranges (R225, R450) -/

/-- Slices write back and drop the lines of a range, and the cores purge them from their L1s. -/
def State.purgeRange (s : State) (ctx base : Nat) (len : Option Nat) : State :=
  let c := s.caches
  let out := fun (k line : Nat) => !(k == ctx && inRange base len (line * 128))
  ({ s with caches := { c with slines := c.slines.filter fun (l : SLine) => out l.ctx l.line, l1 := c.l1.filter fun (l : L1Line) => out l.ctx l.line, l1i := c.l1i.filter fun (l : ILine) => out l.ctx l.line } }.mapCtx ctx fun c =>
    { c with purges := { base, len, core := none, step := s.clk.stepNo } :: if len.isSome then c.purges else [] }).touch

/-! ## shoot and shootsync (R450, R451) -/

def shootBody (v : View) : Body := fun s0 s t _ act =>
  let a := v.srcA s0 t act
  let pages := v.srcB s0 t act
  let ctx := v.srcC s0 t
  if a % 4096 ≠ 0 ∨ 2 ^ 57 ≤ a ∨ ctx = 0 ∨ 511 < ctx then memFault rRange a
  else
    if s.outstanding t true true false then .wait .accesses s
    else
      reporting s t <|
      let (id, s) := s.newId
      let sh : Shoot := { id, by_ := some t, ctx, base := a, len := if pages = 0 then none else some (pages * 4096), waits := [], done := false }
      .done { s with shoots := s.shoots ++ [sh] }

/-- A translation maps a part of a shootdown's range (R450). -/
def Shoot.covers (sh : Shoot) (l : Leaf) : Bool :=
  match sh.len with
  | none => true
  | some n => decide (l.va < sh.base + n) && decide (sh.base < l.va + l.size)

/-- Accesses that a slice has accepted under a translation that a shootdown drops, and that have not performed or failed
(R451). -/
def State.acceptedIn (s : State) (sh : Shoot) : List Nat :=
  (s.txns.filter fun x => x.ctx == sh.ctx && x.space == .global && x.leaf.any sh.covers && (x.phase matches .accepted | .sleeping)).map (·.id)

/-- An access has performed or failed, or is gone. -/
def State.settledTxn (s : State) (id : Nat) : Bool :=
  match s.txn? id with
  | none => true
  | some x => match x.phase with
    | .performed _ | .failed _ => true
    | .issued | .accepted | .sleeping | .resend => false

/-- An unsealed task holds a version line or a read mark in a range (R318). -/
def RUnit.holdsIn (u : RUnit) (base : Nat) (len : Option Nat) : Bool :=
  u.task.version.any (fun b => inRange base len b.va) || u.task.rsig.any fun k => k.space == .global && inRange base len (k.line * 128)

/-- The four steps of a shootdown (R450); falseHits are further tasks of the context whose summaries hit without cause (R318). -/
def State.shootNow (s : State) (sh : Shoot) (falseHits : List Nat) : State :=
  let waits := s.acceptedIn sh
  let s := State.purgeRange { s with caches := { s.caches with tlbs := s.caches.tlbs.filter fun (e : Tlb) => !(e.ctx == sh.ctx && sh.covers e.leaf) } } sh.ctx sh.base sh.len
  let hits := (s.units.filter fun u => u.ctx == sh.ctx && u.speculative && u.inRun && (u.holdsIn sh.base sh.len || (falseHits.contains u.uid && u.signs))).map (·.uid)
  let s := hits.foldl (fun s uid => s.restartTask uid true none) s
  { s with shoots := s.shoots.map fun (q : Shoot) => if q.id = sh.id then { q with waits, done := true } else q }

/-- SHOOTDOWN: the four steps of a shootdown that has been started (R450). -/
def execShootdown (id : Nat) (falseHits : List Nat) (s : State) : Out :=
  match s.shoots.find? fun q => q.id == id && !q.done with
  | none => .next s
  | some sh => .next (s.shootNow sh falseHits).touch

/-- shootsync: every shootdown of the thread has finished, and what was accepted under the dropped translations has performed
or failed (R451). -/
def shootsyncBody (_ : View) : Body := fun _ s t _ _ =>
  let mine := s.shoots.filter (·.by_ == some t)
  if mine.all fun q => q.done && q.waits.all s.settledTxn then .done { s with shoots := s.shoots.filter (·.by_ != some t) }
  else .wait .system s

/-! ## pinset and pincap (R225, R453, R454) -/

def pinsetBody (v : View) : Body := fun s0 s t rs act =>
  match s.unit? t.uid with
  | none => .done s
  | some u =>
    let a := v.srcA s0 t act
    let n := v.srcB s0 t act % 16
    match s.blockBad t.uid a 16 16 with
    | some b => b.res a
    | none =>
      if u.task.atomic then statusTo v s rs 3
      else
        let d := s.loadLocal t.uid a 16
        let w : PinWin := { base := field d 0 8, len := field d 8 4, mask := field d 12 4 }
        if w.base % 65536 ≠ 0 ∨ 2 ^ 57 ≤ w.base ∨ 2 ^ 57 < w.base + w.len * 65536 then statusTo v s rs 2
        else
          let old := assocGet (s.ctx u.ctx).pinw n
          let s := match old with | some o => s.purgeRange u.ctx o.base (some (o.len * 65536)) | none => s
          let s := s.purgeRange u.ctx w.base (some (w.len * 65536))
          let s := s.mapCtx u.ctx fun c => { c with pinw := if w.len = 0 then c.pinw.filter (·.1 != n) else assocSet c.pinw n w }
          statusTo v s.touch rs 0

/-- The pinned ways of a slice that contexts but one hold. -/
def State.otherPins (s : State) (ctx slice : Nat) : Nat :=
  (s.ctxs.filter (·.1 != ctx)).foldl (fun n c => n + (assocGet c.2.pincap slice).getD 0) 0

/-- A pinned line that a lowered capacity moves into a normal way: as many lines of its set and context have a higher EP, or
the same and were used later (R454). -/
def State.displaced (s : State) (slice ctx ways : Nat) (l : SLine) : Bool :=
  let mates := s.caches.slines.filter fun q => q.slice == slice && q.ctx == ctx && q.use == .pinned && sliceSet q.line == sliceSet l.line
  l.slice == slice && l.ctx == ctx && l.use == .pinned &&
    decide (ways ≤ ((mates.filter fun q => decide (l.ep < q.ep)).length + ((mates.filter fun q => q.ep == l.ep).takeWhile (· != l)).length))

/-- The pinned capacity of a context at a slice is set (R224, R454). -/
def State.setPincap (s : State) (ctx ways slice : Nat) : State :=
  let c := s.caches
  let s : State := { s with caches := { c with slines := c.slines.map fun (l : SLine) => if s.displaced slice ctx ways l then { l with use := .normal } else l } }
  let s := s.mapCtx ctx fun c => { c with pincap := if ways = 0 then c.pincap.filter (·.1 != slice) else assocSet c.pincap slice ways }
  let sets := ((s.caches.slines.filter fun l => l.slice == slice && l.use == .normal).map fun l => sliceSet l.line).eraseDups
  sets.foldl (fun s set => s.fitSet ctx slice set .normal 0) s

def pincapBody (v : View) : Body := fun s0 s t rs act =>
  let ctx := v.srcA s0 t act
  let b := v.srcB s0 t act
  let ways := v.srcC s0 t
  if ctx = 0 ∨ 511 < ctx ∨ 6 < ways then statusTo v s rs 2
  else
    let slices := if b = 0xFFFFFFFF then List.range 256 else [b % 256]
    if slices.any fun k => decide (6 < s.otherPins ctx k + ways) then statusTo v s rs 1
    else statusTo v (slices.foldl (fun s k => s.setPincap ctx ways k) s) rs 0

/-! ## CTXCTL and the end of a job (R355, R458) -/

/-- A context has a resident or parked unit. -/
def State.hasUnits (s : State) (ctx : Nat) : Bool :=
  (s.units.any fun u => u.ctx == ctx && !u.isSystem && u.fate != .ended) || s.images.any fun m => m.unit.ctx == ctx && !m.unit.crews.isEmpty

/-- The job of a context ends: its record is written; windows, keys, known grade records, cached routine images and draft
sequences are gone (R336, R354, R355, R458, R461). -/
def State.endJob (s : State) (ctx : Nat) : State :=
  let c := s.ctx ctx
  let s := s.deviceStore ctx 0 c.jobrec.toNat (c.job.tally.levelBytes c.job.faults (if c.job.cancelled then 2 else 1))
  let s := (c.keys.flatMap (·.parts)).foldl (fun s p => s.setHolder p.1 p.2 .own none) s
  let s := s.mapCtx ctx fun c => { c with keys := [], windows := [], attested := [], linkKeys := [], job := LevelAcc.zero }
  State.reap { s with
    caches := { s.caches with images := s.caches.images.filter fun (i : RImage) => i.ctx != ctx },
    grades := { s.grades with known := s.grades.known.filter (·.1 != ctx), regs := s.grades.regs.filter fun (g : Registration) => g.ctx != ctx },
    draft := s.draft.filter fun (d : DSeq) => d.ctx != ctx }

/-- An encryption domain has been created while a valid context names it: one that is named for the first time gets a key pair, and
the key pair of one that is named no longer is destroyed (R484; log 11). -/
def State.settleDomains (s : State) : State :=
  let named := ((s.ctxs.filter fun c => c.2.ctxctl.getLsbD 0).map fun c => bits c.2.ctxctl.toNat 23 16).eraseDups.filter (· != 0)
  let s : State := { s with host := { s.host with domKeys := s.host.domKeys.filter fun q => named.contains q.1 } }
  (named.filter fun d => (assocGet s.host.domKeys d).isNone).foldl (fun s d =>
    let (k, s) := s.free
    { s with host := { s.host with domKeys := assocSet s.host.domKeys d (k + 1) } }) s

/-- The bits of CTXCTL that are not reserved. -/
def ctxctlMask : DWord := 0x0000FFFF00FF1F03

/-- A write to CTXCTL (R458): one that clears valid while the context has a unit is ignored; setting confidential takes the
context's measurement (R481). -/
def State.writeCtxctl (s : State) (ctx : Nat) (v : DWord) : State :=
  let old := (s.ctx ctx).ctxctl
  let v := v &&& ctxctlMask
  let clears := old.getLsbD 0 && !v.getLsbD 0
  if clears && s.hasUnits ctx then s
  else
    let s := if clears then s.endJob ctx else s
    let cmeas := if v.getLsbD 1 && !old.getLsbD 1 then s.measure ctx else if v.getLsbD 1 then (s.ctx ctx).cmeas else []
    (s.mapCtx ctx fun c => { c with ctxctl := v, cmeas }).settleDomains.touch

def execCtxctlWrite (ctx : Nat) (value : DWord) (s : State) : Out := .next (if ctx < 512 then s.writeCtxctl ctx value else s)

/-! ## EVDONE (R133, R296, R303, R459) -/

/-- The compute thread that the current event holds goes on: an exhausted table is virtualised for it, and the table address that
could not be read for its oldest invocation on the die is looked at again (R133, R296). -/
def State.evdone (s : State) (die : Nat) : State :=
  let k := s.sys.getD die .reset
  match k.holding with
  | none => s
  | some t =>
    let s : State := { s with sys := s.sys.modify die fun c => { c with holding := none } }
    let s := if k.evcause.toNat = 1 then s.mapThread t fun th => { th with virt := true } else s
    let mine := fun (x : Txn) => x.tid == t && (x.kind matches .lrun ..) && (x.phase matches .sleeping) &&
      (match x.leaf with | some l => (s.ctx x.ctx).home l x.va / 32 == die | none => false)
    let s := if k.evcause.toNat = 3 then
        (match s.txns.find? mine with
        | some x => (x.tid :: x.dests.map (·.1)).eraseDups.foldl (fun s q => s.mapThread q (·.freed x.id s.clk.now)) (s.mapTxn x.id fun x => { x with phase := .accepted, target := 1 })
        | none => s)
      else s
    s.touch

def execEvdoneWrite (die : Nat) (s : State) : Out := .next (s.evdone die)

/-! ## System registers (R457 to R459, R433) -/

/-- The selector of a system register: whether a device register, the context, the index (R457); none when [31:20] are not
zero. -/
def selector (w : Nat) : Option (Bool × Nat × Nat) := if w / 2 ^ 20 = 0 then some (bit w 19, bits w 18 10, bits w 9 0) else none

/-- A pin-window register (R458). -/
def Context.pinReg (c : Context) (k : Nat) : Nat :=
  match assocGet c.pinw (k / 2) with
  | some w => if k % 2 = 0 then w.base else w.mask * 2 ^ 32 + w.len
  | none => 0

/-- DSTAT (R433). -/
def State.dstat (s : State) (ctx : Nat) : Nat := (s.ctx ctx).dstat.toNat % 2 + 2 ^ 16 * ((s.openHandles ctx).length % 65536)

/-- A debug register, by offset / 8 (R433). -/
def State.readDebug (s : State) (ctx k : Nat) : Option (Nat × State) :=
  let c := s.ctx ctx
  if k = 0 then some (c.dbctl.toNat, s)
  else if k ≤ 8 then some ((c.bps.getD (k - 1) 0).toNat, s)
  else if k = 9 then some (0, s)
  else if k = 10 then some (c.dsel.toNat, s)
  else if k = 11 then some (s.ddata ctx)
  else if k = 12 then some (s.dstat ctx, s)
  else none

/-- A register of a context (R458); none when the index is unassigned. -/
def State.readCtxReg (s : State) (ctx i : Nat) : Option (Nat × State) :=
  let c := s.ctx ctx
  let is := fun (v : DWord) => some (v.toNat, s)
  if i = 0 then is c.ctxctl
  else if i = 1 then is c.ptroot
  else if i = 2 then is c.rtbase
  else if i = 3 then is c.vgrant
  else if i = 4 then is c.fring
  else if i = 5 then is c.frwr
  else if i = 6 then is c.spbase
  else if i = 7 then is c.spsize
  else if i = 8 then is c.timers
  else if i = 9 then is c.phrec
  else if i = 10 then is c.jobrec
  else if 0x10 ≤ i ∧ i ≤ 0x2F then some (c.pinReg (i - 0x10), s)
  else if 0x40 ≤ i ∧ i ≤ 0x13F then some ((assocGet c.pincap (i - 0x40)).getD 0, s)
  else if 0x140 ≤ i ∧ i ≤ 0x23F then is ((assocGet c.exportTab (i - 0x140)).getD 0)
  else if 0x240 ≤ i ∧ i ≤ 0x24C then s.readDebug ctx (i - 0x240)
  else if 0x250 ≤ i ∧ i ≤ 0x253 then is (c.peermeas.getD (i - 0x250) 0)
  else none

/-- The unit in the slot that UNITSEL selects (R459). -/
def State.selectedUnit (s : State) : Option RUnit :=
  s.units.find? fun u => !u.isSystem && u.fate != .ended && u.core == bits s.host.unitsel.toNat 8 0 && u.slot == bits s.host.unitsel.toNat 19 16

/-- A device register, as the system core of a die reads it (R459). -/
def State.readDevReg (s : State) (die i : Nat) : Option Nat :=
  let k := s.sys.getD die .reset
  if i ≤ 0x3F then some (s.gslot i).bound.toNat
  else if i = 0x40 then some k.evcause.toNat
  else if i = 0x41 then some k.evinfo.toNat
  else if i = 0x42 then some k.evpc.toNat
  else if i = 0x43 then some k.evbase.toNat
  else if i = 0x44 then some k.evmask.toNat
  else if i = 0x45 then some 0
  else if 0x48 ≤ i ∧ i ≤ 0x4D then some (s.ecnt.getD (i - 0x48) 0).toNat
  else if i = 0x50 then some s.host.unitsel.toNat
  else if i = 0x51 then some (match s.selectedUnit with | some u => u.launch.toNat + 2 ^ 32 * u.ctx + 2 ^ 48 | none => 0)
  else if i = 0x52 then some (match s.selectedUnit with | some u => u.index | none => 0)
  else none

/-- A read of a system register by the system core of a die; none is the memory fault (R457). -/
def State.sysRead (s : State) (die sel : Nat) : Option (Nat × State) :=
  match selector sel with
  | none => none
  | some (true, _, i) => (s.readDevReg die i).map fun v => (v, s)
  | some (false, ctx, i) => s.readCtxReg ctx i

/-- A write of a debug register (R433, R434). -/
def State.writeDebug (s : State) (ctx k : Nat) (v : DWord) : Option State :=
  if k = 0 then some (s.mapCtx ctx fun c => { c with dbctl := v &&& 7 })
  else if k ≤ 8 then some (s.mapCtx ctx fun c => { c with bps := c.bps.set (k - 1) (v &&& 0x01FFFFFFFFFFFFFD) })
  else if k = 9 then some ((((s.command ctx v.toNat 0 fun s u ts => s.letGo u ts false).command ctx v.toNat 1 fun s u ts => s.letGo u ts true).command ctx v.toNat 2 fun s u ts => s.endByDebugger u (ts.headD ⟨u.uid, 0, 0⟩) (v.toNat % 65536)) |> fun s => if bits v.toNat 23 22 = 3 then s.badDebug ctx else s)
  else if k = 10 then some (s.mapCtx ctx fun c => { c with dsel := v &&& 0x000000FF3FFFFFFF })
  else if k = 11 then some (s.putDdata ctx v.toNat)
  else if k = 12 then some (s.mapCtx ctx fun c => { c with dstat := if v.getLsbD 0 then 0 else c.dstat })
  else none

/-- The bits of an EXPORT register that are not reserved: in the third word rlo, rhi and rights[3:0], in the fourth none (R5,
R383). -/
def exportMask (i : Nat) : DWord := if i % 4 = 3 then 0 else if i % 4 = 2 then 0x0000000FFFFFFFFF else 0xFFFFFFFFFFFFFFFF

/-- A write of a register of a context; none for an unassigned index or a read-only register (R457, R458). -/
def State.writeCtxReg (s : State) (ctx i : Nat) (v : DWord) : Option State :=
  let set := fun (f : Context → Context) => some (s.mapCtx ctx f)
  if i = 0 then some (s.writeCtxctl ctx v)
  else if i = 1 then set fun c => { c with ptroot := v &&& 0x000FFFFFFFFFF000 }
  else if i = 2 then set fun c => { c with rtbase := v }
  else if i = 3 then set fun c => { c with vgrant := v }
  else if i = 4 then set fun c => { c with fring := v &&& 0x000FFFFFFFFFF00F }
  else if i = 6 then set fun c => { c with spbase := v, spUsed := 0 }
  else if i = 7 then set fun c => { c with spsize := v }
  else if i = 8 then set fun c => { c with timers := v &&& 0x00000000FFFFFFFF }
  else if i = 9 then set fun c => { c with phrec := v }
  else if i = 10 then set fun c => { c with jobrec := v }
  else if 0x140 ≤ i ∧ i ≤ 0x23F then set fun c =>
    let v := v &&& exportMask (i - 0x140)
    { c with exportTab := if v = 0 then c.exportTab.filter (·.1 != i - 0x140) else assocSet c.exportTab (i - 0x140) v }
  else if 0x240 ≤ i ∧ i ≤ 0x24C then s.writeDebug ctx (i - 0x240) v
  else if 0x250 ≤ i ∧ i ≤ 0x253 then set fun c => { c with peermeas := c.peermeas.set (i - 0x250) v }
  else none

/-- A write of a device register by the system core of a die (R459). -/
def State.writeDevReg (s : State) (die i : Nat) (v : DWord) : Option State :=
  let set := fun (f : SysCore → SysCore) => some { s with sys := s.sys.modify die f }
  if i ≤ 0x3F then some (s.mapGslot i fun g => { g with bound := v &&& 0x3FF })
  else if i = 0x42 then set fun c => { c with evpc := v }
  else if i = 0x43 then set fun c => { c with evbase := v }
  else if i = 0x44 then set fun c => { c with evmask := v &&& 1 }
  else if i = 0x45 then some (s.evdone die)
  else if 0x48 ≤ i ∧ i ≤ 0x4D then some { s with ecnt := s.ecnt.set (i - 0x48) v }
  else if i = 0x50 then some { s with host := { s.host with unitsel := v &&& 0xF01FF } }
  else none

/-- A write of a system register by the system core of a die; none is the memory fault (R457). -/
def State.sysWrite (s : State) (die sel : Nat) (v : DWord) : Option State :=
  match selector sel with
  | none => none
  | some (true, _, i) => (s.writeDevReg die i v).map State.touch
  | some (false, ctx, i) => (s.writeCtxReg ctx i v).map State.touch

/-- An access to a system register comes after the thread's earlier accesses (R457). -/
def sysrdBody (v : View) : Body := fun s0 s t rs act =>
  match s.unit? t.uid with
  | none => .done s
  | some u =>
    if s.outstanding t true true true then .wait .accesses s
    else match s.sysRead (dieOf u.core) (v.srcA s0 t act) with
    | none => memFault rRange 0
    | some q => statusTo v q.2 rs q.1

def syswrBody (v : View) : Body := fun s0 s t _ act =>
  match s.unit? t.uid with
  | none => .done s
  | some u =>
    if s.outstanding t true true true then .wait .accesses s
    else match s.sysWrite (dieOf u.core) (v.srcA s0 t act) (BitVec.ofNat 64 (v.srcB s0 t act)) with
    | none => memFault rRange 0
    | some s => .done s

/-! ## System events (R412, R459, R460) -/

/-- A record goes to the fault ring of its context; without a ring it is discarded (R412, R458). -/
def State.appendRecord (s : State) (r : Record) : State :=
  let c := s.ctx r.ctx
  let g := c.fring.toNat
  if !bit g 51 then s
  else
    let at_ := bits g 51 12 * 4096 + 64 * (c.frwr.toNat % 2 ^ (g % 16 + 6))
    (s.performPhysical at_ r.bytes .thr).mapCtx r.ctx fun c => { c with frwr := c.frwr + 1 }

/-- The detail of a record for EVINFO: core, slot, lane and crew. -/
def Record.info (r : Record) : Nat :=
  let k := field r.bytes 0x0C 2
  k % 512 + 65536 * (k / 4096) + 2 ^ 20 * field r.bytes 0x0F 1 + 2 ^ 26 * field r.bytes 0x0E 1

/-- The pending source that is taken first: in the order of the table of R460, the oldest of each. -/
def State.nextSource (s : State) (die : Nat) : Option SysSource :=
  let mine := (s.sys.getD die .reset).pending
  let records := (s.records.filter (·.die == die)).map fun r => ({ source := 4, info := r.info, thread := none } : SysSource)
  let all := mine ++ records
  (List.range 8).findSome? fun k => all.find? (·.source == k)

/-- The system core enters its event handler for a source (R460). -/
def State.enterEvent (s : State) (die : Nat) (q : SysSource) : State :=
  let t : Tid := ⟨die, 0, 0⟩
  let pc := (s.thread t).pc
  let s : State := { s with sys := s.sys.modify die fun c =>
    { c with evpc := pc, evcause := BitVec.ofNat 64 q.source, evinfo := BitVec.ofNat 64 q.info, evmask := 1, holding := q.thread, pending := c.pending.erase q } }
  (s.setPcs [t] ((s.sys.getD die .reset).evbase)).mapThread t fun th => { th with wait := none, arrival := none, latch := none, readySince := s.clk.now }

/-- SYSTEM_EVENT: with events unmasked and a source pending, the system core enters its handler; a fault record that it takes
goes to the ring (R412, R460). -/
def execSystemEvent (die : Nat) (s : State) : Out :=
  let k := s.sys.getD die .reset
  if k.evmask.getLsbD 0 || !(s.thread ⟨die, 0, 0⟩).live then .next s
  else
    match s.nextSource die with
    | none => .next s
    | some q =>
      let s := if q.source = 4 then
          (match s.records.find? (·.die == die) with
          | some r => State.appendRecord { s with records := s.records.erase r } r
          | none => s)
        else s
      .next (s.enterEvent die q).touch

/-! ## Meanings -/

def execShoot (x : Form) (s : State) : Out := issue (.shoot x) (eachThread shootBody) s
def execShootsync (x : Form) (s : State) : Out := issue (.shootsync x) (eachThread shootsyncBody) s
def execPinset (x : Form) (s : State) : Out := issue (.pinset x) (eachThread pinsetBody) s
def execPincap (x : Form) (s : State) : Out := issue (.pincap x) (eachThread pincapBody) s
def execSysrd (x : Form) (s : State) : Out := issue (.sysrd x) (eachThread sysrdBody) s
def execSyswr (x : Form) (s : State) : Out := issue (.syswr x) (eachThread syswrBody) s

end Sys2Proof.Machine
end

