-- ==== Sys2Proof/Machine/HostLink.lean ====
section
/-! DEFINITION. The host link: BAR0, CXL.mem and snoops, the command ring, attestation, checkpoints, and power and cooling
(17_generation_host R472 to R488; 13_launch_schedule R349; 16_translation_system R457). -/

namespace Sys2Proof.Machine

/-! ## BAR0 (R349, R473, R474, R476, R477) -/

/-- STATUS of a graph slot (R349). -/
def State.slotStatus (s : State) (k : Nat) : Nat :=
  let g := s.gslot k
  (s.work.firings.filter (·.slot == k)).length + 8 * boolNat g.dropped + 16 * boolNat g.refused + 32 * boolNat g.cancelled + 256 * (g.done % 2 ^ 24)

/-- A register of a graph slot as the host reads it (R349). -/
def State.slotReg (s : State) (k off : Nat) : Nat :=
  let g := s.gslot k
  if off = 0 then g.gtab.toNat
  else if off = 8 then g.frec.toNat
  else if off = 0x18 then s.slotStatus k
  else if 0x100 ≤ off ∧ off ≤ 0x2F8 ∧ off % 8 = 0 then (g.params.getD ((off - 0x100) / 8) 0).toNat
  else 0

/-- A BAR0 register as the host reads it; an unlisted offset reads zero (R473). -/
def State.bar0 (s : State) (off : Nat) : Nat :=
  let h := s.host
  if off = 0 then h.devid.toNat
  else if off = 8 then h.bootstat.toNat
  else if off = 0x10 then h.fwver.toNat
  else if off = 0x18 then h.ident.toNat
  else if 0x20 ≤ off ∧ off ≤ 0x58 ∧ off % 8 = 0 then (h.cores.getD ((off - 0x20) / 8) 0).toNat
  else if 0x60 ≤ off ∧ off ≤ 0x98 ∧ off % 8 = 0 then (h.drambw.getD ((off - 0x60) / 8) 0).toNat
  else if off = 0xA0 then h.pwrcap.toNat
  else if off = 0xA8 then h.temp.toNat
  else if 0x100000 ≤ off ∧ off < 0x140000 then s.slotReg ((off - 0x100000) / 0x1000) (off % 0x1000)
  else if off = 0x200000 then h.cmdbase.toNat
  else if off = 0x200008 then h.cmdtail.toNat
  else if off = 0x200010 then h.cmdhead.toNat
  else if 0x300000 ≤ off ∧ off < 0x300040 ∧ off % 4 = 0 then (h.boot.getD ((off - 0x300000) / 4) 0).toNat
  else 0

/-- A write of a graph slot's register that has no row of its own (R349). -/
def State.writeSlot (s : State) (k off : Nat) (v : DWord) : State :=
  if off = 0 then s.mapGslot k fun g => { g with gtab := v &&& 0x01FFFFFFFFFFFF80 }
  else if off = 8 then s.mapGslot k fun g => { g with frec := v }
  else if off = 0x18 then s.mapGslot k fun g => { g with dropped := g.dropped && !v.getLsbD 3, refused := g.refused && !v.getLsbD 4, cancelled := g.cancelled && !v.getLsbD 5 }
  else if 0x100 ≤ off ∧ off ≤ 0x2F8 ∧ off % 8 = 0 then s.mapGslot k fun g => { g with params := g.params.set ((off - 0x100) / 8) v }
  else s

/-- A write of a BAR0 register that has no row of its own; a write that is not allowed is dropped (R473, R474, R476). -/
def State.writeBar0 (s : State) (off : Nat) (v : DWord) : State :=
  let h := s.host
  if off = 0xA0 then (if 1200 ≤ v.toNat ∧ v.toNat ≤ 3600 then { s with host := { h with pwrcap := v } } else s)
  else if 0x100000 ≤ off ∧ off < 0x140000 then s.writeSlot ((off - 0x100000) / 0x1000) (off % 0x1000) v
  else if off = 0x200000 then { s with host := { h with cmdbase := v &&& 0x000FFFFFFFFFF000 } }
  else if off = 0x200008 then
    (if (v - h.cmdhead).toNat ≤ 256 then
      { s with
        host := { h with cmdtail := v },
        sys := if v = h.cmdhead then s.sys else s.sys.modify 0 fun c => { c with pending := c.pending ++ [({ source := 6, info := 0, thread := none } : SysSource)] } }
    else s)
  else s

/-- REGISTER_WRITE: a write to a register that has no row of its own: a system register, by the system core of die 0 where it
acts for one; or a BAR0 register (R457, R473). -/
def execRegisterWrite (target : RegTarget) (value : DWord) (s : State) : Out :=
  if s.dark then .next s
  else match target with
  | .system sel => .next ((s.sysWrite 0 sel.toNat value).getD s)
  | .bar0 off => .next (s.writeBar0 off.toNat value).touch

/-! ## CXL.mem (R475, R336) -/

/-- The leaves that the tables below one of a level hold. -/
def leafList (mem : List Host.Cell) : Nat → Nat → Nat → List Leaf
  | 0, table, va => (List.range 512).filterMap fun i => if bit (pte mem (table + 8 * i)) 0 then leafAt mem none (va + i * 4096) table 0 else none
  | lvl + 1, table, va =>
    (List.range 512).flatMap fun i =>
      let e := pte mem (table + 8 * i)
      let at_ := va + i * pageSize (lvl + 1)
      if !bit e 0 then []
      else if bit e 1 then (match leafAt mem none at_ table (lvl + 1) with | some l => [l] | none => [])
      else if pointerOk (lvl + 1) e then leafList mem lvl (ptePa e) at_
      else []

/-- The leaves of every context's tables, each with its context (R440, R441). -/
def State.allLeaves (s : State) : List (Nat × Leaf) :=
  s.ctxs.flatMap fun c => if tableOk c.2.ptroot.toNat then (leafList s.mem 4 c.2.ptroot.toNat 0).map fun l => (c.1, l) else []

/-- A leaf maps a physical address. -/
def Leaf.maps (l : Leaf) (pa : Nat) : Bool := decide (l.pa ≤ pa) && decide (pa < l.pa + l.size)

/-- The leaves that map a physical address, each with its context, as firmware's host-access map follows them (R475). -/
def State.mappings (s : State) (pa : Nat) : List (Nat × Leaf) := s.allLeaves.filter fun m => m.2.maps pa

/-! ### Lines at rest (R484) -/

/-- The key pair of a domain, 0 without one. -/
def State.domKey (s : State) (d : Nat) : Nat := if d = 0 then 0 else (assocGet s.host.domKeys d).getD 0

/-- The key pair under which a line stands at rest, 0 for a plain one. -/
def State.lineKey (s : State) (line : Nat) : Nat := (assocGet s.lineKeys line).getD 0

/-- What a key pair makes of the bytes at rest of a line, and of the plain bytes of one. -/
def unsealLine (key line : Nat) (raw : List Byte) : List Byte := if key = 0 then raw else fitBytes 128 (Config.decrypt key (line * 128) raw)
def sealLine (key line : Nat) (plain : List Byte) : List Byte := if key = 0 then plain else fitBytes 128 (Config.encrypt key (line * 128) plain)

/-- The 128 bytes of a line as they stand in DRAM or in host memory. -/
def State.atRest (s : State) (line : Nat) : List Byte := sealLine (s.lineKey line) line (cellsGet s.mem (line * 128) 128)

/-- Bytes as they stand in DRAM or in host memory. -/
def State.restGet (s : State) (a n : Nat) : List Byte :=
  if s.lineKeys = [] then cellsGet s.mem a n else (List.range n).map fun i => (s.atRest ((a + i) / 128)).getD ((a + i) % 128) 0

/-- A line is taken under a key pair: the bytes at rest stay. -/
def State.underKey (s : State) (line key : Nat) : State :=
  if s.lineKey line = key then s
  else { s with
    mem := cellsPut s.mem (line * 128) (unsealLine key line (s.atRest line)),
    lineKeys := if key = 0 then s.lineKeys.filter (·.1 != line) else assocSet s.lineKeys line key,
    hist := s.hist.filter fun o => !(o.space == 0 && o.addr / 128 == line) }

/-- The lines of a leaf's page. -/
def Leaf.lines (l : Leaf) : List Nat := (List.range (l.size / 128)).map (· + l.pa / 128)

/-- Each line stands under the key pair of the domain that its leaf carries; one that no leaf maps any more stays as it is (R484;
log 11). -/
def State.recipher (s : State) : State :=
  if s.host.domKeys = [] ∧ s.lineKeys = [] then s
  else
    let leaves := s.allLeaves.map (·.2)
    let keyed := leaves.filter fun l => s.domKey l.dom != 0
    let want := fun (line : Nat) => (keyed.find? (·.maps (line * 128))).elim 0 fun l => s.domKey l.dom
    let lines := (keyed.flatMap Leaf.lines) ++ (s.lineKeys.map (·.1)).filter fun k => leaves.any (·.maps (k * 128))
    lines.foldl (fun s k => s.underKey k (want k)) s

/-- The host writes bytes of one line at rest. -/
def State.restPutLine (s : State) (a : Nat) (bs : List Byte) : State :=
  let line := a / 128
  let key := s.lineKey line
  let raw := s.atRest line
  if bs = [] then s
  else if key = 0 then s.performPhysical a bs .thr
  else s.performPhysical (line * 128) (unsealLine key line ((raw.take (a % 128) ++ bs ++ raw.drop (a % 128 + bs.length)).take 128)) .thr

/-- The host writes bytes at rest. -/
def State.restPut (s : State) (a : Nat) (bs : List Byte) : State :=
  if s.lineKeys = [] then (if bs = [] then s else s.performPhysical a bs .thr)
  else (linesOf a bs.length).foldl (fun s k =>
    let lo := max a (k * 128)
    s.restPutLine lo ((bs.drop (lo - a)).take ((k + 1) * 128 - lo))) s

/-- The encryption domain of a line, 0 when no leaf gives it one (R484). -/
def State.lineDomain (s : State) (pa : Nat) : Nat := ((s.mappings pa).find? (·.2.dom != 0)).elim 0 (·.2.dom)

/-- The host may not reach a byte of device DRAM: a domain's page, a reserved region, or what is not device DRAM. -/
def State.hostBarred (s : State) (x : Nat) : Bool :=
  decide (2 ^ 39 ≤ x) || Config.reservedPage (x / 4096) || s.lineDomain x != 0

/-- A read is admitted: every user context that maps the page maps it with TSO (R475). -/
def State.hostMayRead (s : State) (x : Nat) : Bool := !s.hostBarred x && (s.mappings x).all fun m => m.1 == 0 || m.2.tso

/-- The die whose DRAM holds an address (R440). -/
def dramDie (x : Nat) : Nat := bits x 38 36

/-- Recovery mode, in which only BAR0 and command 7 are served (R479). -/
def State.recovering (s : State) : Bool := s.host.bootstat.getLsbD 1

/-- HOST_MEM_READ: the bytes, or all ones with an error record (R475). -/
def execHostMemRead (hpa len : Nat) (s : State) : Out :=
  let xs := (List.range len).map (hpa + ·)
  if s.recovering || s.dark then .next s
  else if xs.all s.hostMayRead then .next (s.send (.hostRead (s.restGet hpa len)))
  else .next ((s.errorEvent (dramDie hpa) hpa).send (.hostRead (xs.map fun x => if s.hostMayRead x then (s.restGet x 1).headD 0 else 0xFF)))

/-- The known record whose pubw word lies at a physical address (R336). -/
def State.pubwAt (s : State) (x : Nat) : Option (Nat × Nat × Leaf) :=
  s.grades.known.findSome? fun k => match s.translate k.1 k.2 false false with
    | .ok l => if l.addr k.2 + 0x20 = x then some (k.1, k.2, l) else none
    | .error _ => none

/-- HOST_MEM_WRITE: the bytes are written, or a publication made, or the write is dropped with an error record (R336, R475). -/
def execHostMemWrite (hpa : Nat) (data : List (BitVec 8)) (s : State) : Out :=
  if s.recovering || s.dark then .next s
  else if (List.range data.length).any fun i => s.hostBarred (hpa + i) then .next (s.errorEvent (dramDie hpa) hpa)
  else
    match s.pubwAt hpa with
    | some k => if data.length = 8 then .next ((s.extPublish .host k.1 k.2.1 k.2.2 (leNat data)).settleLevels).touch
      else .next (s.restPut hpa data)
    | none => .next (s.restPut hpa data)

/-- HOST_SNOOP: the home slice answers with the line of host memory as it stands at rest, and gives it up; what the host then
writes to the line is data, bytes at rest too (R472, R475, R484). -/
def execHostSnoop (hpa : Nat) (data : List (BitVec 8)) (s : State) : Out :=
  if s.recovering || s.dark then .next s else
  let pa := 2 ^ 51 + hpa
  let line := pa / 128 * 128
  let s := s.send (.hostRead (s.atRest (pa / 128)))
  let here := fun (ctx l : Nat) => match s.leaf? ctx (l * 128) with | some f => f.addr (l * 128) == line | none => false
  let s : State := { s with caches := { s.caches with
    slines := s.caches.slines.filter fun (q : SLine) => !here q.ctx q.line,
    l1 := s.caches.l1.filter fun (q : L1Line) => !here q.ctx q.line } }
  .next (s.restPut pa (data.take (128 - pa % 128)))

/-! ## The command ring (R476) -/

/-- Where the entry that is served next lies. -/
def State.cmdAt (s : State) : Nat := s.host.cmdbase.toNat + 64 * (s.host.cmdhead.toNat % 256)

/-- The device serves commands: start-up has ended, or recovery waits for an image (R478, R479). -/
def State.serving (s : State) : Bool := s.host.powered && !s.host.shut && s.host.cmdbase.getLsbD 51 && s.host.cmdhead != s.host.cmdtail && (s.host.bootstat.getLsbD 0 || s.recovering)

/-- The entry that is served next. -/
def State.command? (s : State) : Option (List Byte) := if s.serving then some (cellsGet s.mem s.cmdAt 64) else none

/-- The status of an entry is written, and CMDHEAD advances (R476). -/
def State.endCommand (s : State) (status : Nat) : State :=
  let s := s.performPhysical (s.cmdAt + 4) (leBytes 4 status) .thr
  { s with host := { s.host with cmdhead := s.host.cmdhead + 1, asked := none } }.touch

/-- What makes an entry of a known code a bad command (R476). -/
def cmdBad (b : List Byte) : Bool :=
  let code := field b 0 2
  let addr := field b 0x18 8
  field b 0x0C 4 != 0 || (b.drop 0x28).any (· != 0) || decide (511 < field b 2 2) || ([3, 4, 5, 7].contains code && (!bit addr 51 || decide (2 ^ 52 ≤ addr)))

/-- An entry with the code given is served; a bad one gets status 1. In recovery only command 7 is served (R479). -/
def State.serve (s : State) (code : Nat) (go : List Byte → State) : Out :=
  match s.command? with
  | none => .next s
  | some b =>
    if field b 0 2 ≠ code ∨ (s.recovering ∧ code ≠ 7) then .next s
    else if cmdBad b then .next (s.endCommand 1)
    else .next (go b)

/-- BAD_COMMAND: an entry whose code is unknown (R476). -/
def execBadCommand (s : State) : Out :=
  match s.command? with
  | none => .next s
  | some b => if (1 ≤ field b 0 2 ∧ field b 0 2 ≤ 9) ∨ s.recovering then .next s else .next (s.endCommand 1)

/-- Command 1: a system register is read. -/
def execHostCmdSysrd (s : State) : Out :=
  s.serve 1 fun b =>
    match s.sysRead 0 (field b 8 4) with
    | none => s.endCommand 1
    | some q => (q.2.performPhysical (s.cmdAt + 0x10) (leBytes 8 q.1) .thr).endCommand 0

/-- Firmware refuses a write that would change what a confidential context was measured with (R476). -/
def State.refusesWrite (s : State) (sel : Nat) (v : DWord) : Bool :=
  match selector sel with
  | some (false, ctx, i) =>
    (s.ctx ctx).ctxctl.getLsbD 1 && ([1, 2, 3].contains i || (decide (0x140 ≤ i) && decide (i ≤ 0x23F)) || (decide (0x250 ≤ i) && decide (i ≤ 0x253)) || (i == 0 && !v.getLsbD 1))
  | some (true, _, _) | none => false

/-- Command 2: a system register is written. -/
def execHostCmdSyswr (s : State) : Out :=
  s.serve 2 fun b =>
    let sel := field b 8 4
    let v := BitVec.ofNat 64 (field b 0x10 8)
    match s.sysWrite 0 sel v with
    | none => s.endCommand 1
    | some t => if s.refusesWrite sel v then s.endCommand 2 else t.endCommand 0

/-! ## Attestation (R482, R483) -/

/-- The first 512 bytes of a report (R482). -/
def State.reportBody (s : State) (kind ctx : Nat) (nonce : List Byte) : List Byte :=
  let pad := fun (n : Nat) (b : List Byte) => b.take n ++ List.replicate (n - b.length) 0
  leBytes 4 0x54524441 ++ leBytes 2 1 ++ leBytes 2 kind ++ leBytes 2 s.fabric.device ++ leBytes 2 s.fabric.incarnation ++ leBytes 2 ctx ++ leBytes 2 0 ++
  pad 32 nonce ++ s.host.measure.flatMap (pad 32) ++
  (if kind = 2 then pad 32 (s.ctx ctx).cmeas ++ leBytes 96 (Config.kxpub ctx s.fabric.incarnation) else List.replicate 128 0) ++ List.replicate 80 0

/-- A report with the signature that the fused key makes of it (R482). -/
def State.report (s : State) (kind ctx : Nat) (nonce signature : List Byte) : List Byte :=
  s.reportBody kind ctx nonce ++ (signature ++ List.replicate 384 0).take 384

/-- A context is valid and confidential. -/
def Context.confidential (c : Context) : Bool := c.ctxctl.getLsbD 0 && c.ctxctl.getLsbD 1

/-- Command 3: a report of the device or of a confidential context, with the signature given (R476, R482). -/
def execHostCmdAttest (signature : List (BitVec 8)) (s : State) : Out :=
  s.serve 3 fun b =>
    let ctx := field b 2 2
    let addr := field b 0x18 8
    if ctx != 0 && !(s.ctx ctx).confidential then s.endCommand 2
    else (s.performPhysical addr (s.report (if ctx = 0 then 1 else 2) ctx (cellsGet s.mem addr 32) signature) .thr).endCommand 0

/-- What a command 9 asks of its peer: the nonce, the peer device and its context, and the fabric domain of the asking context
(R483). -/
def State.peerRequest (s : State) (b nonce : List Byte) : List Byte :=
  nonce ++ leBytes 2 (field b 8 4 % 4096) ++ leBytes 2 (field b 0x10 8 % 512) ++ leBytes 2 (s.ctx (field b 2 2)).domain

/-- Command 9: firmware asks the peer for its report; without an answer within the context's fabric timeout the command fails
(R476, R483). -/
def execHostCmdAdmitPeer (s : State) : Out :=
  s.serve 9 fun b =>
    let ctx := field b 2 2
    if !(s.ctx ctx).confidential then s.endCommand 2
    else
      match s.host.asked with
      | some q => if q.2 + (s.ctx ctx).fabTimeout ≤ s.clk.now then s.endCommand 3 else s
      | none =>
        let (r, s) := s.free
        let nonce := leBytes 32 r
        State.send { s with host := { s.host with asked := some (nonce, s.clk.now) } } (.report (s.peerRequest b nonce))

/-- The link key of a context and an admitted peer, from the two ECDH public values (R483, R485). -/
def State.linkKey (s : State) (ctx kx : Nat) : Nat :=
  let own := Config.kxpub ctx s.fabric.incarnation
  Config.linkKey (min own kx) (max own kx)

/-- PEER_REPORT_ANSWER: the peer's report for a pending command 9 is verified, and its incarnation is admitted or not; with it the
link keys are derived. keyed: bytes 0x130 to 0x1AF of the report, cmeas and kxpub (R482, R483). -/
def execPeerReportAnswer (answered verified : Bool) (device : BitVec 12) (incarnation : BitVec 16) (nonce keyed : List (BitVec 8)) (s : State) : Out :=
  match s.host.asked with
  | none => .next s
  | some q =>
    if !answered then .next s
    else s.serve 9 fun b =>
      let ctx := field b 2 2
      let peer := field b 8 4 % 4096
      let want := (s.ctx ctx).peermeas.flatMap fun r => leBytes 8 r.toNat
      if verified && nonce == q.1 && device.toNat == peer && assocGet s.fabric.peers peer == some incarnation.toNat && keyed.take 32 == want then
        (s.mapCtx ctx fun c => { c with
          attested := assocSet c.attested peer incarnation.toNat, linkKeys := assocSet c.linkKeys peer (s.linkKey ctx (leNat (keyed.drop 32))) }).endCommand 0
      else s.endCommand 2

/-- The device certificate: the device identifier, the public key, and the root key's signature (R483; log 11). -/
def State.certificate (s : State) : List Byte :=
  leBytes 2 s.fabric.device ++ leBytes 384 Config.deviceKey ++ leBytes 384 (Config.rootSignature s.fabric.device)

/-- PEER_REPORT_REQUEST: a peer asks for the report of a context and the certificate of the device; firmware answers only for a
confidential context of the same fabric domain (R483). -/
def execPeerReportRequest (_ : BitVec 12) (ctx : Nat) (domain : BitVec 16) (nonce signature : List (BitVec 8)) (s : State) : Out :=
  if (s.ctx ctx).confidential && (s.ctx ctx).domain == domain.toNat then .next (s.send (.report (s.report 2 ctx nonce signature ++ s.certificate)))
  else .next s

/-! ## Shootdown and images (R476, R479, R480) -/

/-- Command 6: a shootdown, which completes when its steps are done and the accesses under it have performed or failed. -/
def execHostCmdShoot (s : State) : Out :=
  s.serve 6 fun b =>
    let ctx := field b 2 2
    let base := field b 0x10 8
    let pages := field b 8 4
    if base % 4096 ≠ 0 ∨ 2 ^ 57 ≤ base ∨ ctx = 0 then s.endCommand 3
    else
      match s.shoots.find? (·.by_.isNone) with
      | none =>
        let (id, s) := s.newId
        State.touch { s with shoots := s.shoots ++ [({ id, by_ := none, ctx, base, len := if pages = 0 then none else some (pages * 4096), waits := [], done := false } : Shoot)] }
      | some q =>
        if q.done && q.waits.all s.settledTxn then State.endCommand { s with shoots := s.shoots.filter fun (r : Shoot) => r.id != q.id } 0 else s

/-- Command 8: the isle-disable mask is cleared (R480). -/
def execHostCmdClearIsleMask (s : State) : Out :=
  s.serve 8 fun _ => State.endCommand { s with host := { s.host with boot := (s.host.boot.set 14 0).set 15 0 } } 0

/-! ## Checkpoint (R487) -/

/-- User units are resident. -/
def State.resident (s : State) : List RUnit := s.units.filter fun u => !u.isSystem && u.fate != .ended

/-- Cells of a range, moved to another base. -/
def moveCells (m : List Host.Cell) (from_ n dest : Nat) (into : List Host.Cell) : List Host.Cell :=
  (m.filter fun c => decide (from_ ≤ c.1) && decide (c.1 < from_ + n)).foldl (fun r c => cellPut (c.1 - from_ + dest) c.2 r) into

/-- Cells of a range taken out. -/
def clearCells (m : List Host.Cell) (from_ n : Nat) : List Host.Cell := m.filter fun c => !(decide (from_ ≤ c.1) && decide (c.1 < from_ + n))

/-- The bytes of device DRAM and of the vaults. -/
def dramSize : Nat := 2 ^ 39
def vaultSize : Nat := 2 ^ 31

/-- All of device DRAM and of the vaults has been written, which mends what errors had struck there (R243). -/
def State.mendAll (s : State) : State :=
  { s with flaws := s.flaws.filter fun (f : Flaw) => decide (2 ≤ f.space) || (f.space == 0 && decide (dramSize ≤ f.addr)) }

/-- A range of memory holds a part of a line. -/
def lineIn (a n line : Nat) : Bool := decide (line * 128 < a + n) && decide (a < line * 128 + 128)

/-- The checkpoint is written to host memory: device DRAM as it stands at rest, and so a domain's lines as ciphertext and the
tokens of the draft sequences with it, then the vaults (R461, R484, R487). -/
def State.writeCheckpoint (s : State) (addr : Nat) : State :=
  let m := moveCells s.mem 0 dramSize addr (clearCells s.mem addr (dramSize + vaultSize))
  let m := (s.lineKeys.filter fun q => lineIn 0 dramSize q.1).foldl (fun m q => cellsPut m (addr + q.1 * 128) (s.atRest q.1)) m
  let m := moveCells s.vaults 0 vaultSize (addr + dramSize) m
  { s with
    mem := m,
    lineKeys := s.lineKeys.filter fun q => !lineIn addr (dramSize + vaultSize) q.1,
    caches := { s.caches with slines := s.caches.slines.map fun (l : SLine) => { l with dirty := false } },
    host := { s.host with checkpoints := assocSet s.host.checkpoints addr (s.images, s.draft), noPlace := false } }

/-- The tokens of the draft sequences that an engine still holds are those of a checkpoint (R461). -/
def DSeq.restored (from_ : List DSeq) (d : DSeq) : DSeq :=
  match from_.find? fun q => q.die == d.die && q.ctx == d.ctx && q.num == d.num with
  | some q => { d with tokens := (List.range d.tokens.length).map fun i =>
      let p := d.base + i
      if q.base ≤ p ∧ p < q.base + q.tokens.length then q.tokens.getD (p - q.base) 0 else d.tokens.getD i 0 }
  | none => d

/-- A checkpoint is read back, as bytes at rest (R487); what the caches held of the old contents is gone. -/
def State.readCheckpoint (s : State) (addr : Nat) : State :=
  let s := (s.lineKeys.filter fun q => lineIn addr (dramSize + vaultSize) q.1).foldl (fun s q => s.underKey q.1 0) s
  let m := moveCells s.mem addr dramSize 0 (clearCells s.mem 0 dramSize)
  let s : State := { s with
    mem := m,
    vaults := moveCells m (addr + dramSize) vaultSize 0 [],
    lineKeys := s.lineKeys.filter fun q => !lineIn 0 dramSize q.1,
    hist := [],
    caches := { l1 := [], l1i := [], slines := [], dirs := [], tlbs := [], images := [] } }
  match assocGet s.host.checkpoints addr with
  | some q => { s.mendAll with
      images := q.1.filter (fun (m : Image) => !s.units.any (·.uid == m.unit.uid)), draft := s.draft.map (DSeq.restored q.2) }
  | none => s.mendAll

/-- Command 4: placement stops and every resident unit is asked to be saved; once none is resident the memory is written
(R487). -/
def execHostCmdCheckpoint (s : State) : Out :=
  s.serve 4 fun b =>
    if s.resident = [] then (s.writeCheckpoint (field b 0x18 8)).endCommand 0
    else
      let s : State := { s with host := { s.host with noPlace := true } }
      (s.resident.filter fun u => (u.fate matches .running | .draining _) && u.fault.isNone && (u.speculative || s.mayPark u)).foldl (fun s u => s.stopIssue u.uid) s

/-- Command 5: a checkpoint is read back (R487). -/
def execHostCmdRestore (s : State) : Out := s.serve 5 fun b => ((s.readCheckpoint (field b 0x18 8)).endCommand 0).touch

/-! ## Power and cooling (R474, R488) -/

/-- TEMP takes the hottest junction's temperature (R474). -/
def State.setTemp (s : State) (t : BitVec 8) : State := { s with host := { s.host with temp := BitVec.ofNat 64 t.toNat } }

/-- THERMAL_THROTTLE: from 95 °C the issue is gated (R488). -/
def execThermalThrottle (temp : BitVec 8) (s : State) : Out :=
  let s := s.setTemp temp
  .next (if 95 ≤ temp.toNat then { s with host := { s.host with throttled := true } } else s)

/-- THROTTLING_END: below 95 °C the gating stops (R488). -/
def execThrottlingEnd (temp : BitVec 8) (s : State) : Out :=
  let s := s.setTemp temp
  .next (if temp.toNat < 95 then State.touch { s with host := { s.host with throttled := false } } else s)

/-- THERMAL_SHUTDOWN: at 110 °C the module shuts down (R488). -/
def execThermalShutdown (temp : BitVec 8) (s : State) : Out :=
  let s := s.setTemp temp
  .next (if 110 ≤ temp.toNat then { s with host := { s.host with shut := true } } else s)

end Sys2Proof.Machine
end

