-- ==== Sys2Proof/Machine/Matrix.lean ====
section
/-! DEFINITION. The matrix sequencer: majors 0x40 to 0x45 and its events (07_matrix R161 to R191). -/

namespace Sys2Proof.Machine

/-! ## Sparse rows of bytes and elements -/

/-- n consecutive values from index i on, of a list sorted by index; what is not listed is 0. -/
def denseFrom : Nat → Nat → List (Nat × Nat) → List Nat
  | 0, _, _ => []
  | n + 1, i, [] => 0 :: denseFrom n (i + 1) []
  | n + 1, i, (k, v) :: l => if k = i then v :: denseFrom n (i + 1) l else 0 :: denseFrom n (i + 1) ((k, v) :: l)

/-- The values of a range of indexes. -/
def denseOf (data : List (Nat × Nat)) (a n : Nat) : List Nat :=
  denseFrom n a (data.filter fun e => decide (a ≤ e.1) && decide (e.1 < a + n))

/-- Values from index a on, without the zeros. -/
def sparseFrom (a : Nat) (l : List Nat) : List (Nat × Nat) :=
  (l.zipIdx.filter fun e => e.1 != 0).map fun e => (a + e.2, e.1)

/-- A range of indexes of a sorted list overwritten. -/
def putDense (data : List (Nat × Nat)) (a : Nat) (l : List Nat) : List (Nat × Nat) :=
  data.filter (fun e => decide (e.1 < a)) ++ sparseFrom a l ++ data.filter fun e => decide (a + l.length ≤ e.1)

/-! ## Formats (R165 to R169) -/

/-- Element size in bytes; E2M1X has blocks instead. -/
def matSize (f : Nat) : Nat := if f ≤ 2 then 1 else if f ≤ 4 then 2 else 0

/-- Bytes of 128 elements in a row of B or a column of A (R168, R169). -/
def matBytes (f : Nat) : Nat := if f = 5 then 72 else 128 * matSize f

/-- Rows per B-store slot (R169). -/
def matRows (f : Nat) : Nat := if f ≤ 2 then 1024 else if f ≤ 4 then 512 else 1792

def isFp8 (f : Nat) : Bool := f == 0 || f == 1
def isFp16 (f : Nat) : Bool := f == 3 || f == 4

/-- The pairs of R166: with E2M1X they are not sparse. -/
def pairOk (sparse : Bool) (a b : Nat) : Bool :=
  (isFp8 a && isFp8 b) || (a == 2 && b == 2) || (isFp16 a && isFp16 b) ||
  (!sparse && ((a == 5 && b == 5) || (a == 5 && isFp8 b) || (isFp8 a && b == 5)))

/-- The value of an element as the array reads it (R167). -/
def matElem (f x : Nat) : FVal :=
  match f with
  | 0 => e4m3.source x
  | 1 => e5m2.source x
  | 2 => let v := toSigned 8 x; .fin (decide (v < 0)) v.natAbs 0
  | 3 => fp16.source x
  | _ => bf16.source x

/-- The value of an E2M1X code, unscaled, under its block's scale and special value (R167). -/
def blockElem (c s v : Nat) : FVal := if s = 0xFF then .nan false else if c = 8 then e4m3.value v else e2m1.value c

/-- The 128 elements of a row or column of bytes (R168, R169). -/
def matRow (f : Nat) (bs : List Nat) : List FVal :=
  if f = 5 then
    (List.range 128).map fun i =>
      let b := 18 * (i / 32)
      blockElem (bs.getD (b + i % 32 / 2) 0 / 2 ^ (4 * (i % 2)) % 16) (bs.getD (b + 16) 0) (bs.getD (b + 17) 0)
  else if matSize f = 1 then bs.map (matElem f)
  else (List.range 128).map fun i => matElem f (bs.getD (2 * i) 0 + 256 * bs.getD (2 * i + 1) 0)

/-- The four scales of a row or column of E2M1X blocks (R138). -/
def blockScales (bs : List Nat) : List Nat := (List.range 4).map fun c => bs.getD (18 * c + 16) 0

/-! ## Blocks (R170, R180, R183) -/

def Op.fmtWord (o : Op) : Nat := o.args.headD 0
def Op.afmt (o : Op) : Nat := bits o.fmtWord 3 0
def Op.bfmt (o : Op) : Nat := bits o.fmtWord 7 4

/-- N of a sparse operation, 0 of a dense one. -/
def sparseN : Option SparseN → Nat
  | none => 0
  | some .n8 => 8
  | some .n16 => 16
  | some .n32 => 32

def Op.aaddr (o : Op) : Nat := field o.block 0 8
def Op.pitch (o : Op) : Nat := field o.block 8 4
def Op.kdim (o : Op) : Nat := field o.block 0x0C 2
def Op.bk0 (o : Op) : Nat := field o.block 0x0E 2
def Op.mflags (o : Op) : Nat := field o.block 0x10 4
def Op.dflags (o : Op) : Nat := field o.block 0x0C 4
def Op.aspace (o : Op) : Space := if bit o.mflags 9 then .vault else .localMem
def Op.scaleBytes (o : Op) (off : Nat) : List Nat := (List.range 4).map fun i => field o.block (off + i) 1

/-- The accumulator and B-store slots that an operation names (R185). -/
def Op.accSlot (o : Op) : Option Nat :=
  match o.kind with
  | .mma _ => some (o.mflags % 4)
  | .mdrain => some (o.dflags % 4)
  | .mzero => some o.fmtWord
  | .bload | .copy _ | .pft | .dprop _ | .dapp | .dclr | .rld | .rld3 | .mcst | .ctxsave | .ctxload => none

def Op.bSlot (o : Op) : Option Nat :=
  match o.kind with
  | .mma _ => some (bits o.mflags 7 4)
  | .bload => some (o.mflags % 16)
  | .mdrain | .mzero | .copy _ | .pft | .dprop _ | .dapp | .dclr | .rld | .rld3 | .mcst | .ctxsave | .ctxload => none

/-- Operations of the matrix sequencer. -/
def OpKind.isMat : OpKind → Bool
  | .mma _ | .bload | .mdrain | .mzero => true
  | .copy _ | .pft | .dprop _ | .dapp | .dclr | .rld | .rld3 | .mcst | .ctxsave | .ctxload => false

/-! ## Issue (R172 to R174, R180, R182, R183) -/

/-- A matrix operation is accepted into the sequencer's queue of 16 (R161, R174). -/
def acceptMat (s : State) (t : Tid) (d : Nat) (rs : List Tid) (q : OpReq) : TRes :=
  match s.unit? t.uid with
  | none => .done s
  | some u =>
    if 16 ≤ (s.ops.filter fun o => o.kind.isMat && o.core == u.core).length then .wait .engine s
    else acceptOp s t d rs { q with isMatrix := true }

/-- An operation with a block of n bytes at the local address in A (R170, R174). -/
def blockOp (kind : OpKind) (n : Nat) (v : View) : Body := fun s0 s t rs act =>
  match s.unit? t.uid with
  | none => .done s
  | some u =>
    let a := v.srcA s0 t act
    match s.blockBad t.uid a n n, s.engineRead (s.reader u.ctx .mat t) .localMem 0 a n with
    | some b, _ => b.res a
    | none, .error b => b.res a
    | none, .ok block => acceptMat s t v.x.d.toNat rs { kind, block, args := [v.srcB s0 t act] }

/-- The crew form of mma and mmasp (R172). -/
def mmaCrew (kind : OpKind) (v : View) (len : Nat) (s : State) (act : List Tid) : Run :=
  match act with
  | [] => .start s
  | t0 :: _ =>
    let lanes := act.map (·.lane)
    let fmt := fun t => v.srcB s t lanes
    if act.any fun t => fmt t != fmt t0 then { st := s, traps := act.map fun t => (t, 2, boolNat (fmt t != fmt t0)), faults := [] }
    else
      match blockOp kind 64 v s s t0 [t0] lanes with
      | .done s => .start (s.advance act len).touch
      | .went s => .start s
      | .wait w s => .start (s.waitAll act w)
      | .trap c d => { st := s, traps := [(t0, c, d)], faults := [] }
      | .fault f => { st := s, traps := [], faults := [(t0, f)] }
      | .failed f s => { st := s, traps := [], faults := [(t0, f)] }

def mmaRun (kind : OpKind) (solo : Bool) (v : View) (len : Nat) (s : State) (act : List Tid) : Run :=
  if solo then eachThread (blockOp kind 64) v len s act else mmaCrew kind v len s act

def mzeroBody (slot : Nat) (v : View) : Body := fun _ s t rs _ =>
  acceptMat s t v.x.d.toNat rs { kind := .mzero, args := [slot] }

/-! ## Slot status (R185) -/

/-- The state code of an accumulator. -/
def accCode : AccState → Nat
  | .empty => 0
  | .zeroed => 1
  | .active => 2
  | .broken => 3

/-- What mstat reports of a slot (R185). -/
def mstatValue (u : RUnit) (slot : MSlot) (part : MPart) : Nat :=
  let na := match part with | .state | .fmt => 2 ^ 31 | .sa | .sb => 2 ^ 63
  let scales := fun (l : List Nat) => packElems 8 l + 2 ^ 32
  match slot with
  | .acc n =>
    match u.accs[n.toNat]? with
    | none => na
    | some a =>
      (match part with
        | .state => accCode a.state + 4 * boolNat a.int
        | .fmt => 0
        | .sa => if a.state = .active then scales a.sa else 0
        | .sb => if a.state = .active then scales a.sb else 0)
  | .bs n =>
    match u.bslots[n.toNat]? with
    | none => na
    | some b =>
      (match part with
        | .state => maskOf b.loaded
        | .fmt => (match b.fmt with | some f => f + 16 | none => 0) + 32 * boolNat b.scales.isSome
        | .sa => 0
        | .sb => match b.scales with | some l => scales l | none => 0)

/-- An operation of the unit names a slot. -/
def Op.names (o : Op) (slot : MSlot) : Bool :=
  match slot with
  | .acc n => o.accSlot == some n.toNat
  | .bs n => o.bSlot == some n.toNat

def mstatBody (slot : MSlot) (part : MPart) (v : View) : Body := fun _ s t rs _ =>
  match s.unit? t.uid with
  | none => .done s
  | some u =>
    if s.ops.any fun o => o.tid.uid == t.uid && o.names slot then .wait .engine s
    else .done (rs.foldl (fun s q => s.mapThread q (v.writeD (mstatValue u slot part))) s)

/-! ## Slots -/

/-- An accumulator set to zeroed (R182). -/
def AccSlot.zero : AccSlot := { AccSlot.fresh with state := .zeroed }

def State.mapAcc (s : State) (uid n : Nat) (f : AccSlot → AccSlot) : State := s.mapUnit uid fun u => { u with accs := u.accs.modify n f }

def State.mapB (s : State) (uid n : Nat) (f : BSlot → BSlot) : State := s.mapUnit uid fun u => { u with bslots := u.bslots.modify n f }

def RUnit.acc (u : RUnit) (o : Op) : AccSlot := u.accs.getD (o.accSlot.getD 4) .fresh

def RUnit.bslot (u : RUnit) (o : Op) : BSlot := u.bslots.getD (o.bSlot.getD 16) .fresh

def AccSlot.break_ (a : AccSlot) : AccSlot := { a with state := .broken }

/-- The operation is the first accepted of those of its unit (R189). While the unit's commit has a number, whose reads are at
the commit point (R313), none moves. -/
def State.matHead (s : State) (o : Op) : Bool :=
  !s.numbered o.tid.uid && !s.ops.any fun p => p.kind.isMat && p.tid.uid == o.tid.uid && decide (p.id < o.id)

/-- The operation gets the status with which it will complete. -/
def State.endOp (s : State) (o : Op) (code detail : Nat) : State :=
  (s.mapOp o.id fun o => { o with status := some (BitVec.ofNat 32 (statusWord code detail)) }).touch

/-! ## Validation (R175) -/

/-- A column of A, or a group of sparse A: its address and bytes. -/
def Op.aNeed (o : Op) (n : Nat) : Nat := if n = 0 then matBytes o.afmt else 1024 + n * 128 * matSize o.afmt

/-- n bytes of A lie in the unit's allocation, or within the vault at aaddr, granted (R170, R175). -/
def aRangeOk (s : State) (o : Op) (a n : Nat) : Bool :=
  match o.aspace with
  | .vault =>
    decide (a + n ≤ 2 ^ 31) && a / 2 ^ 22 == o.aaddr / 2 ^ 22 && (a + n - 1) / 2 ^ 22 == o.aaddr / 2 ^ 22 &&
      s.granted o.ctx a && s.granted o.ctx (a + n - 1)
  | .localMem | .global => (s.blockBad o.tid.uid a n 1).isNone

/-- The offset of the first field of a parameter block that is out of its limits (R170). -/
def mmaBadField (u : RUnit) (o : Op) (n : Nat) : Option Nat :=
  let rows := matRows o.bfmt
  if o.aaddr % 8 ≠ 0 ∨ (o.aspace = .vault ∧ o.aaddr < 2 ^ 31 ∧ dieOf (o.aaddr / 2 ^ 22) ≠ dieOf u.core) then some 0
  else if o.pitch % 8 ≠ 0 ∨ o.pitch < o.aNeed n then some 8
  else if o.kdim % 64 ≠ 0 ∨ o.kdim < 64 ∨ rows < o.kdim then some 0x0C
  else if o.bk0 % 64 ≠ 0 ∨ rows < o.bk0 + o.kdim then some 0x0E
  else if bits o.mflags 31 11 ≠ 0 ∨ bit o.mflags 8 ∨ bits o.mflags 3 2 ≠ 0 ∨ u.bslots.length ≤ bits o.mflags 7 4 ∨
      u.accs.length ≤ o.mflags % 4 then some 0x10
  else if (o.block.drop 0x1C).any (· != 0) then some 0x1C
  else none

/-- The scale bytes of a column of A; none when one of them cannot be read (R176). -/
def colScales (s : State) (o : Op) (k : Nat) : Option (List Nat) :=
  (List.range 4).mapM fun c => match s.engineByte (o.reader .mat) o.aspace 0 (o.aaddr + k * o.pitch + 18 * c + 16) with
    | .ok b => some b.toNat
    | .error _ => none

/-- The first of n columns from k on whose scales differ from those of column 0, or cannot be read (none) (R176, R243). -/
def scaleBreak (s : State) (o : Op) (first : List Nat) (k : Nat) : Nat → Option (Option Nat)
  | 0 => none
  | n + 1 =>
    match colScales s o k with
    | none => some none
    | some l => if l = first then scaleBreak s o first (k + 1) n else some (some k)

/-- The scales of A for an operation, or the status that its columns give it: 0xA5 with the first that differs, 0x80 when a scale
byte before that cannot be read (R175, R176, R243). -/
def aScales (s : State) (o : Op) : Except (Nat × Nat) (List Nat) :=
  if o.afmt ≠ 5 then .ok (o.scaleBytes 0x14)
  else
    match colScales s o 0 with
    | none => .error (0x80, 0)
    | some first =>
      match scaleBreak s o first 0 o.kdim with
      | none => .ok first
      | some none => .error (0x80, 0)
      | some (some k) => .error (0xA5, k)

/-- Another task has logged a vault line of A, where the scales of an operation stand, so that its start waits (R308, R309). -/
def scalesHeld (s : State) (o : Op) : Bool :=
  o.afmt == 5 && o.aspace == .vault && (List.range o.kdim).any fun k => s.vaultHeld o.tid.uid (o.aaddr + k * o.pitch) 72

/-- The steps of R175 for mma and mmasp: the status of the first failure, or the new accumulator (R176). -/
def mmaStart (s : State) (u : RUnit) (o : Op) (n : Nat) : Except (Nat × Nat) AccSlot :=
  let b := u.bslot o
  if 256 ≤ o.fmtWord ∨ !pairOk (n != 0) o.afmt o.bfmt then .error (0xA1, 0)
  else
    match mmaBadField u o n with
    | some off => .error (0xA0, off)
    | none =>
      let groups := (List.range (o.kdim / 64)).map (o.bk0 / 64 + ·)
      match groups.find? fun g => b.fmt != some o.bfmt || !b.loaded.contains g with
      | some g => .error (0xA2, g)
      | none =>
        if !(List.range (if n = 0 then o.kdim else o.kdim / 64)).all fun k => aRangeOk s o (o.aaddr + k * o.pitch) (o.aNeed n) then .error (0x80, 0)
        else
          match aScales s o with
          | .error e => .error e
          | .ok sa =>
            let sb := if o.bfmt = 5 then b.scales.getD [] else o.scaleBytes 0x18
            let int := o.afmt == 2
            let acc := if bit o.mflags 10 then AccSlot.zero else u.acc o
            match acc.state with
            | .empty | .broken => .error (0xA3, 0)
            | .zeroed => .ok { acc with state := .active, sa, sb, int }
            | .active => if acc.sa = sa ∧ acc.sb = sb ∧ acc.int = int then .ok acc else .error (0xA3, 0)

/-- The checks of a bload before its first group: the status of the first failure (R180). -/
def bloadBad (u : RUnit) (o : Op) : Option (Nat × Nat) :=
  let rows := matRows o.bfmt
  if 256 ≤ o.fmtWord ∨ 5 < o.bfmt then some (0xA1, 0)
  else if o.aaddr % 8 ≠ 0 then some (0xA0, 0)
  else if o.pitch % 8 ≠ 0 ∨ o.pitch < matBytes o.bfmt then some (0xA0, 8)
  else if o.kdim % 64 ≠ 0 ∨ o.kdim < 64 then some (0xA0, 0x0C)
  else if o.bk0 % 64 ≠ 0 ∨ rows < o.bk0 + o.kdim then some (0xA0, 0x0E)
  else if 512 ≤ o.mflags ∨ bits o.mflags 5 4 = 3 ∨ u.bslots.length ≤ o.mflags % 16 then some (0xA0, 0x10)
  else if (o.block.drop 0x14).any (· != 0) then some (0xA0, 0x14)
  else none

/-- Output formats of a drain: the size of an element (R183). -/
def outSize (f : Nat) : Nat := if f = 0 ∨ f = 5 then 4 else if f ≤ 2 then 2 else 1

def Op.ofmt (o : Op) : Nat := bits o.dflags 6 3

/-- The checks of a drain before its first row (R183, R184). -/
def drainBad (u : RUnit) (o : Op) : Option (Nat × Nat) :=
  let f := o.dflags
  if o.aaddr % 8 ≠ 0 then some (0xA0, 0)
  else if o.pitch % 8 ≠ 0 ∨ (o.ofmt ≤ 5 ∧ o.pitch < 128 * outSize o.ofmt) then some (0xA0, 8)
  else if bits f 31 13 ≠ 0 ∨ 4 < bits f 9 7 ∨ 5 < o.ofmt ∨ u.accs.length ≤ f % 4 then some (0xA0, 0x0C)
  else if (o.block.drop 0x10).any (· != 0) then some (0xA0, 0x10)
  else
    match (u.acc o).state with
    | .empty | .broken => some (0xA3, 0)
    | .zeroed => none
    | .active => if !(u.acc o).int && o.ofmt == 5 then some (0xA0, 0x0C) else none

/-- The slot of a bload takes the new format (R181). -/
def BSlot.reformat (b : BSlot) (f : Nat) : BSlot := if b.fmt = some f then b else { b with fmt := some f, loaded := [], scales := none }

/-- MATRIX_OP_ACCEPT: the first operation of its unit starts, and is validated (R175, R176, R181 to R184). -/
def execMatrixOpAccept (op : Nat) (s : State) : Out :=
  match s.op? op with
  | none => .next s
  | some o =>
    match s.unit? o.tid.uid with
    | none => .next s
    | some u =>
      let start := (s.mapOp op fun o => { o with started := true }).touch
      if !o.kind.isMat || !s.matHead o || o.started || o.status.isSome || (o.cancelled && o.kind != .mzero) then .next s
      else
        match o.kind with
        | .mma sp =>
          if scalesHeld s o then .next s
          else
          match mmaStart s u o (sparseN sp) with
          | .ok acc => .next (start.mapAcc u.uid (o.accSlot.getD 4) fun _ => acc)
          | .error (0xA3, d) =>
            .next ((if bit o.mflags 10 then s.mapAcc u.uid (o.accSlot.getD 4) fun _ => .zero else s).endOp o 0xA3 d)
          | .error (c, d) => .next (s.endOp o c d)
        | .bload =>
          match bloadBad u o with
          | some (c, d) => .next (s.endOp o c d)
          | none => .next (start.mapB u.uid (o.bSlot.getD 16) (·.reformat o.bfmt))
        | .mdrain =>
          match drainBad u o with
          | some (c, d) => .next (s.endOp o c d)
          | none => .next start
        | .mzero => if o.fmtWord < u.accs.length then .next start else let q := s.free; .next (q.2.endOp o 0xA0 q.1)
        | .copy _ | .pft | .dprop _ | .dapp | .dclr | .rld | .rld3 | .mcst | .ctxsave | .ctxload => .next s

/-! ## The accumulation (R177) -/

/-- The sum of one chunk of an element. -/
inductive ChunkSum where
  | nan (nv : Bool)
  | inf (neg : Bool)
  | fin (x : Int) (e : Int)
  deriving DecidableEq, Repr

/-- One product. -/
inductive MProd where
  | nan
  /-- 0 × ∞ -/
  | bad
  | inf (neg : Bool)
  | fin (neg : Bool) (m : Nat) (e : Int)
  deriving DecidableEq, Repr

def mprod (a b : FVal) : MProd :=
  match a, b with
  | .nan _, _ | _, .nan _ => .nan
  | .fin n m e, .fin n' m' e' => .fin (n != n') (m * m') (e + e')
  | .inf n, x => if x.isZero then .bad else .inf (n != x.isNeg)
  | x, .inf n => if x.isZero then .bad else .inf (n != x.isNeg)

/-- The exact sum of the products of one chunk, and its special values (R177). -/
def chunkSum (ps : List MProd) : ChunkSum :=
  let neg := ps.any (· == .inf true)
  let pos := ps.any (· == .inf false)
  if ps.any (· == .nan) then .nan false
  else if ps.any (· == .bad) || (neg && pos) then .nan true
  else if neg || pos then .inf neg
  else
    let q := ps.foldl (fun q p => match p with | .fin _ m e => if m = 0 then q else min q e | .nan | .bad | .inf _ => q) 0
    .fin (ps.foldl (fun x p => match p with | .fin n m e => if m = 0 then x else x + scaled n m e q | .nan | .bad | .inf _ => x) 0) q

/-- An accumulator element after a chunk, and the flags NV and OF (R177). -/
def accumulate (int : Bool) (old : Nat) (s : ChunkSum) : Nat × Nat :=
  match s with
  | .fin x e =>
    if int then (wrap 32 (old + x * (2 ^ e.toNat : Nat)), 0)
    else
      let r := fp32.roundFin .rne (decide (x < 0)) x.natAbs e
      let q := fp32.add .rne false (fp32.source old) (fp32.source r.1)
      (q.1, (r.2 &&& flagOF) ||| (q.2 &&& (flagOF + flagNV)))
  | .nan nv => (fp32.canon, if nv then flagNV else 0)
  | .inf n =>
    let q := fp32.add .rne false (fp32.source old) (.inf n)
    (q.1, q.2 &&& (flagOF + flagNV))

/-- The tile after one chunk: as holds 16 columns of A, bs 16 rows of B (R177). -/
def chunkTile (int : Bool) (acc : List Nat) (as bs : List (List FVal)) : List (Nat × Nat) :=
  acc.zipIdx.map fun p =>
    let i := p.2 / 128
    let j := p.2 % 128
    accumulate int p.1 (chunkSum ((as.zip bs).map fun q => mprod (q.1.getD i (.fin false 0 0)) (q.2.getD j (.fin false 0 0))))

/-- A dense column of A. -/
def denseColumn (s : State) (o : Op) (k : Nat) : Except Bad (List FVal) :=
  (s.engineRead (o.reader .mat) o.aspace 0 (o.aaddr + k * o.pitch) (matBytes o.afmt)).map fun bs => matRow o.afmt (bs.map (·.toNat))

def denseColumns (s : State) (o : Op) (k : Nat) : Nat → Except Bad (List (List FVal))
  | 0 => .ok []
  | n + 1 => do
    let c ← denseColumn s o k
    let cs ← denseColumns s o (k + 1) n
    .ok (c :: cs)

/-- The mask of a row in a sparse group (R179). -/
def groupMask (g : List Nat) (i : Nat) : Nat := packElems 8 ((g.drop (8 * i)).take 8)

/-- A column of A from a sparse group: element (i, m) is the value of the set mask bit m of row i, or +0 (R179). -/
def groupColumn (f : Nat) (g : List Nat) (m : Nat) : List FVal :=
  (List.range 128).map fun i =>
    let k := groupMask g i
    if !bit k m then .fin false 0 0
    else
      let t := (List.range m).countP (bit k)
      let o := 1024 + t * 128 * matSize f + i * matSize f
      matElem f (packElems 8 ((g.drop o).take (matSize f)))

/-- The first row of a sparse group whose mask has not N bits set. -/
def maskBreak (g : List Nat) (n : Nat) : Option Nat := (List.range 128).find? fun i => opPopc 64 (groupMask g i) != n

/-- The rows of B that a chunk uses (R177). -/
def chunkRows (b : BSlot) (f k : Nat) : List (List FVal) :=
  (List.range 16).map fun r => matRow f (denseOf b.data ((k + r) * matBytes f) (matBytes f))

/-- The columns of A for a chunk, and the operation with the sparse group it has read; the status of a failure (R179). -/
def chunkColumns (s : State) (o : Op) (n : Nat) : Except (Nat × Nat) (List (List FVal) × Op) :=
  if n = 0 then
    match denseColumns s o (16 * o.pos) 16 with
    | .ok cs => .ok (cs, o)
    | .error _ => .error (0x80, 0)
  else
    let g := o.pos / 4
    let o1 := if o.pos % 4 ≠ 0 then some o
      else match s.engineRead (o.reader .mat) o.aspace 0 (o.aaddr + g * o.pitch) (o.aNeed n) with
        | .ok bs => some { o with args := o.fmtWord :: bs.map (·.toNat) }
        | .error _ => none
    match o1 with
    | none => .error (0x80, g)
    | some o1 =>
      match maskBreak o1.args.tail n with
      | some i => .error (0xA4, i + 128 * g)
      | none => .ok ((List.range 16).map fun r => groupColumn o.afmt o1.args.tail (16 * (o.pos % 4) + r), o1)

/-- Another task has logged a vault line of A, so the array waits (R308). -/
def chunkHeld (s : State) (o : Op) (n : Nat) : Bool :=
  o.aspace == .vault &&
    (if n = 0 then (List.range 16).any fun i => s.vaultHeld o.tid.uid (o.aaddr + (16 * o.pos + i) * o.pitch) (o.aNeed 0)
     else s.vaultHeld o.tid.uid (o.aaddr + o.pos / 4 * o.pitch) (o.aNeed n))

/-- MATRIX_CHUNK: one chunk is checked and accumulated, runs again, or ends the operation (R177, R179, R187). The row or column of
an array error is not the model's to know, so it is a free value. -/
def execMatrixChunk (op : Nat) (chk : ChunkCheck) (s : State) : Out :=
  match s.op? op with
  | none => .next s
  | some o =>
    match o.kind, s.unit? o.tid.uid with
    | .mma sp, some u =>
      if !s.matHead o || !o.started || o.status.isSome || o.cancelled || decide (o.kdim / 16 ≤ o.pos) || chunkHeld s o (sparseN sp) then .next s
      else
        let slot := o.accSlot.getD 4
        let broken := s.mapAcc u.uid slot AccSlot.break_
        let arrayError := fun (s : State) (mem : Nat) => let q := s.free; q.2.endOp o 0x82 (q.1 % 512 + 512 * mem)
        match chk with
        | .ok =>
          match chunkColumns s o (sparseN sp) with
          | .error (c, d) => .next (broken.endOp o c d)
          | .ok (cols, o1) =>
            let acc := u.acc o
            let r := chunkTile acc.int (denseOf acc.data 0 16384) cols (chunkRows (u.bslot o) o.bfmt (o.bk0 + 16 * o.pos))
            let s := s.mapAcc u.uid slot fun a => { a with data := sparseFrom 0 (r.map (·.1)) }
            .next (s.mapOp op fun _ => { o1 with pos := o.pos + 1, flags := o.flags ||| orAll (r.map (·.2)) }).touch
        | .mismatch =>
          if o.rerun.isNone then .next (s.mapOp op fun o => { o with rerun := some o.pos }).touch
          else .next (arrayError broken 0)
        | .accError => .next (arrayError broken 1)
        | .bError g =>
          if g ≠ (o.bk0 + 16 * o.pos) / 64 then .next s
          else .next (arrayError (s.mapB u.uid (o.bSlot.getD 16) fun b => { b with loaded := b.loaded.filter (· != g) }) 1)
    | _, _ => .next s

/-! ## Loading the B-store (R181) -/

/-- The space of a bload. -/
def Op.bspace (o : Op) : Space :=
  match bits o.mflags 5 4 with
  | 0 => .global
  | 1 => .localMem
  | _ => .vault

/-- Rows of B from memory, one after another. -/
def readRows (s : State) (o : Op) (r : Nat) : Nat → Except Bad (List Nat)
  | 0 => .ok []
  | n + 1 => do
    let bs ← s.engineRead (o.reader .mat) o.bspace 0 (o.aaddr + r * o.pitch) (matBytes o.bfmt)
    let more ← readRows s o (r + 1) n
    .ok (bs.map (·.toNat) ++ more)

/-- The lines and translations that the rows of a group leave behind, and the read signature of the task (R181, R221, R311). -/
def State.loadTrace (s : State) (o : Op) (r n : Nat) : State :=
  (List.range n).foldl (fun s i =>
    let a := o.aaddr + (r + i) * o.pitch
    let s := s.signRead o.tid.uid o.bspace a (matBytes o.bfmt)
    if o.bspace != .global then s
    else (linesOf a (matBytes o.bfmt)).foldl (fun s l =>
      match s.leaf? o.ctx (l * 128) with
      | some leaf => (s.keepLeaf o.ctx (l * 128) leaf).keepLine o.ctx leaf (l * 128) (bits o.mflags 7 6) (bit o.mflags 8)
      | none => s) s) s

/-- BLOAD_GROUP: one group of 64 rows enters the slot (R181, R243). -/
def execBloadGroup (op : Nat) (unc : Bool) (s : State) : Out :=
  match s.op? op with
  | none => .next s
  | some o =>
    match o.kind, s.unit? o.tid.uid with
    | .bload, some u =>
      if !s.matHead o || !o.started || o.status.isSome || o.cancelled || decide (o.kdim / 64 ≤ o.pos) ||
          (o.bspace == .vault && (List.range 64).any fun i => s.vaultHeld u.uid (o.aaddr + (64 * o.pos + i) * o.pitch) (matBytes o.bfmt)) ||
          (o.bspace == .global && (List.range 64).any fun i => s.lineHeld o.ctx (linesOf (o.aaddr + (64 * o.pos + i) * o.pitch) (matBytes o.bfmt)) 0) then .next s
      else
        let slot := o.bSlot.getD 16
        let g := o.bk0 / 64 + o.pos
        let n := matBytes o.bfmt
        let s := s.mapB u.uid slot fun b => { b with loaded := b.loaded.filter (· != g) }
        if unc then .next (s.endOp o 0x80 g)
        else
          match readRows s o (64 * o.pos) 64 with
          | .error _ => .next (s.endOp o 0x80 g)
          | .ok bs =>
            let s := (s.loadTrace o (64 * o.pos) 64).mapB u.uid slot fun b => { b with data := putDense b.data (64 * g * n) bs }
            let done := fun (s : State) => .next ((s.mapB u.uid slot fun b => { b with loaded := g :: b.loaded }).mapOp op fun o => { o with pos := o.pos + 1 }).touch
            if o.bfmt ≠ 5 then done s
            else
              let rows := (List.range 64).map fun r => blockScales ((bs.drop (n * r)).take n)
              let scales := (u.bslot o).scales.getD (rows.headD [])
              let s := s.mapB u.uid slot fun b => { b with scales := some scales }
              (match (List.range 64).find? fun r => rows.getD r [] != scales with
                | some r => .next (s.endOp o 0xA5 (64 * g + r))
                | none => done s)
    | _, _ => .next s

/-! ## Draining (R184) -/

/-- The rounding mode of a drain. -/
def Op.drainMode (o : Op) : RMode :=
  match bits o.dflags 9 7 with
  | 2 => .rtz
  | 3 => .rup
  | 4 => .rdn
  | _ => .rne

/-- The format of a drain's elements. -/
def outFmt (f : Nat) : Fmt :=
  match f with
  | 1 => fp16
  | 2 => bf16
  | 3 => e4m3
  | 4 => e5m2
  | _ => fp32

/-- A value times the power of two of both scales (R184). -/
def scaledValue (x : FVal) (sa sb : Nat) : FVal :=
  if sa = 0xFF ∨ sb = 0xFF then .nan false
  else
    match x with
    | .fin n m e => .fin n m (e + sa + sb - 254)
    | .inf n => .inf n
    | .nan q => .nan q

/-- One output element and its flags (R184). -/
def drainElem (o : Op) (a : AccSlot) (i j x : Nat) : Nat × Nat :=
  if a.state != .active then (0, 0)
  else if o.ofmt = 5 then (x, 0)
  else
    let v := if a.int then let y := toSigned 32 x; .fin (decide (y < 0)) y.natAbs 0 else fp32.source x
    let r := (outFmt o.ofmt).convert o.drainMode (bit o.dflags 10) (scaledValue v (a.sa.getD (i / 32) 0) (a.sb.getD (j / 32) 0))
    (r.1, r.2 &&& (flagNV + flagOF + flagUF + flagNX))

/-- An output row: element (i, j) of the tile, or (j, i) with tr. -/
def drainRow (o : Op) (a : AccSlot) (r : Nat) : List (Nat × Nat) :=
  (List.range 128).map fun c =>
    let i := if bit o.dflags 12 then c else r
    let j := if bit o.dflags 12 then r else c
    drainElem o a i j ((assocGet a.data (128 * i + j)).getD 0)

def Op.dspace (o : Op) : Space := if bit o.dflags 2 then .vault else .localMem

/-- A row of the destination lies in the unit's allocation, or within the vault of daddr. -/
def drainRangeOk (s : State) (o : Op) (a n : Nat) : Bool :=
  match o.dspace with
  | .vault => a / 2 ^ 22 == o.aaddr / 2 ^ 22 && (a + n - 1) / 2 ^ 22 == o.aaddr / 2 ^ 22
  | .localMem | .global => (s.blockBad o.tid.uid a n 1).isNone

/-- MDRAIN_ROW: one output row is scaled, rounded and written (R184, R187, R189). -/
def execMdrainRow (op : Nat) (unc : Bool) (s : State) : Out :=
  match s.op? op with
  | none => .next s
  | some o =>
    match o.kind, s.unit? o.tid.uid with
    | .mdrain, some u =>
      if !s.matHead o || !o.started || o.status.isSome || o.cancelled || decide (128 ≤ o.pos) then .next s
      else if unc then
        let q := s.free
        .next ((q.2.mapAcc u.uid (o.accSlot.getD 4) AccSlot.break_).endOp o 0x82 (q.1 % 512 + 512))
      else
        let row := drainRow o (u.acc o) o.pos
        let bs := row.flatMap fun x => leBytes (outSize o.ofmt) x.1
        let a := o.aaddr + o.pos * o.pitch
        if !drainRangeOk s o a bs.length then .next (s.endOp o 0x80 o.pos)
        else
          match s.engineWrite o.ctx .mat o.tid o.dspace a bs with
          | .done s => .next (s.mapOp op fun o => { o with pos := o.pos + 1, flags := o.flags ||| orAll (row.map (·.2)) }).touch
          | .failed _ => .next (s.endOp o 0x80 o.pos)
          | .overflow full => .next (s.sealFor u.uid full)
          | .later => .next s
    | _, _ => .next s

/-! ## Completion (R186, R191) -/

/-- The length of an operation in chunks, groups or rows. -/
def Op.length (o : Op) : Nat :=
  match o.kind with
  | .mma _ => o.kdim / 16
  | .bload => o.kdim / 64
  | .mdrain => 128
  | .mzero | .copy _ | .pft | .dprop _ | .dapp | .dclr | .rld | .rld3 | .mcst | .ctxsave | .ctxload => 0

/-- The slot after an operation that has run to its end, or that a cancel has stopped. -/
def State.closeMat (s : State) (o : Op) (full : Bool) : State :=
  let slot := o.accSlot.getD 4
  match o.kind with
  | .mma _ => if full then s else s.mapAcc o.tid.uid slot AccSlot.break_
  | .mdrain => if full && bit o.dflags 11 then s.mapAcc o.tid.uid slot fun _ => .zero else s
  | .mzero => s.mapAcc o.tid.uid slot fun _ => .zero
  | .bload | .copy _ | .pft | .dprop _ | .dapp | .dclr | .rld | .rld3 | .mcst | .ctxsave | .ctxload => s

/-- MATRIX_OP_COMPLETE: the first operation of its unit completes, and its status goes into its future (R182, R184, R186, R191). -/
def execMatrixOpComplete (op : Nat) (s : State) : Out :=
  match s.op? op with
  | none => .next s
  | some o =>
    if !o.kind.isMat || !s.matHead o then .next s
    else
      match o.status with
      | some w => .next (s.finishOp o w.toNat)
      | none =>
        if o.started && decide (o.length ≤ o.pos) then
          let status := match o.rerun with
            | some c => statusWord 0x40 (o.flags + 256 * c)
            | none => statusWord 0 o.flags
          .next ((s.closeMat o true).finishOp o status)
        else if o.cancelled && o.kind != .mzero then
          .next ((if o.started then s.closeMat o false else s).finishOp o (statusWord (if o.started then 2 else 1) 0))
        else .next s

/-! ## Meanings -/

def execMma (solo : Bool) (x : Form) (s : State) : Out := issue (.mma solo x) (mmaRun (.mma none) solo) s
def execMmasp (n : SparseN) (solo : Bool) (x : Form) (s : State) : Out := issue (.mmasp n solo x) (mmaRun (.mma (some n)) solo) s
def execBload (x : Form) (s : State) : Out := issue (.bload x) (eachThread (blockOp .bload 32)) s
def execMdrain (x : Form) (s : State) : Out := issue (.mdrain x) (eachThread (blockOp .mdrain 32)) s
def execMzero (slot : BitVec 2) (x : Form) (s : State) : Out := issue (.mzero slot x) (eachThread (mzeroBody slot.toNat)) s
def execMstat (slot : MSlot) (part : MPart) (x : Form) (s : State) : Out := issue (.mstat slot part x) (eachThread (mstatBody slot part)) s

end Sys2Proof.Machine
end

