-- ==== Sys2Proof/Machine/Startup.lean ====
section
/-! DEFINITION. Power-on, the steps of start-up with their marks and alternatives, power loss and recovery (17_generation_host
R474, R477 to R481; 01_machine R30). -/

namespace Sys2Proof.Machine

/-! ## The boot record (R477) -/

/-- The fields of a boot word: start, finish, alt and skip marks, fails, unit. -/
structure BootWord where
  start : Bool
  finish : Bool
  alt : Bool
  skip : Bool
  fails : Nat
  isle : Nat
  deriving DecidableEq, Repr

def bootWord (w : Word) : BootWord :=
  { start := w.getLsbD 0, finish := w.getLsbD 1, alt := w.getLsbD 2, skip := w.getLsbD 3, fails := bits w.toNat 15 8, isle := bits w.toNat 22 16 }

def BootWord.word (b : BootWord) : Word :=
  BitVec.ofNat 32 (boolNat b.start + 2 * boolNat b.finish + 4 * boolNat b.alt + 8 * boolNat b.skip + 256 * (b.fails % 256) + 65536 * (b.isle % 128))

/-- The word of step k, from 1. -/
def State.boot (s : State) (k : Nat) : BootWord := bootWord (s.host.boot.getD (k - 1) 0)

def State.setBoot (s : State) (k : Nat) (b : BootWord) : State := { s with host := { s.host with boot := s.host.boot.set (k - 1) b.word } }

/-- The step failed at the last start (R479). -/
def BootWord.failed (b : BootWord) : Bool := b.start && !b.finish

/-- Bits of BOOTSTAT set as a step settles them (R474). -/
def State.orBootstat (s : State) (v : DWord) : State := { s with host := { s.host with bootstat := s.host.bootstat ||| v } }

/-- An isle's bit of the isle-disable mask, words 15 and 16 (R480). -/
def State.disableIsle (s : State) (isle : Nat) : State :=
  if 64 ≤ isle then s
  else State.orBootstat { s with host := { s.host with boot := s.host.boot.modify (14 + isle / 32) fun w => w ||| (1#32 <<< (isle % 32)) } } 0x20000

/-! ## Entering a step (R478 to R480) -/

/-- The bit of BOOTSTAT that the alternative method of a step sets; none for a step that runs again by its own. -/
def altBit (k : Nat) : Option DWord :=
  if k = 4 then some 0x100000 else if k = 5 then some 0x10000 else if k = 11 then some 0x40000 else none

/-- Step k begins by its normal method or the one for a step that failed at the last start; its marks are cleared and start is
set (R479). In step 7 an isle that was under test is disabled and no longer tested (R480). -/
def State.beginStep (s : State) (k : Nat) : State :=
  let w := s.boot k
  let s := if k = 7 ∧ w.failed then s.disableIsle w.isle else s
  let s := s.setBoot k { start := true, finish := false, alt := w.failed && ((altBit k).isSome || (k == 7 && w.isle != 0x7F)), skip := false, fails := w.fails, isle := if k = 7 then 0x7F else 0 }
  { s with host := { s.host with step := k } }

/-- Start-up stops at a step: BOOTSTAT shows it (R474, R479). -/
def State.stopAt (s : State) (k : Nat) : State :=
  State.orBootstat { s with host := { s.host with step := 0 } } (BitVec.ofNat 64 (4 + 256 * k))

/-- A step has reached three consecutive failures: start-up stops, or step 3 enters recovery mode (R479). -/
def State.thirdFailure (s : State) (k : Nat) : State :=
  if k = 3 then State.orBootstat { s with host := { s.host with step := 0 } } 2 else s.stopAt k

/-- A step begins, unless it has failed in three consecutive starts; step 12 cannot fail twice in a row (R479). -/
def State.tryStep (s : State) (k : Nat) : State :=
  let w := s.boot k
  if k ≠ 12 ∧ w.failed ∧ 3 ≤ w.fails then s.thirdFailure k else s.beginStep k

/-- The step after the last: step 12 is skipped when it failed at the last start (R478, R479). -/
def State.enterStep (s : State) (k : Nat) : State :=
  let w := s.boot k
  if k = 12 ∧ w.failed then
    ((s.setBoot 12 { start := false, finish := false, alt := false, skip := true, fails := w.fails, isle := 0 }).orBootstat 0x80000).tryStep 13
  else s.tryStep k

/-! ## What a successful step does (R474, R478, R481) -/

/-- A measurement register is extended: Mk := SHA-256(Mk ‖ d) (R481). -/
def State.extendM (s : State) (k : Nat) (d : List Byte) : State :=
  if s.host.closed then s
  else { s with host := { s.host with measure := s.host.measure.modify k fun m => sha256 (m ++ d) } }

/-- The cores of a die in service: those of its enabled isles (R474, R480). -/
def State.coresOf (s : State) (die : Nat) : DWord :=
  BitVec.ofNat 64 (maskOf ((List.range 64).filter fun c => !s.isleDisabled (isleOf (die * 64 + c))))

/-- Step 9: the thread of every system core starts. -/
def State.startSystem (s : State) : State :=
  { s with units := s.units.map fun (u : RUnit) => if u.isSystem then u.mapCrew 0 fun c => c.mapThread 0 fun th => { th with live := true, readySince := s.clk.now } else u }.touch

/-- What step k leaves when it has succeeded. -/
def State.stepEffect (s : State) (k : Nat) : State :=
  if k = 3 then
    let (v, s) := s.free
    State.extendM { s with host := { s.host with fwver := BitVec.ofNat 64 v } } 0 (sha256 s.host.flash)
  else if k = 7 then (if (List.range 64).any s.isleDisabled then s.orBootstat 0x20000 else s)
  else if k = 9 then
    let (d, s) := s.free
    (s.extendM 1 (leBytes 32 d)).startSystem
  else if k = 10 then State.mendAll { s with mem := clearCells s.mem 0 dramSize, vaults := [], lineKeys := s.lineKeys.filter fun q => !lineIn 0 dramSize q.1, hist := [] }
  else if k = 12 then
    let (v, s) := s.free
    let inc := s.fabric.incarnation % 65535 + 1
    State.send { s with
      fabric := { s.fabric with joined := true, device := v % 4096, incarnation := inc },
      host := { s.host with ident := BitVec.ofNat 64 (v % 4096 + 65536 * inc) } } (.joinFlood inc)
  else if k = 13 then { s with host := { s.host with closed := true } }
  else if k = 14 then
    let bw : DWord := if s.host.bootstat.getLsbD 16 then 5600 else 8000
    State.orBootstat { s with host := { s.host with cores := (List.range 8).map s.coresOf, drambw := List.replicate 8 bw } } 1
  else s

/-- Step k succeeds: its finish mark is set, its fails cleared, BOOTSTAT shows an alternative method, and the next begins; step 7 stops start-up when every isle is
disabled (R479, R480). -/
def State.finishStep (s : State) (k : Nat) : State :=
  let w := s.boot k
  let s := (s.setBoot k { w with finish := true, fails := 0, isle := if k = 7 then 0x7F else 0 }).stepEffect k
  let s := match (if w.alt then altBit k else none) with | some v => s.orBootstat v | none => s
  if k = 7 ∧ (List.range 64).all s.isleDisabled then s.stopAt 7
  else if k = 14 then { s with host := { s.host with step := 0 } }
  else s.enterStep (k + 1)

/-! ## Power (R474, R477) -/

/-- The machine as power-on leaves it: what survives is the boot record with the isle-disable mask, the flash image, and host
memory, which is not the module's; the model's own counters go on (R477). -/
def State.powerUp (s : State) : State :=
  { State.reset with
    clk := { s.clk with acts := [], moved := s.clk.stepNo, resetAt := s.clk.now, resetStep := s.clk.stepNo },
    mem := s.mem.filter fun c => decide (2 ^ 51 ≤ c.1),
    lineKeys := s.lineKeys.filter fun q => decide (2 ^ 44 ≤ q.1),
    outbox := s.outbox,
    fabric := { State.reset.fabric with device := s.fabric.device, incarnation := s.fabric.incarnation },
    host := { HostLink.reset with boot := s.host.boot, flash := s.host.flash, checkpoints := s.host.checkpoints } }

/-- A failure of the running step is counted, but for one of step 7 with an isle named (R479, R480). -/
def State.countFailure (s : State) (k : Nat) : State :=
  let w := s.boot k
  s.setBoot k { w with start := true, finish := false, fails := if k = 7 ∧ w.isle ≠ 0x7F then w.fails else min (w.fails + 1) 255 }

/-- Step k fails: at three consecutive failures start-up stops, or step 3 enters recovery mode; otherwise, and after a failure of
step 12, which the next start skips, the device starts again (R479). -/
def State.failStep (s : State) (k : Nat) : State :=
  let s := s.countFailure k
  if k ≠ 12 ∧ 3 ≤ (s.boot k).fails then s.thirdFailure k
  else s.powerUp.enterStep 1

/-- Step 7 has no isle left to test beyond the one its word names (R480). -/
def State.islesTested (s : State) : Bool := (List.range 64).all fun j => decide (j ≤ (s.boot 7).isle) || s.isleDisabled j

/-- STARTUP_STEP: the running step ends, or step 7 goes on to its next isle (R478 to R480). -/
def execStartupStep (r : StepResult) (s : State) : Out :=
  let k := s.host.step
  if k = 0 ∨ !s.host.powered ∨ s.host.shut then .next s
  else
    match r with
    | .finished => .next (s.finishStep k).touch
    | .failed => .next (s.failStep k).touch
    | .isleTesting i =>
      if k = 7 ∧ ((i.toNat < 64 ∧ !s.isleDisabled i.toNat) ∨ (i.toNat = 0x7F ∧ s.islesTested)) then .next (s.setBoot 7 { s.boot 7 with isle := i.toNat })
      else .next s
    | .isleFaulty i => if k = 7 ∧ (s.boot 7).isle = i.toNat then .next (s.disableIsle i.toNat) else .next s

/-- POWER_ON: start-up begins, on a module without power or one whose start-up has not begun (R478). -/
def execPowerOn (s : State) : Out :=
  if s.host.powered && (s.host.step != 0 || s.host.bootstat != 0) then .next s
  else .next (s.powerUp.enterStep 1).touch

/-- POWER_LOSS: all state is lost but the boot record, the mask and the flash image; a running step stays started and not
finished (R477, R479). -/
def execPowerLoss (s : State) : Out :=
  if !s.host.powered then .next s
  else
    let s := if s.host.step = 0 then s else s.countFailure s.host.step
    let s := s.powerUp
    .next { s with host := { s.host with powered := false } }

/-- Command 7: a new firmware image is written; in recovery mode the device starts again, and tries the image whatever step 3's
record says (R479). -/
def execHostCmdLoadImage (s : State) : Out :=
  s.serve 7 fun b =>
    let recovery := s.host.bootstat.getLsbD 1
    let image := cellsGet s.mem (field b 0x18 8) (field b 0x20 8)
    let s := State.endCommand { s with host := { s.host with flash := image } } 0
    if recovery then ((s.setBoot 3 { s.boot 3 with start := false }).powerUp).enterStep 1 else s

end Sys2Proof.Machine
end

