-- ==== Sys2Proof/Machine/Dispatch.lean ====
section
/-! DEFINITION. One arm for each constructor of Instr: the meaning of the instruction or event. -/

namespace Sys2Proof.Machine

/-- The execution of an instruction by the bundle that the state names, or the performing of an event. -/
def exec (i : Instr) (s : State) : Host.Outcome State Fault Refusal :=
  match i with
  | .iaddBase x => Sys2Proof.Machine.execIaddBase x s
  | .iaddExt x => Sys2Proof.Machine.execIaddExt x s
  | .isubBase x => Sys2Proof.Machine.execIsubBase x s
  | .isubExt x => Sys2Proof.Machine.execIsubExt x s
  | .imulBase x => Sys2Proof.Machine.execImulBase x s
  | .imulExt x => Sys2Proof.Machine.execImulExt x s
  | .imulhBase x => Sys2Proof.Machine.execImulhBase x s
  | .imulhExt x => Sys2Proof.Machine.execImulhExt x s
  | .imad x => Sys2Proof.Machine.execImad x s
  | .idivBase x => Sys2Proof.Machine.execIdivBase x s
  | .idivExt x => Sys2Proof.Machine.execIdivExt x s
  | .iremBase x => Sys2Proof.Machine.execIremBase x s
  | .iremExt x => Sys2Proof.Machine.execIremExt x s
  | .iminBase x => Sys2Proof.Machine.execIminBase x s
  | .iminExt x => Sys2Proof.Machine.execIminExt x s
  | .imaxBase x => Sys2Proof.Machine.execImaxBase x s
  | .imaxExt x => Sys2Proof.Machine.execImaxExt x s
  | .iabsBase x => Sys2Proof.Machine.execIabsBase x s
  | .iabsExt x => Sys2Proof.Machine.execIabsExt x s
  | .inegBase x => Sys2Proof.Machine.execInegBase x s
  | .inegExt x => Sys2Proof.Machine.execInegExt x s
  | .andBase x => Sys2Proof.Machine.execAndBase x s
  | .andExt x => Sys2Proof.Machine.execAndExt x s
  | .orBase x => Sys2Proof.Machine.execOrBase x s
  | .orExt x => Sys2Proof.Machine.execOrExt x s
  | .xorBase x => Sys2Proof.Machine.execXorBase x s
  | .xorExt x => Sys2Proof.Machine.execXorExt x s
  | .andnBase x => Sys2Proof.Machine.execAndnBase x s
  | .andnExt x => Sys2Proof.Machine.execAndnExt x s
  | .notBase x => Sys2Proof.Machine.execNotBase x s
  | .notExt x => Sys2Proof.Machine.execNotExt x s
  | .shlBase x => Sys2Proof.Machine.execShlBase x s
  | .shlExt x => Sys2Proof.Machine.execShlExt x s
  | .shrBase x => Sys2Proof.Machine.execShrBase x s
  | .shrExt x => Sys2Proof.Machine.execShrExt x s
  | .sarBase x => Sys2Proof.Machine.execSarBase x s
  | .sarExt x => Sys2Proof.Machine.execSarExt x s
  | .rolBase x => Sys2Proof.Machine.execRolBase x s
  | .rolExt x => Sys2Proof.Machine.execRolExt x s
  | .bfe x => Sys2Proof.Machine.execBfe x s
  | .bfi x => Sys2Proof.Machine.execBfi x s
  | .popcBase x => Sys2Proof.Machine.execPopcBase x s
  | .popcExt x => Sys2Proof.Machine.execPopcExt x s
  | .clz x => Sys2Proof.Machine.execClz x s
  | .brev x => Sys2Proof.Machine.execBrev x s
  | .lea shift zx x => Sys2Proof.Machine.execLea shift zx x s
  | .icmp cond comb x => Sys2Proof.Machine.execIcmp cond comb x s
  | .pset all x => Sys2Proof.Machine.execPset all x s
  | .plop lut x => Sys2Proof.Machine.execPlop lut x s
  | .sel x => Sys2Proof.Machine.execSel x s
  | .movBase x => Sys2Proof.Machine.execMovBase x s
  | .movExt x => Sys2Proof.Machine.execMovExt x s
  | .sreg r x => Sys2Proof.Machine.execSreg r x s
  | .cvti src elem x => Sys2Proof.Machine.execCvti src elem x s
  | .brBase u off => Sys2Proof.Machine.execBrBase u off s
  | .brExt x => Sys2Proof.Machine.execBrExt x s
  | .brx bound x => Sys2Proof.Machine.execBrx bound x s
  | .callBase u off => Sys2Proof.Machine.execCallBase u off s
  | .callExt x => Sys2Proof.Machine.execCallExt x s
  | .callx x => Sys2Proof.Machine.execCallx x s
  | .retBase u => Sys2Proof.Machine.execRetBase u s
  | .retExt x => Sys2Proof.Machine.execRetExt x s
  | .exitBase x => Sys2Proof.Machine.execExitBase x s
  | .exitExt x => Sys2Proof.Machine.execExitExt x s
  | .mset fn x => Sys2Proof.Machine.execMset fn x s
  | .mjoin x => Sys2Proof.Machine.execMjoin x s
  | .mbar x => Sys2Proof.Machine.execMbar x s
  | .mop lut x => Sys2Proof.Machine.execMop lut x s
  | .yieldBase u => Sys2Proof.Machine.execYieldBase u s
  | .yieldExt x => Sys2Proof.Machine.execYieldExt x s
  | .nopBase u => Sys2Proof.Machine.execNopBase u s
  | .nopExt x => Sys2Proof.Machine.execNopExt x s
  | .brk code x => Sys2Proof.Machine.execBrk code x s
  | .fwaitBase x => Sys2Proof.Machine.execFwaitBase x s
  | .fwaitExt x => Sys2Proof.Machine.execFwaitExt x s
  | .ftest x => Sys2Proof.Machine.execFtest x s
  | .fcancel x => Sys2Proof.Machine.execFcancel x s
  | .fmov x => Sys2Proof.Machine.execFmov x s
  | .faddBase x => Sys2Proof.Machine.execFaddBase x s
  | .faddExt rnd x => Sys2Proof.Machine.execFaddExt rnd x s
  | .fsubBase x => Sys2Proof.Machine.execFsubBase x s
  | .fsubExt rnd x => Sys2Proof.Machine.execFsubExt rnd x s
  | .fmulBase x => Sys2Proof.Machine.execFmulBase x s
  | .fmulExt rnd x => Sys2Proof.Machine.execFmulExt rnd x s
  | .ffma rnd x => Sys2Proof.Machine.execFfma rnd x s
  | .fminBase x => Sys2Proof.Machine.execFminBase x s
  | .fminExt x => Sys2Proof.Machine.execFminExt x s
  | .fmaxBase x => Sys2Proof.Machine.execFmaxBase x s
  | .fmaxExt x => Sys2Proof.Machine.execFmaxExt x s
  | .fcmp cond comb x => Sys2Proof.Machine.execFcmp cond comb x s
  | .fsel cond x => Sys2Proof.Machine.execFsel cond x s
  | .frcp x => Sys2Proof.Machine.execFrcp x s
  | .frsq x => Sys2Proof.Machine.execFrsq x s
  | .fsqrt rnd x => Sys2Proof.Machine.execFsqrt rnd x s
  | .fexp2 x => Sys2Proof.Machine.execFexp2 x s
  | .flog2 x => Sys2Proof.Machine.execFlog2 x s
  | .ftanh x => Sys2Proof.Machine.execFtanh x s
  | .fclass x => Sys2Proof.Machine.execFclass x s
  | .cvtf src rnd x => Sys2Proof.Machine.execCvtf src rnd x s
  | .fpackHdr x => Sys2Proof.Machine.execFpackHdr x s
  | .fpack x => Sys2Proof.Machine.execFpack x s
  | .funpack hi x => Sys2Proof.Machine.execFunpack hi x s
  | .fsrr clr x => Sys2Proof.Machine.execFsrr clr x s
  | .fsrw field x => Sys2Proof.Machine.execFsrw field x s
  | .mma solo x => Sys2Proof.Machine.execMma solo x s
  | .mmasp n solo x => Sys2Proof.Machine.execMmasp n solo x s
  | .bload x => Sys2Proof.Machine.execBload x s
  | .mdrain x => Sys2Proof.Machine.execMdrain x s
  | .mzero slot x => Sys2Proof.Machine.execMzero slot x s
  | .mstat slot part x => Sys2Proof.Machine.execMstat slot part x s
  | .vote fn x => Sys2Proof.Machine.execVote fn x s
  | .cred comb rnd x => Sys2Proof.Machine.execCred comb rnd x s
  | .cscan comb rnd excl x => Sys2Proof.Machine.execCscan comb rnd excl x s
  | .cperm wrap x => Sys2Proof.Machine.execCperm wrap x s
  | .sample x => Sys2Proof.Machine.execSample x s
  | .xget kind fe x => Sys2Proof.Machine.execXget kind fe x s
  | .xput kind x => Sys2Proof.Machine.execXput kind x s
  | .ldBase x => Sys2Proof.Machine.execLdBase x s
  | .ldExt sx ac x => Sys2Proof.Machine.execLdExt sx ac x s
  | .stBase x => Sys2Proof.Machine.execStBase x s
  | .stExt ac x => Sys2Proof.Machine.execStExt ac x s
  | .ldnc sx ac x => Sys2Proof.Machine.execLdnc sx ac x s
  | .stnc ac x => Sys2Proof.Machine.execStnc ac x s
  | .pf ac x => Sys2Proof.Machine.execPf ac x s
  | .pft ac x => Sys2Proof.Machine.execPft ac x s
  | .cflush fn ac x => Sys2Proof.Machine.execCflush fn ac x s
  | .copy ch x => Sys2Proof.Machine.execCopy ch x s
  | .bbwait x => Sys2Proof.Machine.execBbwait x s
  | .bgive x => Sys2Proof.Machine.execBgive x s
  | .btake wait x => Sys2Proof.Machine.execBtake wait x s
  | .binfo x => Sys2Proof.Machine.execBinfo x s
  | .fenceBase u => Sys2Proof.Machine.execFenceBase u s
  | .fenceExt kind scope x => Sys2Proof.Machine.execFenceExt kind scope x s
  | .pfence src dst x => Sys2Proof.Machine.execPfence src dst x s
  | .ifence x => Sys2Proof.Machine.execIfence x s
  | .atom fn ac x => Sys2Proof.Machine.execAtom fn ac x s
  | .ared fn ac x => Sys2Proof.Machine.execAred fn ac x s
  | .acas nf ac x => Sys2Proof.Machine.execAcas nf ac x s
  | .lrdef x => Sys2Proof.Machine.execLrdef x s
  | .lrun n ac x => Sys2Proof.Machine.execLrun n ac x s
  | .lrdrop x => Sys2Proof.Machine.execLrdrop x s
  | .waitv timed ac x => Sys2Proof.Machine.execWaitv timed ac x s
  | .wakev x => Sys2Proof.Machine.execWakev x s
  | .tspawn x => Sys2Proof.Machine.execTspawn x s
  | .tcommit x => Sys2Proof.Machine.execTcommit x s
  | .trigger x => Sys2Proof.Machine.execTrigger x s
  | .tabort endUnit x => Sys2Proof.Machine.execTabort endUnit x s
  | .tseal x => Sys2Proof.Machine.execTseal x s
  | .tstat x => Sys2Proof.Machine.execTstat x s
  | .gread peek x => Sys2Proof.Machine.execGread peek x s
  | .gpub grade same x => Sys2Proof.Machine.execGpub grade same x s
  | .gwait grade chg x => Sys2Proof.Machine.execGwait grade chg x s
  | .launch x => Sys2Proof.Machine.execLaunch x s
  | .wfetch x => Sys2Proof.Machine.execWfetch x s
  | .cancel level x => Sys2Proof.Machine.execCancel level x s
  | .ccount level x => Sys2Proof.Machine.execCcount level x s
  | .progress x => Sys2Proof.Machine.execProgress x s
  | .budget x => Sys2Proof.Machine.execBudget x s
  | .rld ac x => Sys2Proof.Machine.execRld ac x s
  | .rld3 ac x => Sys2Proof.Machine.execRld3 ac x s
  | .rst ac x => Sys2Proof.Machine.execRst ac x s
  | .mcst ac x => Sys2Proof.Machine.execMcst ac x s
  | .ratom fn nf ac x => Sys2Proof.Machine.execRatom fn nf ac x s
  | .rfence dev x => Sys2Proof.Machine.execRfence dev x s
  | .lwin x => Sys2Proof.Machine.execLwin x s
  | .lwinClose x => Sys2Proof.Machine.execLwinClose x s
  | .trap x => Sys2Proof.Machine.execTrap x s
  | .resume x => Sys2Proof.Machine.execResume x s
  | .hret x => Sys2Proof.Machine.execHret x s
  | .shoot x => Sys2Proof.Machine.execShoot x s
  | .shootsync x => Sys2Proof.Machine.execShootsync x s
  | .pinset x => Sys2Proof.Machine.execPinset x s
  | .pincap x => Sys2Proof.Machine.execPincap x s
  | .ctxsave x => Sys2Proof.Machine.execCtxsave x s
  | .ctxload x => Sys2Proof.Machine.execCtxload x s
  | .sysrd x => Sys2Proof.Machine.execSysrd x s
  | .syswr x => Sys2Proof.Machine.execSyswr x s
  | .dprop maxCode x => Sys2Proof.Machine.execDprop maxCode x s
  | .dapp x => Sys2Proof.Machine.execDapp x s
  | .dclr x => Sys2Proof.Machine.execDclr x s
  | .rpub x => Sys2Proof.Machine.execRpub x s
  | .matrixOpAccept op => Sys2Proof.Machine.execMatrixOpAccept op s
  | .matrixChunk op chk => Sys2Proof.Machine.execMatrixChunk op chk s
  | .bloadGroup op unc => Sys2Proof.Machine.execBloadGroup op unc s
  | .mdrainRow op unc => Sys2Proof.Machine.execMdrainRow op unc s
  | .matrixOpComplete op => Sys2Proof.Machine.execMatrixOpComplete op s
  | .pftComplete op => Sys2Proof.Machine.execPftComplete op s
  | .copyGroupDelivered op unc => Sys2Proof.Machine.execCopyGroupDelivered op unc s
  | .copyComplete op => Sys2Proof.Machine.execCopyComplete op s
  | .loadTranslationAck txn => Sys2Proof.Machine.execLoadTranslationAck txn s
  | .loadDataReply txn unc => Sys2Proof.Machine.execLoadDataReply txn unc s
  | .storeArrivalAtHome txn => Sys2Proof.Machine.execStoreArrivalAtHome txn s
  | .storePerform txn unc => Sys2Proof.Machine.execStorePerform txn unc s
  | .storeFailureReport txn => Sys2Proof.Machine.execStoreFailureReport txn s
  | .deferredStoreTimeout uid crew lane => Sys2Proof.Machine.execDeferredStoreTimeout uid crew lane s
  | .atomicPerform txn unc => Sys2Proof.Machine.execAtomicPerform txn unc s
  | .atomicReply txn => Sys2Proof.Machine.execAtomicReply txn s
  | .lrunHold txn unc => Sys2Proof.Machine.execLrunHold txn unc s
  | .lrunComplete txn => Sys2Proof.Machine.execLrunComplete txn s
  | .waitvTimeout txn => Sys2Proof.Machine.execWaitvTimeout txn s
  | .waitRecheckTimer txn => Sys2Proof.Machine.execWaitRecheckTimer txn s
  | .commitStart uid => Sys2Proof.Machine.execCommitStart uid s
  | .writeSignatureArrival die falseHits => Sys2Proof.Machine.execWriteSignatureArrival die falseHits s
  | .conflictAddressArrival die falseHits => Sys2Proof.Machine.execConflictAddressArrival die falseHits s
  | .commitMerge uid => Sys2Proof.Machine.execCommitMerge uid s
  | .commitTokenGrant die => Sys2Proof.Machine.execCommitTokenGrant die s
  | .publication id => Sys2Proof.Machine.execPublication id s
  | .consumerFire launch => Sys2Proof.Machine.execConsumerFire launch s
  | .wfetchFill id => Sys2Proof.Machine.execWfetchFill id s
  | .budgetOverrun uid crew => Sys2Proof.Machine.execBudgetOverrun uid crew s
  | .firingStart slot => Sys2Proof.Machine.execFiringStart slot s
  | .launchStart launch => Sys2Proof.Machine.execLaunchStart launch s
  | .unitPlacement launch index => Sys2Proof.Machine.execUnitPlacement launch index s
  | .unitEnd uid => Sys2Proof.Machine.execUnitEnd uid s
  | .regrouping core quarter => Sys2Proof.Machine.execRegrouping core quarter s
  | .threadUrgent uid crew lane => Sys2Proof.Machine.execThreadUrgent uid crew lane s
  | .deadlockWatchdog ctx => Sys2Proof.Machine.execDeadlockWatchdog ctx s
  | .fabricResendFinal txn => Sys2Proof.Machine.execFabricResendFinal txn s
  | .fabricTimeout txn => Sys2Proof.Machine.execFabricTimeout txn s
  | .heartbeatTimer port => Sys2Proof.Machine.execHeartbeatTimer port s
  | .linkDeathTimeout port => Sys2Proof.Machine.execLinkDeathTimeout port s
  | .userTrapEntry uid crew => Sys2Proof.Machine.execUserTrapEntry uid crew s
  | .fault uid => Sys2Proof.Machine.execFault uid s
  | .preemptPriorityWait launch index victim => Sys2Proof.Machine.execPreemptPriorityWait launch index victim s
  | .drainTimeout uid => Sys2Proof.Machine.execDrainTimeout uid s
  | .save uid => Sys2Proof.Machine.execSave uid s
  | .flushAndRestart uid => Sys2Proof.Machine.execFlushAndRestart uid s
  | .shootdown id falseHits => Sys2Proof.Machine.execShootdown id falseHits s
  | .restore op => Sys2Proof.Machine.execRestore op s
  | .systemEvent die => Sys2Proof.Machine.execSystemEvent die s
  | .pcBreakpoint uid crew lane => Sys2Proof.Machine.execPcBreakpoint uid crew lane s
  | .draftOpExecute op => Sys2Proof.Machine.execDraftOpExecute op s
  | .externalPublication src ctx r value => Sys2Proof.Machine.execExternalPublication src ctx r value s
  | .replayWrite slot value => Sys2Proof.Machine.execReplayWrite slot value s
  | .cancelLaunchWrite slot value => Sys2Proof.Machine.execCancelLaunchWrite slot value s
  | .cancelGraphWrite slot value => Sys2Proof.Machine.execCancelGraphWrite slot value s
  | .cancelPhaseWrite slot value => Sys2Proof.Machine.execCancelPhaseWrite slot value s
  | .cancelJobWrite slot value => Sys2Proof.Machine.execCancelJobWrite slot value s
  | .readRequest p unc => Sys2Proof.Machine.execReadRequest p unc s
  | .writePacket p unc => Sys2Proof.Machine.execWritePacket p unc s
  | .atomicPacket p unc => Sys2Proof.Machine.execAtomicPacket p unc s
  | .multicastWrite p unc => Sys2Proof.Machine.execMulticastWrite p unc s
  | .dataSegment p unc => Sys2Proof.Machine.execDataSegment p unc s
  | .completionPacket p => Sys2Proof.Machine.execCompletionPacket p s
  | .acknowledgement p => Sys2Proof.Machine.execAcknowledgement p s
  | .aggregatedAcknowledgement p => Sys2Proof.Machine.execAggregatedAcknowledgement p s
  | .heartbeat port => Sys2Proof.Machine.execHeartbeat port s
  | .deathNotice plane target => Sys2Proof.Machine.execDeathNotice plane target s
  | .join p => Sys2Proof.Machine.execJoin p s
  | .preemptRequest uid => Sys2Proof.Machine.execPreemptRequest uid s
  | .registerWrite target value => Sys2Proof.Machine.execRegisterWrite target value s
  | .ctxctlWrite ctx value => Sys2Proof.Machine.execCtxctlWrite ctx value s
  | .evdoneWrite die => Sys2Proof.Machine.execEvdoneWrite die s
  | .dcmdContinue ctx value => Sys2Proof.Machine.execDcmdContinue ctx value s
  | .dcmdStep ctx value => Sys2Proof.Machine.execDcmdStep ctx value s
  | .dcmdEnd ctx value => Sys2Proof.Machine.execDcmdEnd ctx value s
  | .ddataRead ctx => Sys2Proof.Machine.execDdataRead ctx s
  | .ddataWrite ctx value => Sys2Proof.Machine.execDdataWrite ctx value s
  | .hostMemRead hpa len => Sys2Proof.Machine.execHostMemRead hpa len s
  | .hostMemWrite hpa data => Sys2Proof.Machine.execHostMemWrite hpa data s
  | .hostSnoop hpa data => Sys2Proof.Machine.execHostSnoop hpa data s
  | .hostCmdAttest signature => Sys2Proof.Machine.execHostCmdAttest signature s
  | .startupStep r => Sys2Proof.Machine.execStartupStep r s
  | .thermalThrottle temp => Sys2Proof.Machine.execThermalThrottle temp s
  | .thermalShutdown temp => Sys2Proof.Machine.execThermalShutdown temp s
  | .peerReportRequest peer ctx domain nonce signature => Sys2Proof.Machine.execPeerReportRequest peer ctx domain nonce signature s
  | .peerReportAnswer answered verified device incarnation nonce keyed => Sys2Proof.Machine.execPeerReportAnswer answered verified device incarnation nonce keyed s
  | .reservedKindPacket p => Sys2Proof.Machine.execReservedKindPacket p s
  | .dcmdRefused ctx value => Sys2Proof.Machine.execDcmdRefused ctx value s
  | .throttlingEnd temp => Sys2Proof.Machine.execThrottlingEnd temp s
  | .hostCmdSysrd => Sys2Proof.Machine.execHostCmdSysrd s
  | .hostCmdSyswr => Sys2Proof.Machine.execHostCmdSyswr s
  | .hostCmdCheckpoint => Sys2Proof.Machine.execHostCmdCheckpoint s
  | .hostCmdRestore => Sys2Proof.Machine.execHostCmdRestore s
  | .hostCmdShoot => Sys2Proof.Machine.execHostCmdShoot s
  | .hostCmdLoadImage => Sys2Proof.Machine.execHostCmdLoadImage s
  | .hostCmdClearIsleMask => Sys2Proof.Machine.execHostCmdClearIsleMask s
  | .hostCmdAdmitPeer => Sys2Proof.Machine.execHostCmdAdmitPeer s
  | .powerOn => Sys2Proof.Machine.execPowerOn s
  | .badCommand => Sys2Proof.Machine.execBadCommand s
  | .powerLoss => Sys2Proof.Machine.execPowerLoss s

end Sys2Proof.Machine
end

