-- ==== Sys2Proof/Machine/Schedule.lean ====
section
/-! DEFINITION. Which turn the machine takes next, and how a bundle's instruction is fetched and decoded (01_machine R17;
02_encoding R33, R34, R60; 13_launch_schedule R360). Turns that the state prescribes come first; they stand for what comes
from outside and for the orders and moments that the spec leaves open (log 1). Without one, the transitions inside the device
that can take place take turns with the bundles. A module that is shut down, or has no power, only takes power again (R488). -/

namespace Sys2Proof.Machine

/-- What a step does: a state that is reached without an instruction, or an instruction or event and the state it meets. -/
inductive Plan where
  | settled (s : State)
  | run (i : Instr) (s : State)
  deriving DecidableEq, Repr

/-- The contexts of which a thread waits externally (R372). -/
def State.externals (s : State) : List Nat :=
  ((s.units.filter fun u => !u.isSystem && u.inRun && u.crews.any fun c => (c.handler :: c.threads).any Thread.external).map (·.ctx)).eraseDups

/-! ## Threads whose waits are over (R360) -/

/-- What a waiting thread's instruction could change beside the thread: the rest of its unit, and what the system cores are asked. -/
def State.beside (s : State) (uid : Nat) : Option RUnit × List SysCore := ((s.unit? uid).map fun u => { u with crews := [] }, s.sys)

/-- The threads of a group for which their instruction, tried together, does not come to the same wait again. -/
def State.tried (run : Instr → State → Out) (s : State) (u : RUnit) (i : Instr) (ts : List (Nat × Nat)) : List (Nat × Nat) :=
  match run i { s with sched := { s.sched with issue := some (u.uid, ts), back := [] } } with
  | .next s' => ts.filter fun q =>
      let a := s.thread ⟨u.uid, q.1, q.2⟩
      let b := s'.thread ⟨u.uid, q.1, q.2⟩
      b.wait != a.wait || b.latch != a.latch || b.arrival != a.arrival || s'.beside u.uid != s.beside u.uid
  | .fault _ | .refused _ => ts

/-- The threads of a group at one PC whose wait is over. Those of an instruction on the uniform path, or at which a crew meets, are
tried together; a thread held for an exhausted table goes on with the EVDONE write alone, and its receivers with it (R46, R133, R460). -/
def State.roused (run : Instr → State → Out) (s : State) (u : RUnit) (ts : List (Nat × Nat)) : List (Nat × Nat) :=
  let th := fun (q : Nat × Nat) => (u.crew q.1).thread q.2
  match ts with
  | [] => []
  | q :: qs =>
    match s.fetchInstr u ((q :: qs).foldl (fun m k => max m (th k).ifMark) 0) (th q).pc.toNat with
    | .error _ => ts
    | .ok ws => match decodeWords ws with
      | .error _ => ts
      | .ok (i, _) =>
        let held := fun (k : Nat × Nat) => (th k).wait == some .held && !(th k).virt
        if i.view.any fun v => v.x.u || v.collective then (if ts.all held then [] else s.tried run u i ts)
        else (ts.filter (!held ·)).flatMap fun k => s.tried run u i [k]

/-- The step looks at the threads of a unit that wait: those whose wait is over are ready from now on, and the others look again when
the machine has moved (R360). -/
def State.rouseUnit (run : Instr → State → Out) (s : State) (u : RUnit) : State :=
  let stir := fun (k : Nat) => (List.range 33).filter (s.stirs u k)
  let groups := (List.range 4).flatMap fun q => ((u.crewsIn q).flatMap fun k => (u.crew k).groups k (stir k)).foldl packGroup []
  groups.foldl (fun (r : State) g =>
    let up := s.roused run u g.2.2
    g.2.2.foldl (fun r q => r.mapThread ⟨u.uid, q.1, q.2⟩ fun th =>
      if up.contains q then { th with wait := none, readySince := s.clk.now, urgent := none } else { th with tried := s.clk.stepNo }) r) s

def State.rouse (run : Instr → State → Out) (s : State) : State := s.units.foldl (fun s u => s.rouseUnit run u) s

/-- The model's clock advances (log 2), and the watchdog of a context of which a thread waits externally stands at 0 (R373). -/
def State.clockOn (s : State) : State :=
  let now := s.clk.now + Config.cyclesOfStep s.clk.stepNo
  { s with clk := { s.clk with stepNo := s.clk.stepNo + 1, now, acts := s.externals.foldl (fun a c => assocSet a c now) s.clk.acts } }

/-- Packets that nothing holds any longer are performed (R213, R377). -/
def State.unholdPackets (s : State) : State := if s.fabric.heldPackets = [] then s else s.drainAll

/-- The step begins: time passes, lines whose domain has changed stand under its key pair (R484), and what nothing holds any longer
goes on. run: what an instruction does. -/
def State.tick (run : Instr → State → Out) (s : State) : State := s.clockOn.recipher.unholdPackets.rouse run

/-! ## Transitions inside the device -/

/-- What an access can do next. -/
def Txn.moves (x : Txn) (s : State) : List Instr :=
  let first (other : Instr) : Instr := if x.space = .global then .loadTranslationAck x.id else other
  let due := decide (x.since + (s.ctx x.ctx).fabTimeout ≤ s.clk.now)
  match x.kind, x.phase with
  | .load .., .issued | .gread _, .issued | .gpub .., .issued | .launch, .issued => [first (.loadDataReply x.id false)]
  | .load .., .accepted | .gread _, .accepted | .gpub .., .accepted | .launch, .accepted => [.loadDataReply x.id false]
  | .store _, .issued => [if x.space = .global then .storeArrivalAtHome x.id else .storePerform x.id false]
  | .store _, .accepted => [.storePerform x.id false]
  | .store _, .failed _ | .atomic .., .failed _ | .cas .., .failed _ => [.storeFailureReport x.id]
  | .atomic .., .issued | .cas .., .issued => [first (.atomicPerform x.id false)]
  | .atomic .., .accepted | .cas .., .accepted => [.atomicPerform x.id false]
  | .atomic .., .performed _ | .cas .., .performed _ => [.atomicReply x.id]
  | .lrun .., .issued | .waitv .., .issued | .gwait .., .issued => [.loadTranslationAck x.id]
  | .lrun .., .accepted => [.lrunHold x.id false]
  | .lrun .., .performed _ => [.lrunComplete x.id]
  | .waitv .., .sleeping | .gwait .., .sleeping => [.waitvTimeout x.id, .waitRecheckTimer x.id]
  | .rst _, .issued | .ratom .., .issued => if due then [.fabricTimeout x.id] else []
  | .rst _, .resend | .ratom .., .resend => [.fabricResendFinal x.id]
  | _, _ => []

/-- What an engine operation can do next. -/
def Op.moves (o : Op) (s : State) : List Instr :=
  let due := decide (o.since + (s.ctx o.ctx).fabTimeout ≤ s.clk.now)
  match o.kind with
  | .mma _ => if o.started then [.matrixChunk o.id .ok, .matrixOpComplete o.id] else [.matrixOpAccept o.id, .matrixOpComplete o.id]
  | .bload => if o.started then [.bloadGroup o.id false, .matrixOpComplete o.id] else [.matrixOpAccept o.id, .matrixOpComplete o.id]
  | .mdrain => if o.started then [.mdrainRow o.id false, .matrixOpComplete o.id] else [.matrixOpAccept o.id, .matrixOpComplete o.id]
  | .mzero => if o.started then [.matrixOpComplete o.id] else [.matrixOpAccept o.id, .matrixOpComplete o.id]
  | .copy _ => [.copyGroupDelivered o.id false, .copyComplete o.id]
  | .pft => [.pftComplete o.id]
  | .dprop _ | .dapp | .dclr => [.draftOpExecute o.id]
  | .rld | .rld3 => if due then [.fabricTimeout o.id] else []
  | .mcst => (if due then [.fabricTimeout o.id] else []) ++ (if o.flags = 2 then [.fabricResendFinal o.id] else [])
  | .ctxsave => []
  | .ctxload => [.restore o.id]

/-- What a thread's recorded failures and its age can bring about. -/
def Thread.moves (th : Thread) (s : State) (u : RUnit) (crew lane : Nat) : List Instr :=
  (if th.fails.any fun f => decide (f.since + 4096 ≤ s.clk.now) then [.deferredStoreTimeout u.uid crew lane] else []) ++
  (if s.ready u crew lane && th.urgent.isNone && decide (th.readySince + 64 ≤ s.clk.now) then [.threadUrgent u.uid crew lane] else [])

/-- What a crew can do next beside its instructions. -/
def Crew.moves (c : Crew) (s : State) (u : RUnit) (k : Nat) : List Instr :=
  (if c.event.isNone && c.pending != [] then [.userTrapEntry u.uid k] else []) ++
  (match c.budget with | .running e => if e ≤ s.clk.now then [.budgetOverrun u.uid k] else [] | .disarmed | .paused _ => []) ++
  (List.range 33).flatMap fun l => (c.thread l).moves s u k l

/-- What a unit can do next beside its instructions. -/
def RUnit.moves (u : RUnit) (s : State) : List Instr :=
  List.flatten [
    if u.fault.isSome then [.fault u.uid] else [],
    match u.task.phase with | .none => [] | .wanting | .token => [.commitStart u.uid] | .numbered _ => [.commitMerge u.uid],
    if u.isSystem then [] else match u.fate with
      | .running => if u.liveThreads.isEmpty then [.unitEnd u.uid] else []
      | .draining since =>
        if u.liveThreads.isEmpty then .unitEnd u.uid :: (if since + 2 ^ 20 ≤ s.clk.now then [.drainTimeout u.uid] else [])
        else if since + 2 ^ 20 ≤ s.clk.now then [.drainTimeout u.uid] else []
      | .saving => [if u.speculative then .flushAndRestart u.uid else .save u.uid]
      | .faulted | .cancelled | .stopped | .ended => [.unitEnd u.uid],
    (List.range u.crews.length).flatMap fun k => (u.crew k).moves s u k]

/-- What a launch can do next (R328, R356, R359). -/
def Launch.moves (l : Launch) (s : State) : List Instr :=
  let n := l.id.toNat
  let fire : List Instr := if l.units.any fun r => r.refire.isSome then [.consumerFire n] else []
  match l.state with
  | .waiting => [if s.regsOf l.id = [] then .launchStart n else .consumerFire n]
  | .started => fire ++ (match l.candidate with | some i => [.unitPlacement n i] | none => [])
  | .complete => fire
  | .cancelled | .refused => []

/-- Units that have waited for a fit long enough, with each unit that might make room (R424). -/
def State.priorityMoves (s : State) : List Instr :=
  (s.work.waiting.filter fun w => decide (w.2.2 + 65536 ≤ s.clk.now)).flatMap fun w =>
    (s.units.filter fun u => !u.isSystem).map fun u => .preemptPriorityWait w.1.toNat w.2.1 u.uid

/-- Every transition inside the device that may take place now; one that may not leaves the state as it is. -/
def State.moves (s : State) : List Instr :=
  List.flatten [
    s.txns.flatMap (·.moves s),
    s.ops.flatMap (·.moves s),
    s.units.flatMap (·.moves s),
    (s.commits.queue.filterMap fun uid => (s.unit? uid).map fun u => dieOf u.core).eraseDups.map fun d => .commitTokenGrant d,
    (s.commits.sigs.map (·.die)).eraseDups.map fun d => .writeSignatureArrival d [],
    (s.commits.addrs.map (·.die)).eraseDups.map fun d => .conflictAddressArrival d [],
    s.grades.pubs.map fun p => .publication p.id,
    s.work.fills.map fun f => .wfetchFill f.id,
    (s.work.firings.filter fun f => !f.started).map fun f => .firingStart f.slot,
    s.work.launches.flatMap (·.moves s),
    s.priorityMoves,
    (s.ctxs.filter fun c =>
      let t := 1024 * (c.2.timers.toNat % 65536)
      t != 0 && decide ((assocGet s.clk.acts c.1).getD 0 + t ≤ s.clk.now)).map fun c => .deadlockWatchdog c.1,
    (s.shoots.filter fun q => !q.done).map fun q => .shootdown q.id [],
    (List.range 8).filterMap fun d => if !(s.sys.getD d .reset).evmask.getLsbD 0 && (s.nextSource d).isSome then some (.systemEvent d) else none,
    if s.host.cmdhead = s.host.cmdtail then []
    else
      [.hostCmdSysrd, .hostCmdSyswr, .hostCmdShoot, .hostCmdCheckpoint, .hostCmdRestore, .hostCmdLoadImage, .hostCmdClearIsleMask,
       .hostCmdAdmitPeer, .badCommand],
    if s.fabric.joined then (List.range 16).flatMap fun p => [.heartbeatTimer p, .linkDeathTimeout p] else []]

/-! ## Fetch and issue -/

/-- A bundle's words are fetched and decoded; a fetch that fails is the fetch fault, and words that decode to nothing the
illegal-instruction fault (R34, R60). -/
def State.fetchBundle (s : State) (u : RUnit) (lanes : List (Nat × Nat)) : Plan :=
  match lanes.map fun q => (⟨u.uid, q.1, q.2⟩ : Tid) with
  | [] => .settled s
  | t :: ts =>
    let mark := (t :: ts).foldl (fun m q => max m (s.thread q).ifMark) 0
    let pc := (s.thread t).pc.toNat
    match s.fetchInstr u mark pc with
    | .error r => .settled (s.faultBundle t ts { cause := 0x28, reason := r, addr := pc })
    | .ok ws =>
      let s := s.keepFetch u.uid pc (4 * ws.length)
      match decodeWords ws with
      | .error _ => .settled (s.faultBundle t ts { cause := 0x21 })
      | .ok (i, _) => .run i { s with sched := { s.sched with issue := some (u.uid, lanes) } }

/-- A formed bundle issues; a thread of it that stands at a breakpoint stops instead, with its crew's mates (R435), and one whose
report of deferred failures is due takes it first (R413). -/
def State.issueBundle (s : State) (b : Bundle) : Plan :=
  let s : State := { s with sched := { s.sched with bundles := s.sched.bundles.erase b } }
  match s.unit? b.uid with
  | none => .settled s
  | some u =>
    let lanes := s.bundleThreads b
    match lanes.find? fun q => (s.thread ⟨u.uid, q.1, q.2⟩).reportDue s.clk.now with
    | some q => .run (.deferredStoreTimeout u.uid q.1 q.2) { s with sched := { s.sched with issue := none } }
    | none =>
    match lanes.find? fun q => s.atBreakpoint u ⟨u.uid, q.1, q.2⟩ with
    | some q => .run (.pcBreakpoint u.uid q.1 q.2) { s with sched := { s.sched with issue := some (u.uid, lanes) } }
    | none => s.fetchBundle u lanes

/-- An index that the own turns take in rotation: the sum of a count's digits in base k, so that no period of the turns keeps
an index out. -/
def rotation (k : Nat) : Nat → Nat → Nat
  | 0, n => n
  | d + 1, n => n % k + rotation k d (n / k)

/-- What the machine does by itself: on every second step a transition inside the device, in rotation; else the bundle that
R360 puts first in its quarter, or a regrouping. A throttled device issues nothing by itself (R473). -/
def State.ownTurn (s : State) : Plan :=
  let quiet : State := { s with sched := { s.sched with issue := none, back := [] } }
  if s.dark then .settled quiet else
  let ms := s.moves
  let n := s.clk.stepNo / 2
  match if s.clk.stepNo % 2 = 0 then ms[n % ms.length]? else none with
  | some i => .run i quiet
  | none =>
    if s.host.throttled then .settled quiet
    else
      match s.sched.bundles with
      | b :: bs =>
        (match s.bestBundle ((b :: bs).filter fun c => c.core == b.core && c.quarter == b.quarter) with
        | some c => quiet.issueBundle c
        | none => .settled quiet)
      | [] =>
        let qs := s.readyQuarters
        match qs[rotation qs.length 16 n % qs.length]? with
        | some q => .run (.regrouping q.1 q.2) quiet
        | none => .settled quiet

/-- The bundles that one path of a quarter chooses among: those of b's quarter and of its path, vector or uniform (R17, R360). -/
def State.pathMates (s : State) (b : Bundle) : List Bundle :=
  b :: s.sched.bundles.filter fun c => c != b && c.core == b.core && c.quarter == b.quarter && s.uniformPath c == s.uniformPath b

/-- An event that a module takes that is shut down or has no power: power (R488). -/
def powers (i : Instr) : Bool := i matches .powerOn | .powerLoss

/-- The turn that the step takes: the next one prescribed, else what the machine does by itself. -/
def State.plan (s : State) : Plan :=
  match s.sched.turns with
  | .event i back :: ts =>
    let s : State := { s with sched := { s.sched with turns := ts, back, issue := none } }
    if s.dark && !powers i then .settled s else .run i s
  | .issue k back :: ts =>
    let s : State := { s with sched := { s.sched with turns := ts, back } }
    (match if s.dark then none else s.sched.bundles[k]? with
    | some b => (match s.bestBundle (s.pathMates b) with
      | some c => s.issueBundle c
      | none => .settled s)
    | none => .settled s)
  | .flaw f :: ts => .settled { s with sched := { s.sched with turns := ts }, flaws := f :: s.flaws }
  | .corrected k :: ts => .settled { s with sched := { s.sched with turns := ts }, ecnt := s.ecnt.modify k (· + 1) }
  | .dropLine ctx line :: ts =>
    let s : State := { s with sched := { s.sched with turns := ts } }
    .settled (match s.dropDirty ctx line with
    | some q => q.2.errorEvent q.1 (line * 128)
    | none => s)
  | .dropEntry ctx region :: ts => .settled ({ s with sched := { s.sched with turns := ts } }.dropEntry ctx region)
  | [] => s.ownTurn

/-! ## A given instruction as the next to run (log 10) -/

/-- The system core of die 0 as start-up step 9 leaves it: its thread stands ready at PC 0 (R438, R478). -/
def RUnit.started (s : State) : RUnit :=
  (RUnit.system 0).mapCrew 0 fun c => c.mapThread 0 fun th => { th with live := true, readySince := s.clk.now, ifMark := s.clk.stepNo }

/-- The page from which the placed instruction is fetched. -/
def placedLeaf : Leaf :=
  { va := 0, size := 65536, pa := 0, die := 0, dom := 0, pn := false, xw := false, gx := false, tso := false, x := true, w := false, gmap := 0 }

/-- The state with an instruction's bytes at PC 0 of die 0's system core, its translation cached, and its bundle next. -/
def State.placeWord (s : State) (bs : List Byte) : State :=
  { s with
    sched := { turns := [.issue 0 []], issue := none, back := [],
               bundles := [{ core := 512, quarter := 0, uid := 0, pc := 0, threads := [(0, 0)] }] },
    units := .started s :: s.units.filter (·.uid != 0),
    mem := cellsPut s.mem 0 bs,
    caches := { s.caches with tlbs := { slice := (s.ctx 0).home placedLeaf 0, ctx := 0, leaf := placedLeaf } :: s.caches.tlbs },
    host := { s.host with powered := true, shut := false } }

end Sys2Proof.Machine
end

