-- ==== Sys2Proof/Machine/Step.lean ====
section
/-! DEFINITION. One step of the machine, and the state in which a given instruction is the next to run. -/

namespace Sys2Proof.Machine

/-- One step: the turn that the schedule gives, or nothing when no turn is left. -/
def step (s : State) : Host.Outcome State Fault Refusal :=
  match (s.tick exec).plan with
  | .settled s => .next s
  | .run i s => exec i s

/-- The state in which the instruction of given bits is the next that step fetches and runs: as the first instruction of
die 0's system core, which start-up starts at PC 0 (log 10). -/
def State.withFetchWord (s : State) (nbits w : Nat) : State := s.placeWord (Sys2Proof.tableBytes nbits w)

end Sys2Proof.Machine
end

