-- ==== Sys2Proof/Safety.lean ====
section
/-! DEFINITION. The terms in which claims about runs are stated: a bundle that stands at an instruction, what an instruction
leaves alone, the canonical form of memory that every step keeps, and the runs of the machine. -/

namespace Sys2Proof

open Machine

/-- A thread with a result of an instruction in its destination and the flags that the result raised in fsr (R97, R142). -/
def View.wrote (v : View) (r : Nat × List Nat) (th : Thread) : Thread := (v.writeD r.1 th).orFlags (orAll r.2)

/-- The thread whose operands a thread of the active threads act takes: itself, or the lowest of them under U = 1 (R46). -/
def View.reader (v : View) (act : List Tid) (q : Tid) : Tid := if v.x.u then act.headD q else q

/-- The result of a computing instruction for a thread of the active threads act: the operation on the operands of its reader. -/
def View.resultOf (v : View) (op : Op3) (s : State) (act : List Tid) (q : Tid) : Nat × List Nat :=
  let p := v.reader act q
  let lanes := act.map (·.lane)
  op (s.thread p) (v.srcA s p lanes) (v.srcB s p lanes) (v.srcC s p)

namespace Machine

/-! ## Threads at an instruction -/

/-- A thread, or a crew's handler context, exists in a resident unit. -/
def State.Present (s : State) (t : Tid) : Prop :=
  ∃ u, s.unit? t.uid = some u ∧ t.crew < u.crews.length ∧ (t.lane = 32 ∨ t.lane < (u.crew t.crew).threads.length)

/-- The threads t and ts of unit u are the bundle whose instruction i executes; v is its view. i is legal where it stands
(R60), and the debugger is stepping none of the threads. -/
structure State.Issues (s : State) (i : Instr) (v : View) (u : RUnit) (t : Tid) (ts : List Tid) : Prop where
  bundle : s.bundle = some (u, t, ts)
  view : i.view = some v
  legal : v.illegal = none
  legalHere : v.illegalAt (u.place t) = none
  allowed : v.row.priv = true → u.isSystem = true
  distinct : (t :: ts).Nodup
  present : ∀ q ∈ t :: ts, s.Present q
  running : ∀ q ∈ t :: ts, (s.thread q).stepping = none

/-- The threads of a bundle whose guard holds (R44). -/
def State.active (s : State) (v : View) (ts : List Tid) : List Tid := ts.filter fun q => v.guard (s.thread q)

/-- Thread t of unit u is alone in the bundle whose instruction i executes: its guard holds (R44), its sources are full (R48),
no register of its destination is empty (R92), it has no store failure to report (R245), and it holds nothing that an
instruction took while it waited. The instruction is no crew-collective. -/
structure State.Lone (s : State) (i : Instr) (v : View) (u : RUnit) (t : Tid) : Prop where
  issues : s.Issues i v u t []
  single : v.collective = false
  guard : v.guard (s.thread t) = true
  full : v.check s t [t.lane] = .ready
  dest : v.destBusy (s.thread t) = false
  clean : (s.thread t).fails = []
  untaken : (s.thread t).latch = none

/-- The same in a task that runs directly or is sealed, and is not committing: nothing that an instruction does has to wait for
a seal (R286, R316). -/
structure State.Direct (s : State) (i : Instr) (v : View) (u : RUnit) (t : Tid) : Prop extends s.Lone i v u t where
  direct : u.speculative = false
  settled : u.task.phase = .none

/-- The same for a crew-collective instruction: t is the whole participation set of its crew, and no thread of the crew has
arrived anywhere (R117, R194). -/
structure State.Met (s : State) (i : Instr) (v : View) (u : RUnit) (t : Tid) : Prop where
  issues : s.Issues i v u t []
  collective : v.collective = true
  set : participants v (s.crew t.uid t.crew) = [t.lane]
  fresh : ∀ l, ((s.crew t.uid t.crew).thread l).arrived = false
  guard : v.guard (s.thread t) = true
  full : v.check s t [t.lane] = .ready
  dest : v.destBusy (s.thread t) = false
  clean : (s.thread t).fails = []
  untaken : (s.thread t).latch = none

/-- No access and no engine operation of thread t is on its way, and no access of another fills its registers. -/
def State.Quiet (s : State) (t : Tid) : Prop :=
  (∀ x ∈ s.txns, x.tid ≠ t ∧ t ∉ x.holders ∧ ∀ d ∈ x.dests, d.1 ≠ t) ∧ ∀ o ∈ s.ops, o.tid ≠ t

/-- A thread that has gone on to the next instruction, len bytes further. -/
def Thread.past (th : Thread) (now len : Nat) : Thread := { th.settled now with pc := th.pc + BitVec.ofNat 64 len }

/-- A thread that an instruction has sent elsewhere. -/
def Thread.sent (th : Thread) (now : Nat) (pc : DWord) : Thread := { th.settled now with pc }

/-! ## What an instruction leaves alone -/

/-- A crew without its threads. -/
def Crew.shell (c : Crew) : Crew := { c with threads := [], handler := .absent }

/-- A unit without its threads. -/
def RUnit.shell (u : RUnit) : RUnit := { u with crews := u.crews.map Crew.shell }

/-- The machine without its threads and without the two clocks that every instruction winds: the watchdog timers (R373) and the
model's mark of the last step that moved something. -/
def State.outside (s : State) : State :=
  { s with
    units := s.units.map RUnit.shell,
    images := s.images.map fun m => { m with unit := m.unit.shell },
    clk := { s.clk with moved := 0, acts := [] } }

/-- A thread without the model's own note of the step at which it last waited. -/
def Thread.sansTried (th : Thread) : Thread := { th with tried := 0 }

/-- Between two states only threads differ, and each is what f says: no mask, no register of a context or of the device, no
byte of any memory, no access on its way. -/
structure State.Becomes (s s' : State) (f : Tid → Thread) : Prop where
  threads : ∀ q, (s'.thread q).sansTried = (f q).sansTried
  rest : s'.outside = s.outside

/-- The threads of a state with one changed. -/
def State.but (s : State) (t : Tid) (th : Thread) (q : Tid) : Thread := if q = t then th else s.thread q

/-! ## The canonical form of memory -/

/-- The memories of the machine are in their canonical form: device DRAM and host memory, and the vaults. -/
structure State.Canonical (s : State) : Prop where
  mem : Memory.wf s.mem = true
  vaults : Memory.wf s.vaults = true

/-- The local memory of every unit, resident, in an image or in a checkpoint of the device, is in its canonical form. -/
structure State.LocalCanonical (s : State) : Prop where
  units : ∀ u ∈ s.units, Memory.wf u.loc = true
  images : ∀ m ∈ s.images, Memory.wf m.unit.loc = true
  checkpoints : ∀ k ∈ s.host.checkpoints, ∀ m ∈ k.2.1, Memory.wf m.unit.loc = true

/-! ## Runs -/

/-- s' comes from s by some number of steps. -/
inductive State.Reaches : State → State → Prop where
  | refl (s : State) : State.Reaches s s
  | next {s t r : State} : State.Reaches s t → step t = .next r → State.Reaches s r

/-- A run of the machine never ends in s: the step from s gives a next state. -/
def State.Safe (s : State) : Prop := ∃ s', step s = .next s'

end Machine

end Sys2Proof
end

