-- ==== Sys2Proof/Certificates/Slice0/Obligations.lean ====
section
/-! DEFINITION. The statements for the provers, by the rules of spec/: encodings, the results of instructions and what they
leave alone, accesses and their events, tasks, launches, the fabric, traps and faults, the system, reset, and what every step
keeps. -/

namespace Sys2Proof.Claims

open Sys2Proof Sys2Proof.Machine

/-! ## What the integer and the float instructions compute -/

/-- The operation of an instruction that computes an integer result, address, predicate or move (R99 to R113). -/
def intOpOf : Instr → Option Op3
  | .iaddBase _ => some (exactOp .i32 false opAdd)
  | .iaddExt x => some (exactOp x.ty x.sat opAdd)
  | .isubBase _ => some (exactOp .i32 false opSub)
  | .isubExt x => some (exactOp x.ty x.sat opSub)
  | .imulBase _ => some (exactOp .i32 false opMul)
  | .imulExt x => some (exactOp x.ty x.sat opMul)
  | .imulhBase _ => some (exactOp .i32 false (opMulh 32))
  | .imulhExt x => some (exactOp x.ty false (opMulh x.ty.elemWidth))
  | .imad x => some (exactOp x.ty x.sat opMad)
  | .idivBase _ => some (exactOp .i32 false opDiv)
  | .idivExt x => some (exactOp x.ty false opDiv)
  | .iremBase _ => some (exactOp .i32 false opRem)
  | .iremExt x => some (exactOp x.ty false opRem)
  | .iminBase _ => some (exactOp .i32 false opMin)
  | .iminExt x => some (exactOp x.ty false opMin)
  | .imaxBase _ => some (exactOp .i32 false opMax)
  | .imaxExt x => some (exactOp x.ty false opMax)
  | .iabsBase _ => some (exactOp .i32 false opAbs)
  | .iabsExt x => some (exactOp x.ty x.sat opAbs)
  | .inegBase _ => some (exactOp .i32 false opNeg)
  | .inegExt x => some (exactOp x.ty x.sat opNeg)
  | .andBase _ | .andExt _ => some (intOp fun a b _ => a &&& b)
  | .orBase _ | .orExt _ => some (intOp fun a b _ => a ||| b)
  | .xorBase _ | .xorExt _ => some (intOp fun a b _ => a ^^^ b)
  | .andnBase _ => some (intOp fun a b _ => a &&& invert 32 b)
  | .andnExt x => some (intOp fun a b _ => a &&& invert x.ty.width b)
  | .notBase _ => some (intOp fun a _ _ => invert 32 a)
  | .notExt x => some (intOp fun a _ _ => invert x.ty.width a)
  | .shlBase _ => some (intOp fun a b _ => opShl 32 a b)
  | .shlExt x => some (intOp fun a b _ => opShl x.ty.width a b)
  | .shrBase _ => some (intOp fun a b _ => opShr 32 a b)
  | .shrExt x => some (intOp fun a b _ => opShr x.ty.width a b)
  | .sarBase _ => some (intOp fun a b _ => opSar 32 a b)
  | .sarExt x => some (intOp fun a b _ => opSar x.ty.width a b)
  | .rolBase _ => some (intOp fun a b _ => opRol 32 a b)
  | .rolExt x => some (intOp fun a b _ => opRol x.ty.width a b)
  | .bfe x => some (intOp fun a b _ => opBfe x.ty.isSigned x.ty.width a b)
  | .bfi x => some (intOp fun a b c => opBfi x.ty.width a b c)
  | .popcBase _ => some (intOp fun a _ _ => opPopc 32 a)
  | .popcExt x => some (intOp fun a _ _ => opPopc x.ty.width a)
  | .clz x => some (intOp fun a _ _ => opClz x.ty.width a)
  | .brev x => some (intOp fun a _ _ => opBrev x.ty.width a)
  | .lea shift zx _ => some (intOp fun a b _ => opLea shift.toNat zx a b)
  | .icmp cond comb x => some (intOp fun a b c =>
      boolNat (combined comb (compares cond (elemInt x.ty a) (elemInt x.ty b)) (c != 0)))
  | .pset all _ => some (intOp fun a b _ => boolNat (if all then a &&& b == b else a &&& b != 0))
  | .plop lut _ => some (intOp fun a b c => opPlop lut.toNat a b c)
  | .sel _ => some (intOp fun a b c => if c != 0 then b else a)
  | .movBase _ | .movExt _ => some (intOp fun _ b _ => b)
  | .cvti src e x => some (intOp fun a b _ => opCvti x.ty src e.toNat x.sat a b)
  | _ => none

/-- The operation of a floating-point instruction, with the flags of each element (R147 to R160). -/
def floatOpOf : Instr → Option Op3
  | .faddBase _ => some (arith .f32 .fsr (opFadd false))
  | .faddExt rnd x => some (arith x.ty rnd (opFadd x.sat))
  | .fsubBase _ => some (arith .f32 .fsr (opFsub false))
  | .fsubExt rnd x => some (arith x.ty rnd (opFsub x.sat))
  | .fmulBase _ => some (arith .f32 .fsr (opFmul false))
  | .fmulExt rnd x => some (arith x.ty rnd (opFmul x.sat))
  | .ffma rnd x => some (arith x.ty rnd (opFfma x.sat))
  | .fminBase _ => some (minMaxOp .f32 false)
  | .fminExt x => some (minMaxOp x.ty false)
  | .fmaxBase _ => some (minMaxOp .f32 true)
  | .fmaxExt x => some (minMaxOp x.ty true)
  | .fcmp cond comb x => some (fcmpOp x.ty cond comb)
  | .fsel cond x => some (fselOp x.ty cond)
  | .frcp x => some (approxOp x.ty .rcp)
  | .frsq x => some (approxOp x.ty .rsq)
  | .fsqrt rnd x => some (arith x.ty rnd (opFsqrt x.sat))
  | .fexp2 x => some (approxOp x.ty .exp2)
  | .flog2 x => some (approxOp x.ty .log2)
  | .ftanh x => some (approxOp x.ty .tanh)
  | .fclass x => some (intOp fun a _ _ => (fmtOf x.ty).classify a)
  | .cvtf src rnd x => some (cvtfOp x.ty src rnd x.sat)
  | .fpackHdr _ => some fun _ a b _ => ((packHeader a b).1, [(packHeader a b).2])
  | .fpack _ => some fpackOp
  | .funpack hi _ => some (funpackOp hi)
  | _ => none

/-- What the threads of a bundle hold after an instruction that computes: those whose guard holds get the result of their
reader's operands and its flags, and every thread of the bundle goes on. -/
def computed (s : State) (i : Instr) (v : View) (op : Op3) (all : List Tid) (q : Tid) : Thread :=
  let act := s.active v all
  if q ∈ act then (v.wrote (v.resultOf op s act q) (s.thread q)).past s.clk.now (instrSize i)
  else if q ∈ all then (s.thread q).past s.clk.now (instrSize i)
  else s.thread q

/-- The active threads have full sources (R48) and no empty destination (R92), and no result raises an enabled flag (R143). -/
structure Computes (s : State) (v : View) (op : Op3) (act : List Tid) : Prop where
  full : ∀ q ∈ act, v.check s (v.reader act q) (act.map (·.lane)) = .ready
  dest : ∀ q ∈ act, v.destBusy (s.thread q) = false
  calm : ∀ q ∈ act, orAll (v.resultOf op s act q).2 &&& s.enables (v.reader act q) = 0

/-- The instruction completes at thread t alone: its destination gets a value of which P holds, t goes on, and nothing else
differs. -/
def Gives (s : State) (i : Instr) (v : View) (t : Tid) (P : Nat → Prop) : Prop :=
  ∃ s' r, P r ∧ exec i s = .next s' ∧ s.Becomes s' (s.but t ((v.writeD r (s.thread t)).past s.clk.now (instrSize i)))

end Sys2Proof.Claims

open Sys2Proof Sys2Proof.Machine Sys2Proof.Claims

/-! ## Integer and float results (04_integer, 06_float) -/

/-- R46, R93, R97: at a bundle of any number of threads, an integer, address, predicate or move instruction answers a next state
in which every active thread has the result in its destination, every thread of the bundle stands at the next instruction, and
nothing else differs. No flag is raised. Model's choice, where the rules leave it open: log 12. -/
def Obligations.IntegerResult : Prop :=
  ∀ (s : State) (i : Instr) (v : View) (u : RUnit) (t : Tid) (ts : List Tid) (op : Op3),
    s.Issues i v u t ts → v.collective = false → intOpOf i = some op → Computes s v op (s.active v (t :: ts)) →
    ∃ s', exec i s = .next s' ∧ s.Becomes s' (computed s i v op (t :: ts))

/-- R46, R93, R142, R143: the same for a floating-point instruction, whose flags are ORed into fsr of each receiver. Model's
choice, where the rules leave it open: log 12, 14. -/
def Obligations.FloatResult : Prop :=
  ∀ (s : State) (i : Instr) (v : View) (u : RUnit) (t : Tid) (ts : List Tid) (op : Op3),
    s.Issues i v u t ts → v.collective = false → floatOpOf i = some op → Computes s v op (s.active v (t :: ts)) →
    ∃ s', exec i s = .next s' ∧ s.Becomes s' (computed s i v op (t :: ts))

/-- R45, R51, R117, R194: an instruction that computes, made crew-collective by a lane modifier, at the bundle of its whole
participation set: the same, with each source read from the lane that its modifier names. Model's choice, where the rules leave
it open: log 12. -/
def Obligations.LaneModifiedResult : Prop :=
  ∀ (s : State) (i : Instr) (v : View) (u : RUnit) (t : Tid) (ts : List Tid) (op : Op3),
    s.Issues i v u t ts → v.collective = true → intOpOf i = some op ∨ floatOpOf i = some op →
    (∀ q ∈ ts, q.crew = t.crew) → participants v (s.crew t.uid t.crew) = (t :: ts).map (·.lane) →
    (∀ l, ((s.crew t.uid t.crew).thread l).arrived = false) → (∀ q ∈ t :: ts, (s.thread q).taken = none) →
    (∀ q ∈ t :: ts, (s.thread q).pc = (s.thread t).pc) →
    s.active v (t :: ts) ≠ [] → Computes s v op (s.active v (t :: ts)) →
    (∀ q ∈ s.active v (t :: ts), v.check s q ((s.active v (t :: ts)).map (·.lane)) = .ready) →
    ∃ s', exec i s = .next s' ∧ s.Becomes s' (computed s i v op (t :: ts))

/-- R97: element e of the result of an integer operation is the exact operation on the elements e, narrowed to the element:
modulo 2^w, or to the nearest end of the type's range with S = 1. R97, R99, R100: the 32-bit sums, differences and products of
iadd, isub and imul are those of 32-bit words. R100: imulh writes the high half of the exact product of its type's signs; a zero
divisor gives a quotient of all ones and a remainder equal to the dividend; otherwise the quotient is truncated toward zero and
the remainder has the sign of the dividend, and the quotient of the least value by −1 is the least value. None of them sets a
flag. -/
def Obligations.IntegerArithmetic : Prop :=
  (∀ (ty : Ty) (sat : Bool) (f : Int → Int → Int → Int) (a b c e : Nat), e < ty.elems →
    let w := ty.elemWidth
    let x := f (elemInt ty (elem w a e)) (elemInt ty (elem w b e)) (elemInt ty (elem w c e))
    elem w (exactElems ty sat f a b c) e = wrap w (if sat then min (max x (Machine.Ty.minVal ty)) (Machine.Ty.maxVal ty) else x)) ∧
  (∀ a b : BitVec 32,
    exactElems .i32 false opAdd a.toNat b.toNat 0 = (a + b).toNat ∧
    exactElems .i32 false opSub a.toNat b.toNat 0 = (a - b).toNat ∧
    exactElems .i32 false opMul a.toNat b.toNat 0 = (a * b).toNat ∧
    exactElems .i32 false opNeg a.toNat b.toNat 0 = (-a).toNat) ∧
  (∀ (ty : Ty), ty = .i32 ∨ ty = .u32 ∨ ty = .i64 ∨ ty = .u64 → ∀ a : Nat, a < 2 ^ ty.width →
    exactElems ty false opDiv a 0 0 = 2 ^ ty.width - 1 ∧ exactElems ty false opRem a 0 0 = a ∧
    (∀ f ∈ [opDiv, opRem], ∀ (th : Thread) (c : Nat), (exactOp ty false f th a 0 c).2 = []) ∧
    exactElems ty false (opMulh ty.width) a 0 0 = 0 ∧
    ∀ b : Nat, b < 2 ^ ty.width → b ≠ 0 →
      exactElems ty false opDiv a b 0 = wrap ty.width (Int.tdiv (elemInt ty a) (elemInt ty b)) ∧
      exactElems ty false opRem a b 0 = wrap ty.width (Int.tmod (elemInt ty a) (elemInt ty b)) ∧
      (ty.isSigned = true → a = 2 ^ (ty.width - 1) → b = 2 ^ ty.width - 1 →
        exactElems ty false opDiv a b 0 = a ∧ exactElems ty false opRem a b 0 = 0) ∧
      exactElems ty false (opMulh ty.width) a b 0 = wrap ty.width (elemInt ty a * elemInt ty b / (2 ^ ty.width : Nat)) ∧
      ∀ f ∈ [opMulh ty.width, opDiv, opRem], ∀ (th : Thread) (c : Nat), (exactOp ty false f th a b c).2 = [])

/-- R102, R103, R104, R105: the shifts, bfe, bfi, popc, clz and brev, bit by bit, on what the thread's sources give. w is the
width of the type. A shift counts bits [31:0] of B: counts of w and more give 0, or the sign for sar, and a rotation counts
modulo w. bfe and bfi take position and length from bits [7:0] and [15:8] of their control word, and cut the field at the width.
popc and clz write one register whatever the type. -/
def Obligations.BitResults : Prop :=
  ∀ (s : State) (i : Instr) (v : View) (u : RUnit) (t : Tid), s.Lone i v u t → v.collective = false →
    let w := v.x.ty.width
    let a := v.srcA s t [t.lane]
    let b := v.srcB s t [t.lane]
    let c := v.srcC s t
    let k := b % 2 ^ 32
    let pos (ctl : Nat) := ctl % 256
    let len (ctl : Nat) := if ctl % 256 < w then min (ctl / 256 % 256) (w - ctl % 256) else 0
    ((∃ x, i = .shlBase x) ∨ (∃ x, i = .shlExt x) → Gives s i v t fun r => ∀ j, j < w → bit r j = (decide (k ≤ j) && bit a (j - k))) ∧
    ((∃ x, i = .shrBase x) ∨ (∃ x, i = .shrExt x) → Gives s i v t fun r => ∀ j, j < w → bit r j = (decide (j + k < w) && bit a (j + k))) ∧
    ((∃ x, i = .sarBase x) ∨ (∃ x, i = .sarExt x) → Gives s i v t fun r => ∀ j, j < w → bit r j = bit a (min (j + k) (w - 1))) ∧
    ((∃ x, i = .rolBase x) ∨ (∃ x, i = .rolExt x) → Gives s i v t fun r => ∀ j, j < w → bit r ((j + k) % w) = bit a j) ∧
    (∀ x, i = .bfe x → Gives s i v t fun r => ∀ j, j < w →
      bit r j = (if j < len b then bit a (pos b + j) else v.x.ty.isSigned && decide (len b ≠ 0) && bit a (pos b + len b - 1))) ∧
    (∀ x, i = .bfi x → Gives s i v t fun r => ∀ j, j < w →
      bit r j = (if pos c ≤ j ∧ j < pos c + len c then bit b (j - pos c) else bit a j)) ∧
    ((∃ x, i = .popcBase x) ∨ (∃ x, i = .popcExt x) →
      v.row.d = .regs 1 ∧ Gives s i v t fun r => r = (List.range w).countP (bit a)) ∧
    (∀ x, i = .clz x → v.row.d = .regs 1 ∧ Gives s i v t fun r =>
      r ≤ w ∧ (∀ j, w - r ≤ j → j < w → bit a j = false) ∧ (r < w → bit a (w - 1 - r) = true)) ∧
    (∀ x, i = .brev x → Gives s i v t fun r => ∀ j, j < w → bit r (w - 1 - j) = bit a j)

/-- R38: the immediate of a base word, as the value that its source B gives: sign-extended to 32 bits in the integer and bit
forms, and the FP32 number that equals it in the float forms (m × 2^e with e ≤ 0). ld and st add four times the immediate (R37).
-/
def Obligations.BaseImmediates : Prop :=
  ∀ (i : Instr) (op : Nat) (x : BaseForm) (k : BitVec 7) (v : View), i.baseForm = some (op, x) → x.b = .imm k → i.view = some v →
    ∃ l, v.x.b = .lit l ∧
      (if op ∈ [0x30, 0x31, 0x32, 0x34, 0x35] then
        ∃ m e, fp32.value (literalValue l 1) = .fin (decide (k.toInt < 0)) m e ∧ e ≤ 0 ∧ m = k.toInt.natAbs * 2 ^ (-e).toNat
      else if op = 0x50 ∨ op = 0x51 then literalValue l 1 = (4 * k.signExtend 32).toNat
      else literalValue l 1 = (k.signExtend 32).toNat)

/-! ## Control flow (05_control) -/

/-- R37, R119: the target of a br or a call: the address of its first word, and four times the base offset or the literal. -/
def Sys2Proof.Claims.branchTarget (i : Instr) (pc : DWord) : Option DWord :=
  match i with
  | .brBase _ off | .callBase _ off => some (pc + BitVec.ofInt 64 (4 * off.toInt))
  | .brExt x | .callExt x => (match x.b with | .lit l => some (pc + l) | .reg _ => none)
  | _ => none

/-- R121: call and callx, while the hardware return stack holds fewer than 16 entries, push the address of the next instruction
and go to the target; callx clears bits [1:0] of its register. Model's choice, where the rules leave it open: log 46. -/
def Obligations.CallPushes : Prop :=
  ∀ (s : State) (i : Instr) (v : View) (u : RUnit) (t : Tid) (target : DWord),
    s.Lone i v u t ∨ s.Met i v u t → (s.thread t).rstack.length < 16 →
    (((∃ b off, i = .callBase b off) ∨ ∃ x, i = .callExt x) ∧ branchTarget i (s.thread t).pc = some target ∨
      (∃ x, i = .callx x) ∧ target = BitVec.ofNat 64 (v.srcA s t [t.lane] / 4 * 4)) →
    ∃ s', exec i s = .next s' ∧
      s.Becomes s' (s.but t { (s.thread t).sent s.clk.now target with
        rstack := ((s.thread t).pc + BitVec.ofNat 64 (instrSize i)) :: (s.thread t).rstack })

/-- R121: ret pops the newest entry of a return stack that is not empty, and goes there with bits [1:0] cleared. R121, R122: a
ret on an empty stack with nothing spilled takes the control-bound fault, cause 0x27: the unit's record is written, and the unit
stops. Model's choice, where the rules leave it open: log 24, 46, 73. -/
def Obligations.Returns : Prop :=
  (∀ (s : State) (i : Instr) (v : View) (u : RUnit) (t : Tid) (x : DWord) (xs : List DWord),
    s.Lone i v u t → ((∃ b, i = .retBase b) ∨ ∃ x, i = .retExt x) → (s.thread t).rstack = x :: xs →
    ∃ s', exec i s = .next s' ∧
      s.Becomes s' (s.but t { (s.thread t).sent s.clk.now (BitVec.ofNat 64 (x.toNat / 4 * 4)) with rstack := xs })) ∧
  (∀ (s : State) (i : Instr) (v : View) (u : RUnit) (t : Tid),
    s.Lone i v u t → ((∃ b, i = .retBase b) ∨ ∃ x, i = .retExt x) → (s.thread t).rstack = [] → (s.thread t).spilled = 0 →
    u.active = true → u.fault = none → s.holdsFaults u = false →
    ∃ s' r, exec i s = .next s' ∧ s'.records = s.records ++ [r] ∧ r.bytes.headD 0 = 0x27 ∧ r.die = dieOf u.core ∧ r.ctx = u.ctx ∧
      (s'.unit? t.uid).map (·.fate) = some .faulted)

/-- R119: br sets the PC of its thread to the target, and changes nothing else; no other thread's PC changes (R114). R120: brx
at an index within its bound goes to its table address plus the word read there through the fetch path. -/
def Obligations.Branches : Prop :=
  (∀ (s : State) (i : Instr) (v : View) (u : RUnit) (t : Tid) (target : DWord),
    s.Lone i v u t → ((∃ b off, i = .brBase b off) ∨ ∃ x, i = .brExt x) → branchTarget i (s.thread t).pc = some target →
    ∃ s', exec i s = .next s' ∧ s.Becomes s' (s.but t ((s.thread t).sent s.clk.now target))) ∧
  (∀ (s : State) (bound : BitVec 8) (x : Form) (v : View) (u : RUnit) (t : Tid) (tb e : Nat),
    s.Lone (.brx bound x) v u t ∨ s.Met (.brx bound x) v u t →
    tb = (match x.b with | .lit l => ((s.thread t).pc + l).toNat | .reg _ => v.srcB s t [t.lane]) →
    v.srcA s t [t.lane] ≤ bound.toNat → tb % 4 = 0 →
    s.fetchWord u (s.thread t).ifMark 0 ((tb + 4 * v.srcA s t [t.lane]) % 2 ^ 64) = .ok e → e % 4 = 0 →
    ∃ s', exec (.brx bound x) s = .next s' ∧ s'.mem = s.mem ∧ s'.vaults = s.vaults ∧
      ∀ q, (s'.thread q).sansTried =
        (s.but t ((s.thread t).sent s.clk.now (BitVec.ofNat 64 tb + BitVec.ofInt 64 (toSigned 32 e))) q).sansTried)

/-- R123: exit, when its thread has nothing on its way, ends the thread, discards its registers and its return stack, and takes
its code, g[A] bits [15:0], into the unit's record. While no thread of its crew waits at a collective or a join, no other thread
changes; no byte of memory does. Model's choice, where the rules leave it open: log 28. -/
def Obligations.ExitEnds : Prop :=
  ∀ (s : State) (i : Instr) (v : View) (u : RUnit) (t : Tid),
    s.Lone i v u t ∨ s.Met i v u t → ((∃ x, i = .exitBase x) ∨ ∃ x, i = .exitExt x) → s.Quiet t →
    (∀ l, ((s.crew t.uid t.crew).thread l).arrived = false) →
    ∃ s', exec i s = .next s' ∧ (s'.thread t).live = false ∧ (∀ n, (s'.thread t).reg n = 0) ∧ (s'.thread t).rstack = [] ∧
      (s'.unit? t.uid).map (·.tally) = some (u.tally.add (v.srcA s t [t.lane] % 65536)) ∧
      (∀ q, q ≠ t → s'.thread q = s.thread q) ∧ s'.mem = s.mem ∧ s'.vaults = s.vaults

/-- R125, R126: mset and mop write one mask of the crew: mset the value of B, or itself with the bit of each active lane set or
cleared; mop the truth table over two masks, bit by bit. A write to m15 is discarded (R41). While no thread of the crew waits at
a collective or a join, no other thread changes. -/
def Obligations.MaskWrites : Prop :=
  ∀ (s : State) (i : Instr) (v : View) (u : RUnit) (t : Tid) (d value : Nat),
    s.Lone i v u t ∨ s.Met i v u t → t.lane < 32 → (∀ l, ((s.crew t.uid t.crew).thread l).arrived = false) →
    ((∃ x, i = .mset .set x ∧ d = x.d.toNat ∧ value = v.srcB s t [t.lane] % 2 ^ 32) ∨
     (∃ x, i = .mset .add x ∧ d = x.d.toNat ∧ value = (s.crew t.uid t.crew).mask d ||| 2 ^ t.lane) ∨
     (∃ x, i = .mset .del x ∧ d = x.d.toNat ∧ value = (s.crew t.uid t.crew).mask d &&& (2 ^ 32 - 1 - 2 ^ t.lane)) ∨
     (∃ lut x n, i = .mop lut x ∧ x.b = .reg n ∧ d = x.d.toNat ∧
       value = lutMask lut.toNat ((s.crew t.uid t.crew).mask x.a.toNat) ((s.crew t.uid t.crew).mask n.toNat))) →
    ∃ s', exec i s = .next s' ∧ (s'.crew t.uid t.crew).masks = (s.crew t.uid t.crew).masks.set d (BitVec.ofNat 32 value) ∧
      (∀ q, (s'.thread q).sansTried = (s.but t ((s.thread t).past s.clk.now (instrSize i)) q).sansTried) ∧
      s'.mem = s.mem ∧ s'.vaults = s.vaults

/-- R127: at a join or a barrier whose other live members have all arrived, the last to come releases every thread that waits
there and goes on with them, and the arrival set is empty again. An mset that takes its thread out of the mask register releases
the others, when all that remain have arrived. No register changes but the mask. Model's choice, where the rules leave it open:
log 23. -/
def Obligations.JoinReleases : Prop :=
  (∀ (s : State) (i : Instr) (v : View) (u : RUnit) (t : Tid) (n : Nat),
    s.Lone i v u t → t.lane < 32 → ((∃ x, i = .mjoin x ∧ n = x.a.toNat) ∨ ∃ x, i = .mbar x ∧ n = x.a.toNat) →
    n < 16 → s.Quiet t → (s.thread t).live = true → (s.thread t).arrived = false →
    let c := s.crew t.uid t.crew
    c.arrivals.length = 16 → c.threads.length = 32 → bit (c.mask n) t.lane = true →
    (∀ l, l < 32 → l ≠ t.lane → bit (c.mask n) l = true → (c.thread l).live = true → bit (c.arrivals.getD n 0).toNat l = true) →
    (∀ l, (c.thread l).stepping = none) →
    ∃ s', exec i s = .next s' ∧ (s'.crew t.uid t.crew).arrivals = c.arrivals.set n 0 ∧ s'.mem = s.mem ∧ s'.vaults = s.vaults ∧
      ∀ l len, l < 32 → ((l = t.lane ∧ len = instrSize i) ∨
          (bit (c.arrivals.getD n 0).toNat l = true ∧ l ≠ t.lane ∧ (c.thread l).live = true ∧ ∃ b, (c.thread l).arrival = some (.join b len))) →
        ((s'.crew t.uid t.crew).thread l).pc = (c.thread l).pc + BitVec.ofNat 64 len ∧
        ((s'.crew t.uid t.crew).thread l).arrived = false ∧ ((s'.crew t.uid t.crew).thread l).wait = none ∧
        ((s'.crew t.uid t.crew).thread l).regs = (c.thread l).regs) ∧
  ∀ (s : State) (x : Form) (v : View) (u : RUnit) (t : Tid) (n : Nat),
    s.Lone (.mset .del x) v u t → t.lane < 32 → n = x.d.toNat → n < 15 → (s.thread t).arrived = false →
    let c := s.crew t.uid t.crew
    c.arrivals.length = 16 → c.threads.length = 32 →
    (∀ l, l < 32 → l ≠ t.lane → bit (c.mask n) l = true → (c.thread l).live = true → bit (c.arrivals.getD n 0).toNat l = true) →
    (∀ l, (c.thread l).stepping = none) →
    ∃ s', exec (.mset .del x) s = .next s' ∧ s'.mem = s.mem ∧ s'.vaults = s.vaults ∧
      (s'.thread t).pc = (s.thread t).pc + BitVec.ofNat 64 (instrSize (.mset .del x)) ∧
      ∀ l len, l < 32 → l ≠ t.lane → bit (c.arrivals.getD n 0).toNat l = true → (c.thread l).live = true →
        (∃ b, (c.thread l).arrival = some (.join b len)) →
        ((s'.crew t.uid t.crew).thread l).pc = (c.thread l).pc + BitVec.ofNat 64 len ∧
        ((s'.crew t.uid t.crew).thread l).arrived = false ∧ ((s'.crew t.uid t.crew).thread l).wait = none ∧
        ((s'.crew t.uid t.crew).thread l).regs = (c.thread l).regs

/-- R128: nop and yield only go on to the next instruction. -/
def Obligations.NopAndYield : Prop :=
  ∀ (s : State) (i : Instr) (v : View) (u : RUnit) (t : Tid),
    s.Lone i v u t → ((∃ b, i = .nopBase b) ∨ (∃ x, i = .nopExt x) ∨ (∃ b, i = .yieldBase b) ∨ ∃ x, i = .yieldExt x) →
    ∃ s', exec i s = .next s' ∧ s.Becomes s' (s.but t ((s.thread t).past s.clk.now (instrSize i)))

/-- Register A of an instruction names a future of its unit that has no status yet: it waits for the future, or holds its handle
(R129, R130). -/
structure Sys2Proof.Claims.Names (s : State) (v : View) (u : RUnit) (t : Tid) (f : Future) : Prop where
  here : u.future? f.num f.gen = some f
  open_ : f.status = none
  named : (s.thread t).producer v.x.a.toNat = some (.future f.num f.gen) ∨
    ((s.thread t).producer v.x.a.toNat = none ∧ (s.thread t).reg v.x.a.toNat = handleWord f.num f.gen ∧ f.num < 1024 ∧ f.gen < 65536)

/-- R130 to R133: on a full register that holds plain data, fwait and fmov copy the word to D, ftest writes 1, and fcancel does
nothing. On a register that names the future of an unfinished operation, ftest writes 0, fcancel asks that operation and no
other to stop, fmov gives the handle to D while fewer than 15 copies stand, and fwait waits. No byte of memory changes, and no
other thread. Model's choice, where the rules leave it open: log 6. -/
def Obligations.FuturesOnData : Prop :=
  ∀ (s : State) (i : Instr) (v : View) (u : RUnit) (t : Tid),
    s.Lone i v u t →
    let th := s.thread t
    let w := th.reg v.x.a.toNat
    let data := th.producer v.x.a.toNat = none ∧ handleOf w = none
    (data → th.isEmpty v.x.d.toNat = false → ((∃ x, i = .fwaitBase x) ∨ (∃ x, i = .fwaitExt x) ∨ ∃ x, i = .fmov x) →
      ∃ s', exec i s = .next s' ∧ s.Becomes s' (s.but t ((th.writeRegs v.x.d.toNat 1 w).past s.clk.now (instrSize i)))) ∧
    (data → (∃ x, i = .ftest x) →
      ∃ s', exec i s = .next s' ∧ s.Becomes s' (s.but t ((th.setPred v.x.d.toNat true).past s.clk.now (instrSize i)))) ∧
    (data → (∃ x, i = .fcancel x) →
      ∃ s', exec i s = .next s' ∧ s.Becomes s' (s.but t (th.past s.clk.now (instrSize i)))) ∧
    ∀ f, Names s v u t f →
      ((∃ x, i = .ftest x) →
        ∃ s', exec i s = .next s' ∧ s.Becomes s' (s.but t ((th.setPred v.x.d.toNat false).past s.clk.now (instrSize i)))) ∧
      ((∃ x, i = .fcancel x) →
        ∃ s', exec i s = .next s' ∧ s'.ops = s.ops.map (fun o => if o.id = f.op then { o with cancelled := true } else o) ∧
          (∀ q, s'.thread q = s.but t (th.past s.clk.now (instrSize i)) q) ∧ s'.mem = s.mem ∧ s'.vaults = s.vaults) ∧
      ((∃ x, i = .fmov x) → f.copies < 15 →
        ∃ s', exec i s = .next s' ∧ s'.ops = s.ops ∧
          (∀ q, s'.thread q = s.but t ((th.writeRegs v.x.d.toNat 1 (handleWord f.num f.gen)).past s.clk.now (instrSize i)) q) ∧
          s'.mem = s.mem ∧ s'.vaults = s.vaults) ∧
      ((∃ x, i = .fwaitBase x) ∨ (∃ x, i = .fwaitExt x) →
        ∃ s', exec i s = .next s' ∧ (s'.thread t).pc = th.pc ∧ (s'.thread t).regs = th.regs ∧
          (s'.thread t).wait = some (.future f.fabric f.matrix) ∧ s'.mem = s.mem ∧ s'.vaults = s.vaults ∧
          ∀ q, q ≠ t → s'.thread q = s.thread q)

/-- R128, R414 to R416, R421: in a unit with a handler, brk and trap freeze their crew and enter its handler with the cause, 4
or 5, and the lanes: g0 holds the cause and the crew, g1 the lanes, d2 the PC, g5 and g32 on the code. The PC of the thread
stays. Model's choice, where the rules leave it open: log 24, by which the trap that an instruction finds is taken, and its crew
frozen, in the step of that instruction. -/
def Obligations.TrapEntry : Prop :=
  ∀ (s : State) (i : Instr) (v : View) (u : RUnit) (t : Tid) (cause code : Nat),
    s.Lone i v u t → t.lane < 32 → u.desc.handler ≠ 0 → (u.crew t.crew).frozen = false → (u.crew t.crew).handler.regs.length = 64 →
    t.crew < 256 →
    ((∃ n x, i = .brk n x ∧ cause = 4 ∧ code = n.toNat) ∨ (∃ x, i = .trap x ∧ cause = 5 ∧ code = v.srcB s t [t.lane] % 65536)) →
    ∃ s', exec i s = .next s' ∧
      let c := s'.crew t.uid t.crew
      c.frozen = true ∧ c.event = some { cause, lanes := [(t.lane, code)] } ∧ c.handler.live = true ∧
      c.handler.pc = BitVec.ofNat 64 u.desc.handler ∧ c.handler.reg 0 = cause + 256 * t.crew ∧ c.handler.reg 1 = 2 ^ t.lane ∧
      c.handler.readRegs 2 2 = (s.thread t).pc.toNat ∧ c.handler.reg 5 = code ∧ c.handler.reg (32 + t.lane) = code ∧
      (s'.thread t).pc = (s.thread t).pc ∧ (s'.thread t).regs = (s.thread t).regs ∧ s'.mem = s.mem ∧ s'.vaults = s.vaults

/-- R422: resume of an event that is the only one of its crew thaws the crew; a lane of the event whose bit stands in the skip
mask continues after its instruction, another lane at its PC. Model's choice, where the rules leave it open: log 55. -/
def Obligations.ResumeThaws : Prop :=
  ∀ (s : State) (x : Form) (v : View) (u : RUnit) (t : Tid) (e : TrapEvent),
    s.Lone (.resume x) v u t → t.lane = 32 →
    let c := s.crew t.uid t.crew
    c.event = some e → c.pending = [] → c.threads.length = 32 → (∀ l, (c.thread l).stepping = none ∧ (c.thread l).wrotePc = none) →
    ∃ s', exec (.resume x) s = .next s' ∧ (s'.crew t.uid t.crew).frozen = false ∧ (s'.crew t.uid t.crew).event = none ∧
      (s'.crew t.uid t.crew).handler.live = false ∧ s'.mem = s.mem ∧ s'.vaults = s.vaults ∧
      ∀ l, l < 32 → (c.thread l).live = true →
        ((s'.crew t.uid t.crew).thread l).regs = (c.thread l).regs ∧
        ((s'.crew t.uid t.crew).thread l).pc =
          (if e.lanes.any (·.1 == l) && bit (v.srcB s t [t.lane]) l then
            (match s.fetchWord u (c.thread l).ifMark 0 (c.thread l).pc.toNat with
              | .ok w => (c.thread l).pc + BitVec.ofNat 64 (4 * wordCount w)
              | .error _ => (c.thread l).pc)
          else (c.thread l).pc)

/-- R423: hret, on a system core while events are masked, goes to EVPC and unmasks them, in one step; while they are unmasked it
raises the illegal-instruction fault, cause 0x21: a record is written, the unit stops and no byte of memory changes. The words
listed there decode to trap, resume and hret, and a lane skipped over the trap of 20 bytes advances by 20. Model's choice, where
the rules leave it open: log 24, 73, by which the fault is settled and its record appended in the step of hret itself. -/
def Obligations.ReturnFromSystemEvent : Prop :=
  decodeWords [0x5F000000, 0x000900FE, 0x0000001E] = .ok (.trap { Form.plain false .i32 with b := .reg 9 }, []) ∧
  (∃ i, decodeWords [0xDF000000, 0x000000FE, 0x0000001E, 7, 0] = .ok (i, []) ∧ i = .trap { Form.plain false .i32 with b := .lit 7 } ∧
    instrSize i = 20 ∧ 4 * wordCount 0xDF000000 = 20) ∧
  decodeWords [0x5F040000, 0x000100FE, 0x0000001E] = .ok (.resume { Form.plain false .i32 with b := .reg 1 }, []) ∧
  decodeWords [0x5F080000, 0x000000FE, 0x0000001E] = .ok (.hret (Form.plain false .i32), []) ∧
  ∀ (s : State) (x : Form) (v : View) (u : RUnit) (t : Tid) (k : SysCore),
    s.Lone (.hret x) v u t → s.sys[dieOf u.core]? = some k →
    (k.evmask.getLsbD 0 = true →
      ∃ s', exec (.hret x) s = .next s' ∧ s'.sys = s.sys.set (dieOf u.core) { k with evmask := 0 } ∧
        (∀ q, s'.thread q = s.but t ((s.thread t).sent s.clk.now k.evpc) q) ∧ s'.mem = s.mem ∧ s'.vaults = s.vaults) ∧
    (k.evmask.getLsbD 0 = false → u.active = true → u.fault = none → s.holdsFaults u = false → u.speculative = false →
      ∃ s' r, exec (.hret x) s = .next s' ∧ s'.records = s.records ++ [r] ∧ r.bytes.take 1 = [0x21] ∧
        (s'.unit? t.uid).map (·.fate) = some .faulted ∧ s'.mem = s.mem ∧ s'.vaults = s.vaults)

/-! ## Cross-lane (08_crosslane) -/

/-- R118, R193 to R205: the crew-collectives that compute. A bundle that is the whole participation set of its crew issues once:
every active participant gets the value of its instruction (a vote of the predicates, a reduction, a scan, a permutation, a
sample), and no flag may be enabled that the combination raises. Model's choice, where the rules leave it open: log 71. R200,
R201: an integer reduction by addition is the exact sum of the participants' values, narrowed once at its end. -/
def Obligations.CollectiveResult : Prop :=
  (∀ (s : State) (i : Instr) (v : View) (u : RUnit) (t : Tid) (ts : List Tid) (flags : Nat) (write : Tid → Thread → Thread),
    s.Issues i v u t ts → v.collective = true → v.x.u = false →
    (∀ q ∈ ts, q.crew = t.crew) → participants v (s.crew t.uid t.crew) = (t :: ts).map (·.lane) →
    (∀ l, ((s.crew t.uid t.crew).thread l).arrived = false) → (∀ q ∈ t :: ts, (s.thread q).taken = none) →
    (∀ q ∈ t :: ts, (s.thread q).pc = (s.thread t).pc) →
    let act := s.active v (t :: ts)
    let lanes := act.map (·.lane)
    act ≠ [] → (∀ q ∈ act, v.check s q lanes = .ready) → (∀ q ∈ act, v.destBusy (s.thread q) = false) → flags &&& s.enables t = 0 →
    ((∃ fn x, i = .vote fn x ∧ flags = 0 ∧
        write = fun _ th => v.writeD (voteResult fn (act.map fun q => (q.lane, (s.thread q).pred v.x.a.toNat))) th) ∨
     (∃ comb rnd x, i = .cred comb rnd x ∧
        let r := combineResults comb v.x.ty (rmode rnd (s.thread (act.headD t)).fsr) v.x.sat false false (act.map fun q => v.srcA s q lanes)
        flags = r.2 ∧ write = fun q th => v.writeD (r.1.getD (lanes.idxOf q.lane) 0) th) ∨
     (∃ comb rnd excl x, i = .cscan comb rnd excl x ∧
        let r := combineResults comb v.x.ty (rmode rnd (s.thread (act.headD t)).fsr) v.x.sat true excl (act.map fun q => v.srcA s q lanes)
        flags = r.2 ∧ write = fun q th => v.writeD (r.1.getD (lanes.idxOf q.lane) 0) th) ∨
     (∃ wraps x, i = .cperm wraps x ∧ flags = 0 ∧ write = fun q th => v.writeD (permValue wraps v s act q) th) ∨
     (∃ x, i = .sample x ∧
        let r := sampleDraw ((List.range 32).map fun l => if lanes.contains l then v.srcA s { act.headD t with lane := l } lanes else 0)
          (v.srcB s (act.headD t) lanes)
        flags = r.2.2 ∧ write = fun _ th => (v.writeD r.1 th).setPred v.x.c.toNat r.2.1)) →
    ∃ s', exec i s = .next s' ∧ s.Becomes s' (fun q =>
      if q ∈ act then ((write q (s.thread q)).orFlags flags).past s.clk.now (instrSize i)
      else if q ∈ t :: ts then (s.thread q).past s.clk.now (instrSize i)
      else s.thread q)) ∧
  (∀ (ty : Ty) (m : RMode) (sat : Bool) (vs : List Nat), ty = .i32 ∨ ty = .u32 ∨ ty = .i64 ∨ ty = .u64 → vs ≠ [] →
    combineResults .add ty m sat false false vs =
      (List.replicate vs.length (narrow ty.isSigned ty.width sat ((vs.map (elemInt ty)).sum)), 0))

/-- R206 to R208: in a handler context, xget reads an element of the lane that B names into the handler, and xput writes one: a
general register, a predicate, fsr, or the PC at which the lane will go on. A lane that is not live reads 0, and takes nothing.
-/
def Obligations.HandlerPatchesLanes : Prop :=
  ∀ (s : State) (i : Instr) (v : View) (u : RUnit) (t : Tid),
    s.Lone i v u t →
    let q : Tid := { t with lane := v.srcB s t [t.lane] % 32 }
    let n := v.x.c.toNat
    (∀ kind fe x, i = .xget kind fe x →
      ∃ s', exec i s = .next s' ∧ s.Becomes s' (s.but t ((v.writeD (if kind = .fsr ∧ (s.thread q).live = true then s.fsrWord q
        else xgetValue kind fe v.x.ty n (s.thread q)) (s.thread t)).past s.clk.now (instrSize i)))) ∧
    (∀ kind x, i = .xput kind x → s.Present q → t.lane = 32 →
      ∃ s', exec i s = .next s' ∧ s'.mem = s.mem ∧ s'.vaults = s.vaults ∧
        (s'.thread t).sansTried = ((s.thread t).past s.clk.now (instrSize i)).sansTried ∧
        s'.thread q = (if (s.thread q).live then Thread.patch kind v.x.ty.regs n (v.srcA s t [t.lane]) (s.thread q) else s.thread q) ∧
        ∀ r, r ≠ t → r ≠ q → s'.thread r = s.thread r)

/-! ## Special registers and fsr (04_integer, 06_float) -/

/-- R94, R95, R112, R142, R160: sreg gives the special register of the thread; fsrr gives fsr with the trap enables of the
context above it, and clears the five flags with clr; fsrw writes the fields that it names and no other. Model's choice, where
the rules leave it open: log 2. -/
def Obligations.StatusRegisters : Prop :=
  ∀ (s : State) (i : Instr) (v : View) (u : RUnit) (t : Tid),
    s.Lone i v u t →
    (∀ r x, i = .sreg r x → s.Quiet t → (∀ y ∈ s.txns, ∀ d ∈ y.dests, d.1 ≠ t) →
      ∃ s', exec i s = .next s' ∧ s.Becomes s' (s.but t ((v.writeD (s.special t r) (s.thread t)).past s.clk.now (instrSize i)))) ∧
    (∀ clr x, i = .fsrr clr x →
      ∃ s', exec i s = .next s' ∧ ∃ th, s.Becomes s' (s.but t (th.past s.clk.now (instrSize i))) ∧
        th = (let r := v.writeD (256 * (s.ctx u.ctx).te + (s.thread t).fsr.toNat) (s.thread t)
              if clr then { r with fsr := r.fsr &&& 0x60 } else r)) ∧
    (∀ f x, i = .fsrw f x →
      let m : BitVec 7 := match f with | .both => 0x7F | .flags => 0x1F | .rm => 0x60
      ∃ s', exec i s = .next s' ∧ s.Becomes s' (s.but t ({ s.thread t with
        fsr := ((s.thread t).fsr &&& ~~~m) ||| (BitVec.ofNat 7 (v.srcB s t [t.lane]) &&& m) }.past s.clk.now (instrSize i))))

/-! ## Loads and stores (09_memory) -/

/-- The access-control field of a load or store instruction, sign extension, and whether it enters no signature. -/
def Sys2Proof.Claims.loadOf : Instr → Option (Bool × Access)
  | .ldBase _ => some (false, .base)
  | .ldExt sx ac _ => some (sx, ac)
  | .ldnc sx ac _ => some (sx, ac)
  | _ => none

def Sys2Proof.Claims.storeOf : Instr → Option Access
  | .stBase _ => some .base
  | .stExt ac _ => some ac
  | .stnc ac _ => some ac
  | _ => none

/-- A new access of a thread: the last of the list, on its way, with the kind and the place given. The thread stands len bytes
further with its registers as they were, k of them from d on empty until the access answers; no byte of memory changes. -/
structure Sys2Proof.Claims.Starts (s s' : State) (t : Tid) (kind : TxnKind) (sp : Space) (va size len d k : Nat) (x : Txn) : Prop where
  added : s'.txns = s.txns ++ [x]
  tid : x.tid = t
  kind : x.kind = kind
  space : x.space = sp
  va : x.va = va
  size : x.size = size
  issued : x.phase = .issued
  pc : (s'.thread t).pc = (s.thread t).pc + BitVec.ofNat 64 len
  regs : (s'.thread t).regs = (s.thread t).regs
  waits : ∀ j, j < k → (s'.thread t).producer (d + j) = some (.txn x.id)
  others : ∀ q, q ≠ t → s'.thread q = s.thread q
  mem : s'.mem = s.mem
  vaults : s'.vaults = s.vaults

/-- A thread after an access of its own: one with acquire knows the pfences that releases in its context have made known. -/
def Sys2Proof.Machine.State.synced (s : State) (u : RUnit) (t : Tid) (ac : Access) : Thread :=
  if ac.ord = .acquire ∨ ac.ord = .acqRel then (s.thread t).learn (s.ctx u.ctx).marks else s.thread t

/-- R210, R211, R216, R243: a load from local memory, where no uncorrectable error stands, writes the bytes at its effective
address, zero- or sign-extended, to its destination at once, and changes nothing else; one with acquire learns of the pfences
that releases have made known. R213, R216, R217, R244: a load from global memory that the L1 does not hold goes on its way, with
its destination empty. Model's choice, where the rules leave it open: log 44, 77, 94. -/
def Obligations.Loads : Prop :=
  (∀ (s : State) (i : Instr) (v : View) (u : RUnit) (t : Tid) (sx : Bool) (ac : Access),
    s.Lone i v u t → loadOf i = some (sx, ac) → ac.space = .localMem → s.Quiet t → u.task.phase = .none →
    let ea := eaOf v ac s t [t.lane]
    let n := v.x.ty.bytes
    s.accessBad t.uid u.ctx .localMem ea n = none → s.localFlawed t.uid ea n = false →
    ∃ s', exec i s = .next s' ∧
      s.Becomes s' (s.but t ((v.writeD (loadValue sx n (leNat (s.loadLocal t.uid ea n))) (s.synced u t ac)).past s.clk.now (instrSize i)))) ∧
  (∀ (s : State) (i : Instr) (v : View) (u : RUnit) (t : Tid) (sx : Bool) (ac : Access),
    s.Lone i v u t → loadOf i = some (sx, ac) → ac.space = .global → s.Quiet t → u.task.phase = .none →
    let ea := eaOf v ac s t [t.lane]
    let n := v.x.ty.bytes
    s.accessBad t.uid u.ctx .global ea n = none → s.l1Get u.core u.ctx ea n = none → s.entryFree t u.core = true →
    ∃ s' x, exec i s = .next s' ∧ Starts s s' t (.load v.x.ty.regs sx) .global ea n (instrSize i) v.x.d.toNat v.x.ty.regs x)

/-- R211, R409: a load or a store at an address that is not a multiple of its size takes the memory fault, cause 0x20 with
reason 1 and the address: a record is written and no byte of memory changes. Model's choice, where the rules leave it open: log
24, 73. -/
def Obligations.MisalignedFaults : Prop :=
  ∀ (s : State) (i : Instr) (v : View) (u : RUnit) (t : Tid) (ac : Access),
    s.Lone i v u t → (∃ sx, loadOf i = some (sx, ac)) ∨ storeOf i = some ac →
    eaOf v ac s t [t.lane] % v.x.ty.bytes ≠ 0 → u.active = true → u.fault = none → s.holdsFaults u = false → u.speculative = false →
    ∃ s' r, exec i s = .next s' ∧ s'.records = s.records ++ [r] ∧ r.bytes.take 2 = [0x20, 1] ∧
      field r.bytes 0x28 8 = eaOf v ac s t [t.lane] % 2 ^ 64 ∧ (s'.unit? t.uid).map (·.fate) = some .faulted ∧
      s'.mem = s.mem ∧ s'.vaults = s.vaults

/-- R211, R218: a store to local memory writes the low bytes of its data register at once: each byte where its granule lies, and
no other byte of any local memory, of the vaults or of global memory. R213, R218, R244: a store to global memory goes on its way
with the low bytes of its data register. Model's choice, where the rules leave it open: log 44. -/
def Obligations.Stores : Prop :=
  (∀ (s : State) (i : Instr) (v : View) (u : RUnit) (t : Tid) (ac : Access),
    s.Direct i v u t → storeOf i = some ac → ac.space = .localMem → s.Quiet t →
    let ea := eaOf v ac s t [t.lane]
    let n := v.x.ty.bytes
    s.accessBad t.uid u.ctx .localMem ea n = none → (∀ owner w, s.unitOf? owner = some w → Memory.wf w.loc = true) →
    ∃ s', exec i s = .next s' ∧ s'.mem = s.mem ∧ s'.vaults = s.vaults ∧
      (∀ j owner a, j < n → s.localAt t.uid (ea + j) = .ok (owner, a) →
        (s'.unitOf? owner).map (fun w => cellGet w.loc a) = (s.unitOf? owner).map fun _ => (leBytes n (v.srcD s t)).getD j 0) ∧
      (∀ owner a, (∀ j, j < n → s.localAt t.uid (ea + j) ≠ .ok (owner, a)) →
        (s'.unitOf? owner).map (fun w => cellGet w.loc a) = (s.unitOf? owner).map fun w => cellGet w.loc a) ∧
      ∀ q, s'.thread q = s.but t ((s.thread t).past s.clk.now (instrSize i)) q) ∧
  (∀ (s : State) (i : Instr) (v : View) (u : RUnit) (t : Tid) (ac : Access),
    s.Direct i v u t → storeOf i = some ac → ac.space = .global → s.Quiet t → u.ceilingFinal = true →
    let ea := eaOf v ac s t [t.lane]
    let n := v.x.ty.bytes
    s.accessBad t.uid u.ctx .global ea n = none → s.entryFree t u.core = true →
    ∃ s' x, exec i s = .next s' ∧ Starts s s' t (.store (leBytes n (v.srcD s t))) .global ea n (instrSize i) 0 0 x)

/-- The line is one of the context that cflush names: it lies in the range of A and B, and translates (R229). -/
def Sys2Proof.Claims.Flushed (s : State) (v : View) (u : RUnit) (t : Tid) (ctx line : Nat) : Prop :=
  ctx = u.ctx ∧ v.srcB s t [t.lane] ≠ 0 ∧ v.srcA s t [t.lane] / 128 ≤ line ∧
    line ≤ (v.srcA s t [t.lane] + v.srcB s t [t.lane] - 1) / 128 ∧ ∃ l, s.translate ctx (line * 128) false false = .ok l

/-- R213, R226, R229: pf of an address that translates, whose home holds no store of the line, brings the line into the core's
L1 unless it is told to pass it by; cflush, once its thread's own writes to the lines have performed, leaves no named line in
any L1 or slice (evict), none in the core's own L1s (l1), none dirty in a slice (write back), and waits until then. Neither
writes a byte of memory or a register. Model's choice, where the rules leave it open: log 77, 83. -/
def Obligations.CacheHints : Prop :=
  ∀ (s : State) (i : Instr) (v : View) (u : RUnit) (t : Tid),
    s.Lone i v u t →
    ((∃ ac x, i = .pf ac x) →
      ∃ s', exec i s = .next s' ∧ s'.mem = s.mem ∧ s'.vaults = s.vaults ∧ s'.txns = s.txns ∧
        (∀ q, s'.thread q = s.but t ((s.thread t).past s.clk.now (instrSize i)) q) ∧
        ∀ ac l, v.ac = some ac → s.translate u.ctx (eaOf v ac s t [t.lane]) false false = .ok l → ac.l1b = false →
          s.lineHeld u.ctx [eaOf v ac s t [t.lane] / 128] 0 = false →
          s'.l1Get u.core u.ctx (eaOf v ac s t [t.lane] / 128 * 128) 128 =
            some (cellsGet s.mem (l.addr (eaOf v ac s t [t.lane]) / 128 * 128) 128)) ∧
    (∀ fn ac x, i = .cflush fn ac x →
      let a := v.srcA s t [t.lane]
      let n := v.srcB s t [t.lane]
      let bytes := if n = 0 then 0 else (a + n - 1) / 128 * 128 + 128 - a / 128 * 128
      (s.overlapping t .global (a / 128 * 128) bytes s.clk.nextId true = true →
        ∃ s', exec i s = .next s' ∧ s'.mem = s.mem ∧ s'.vaults = s.vaults ∧ s'.txns = s.txns ∧ s'.caches = s.caches ∧
          (s'.thread t).pc = (s.thread t).pc ∧ (s'.thread t).regs = (s.thread t).regs ∧ (s'.thread t).wait = some .accesses ∧
          ∀ q, q ≠ t → s'.thread q = s.thread q) ∧
      (s.overlapping t .global (a / 128 * 128) bytes s.clk.nextId true = false →
        ∃ s', exec i s = .next s' ∧ s'.mem = s.mem ∧ s'.vaults = s.vaults ∧ s'.txns = s.txns ∧
          (∀ q, s'.thread q = s.but t ((s.thread t).past s.clk.now (instrSize i)) q) ∧
          (∀ c ∈ s'.caches.l1, fn = .evict ∨ (fn = .l1 ∧ c.core = u.core) → ¬Flushed s v u t c.ctx c.line) ∧
          (∀ c ∈ s'.caches.l1i, fn = .evict ∨ (fn = .l1 ∧ c.core = u.core) → ¬Flushed s v u t c.ctx c.line) ∧
          ∀ c ∈ s'.caches.slines, Flushed s v u t c.ctx c.line → fn ≠ .evict ∧ (fn = .writeBack → c.dirty = false)))

/-- R245, R250 to R254: a fence of a thread with nothing on its way goes on; a pfence notes, for its thread, that later accesses
of the second path see the writes of the first, and ifence that the thread's fetches see what stands now. What a thread knows of
pfences passes to others where its fence releases and theirs acquires, and nothing else differs. R245, R250, R251: a full fence
waits while a store of its thread has not performed: the PC stays, and no byte of memory changes. R235, R243: bbwait goes on
once the barrier at its address, where no uncorrectable error stands, has counted down to B. Model's choice, where the rules
leave it open: log 41, 43, 91, 92, 94. -/
def Obligations.Fences : Prop :=
  (∀ (s : State) (i : Instr) (v : View) (u : RUnit) (t : Tid),
    s.Lone i v u t → s.Quiet t →
    (∀ kind, (∃ b, i = .fenceBase b ∧ kind = .full) ∨ (∃ scope x, i = .fenceExt kind scope x) →
      let r := s.synchronise kind t
      ∃ s', exec i s = .next s' ∧ r.Becomes s' (r.but t ((r.thread t).past s.clk.now (instrSize i))) ∧
        r.outside = { s with ctxs := r.ctxs }.outside ∧
        ∀ q, r.thread q = { s.thread q with marks := (r.thread q).marks } ∧ (q ≠ t → r.thread q = s.thread q)) ∧
    (∀ p q x, i = .pfence p q x →
      ∃ s', exec i s = .next s' ∧ s.clk.stepNo ≤ markAt (s'.thread t).marks p q ∧ s'.mem = s.mem ∧ s'.vaults = s.vaults ∧
        ∀ r, s'.thread r = s.but t { (s.thread t).past s.clk.now (instrSize i) with marks := (s'.thread t).marks } r) ∧
    ((∃ x, i = .ifence x) →
      ∃ s', exec i s = .next s' ∧ s.Becomes s' (s.but t ({ s.thread t with ifMark := s.clk.stepNo }.past s.clk.now (instrSize i))))) ∧
  (∀ (s : State) (b : Bool) (v : View) (u : RUnit) (t : Tid) (x : Txn) (data : List Byte),
    s.Lone (.fenceBase b) v u t → x ∈ s.txns → x.tid = t → x.kind = .store data → x.phase = .issued ∨ x.phase = .accepted →
    ∃ s', exec (.fenceBase b) s = .next s' ∧ (s'.thread t).pc = (s.thread t).pc ∧ (s'.thread t).wait = some .accesses ∧
      s'.txns = s.txns ∧ s'.mem = s.mem ∧ s'.vaults = s.vaults) ∧
  (∀ (s : State) (x : Form) (v : View) (u : RUnit) (t : Tid),
    s.Lone (.bbwait x) v u t → s.blockBad t.uid (v.srcA s t [t.lane]) 8 8 = none → s.localFlawed t.uid (v.srcA s t [t.lane]) 8 = false →
    toSigned 64 (leNat (s.loadLocal t.uid (v.srcA s t [t.lane]) 8)) ≤ toSigned 32 (v.srcB s t [t.lane]) →
    ∃ s', exec (.bbwait x) s = .next s' ∧ s.Becomes s' (s.but t ((s.thread t).past s.clk.now (instrSize (.bbwait x)))))

/-- R237 to R240: in a direct task, bgive of granules that the unit holds, while nothing of its thread and no engine writes
them, posts them under the key, and the unit holds them no longer; btake of a posted buffer of the same isle and context, at a
range where it may stand, takes it out of the key and maps each of its granules there; binfo tells whether a granule is the
unit's own, posted, lent or borrowed, with the buffer's count and key. Status 0, or the information, goes to D, and the thread
goes on; no byte of memory changes. Model's choice, where the rules leave it open: log 67, 90. -/
def Obligations.BufferLending : Prop :=
  ∀ (s : State) (i : Instr) (v : View) (u : RUnit) (t : Tid),
    s.Lone i v u t → s.Quiet t → u.task.atomic = false →
    let a := v.srcA s t [t.lane]
    let key := ctlKey (v.srcB s t [t.lane])
    let n := ctlCount (v.srcB s t [t.lane])
    let after := (v.writeD 0 (s.thread t)).past s.clk.now (instrSize i)
    (∀ x parts, i = .bgive x → a % 4096 = 0 → u.bufferAt a n = some parts → s.keyBuf u.ctx (isleOf u.core) key = none →
      s.engineWrites t.uid a (4096 * n) = false →
      ∃ s', exec i s = .next s' ∧ s'.keyBuf u.ctx (isleOf u.core) key = some { isle := isleOf u.core, key, parts } ∧
        (∀ w k, s'.unit? t.uid = some w → a / 4096 ≤ k → k < a / 4096 + n → w.granuleAt k = none) ∧
        (∀ q, s'.thread q = s.but t after q) ∧ s'.mem = s.mem ∧ s'.vaults = s.vaults) ∧
    (∀ w x k, i = .btake w x → s.keyBuf u.ctx (isleOf u.core) key = some k → u.mayMap a k.parts = true →
      u.granules.length ≤ 64 → (∀ p ∈ k.parts, p.1 = t.uid → p.2 < u.granules.length) →
      ∃ s', exec i s = .next s' ∧ s'.keyBuf u.ctx (isleOf u.core) key = none ∧
        (∀ w j, s'.unit? t.uid = some w → j < k.parts.length → w.granuleAt (a / 4096 + j) = k.parts[j]?) ∧
        (∀ q, s'.thread q = s.but t ((v.writeD 0 ((s.thread t).learn (s.ctx u.ctx).marks)).past s.clk.now (instrSize i)) q) ∧ s'.mem = s.mem ∧ s'.vaults = s.vaults) ∧
    (∀ x, i = .binfo x →
      let gives := fun (r : Nat) => ∃ s', exec i s = .next s' ∧
        s.Becomes s' (s.but t ((v.writeD r (s.thread t)).past s.clk.now (instrSize i)))
      (∀ g, u.granules[a / 4096]? = some g → gives (match g.holder with
        | .own => 1 + 256 * g.cnt
        | .posted k => 2 + 256 * g.cnt + 2 ^ 16 * k
        | .lent _ => 256 * g.cnt)) ∧
      (u.granules[a / 4096]? = none → 0x40000 ≤ a → a < 0x80000 →
        gives (match u.borrowed.find? (·.at_ == a / 4096) with | some b => 5 + 256 * b.cnt | none => 0)))

/-! ## Ordering (10_ordering) -/

/-! ## Atomics, line routines and waits (11_atomics_routines) -/

/-- R243, R282 to R287: atom, ared and acas on local memory, where no uncorrectable error stands, read the old value, leave the
new one and, when they fetch, write the old one to D, all at once. A value that stays the same is not written. R284, R285, R294,
R295: atom, ared and acas on global memory, and lrun, go on their way with their operands. Model's choice, where the rules leave
it open: log 44, 94. -/
def Obligations.Atomics : Prop :=
  (∀ (s : State) (i : Instr) (v : View) (u : RUnit) (t : Tid) (ac : Access) (kind : TxnKind) (fetch : Bool),
    s.Direct i v u t → s.Quiet t → ac.space = .localMem →
    ((∃ fn x, i = .atom fn ac x ∧ kind = .atomic fn v.x.ty (v.srcB s t [t.lane]) ∧ fetch = true) ∨
     (∃ fn x, i = .ared fn ac x ∧ kind = .atomic fn v.x.ty (v.srcB s t [t.lane]) ∧ fetch = false) ∨
     (∃ nf x, i = .acas nf ac x ∧ kind = .cas v.x.ty (v.srcB s t [t.lane]) (v.srcC s t) ∧ fetch = !nf)) →
    let ea := v.srcA s t [t.lane]
    let n := v.x.ty.bytes
    s.accessBad t.uid u.ctx .localMem ea n = none → s.localFlawed t.uid ea n = false →
    (∀ owner w, s.unitOf? owner = some w → Memory.wf w.loc = true) →
    let old := leNat (s.loadLocal t.uid ea n)
    let new := kind.newValue old
    ∃ s', exec i s = .next s' ∧ s'.mem = s.mem ∧ s'.vaults = s.vaults ∧
      (∀ q, s'.thread q = s.but t ((if fetch then v.writeD old (s.synced u t ac) else s.synced u t ac).past s.clk.now (instrSize i)) q) ∧
      (new = old → s'.units.map (·.loc) = s.units.map (·.loc)) ∧
      (∀ j owner a, new ≠ old → j < n → s.localAt t.uid (ea + j) = .ok (owner, a) →
        (s'.unitOf? owner).map (fun w => cellGet w.loc a) = (s.unitOf? owner).map fun _ => (leBytes n new).getD j 0) ∧
      (∀ owner a, (∀ j, j < n → s.localAt t.uid (ea + j) ≠ .ok (owner, a)) →
        (s'.unitOf? owner).map (fun w => cellGet w.loc a) = (s.unitOf? owner).map fun w => cellGet w.loc a)) ∧
  (∀ (s : State) (i : Instr) (v : View) (u : RUnit) (t : Tid) (ac : Access) (kind : TxnKind) (n k : Nat),
    s.Direct i v u t → s.Quiet t → ac.space = .global → u.ceilingFinal = true →
    ((∃ fn x, i = .atom fn ac x ∧ kind = .atomic fn v.x.ty (v.srcB s t [t.lane]) ∧ n = v.x.ty.bytes ∧ k = v.x.ty.regs) ∨
     (∃ fn x, i = .ared fn ac x ∧ kind = .atomic fn v.x.ty (v.srcB s t [t.lane]) ∧ n = v.x.ty.bytes ∧ k = 0) ∨
     (∃ nf x, i = .acas nf ac x ∧ kind = .cas v.x.ty (v.srcB s t [t.lane]) (v.srcC s t) ∧ n = v.x.ty.bytes ∧
        k = if nf then 0 else v.x.ty.regs) ∨
     (∃ num x, i = .lrun num ac x ∧ kind = .lrun num.toNat (lrunOps (v.srcB s t [t.lane])) ∧ n = 128 ∧ k = 2)) →
    s.accessBad t.uid u.ctx .global (v.srcA s t [t.lane]) n = none → s.entryFree t u.core = true →
    ∃ s' x, exec i s = .next s' ∧ Starts s s' t kind .global (v.srcA s t [t.lane]) n (instrSize i) v.x.d.toNat k x)

/-- R296 to R298: lrdef of valid words, while no invocation of the routine is bound, writes the whole table entry: valid, with
the count, the next generation, the constants and the words; status 0 goes to D. lrdrop writes the entry's first word alone: not
valid, with the next generation. No other byte changes, no slice holds an image of the routine, and the thread goes on. Model's
choice, where the rules leave it open: log 68. -/
def Obligations.RoutineTable : Prop :=
  ∀ (s : State) (i : Instr) (v : View) (u : RUnit) (t : Tid),
    s.Direct i v u t → s.Quiet t → Memory.wf s.mem = true →
    let n := bits (v.srcB s t [t.lane]) 5 0
    let entry := s.routineEntry u.ctx n
    let gen := (field (cellsGet s.mem entry 4) 2 2 + 1) % 65536
    s.routineBound u.ctx n = false →
    (∀ x ws, i = .lrdef x →
      let c := bits (v.srcB s t [t.lane]) 13 8 + 1
      v.srcA s t [t.lane] % 4 = 0 → s.lineHeld u.ctx (linesOf (v.srcA s t [t.lane]) (4 * c)) 0 = false →
      readWords s u.ctx t.uid (v.srcA s t [t.lane]) c = .ok ws → (∀ w ∈ ws, routineInvalid w = none) →
      ∃ s', exec i s = .next s' ∧ s'.thread t = (v.writeD 0 (s.thread t)).past s.clk.now (instrSize i) ∧
        cellsGet s'.mem entry 512 = leBytes 2 (1 + 256 * c) ++ leBytes 2 gen ++ List.replicate 12 0 ++ leBytes 16 (v.srcC s t) ++
          (ws ++ List.replicate (64 - c) 0).flatMap (leBytes 4) ++ List.replicate 224 0 ∧
        entryCount (cellsGet s'.mem entry 512) = some c ∧
        (∀ a, a < entry ∨ entry + 512 ≤ a → cellGet s'.mem a = cellGet s.mem a) ∧
        s'.vaults = s.vaults ∧ ∀ m ∈ s'.caches.images, m.ctx = u.ctx → m.num ≠ n) ∧
    (∀ x, i = .lrdrop x →
      ∃ s', exec i s = .next s' ∧ s'.thread t = (s.thread t).past s.clk.now (instrSize i) ∧
        entryCount (cellsGet s'.mem entry 512) = none ∧ field (cellsGet s'.mem entry 4) 2 2 = gen ∧
        (∀ a, a < entry ∨ entry + 4 ≤ a → cellGet s'.mem a = cellGet s.mem a) ∧
        s'.vaults = s.vaults ∧ ∀ m ∈ s'.caches.images, m.ctx = u.ctx → m.num ≠ n)

/-- R217, R301, R302: waitv goes to the home of its word, and its thread waits at the instruction; where the word already
differs from B, the home's answer ends the wait at once: D takes the word, and the thread goes on. wakev ends the sleeping
waitvs of its line, B of them at most, those that have slept longest first, and writes their number, where none of them stands
until the EVDONE write (R303, R460); no byte of memory changes. Model's choice, where the rules leave it open: log 51. -/
def Obligations.WaitAndWake : Prop :=
  ∀ (s : State) (i : Instr) (v : View) (u : RUnit) (t : Tid),
    s.Direct i v u t → s.Quiet t → (s.txns.map (·.id)).Nodup → (∀ y ∈ s.txns, y.id < s.clk.nextId) →
    (∀ timed ac x, i = .waitv timed ac x → ac.space = .global →
      let ea := v.srcA s t [t.lane]
      let n := v.x.ty.bytes
      s.accessBad t.uid u.ctx .global ea n = none →
      ∃ s' y, exec i s = .next s' ∧ s'.txns = s.txns ++ [y] ∧ y.tid = t ∧ y.va = ea ∧
        y.kind = .waitv v.x.ty (v.srcB s t [t.lane]) (if timed then some (v.srcC s t) else none) ∧ y.phase = .issued ∧
        (s'.thread t).pc = (s.thread t).pc ∧ (s'.thread t).wait = some (.line false) ∧ (s'.thread t).regs = (s.thread t).regs ∧
        s'.mem = s.mem ∧ s'.vaults = s.vaults ∧
        ∀ l, s.translate u.ctx ea false false = .ok l → s.lineHeld u.ctx (linesOf ea n) s.clk.nextId = false → u.task.stale = false →
          s.word (l.addr ea) n ≠ v.srcB s t [t.lane] →
          ∃ r, exec (.loadTranslationAck y.id) s' = .next r ∧ r.txns = s.txns ∧
            (r.thread t).regs = (v.writeD (s.word (l.addr ea) n) (s.thread t)).regs ∧
            (r.thread t).pc = (s.thread t).pc + BitVec.ofNat 64 (instrSize i) ∧ (r.thread t).wait = none ∧
            r.mem = s.mem ∧ r.vaults = s.vaults) ∧
    (∀ x l, i = .wakev x → s.translate u.ctx (v.srcA s t [t.lane]) false false = .ok l →
      let all := s.txns.filter fun y => y.ctx == u.ctx && y.va / 128 == v.srcA s t [t.lane] / 128 && (y.kind matches .waitv ..) && (y.phase matches .sleeping)
      let woken := if v.srcB s t [t.lane] = 0 then all else all.take (v.srcB s t [t.lane])
      (∀ y ∈ woken, y.pa.isSome ∧ (y.target = 0 ∨ s.asked y.tid 2 = false)) →
      ∃ s', exec i s = .next s' ∧ s'.thread t = (v.writeD woken.length (s.thread t)).past s.clk.now (instrSize i) ∧
        s'.txns = s.txns.filter (fun y => !woken.contains y) ∧
        (∀ y, woken = [y] → s.Present y.tid → (s'.thread y.tid).pc = y.after ∧ (s'.thread y.tid).wait = none) ∧
        s'.mem = s.mem ∧ s'.vaults = s.vaults)

/-! ## The way of an access (09_memory, 11_atomics_routines, 95_what_each_step_holds) -/

/-- The access x is on its way, no earlier access of its thread shares a byte with it, and no store of its line is being
performed (R213, R219, R261). -/
structure Sys2Proof.Claims.OnItsWay (s : State) (x : Txn) : Prop where
  here : s.txn? x.id = some x
  first : s.first x = true
  free : s.lineBusy x = false

/-- The event changes no memory, and no thread but those of a list. -/
structure Sys2Proof.Claims.Leaves (s s' : State) (ts : List Tid) : Prop where
  mem : s'.mem = s.mem
  vaults : s'.vaults = s.vaults
  threads : ∀ q, q ∉ ts → s'.thread q = s.thread q

/-- The answer v of access x, of k registers, has reached its one destination: the registers of q from d on hold it and are
full, and the access is over. -/
structure Sys2Proof.Claims.Answered (s s' : State) (x : Txn) (q : Tid) (d k v : Nat) : Prop where
  regs : (s'.thread q).regs = ((s.thread q).writeRegs d k v).regs
  full : (s'.thread q).empty = ((s.thread q).markFull d k).empty

/-- R217, R285, R446: the home of a load translates its address. A translation is kept with the access, which no longer holds
its thread; without one the unit takes the memory fault with the reason of the refusal. A run that has been amended is left
aside. R213, R216, R243: the answer of a load, where no uncorrectable error stands, is the bytes at the home, zero- or
sign-extended, with those of a task's own version above them; it fills the destination. Model's choice, where the rules leave it
open: log 45, 66. -/
def Obligations.LoadsPerform : Prop :=
  (∀ (s : State) (x : Txn) (regs : Nat) (sx : Bool),
    s.txn? x.id = some x → x.kind = .load regs sx → x.phase = .issued → x.space = .global →
    (∀ u, s.unit? x.tid.uid = some u → u.task.stale = false) →
    (∀ l, s.translate x.ctx x.va false false = .ok l →
      ∃ s' z, exec (.loadTranslationAck x.id) s = .next s' ∧ s'.txn? x.id = some z ∧ z.phase = .accepted ∧ z.pa = some (l.addr x.va) ∧
        (∀ d ∈ x.dests, x.id ∉ (s'.thread d.1).hold) ∧ Leaves s s' (x.tid :: x.dests.map (·.1))) ∧
    (∀ r u, s.translate x.ctx x.va false false = .error r → s.unit? x.tid.uid = some u → u.active = true → u.fault = none → r < 256 →
      ∃ s' w b, exec (.loadTranslationAck x.id) s = .next s' ∧ s'.unit? x.tid.uid = some w ∧ w.fault = some b ∧
        b.take 2 = [0x20, BitVec.ofNat 8 r] ∧ s'.mem = s.mem ∧ s'.vaults = s.vaults)) ∧
  (∀ (s : State) (x : Txn) (regs : Nat) (sx : Bool) (pa : Nat) (l : Leaf) (q : Tid) (d : Nat),
    OnItsWay s x → x.kind = .load regs sx → x.phase = .accepted → x.space = .global → x.pa = some pa → x.leaf = some l →
    x.dests = [(q, d)] → s.Present q → (∀ j, j < regs → (s.thread q).producer (d + j) = some (.txn x.id)) →
    (∀ y ∈ s.txns, y.loadMate x = true → y = x) → (s.txns.map (·.id)).Nodup → s.flawed 0 pa x.size = false →
    ∃ s', exec (.loadDataReply x.id false) s = .next s' ∧
      Answered s s' x q d regs (loadValue sx x.size (leNat (s.viewGlobal x.tid.uid x.va pa x.size))) ∧
      s'.txn? x.id = none ∧ Leaves s s' [q, x.tid])

/-- R213, R218, R243: a store that translates is accepted, and its lines leave every L1; performed, it writes its bytes at the
home and no others; an uncorrectable error fails it, with no byte written. R245, R413: the failure of a store reaches the entry
of its thread, with its reason and address; 4,096 cycles later, unless the thread has reported it, its unit takes the fault.
Model's choice, where the rules leave it open: log 44, 77. -/
def Obligations.StoresTravel : Prop :=
  (∀ (s : State) (x : Txn) (data : List Byte),
    OnItsWay s x → x.kind = .store data → x.space = .global → s.speculates x.tid.uid = false →
    (∀ u, s.unit? x.tid.uid = some u → u.task.stale = false) →
    (∀ l, x.phase = .issued → s.translate x.ctx x.va true false = .ok l →
      ∃ s' z, exec (.storeArrivalAtHome x.id) s = .next s' ∧ s'.txn? x.id = some z ∧ z.phase = .accepted ∧ z.pa = some (l.addr x.va) ∧
        (∀ c ∈ s'.caches.l1, c.ctx = x.ctx → c.line ∉ linesOf x.va x.size) ∧ Leaves s s' []) ∧
    (∀ pa l u, x.phase = .accepted → x.pa = some pa → x.leaf = some l → s.unit? x.tid.uid = some u → u.ceilingFinal = true →
      u.task.heldWrites = [] → l.tso = false → s.queuedBefore x (·.held) = false → s.heldEarlier x = false →
      (∃ s', exec (.storePerform x.id false) s = .next s' ∧ s'.mem = cellsPut s.mem pa data ∧ s'.vaults = s.vaults ∧ s'.txn? x.id = none) ∧
      ∃ s' z, exec (.storePerform x.id true) s = .next s' ∧ s'.txn? x.id = some z ∧ z.phase = .failed rUncorrectable ∧ Leaves s s' [])) ∧
  ((∀ (s : State) (x : Txn) (data : List Byte) (r : Nat),
    s.txn? x.id = some x → x.kind = .store data → x.dests = [] → x.phase = .failed r → x.orphan = false → x.tid.lane < 32 →
    s.Present x.tid →
    ∃ s' f, exec (.storeFailureReport x.id) s = .next s' ∧ (s'.thread x.tid).fails = (s.thread x.tid).fails ++ [f] ∧
      f.reason = r ∧ f.addr = x.va ∧ f.pc = x.pc ∧ f.cause = 0x25 ∧ s'.txn? x.id = none ∧ Leaves s s' [x.tid]) ∧
  ∀ (s : State) (t : Tid) (u : RUnit) (f : FaultInfo),
    s.unit? t.uid = some u → u.active = true → u.fault = none → (u.crew t.crew).frozen = false → (s.thread t).live = true →
    (s.thread t).stop = none → (s.thread t).report = some f → (∃ q ∈ (s.thread t).fails, q.since + 4096 ≤ s.clk.now) →
    ∃ s' w b, exec (.deferredStoreTimeout t.uid t.crew t.lane) s = .next s' ∧ s'.unit? t.uid = some w ∧ w.fault = some b ∧
      b.take 1 = [BitVec.ofNat 8 f.cause] ∧ s'.mem = s.mem ∧ s'.vaults = s.vaults)

/-- R243, R284, R285, R293 to R296: an atomic on global memory, where no access accepted before it waits at its line, reads the
old value and leaves the new one in one step; lrun runs its routine on the 128 bytes of its line in one step. Each fetches its
answer later. No uncorrectable error stands in the bytes. R285, R295, R300, R301, R303: the answers of an atomic and of an lrun
fill their destinations, and the status of the latest lrun of a thread goes into lrstat; a timed waitv ends at its time with the
word that stands there, and so does one that the system core holds when it has seen the word change: its thread goes on, once
the EVDONE write is done with the event that holds it (R460). Model's choice, where the rules leave it open: log 26, 68. -/
def Obligations.AtomicsTravel : Prop :=
  (∀ (s : State) (x : Txn) (pa : Nat) (l : Leaf),
    OnItsWay s x → x.space = .global → x.phase = .accepted → x.pa = some pa → x.leaf = some l → x.dests ≠ [] →
    (s.txns.map (·.id)).Nodup → s.awaitsFinal x l = false → s.tsoWaits x l = false → s.queuedBefore x (fun _ => true) = false →
    s.flawed 0 pa x.size = false →
    ((∃ fn ty v, x.kind = .atomic fn ty v) ∨ (∃ ty cmp swap, x.kind = .cas ty cmp swap) →
      let old := s.word pa x.size
      let new := x.kind.newValue old
      ∃ s' z, exec (.atomicPerform x.id false) s = .next s' ∧ s'.txn? x.id = some z ∧ z.phase = .performed old ∧
        s'.mem = (if new = old then s.mem else cellsPut s.mem pa (leBytes x.size new)) ∧ s'.vaults = s.vaults) ∧
    (∀ num ops count, x.kind = .lrun num ops →
      let entry := s.routineImage ((s.ctx x.ctx).home l x.va) x.ctx num
      let r := runRoutine (cellsGet s.mem pa 128) ops entry num count
      entryCount entry = some count → paOk (s.routineEntry x.ctx num) = true → x.size = 128 →
      s.flawed 0 (s.routineEntry x.ctx num) 512 = false →
      ∃ s' z, exec (.lrunHold x.id false) s = .next s' ∧ s'.txn? x.id = some z ∧ z.phase = .performed (lrunAnswer r.2.1 r.2.2) ∧
        s'.mem = (if r.1 = cellsGet s.mem pa 128 then s.mem else cellsPut s.mem pa r.1) ∧ s'.vaults = s.vaults)) ∧
  (∀ (s : State) (x : Txn) (q : Tid) (d v : Nat),
    s.txn? x.id = some x → x.dests = [(q, d)] → s.Present q →
    let waits := fun (k : Nat) => ∀ j, j < k → (s.thread q).producer (d + j) = some (.txn x.id)
    (∀ ty, waits (Ty.regs ty) → x.phase = .performed v → ((∃ fn b, x.kind = .atomic fn ty b) ∨ ∃ cmp swap, x.kind = .cas ty cmp swap) →
      ∃ s', exec (.atomicReply x.id) s = .next s' ∧ Answered s s' x q d ty.regs v ∧ s'.txn? x.id = none ∧ Leaves s s' [q, x.tid]) ∧
    (∀ num ops, waits 2 → x.phase = .performed v → x.kind = .lrun num ops → (s.thread q).lrTxn < x.id →
      ∃ s', exec (.lrunComplete x.id) s = .next s' ∧ Answered s s' x q d 2 v ∧ (s'.thread q).lrstat = BitVec.ofNat 32 (v / 2 ^ 64) ∧
        s'.txn? x.id = none ∧ Leaves s s' [q, x.tid]) ∧
    (∀ ty e lim pa, waits (Ty.regs ty) → x.phase = .sleeping → x.kind = .waitv ty e lim → x.pa = some pa → v = s.word pa x.size →
      s.Present x.tid → (s.thread q).stepping = none → (s.thread x.tid).stepping = none →
      let ends := fun (i : Instr) => ∃ s', exec i s = .next s' ∧ Answered s s' x q d ty.regs v ∧ s'.txn? x.id = none ∧
        (s'.thread x.tid).pc = x.after ∧ (s'.thread x.tid).wait = none ∧ Leaves s s' [q, x.tid]
      (∀ n, lim = some n → x.since + n ≤ s.clk.now → x.target = 0 ∨ s.asked x.tid 2 = false → ends (.waitvTimeout x.id)) ∧
      (x.target = 2 ∨ (x.target = 1 ∧ v ≠ e) → s.asked x.tid 2 = false → ends (.waitRecheckTimer x.id)) ∧
      (s.asked x.tid 2 = true → exec (.waitRecheckTimer x.id) s = .next s)))

/-! ## Engine operations (05_control, 07_matrix, 09_memory, 14_fabric, 16_translation_system, 17_generation_host) -/

/-- The operation o is new: the last of the list, of the thread t and with a free number of its unit; its handle stands in
register d of t, which is empty until the future completes (R129, R133). The thread stands len bytes further; no memory changes.
-/
structure Sys2Proof.Claims.Accepts (s s' : State) (t : Tid) (kind : OpKind) (d len : Nat) (o : Op) : Prop where
  added : s'.ops = s.ops ++ [o]
  tid : o.tid = t
  kind : o.kind = kind
  handle : (s'.thread t).reg d = handleWord o.num o.gen
  waits : (s'.thread t).producer d = some (.future o.num o.gen)
  begun : (s'.unit? t.uid).any (fun u => u.futures.any fun f => f.num == o.num && f.gen == o.gen && f.op == o.id && f.status.isNone) = true
  pc : (s'.thread t).pc = (s.thread t).pc + BitVec.ofNat 64 len
  others : ∀ q, q ≠ t → s'.thread q = s.thread q
  mem : s'.mem = s.mem
  vaults : s'.vaults = s.vaults

/-- R129, R133, R172, R174, R180, R182, R227, R230, R388, R393, R398, R456, R463: an engine operation is accepted when its block
can be read, its unit has a future number free and its queue has room. ctxsave names another unit, and asks for its pre-emption.
Model's choice, where the rules leave it open: log 6, 27, 53. R424, R425, R455: ctxsave of a unit that runs, with an address
where its image fits, is accepted and starts its pre-emption: a save or a flush stops it, a drain lets it run. -/
def Obligations.EngineOpsAccepted : Prop :=
  (∀ (s : State) (i : Instr) (v : View) (u : RUnit) (t : Tid) (kind : OpKind) (block : List Byte),
    let a := v.srcA s t [t.lane]
    let b := v.srcB s t [t.lane]
    let n := v.srcC s t
    let d := v.x.d.toNat
    let reads := fun (p : Path) (k : Nat) => s.blockBad t.uid a k k = none ∧ s.engineRead (s.reader u.ctx p t) .localMem 0 a k = .ok block
    (∃ f, u.freeNumber = some f) → s.coreFutures u.core < 1024 → (s.ops.filter fun o => o.kind.isMat && o.core == u.core).length < 16 →
    (∀ o ∈ s.ops, o.id < s.clk.nextId) → d < (s.thread t).regs.length →
    (s.Lone i v u t ∧
        ((∃ ac x, i = .pft ac x ∧ kind = .pft ∧ reads .pft 64) ∨
         (∃ ch x, i = .copy ch x ∧ kind = .copy ch.toNat ∧ reads .copy 64 ∧ u.ceilingFinal = true) ∨
         (∃ x, i = .mma true x ∧ kind = .mma none ∧ reads .mat 64) ∨
         (∃ sp x, i = .mmasp sp true x ∧ kind = .mma (some sp) ∧ reads .mat 64) ∨
         (∃ x, i = .bload x ∧ kind = .bload ∧ reads .mat 32) ∨
         (∃ x, i = .mdrain x ∧ kind = .mdrain ∧ reads .mat 32) ∨
         (∃ slot x, i = .mzero slot x ∧ kind = .mzero) ∨
         (∃ m x, i = .dprop m x ∧ kind = .dprop (16 - m.toNat) ∧ s.blockBad t.uid b 64 64 = none) ∨
         (∃ x, i = .ctxload x ∧ kind = .ctxload) ∨
         (∃ ac x, i = .rld ac x ∧ kind = .rld ∧ (s.ctx u.ctx).domain ≠ 0 ∧ s.entryFree t u.core = true ∧ u.ceilingFinal = true ∧
            s.meetsEarlier [t] a n s.clk.nextId = false ∧ 0 < n ∧ n ≤ 1048576 ∧ fabTarget a ≠ s.fabric.device ∧ fabTarget a ∉ s.fabric.dead ∧
            (ac.space = .localMem → s.blockBad t.uid b n 1 = none) ∧
            (ac.space = .vault → b + n ≤ 2 ^ 31 ∧ ∀ k, k < n → s.granted u.ctx (b + k) = true)))) ∨
      (s.Met i v u t ∧
        ((∃ x, i = .mma false x ∧ kind = .mma none ∧ reads .mat 64) ∨
         (∃ sp x, i = .mmasp sp false x ∧ kind = .mma (some sp) ∧ reads .mat 64))) ∨
      (s.Direct i v u t ∧ s.Quiet t ∧
        ((∃ x, i = .dapp x ∧ kind = .dapp ∧ s.tokensBad t.uid b n = none) ∨
         (∃ x, i = .dclr x ∧ kind = .dclr) ∨
         (∃ ac x, i = .rld3 ac x ∧ kind = .rld3 ∧ (s.ctx u.ctx).domain ≠ 0 ∧ s.entryFree t u.core = true ∧ 0 < n ∧ n ≤ 1048576 ∧
            bits b 15 13 = 0 ∧ bits b 31 22 = 0 ∧ fabTarget a ∉ s.fabric.dead ∧ (bit b 12 = true ∨ bits b 11 0 ∉ s.fabric.dead)) ∨
         (∃ ac x, i = .mcst ac x ∧ kind = .mcst ∧ (s.ctx u.ctx).domain ≠ 0 ∧ s.entryFree t u.core = true ∧ fabVa a % 128 = 0 ∧
            s.blockBad t.uid b 128 128 = none ∧ s.blockBad t.uid n 8 8 = none ∧ s.localFlawed t.uid b 128 = false))) →
    ∃ s' o, exec i s = .next s' ∧ Accepts s s' t kind d (instrSize i) o) ∧
  (∀ (s : State) (x : Form) (v : View) (u w : RUnit) (t : Tid) (form : Preemption),
    s.Lone (.ctxsave x) v u t → (∃ f, u.freeNumber = some f) → s.coreFutures u.core < 1024 → v.x.d.toNat < (s.thread t).regs.length →
    let a := v.srcA s t [t.lane]
    let b := v.srcB s t [t.lane]
    (s.units.find? fun q => !q.isSystem && q.fate != .ended && q.core == bits a 8 0 && q.slot == bits a 19 16) = some w →
    s.unit? w.uid = some w → u.isSystem = true → w.preemptable = true → b % 256 = 0 → (s.ctx w.ctx).inPool b 1 = true →
    (s.ctx w.ctx).inPool b w.imageSize = true → s.preemptForm w true = some form →
    ∃ s' o, exec (.ctxsave x) s = .next s' ∧ s'.ops = s.ops ++ [o] ∧ o.kind = .ctxsave ∧ o.args = [w.uid, b] ∧
      (s'.thread t).reg v.x.d.toNat = handleWord o.num o.gen ∧
      (s'.thread t).pc = (s.thread t).pc + BitVec.ofNat 64 (instrSize (.ctxsave x)) ∧
      (s'.unit? w.uid).map (·.fate) = some (match form with | .drain => .draining s.clk.now | .flush | .save => .saving) ∧
      s'.mem = s.mem ∧ s'.vaults = s.vaults)

/-- The operation o is over, and its status stands in the register that waited for its future (R129). -/
structure Sys2Proof.Claims.Completes (s s' : State) (o : Op) (status : Nat) : Prop where
  gone : s'.op? o.id = none
  status : ∀ u f q d, s.unit? o.tid.uid = some u → u.future? o.num o.gen = some f → f.dests = [(q, d)] → s.Present q →
    (s.thread q).producer d = some (.future o.num o.gen) → (s'.thread q).regs = ((s.thread q).setReg d status).regs

/-- R175 to R187: the matrix sequencer. The first operation of its unit starts when its checks hold; each chunk of an mma adds
its products to the accumulator, or runs again once after a mismatch; each group of a bload enters its slot; each row of an
mdrain is written; an operation that has reached its end completes with its flags. mstat tells a slot's state. Model's choice,
where the rules leave it open: log 25, 69. -/
def Obligations.MatrixSteps : Prop :=
  (∀ (s : State) (o : Op) (u : RUnit),
    s.op? o.id = some o → s.unit? o.tid.uid = some u → s.matHead o = true → o.status = none → o.cancelled = false →
    (∀ k, o.accSlot = some k → k < u.accs.length) → (∀ k, o.bSlot = some k → k < u.bslots.length) →
    (∀ sp acc, o.kind = .mma sp → o.started = false → scalesHeld s o = false → mmaStart s u o (sparseN sp) = .ok acc →
      ∃ s' p, exec (.matrixOpAccept o.id) s = .next s' ∧ s'.op? o.id = some p ∧ p.started = true ∧
        (s'.unit? o.tid.uid).map (·.acc o) = some acc ∧ s'.mem = s.mem ∧ s'.vaults = s.vaults) ∧
    (∀ sp cols o1, o.kind = .mma sp → o.started = true → o.pos < o.kdim / 16 → chunkHeld s o (sparseN sp) = false →
      chunkColumns s o (sparseN sp) = .ok (cols, o1) →
      let acc := u.acc o
      let r := chunkTile acc.int (denseOf acc.data 0 16384) cols (chunkRows (u.bslot o) o.bfmt (o.bk0 + 16 * o.pos))
      (∃ s' p, exec (.matrixChunk o.id .ok) s = .next s' ∧ s'.op? o.id = some p ∧ p.pos = o.pos + 1 ∧
        p.flags = o.flags ||| orAll (r.map (·.2)) ∧
        (s'.unit? o.tid.uid).map (·.acc o) = some { acc with data := sparseFrom 0 (r.map (·.1)) } ∧ s'.mem = s.mem ∧ s'.vaults = s.vaults) ∧
      (o.rerun = none → ∃ s' p, exec (.matrixChunk o.id .mismatch) s = .next s' ∧ s'.op? o.id = some p ∧ p.pos = o.pos ∧
        p.rerun = some o.pos ∧ s'.units = s.units ∧ s'.mem = s.mem ∧ s'.vaults = s.vaults)) ∧
    (∀ bs, o.kind = .bload → o.started = true → o.pos < o.kdim / 64 → o.bfmt ≠ 5 → readRows s o (64 * o.pos) 64 = .ok bs →
      (∀ k, k < 64 → (o.bspace = .vault → s.vaultHeld u.uid (o.aaddr + (64 * o.pos + k) * o.pitch) (matBytes o.bfmt) = false) ∧
        (o.bspace = .global → s.lineHeld o.ctx (linesOf (o.aaddr + (64 * o.pos + k) * o.pitch) (matBytes o.bfmt)) 0 = false)) →
      let g := o.bk0 / 64 + o.pos
      ∃ s' p, exec (.bloadGroup o.id false) s = .next s' ∧ s'.op? o.id = some p ∧ p.pos = o.pos + 1 ∧
        (s'.unit? o.tid.uid).map (fun w => (w.bslot o).data) = some (putDense (u.bslot o).data (64 * g * matBytes o.bfmt) bs) ∧
        (s'.unit? o.tid.uid).any (fun w => (w.bslot o).loaded.contains g) = true ∧ s'.mem = s.mem ∧ s'.vaults = s.vaults) ∧
    (∀ s1, o.kind = .mdrain → o.started = true → o.pos < 128 →
      let bs := (drainRow o (u.acc o) o.pos).flatMap fun x => leBytes (outSize o.ofmt) x.1
      drainRangeOk s o (o.aaddr + o.pos * o.pitch) bs.length = true →
      s.engineWrite o.ctx .mat o.tid o.dspace (o.aaddr + o.pos * o.pitch) bs = .done s1 →
      ∃ s' p, exec (.mdrainRow o.id false) s = .next s' ∧ s'.op? o.id = some p ∧ p.pos = o.pos + 1 ∧
        s'.units = s1.units ∧ s'.mem = s1.mem ∧ s'.vaults = s1.vaults) ∧
    (o.kind.isMat = true → o.started = true → o.length ≤ o.pos →
      ∃ s', exec (.matrixOpComplete o.id) s = .next s' ∧
        Completes s s' o (match o.rerun with | some c => statusWord 0x40 (o.flags + 256 * c) | none => statusWord 0 o.flags) ∧
        s'.mem = s.mem ∧ s'.vaults = s.vaults)) ∧
  ∀ (s : State) (slot : MSlot) (part : MPart) (x : Form) (v : View) (u : RUnit) (t : Tid),
    s.Lone (.mstat slot part x) v u t → (∀ o ∈ s.ops, o.tid.uid ≠ t.uid) →
    ∃ s', exec (.mstat slot part x) s = .next s' ∧
      s.Becomes s' (s.but t ((v.writeD (mstatValue u slot part) (s.thread t)).past s.clk.now (instrSize (.mstat slot part x))))

/-- R228, R232 to R236, R430, R456, R463 to R466: a prefetch fills its lines one by one, ends after the last, and names a line
without a translation; a copy delivers group after group, counting each at its barrier and at its channel's write pointer, and
completes at its end; the draft engine appends the tokens of dapp and gives dprop its proposal; ctxload brings an image's unit
to a core. Model's choice, where the rules leave it open: log 15, 16, 53, 64. -/
def Obligations.EngineSteps : Prop :=
  ∀ (s : State) (o : Op), s.op? o.id = some o → o.cancelled = false → o.status = none →
    (let lines := pftLines o.block
     o.kind = .pft → field o.block 0x0A 2 = 0 → pftBad s o.ctx o.block 0 = none → pftBad s o.ctx o.block lines.length = none →
      s.numbered o.tid.uid = false →
      let ends := fun (w : Nat) => ∃ s', exec (.pftComplete o.id) s = .next s' ∧ Completes s s' o w ∧ s'.mem = s.mem ∧ s'.vaults = s.vaults
      (lines[o.pos]? = none → ends 0) ∧
      ∀ l, lines[o.pos]? = some l →
        (∀ r, s.translate o.ctx (l * 128) false false = .error r → ends (statusWord 0x80 o.pos)) ∧
        (∀ leaf, s.translate o.ctx (l * 128) false false = .ok leaf → s.lineHeld o.ctx [l] 0 = false →
          s.flawed 0 (leaf.addr (l * 128)) 128 = false →
          ∃ s' p, exec (.pftComplete o.id) s = .next s' ∧ s'.op? o.id = some p ∧ p.pos = o.pos + 1 ∧
            (∃ e ∈ s'.caches.slines, e.ctx = o.ctx ∧ e.line = l) ∧ s'.mem = s.mem ∧ s'.vaults = s.vaults)) ∧
    (∀ ch, o.kind = .copy ch → s.headOfChannel o ch = true →
      (∀ s1 s2, o.pos < copyTotal o.block → s.numbered o.tid.uid = false → copyBytes (copyHints s o o.pos (copyGroup o.block o.pos)) o o.pos (copyGroup o.block o.pos) = .done s1 →
        copyBarrier s1 o (copyGroup o.block o.pos) = some s2 →
        ∃ s' p, exec (.copyGroupDelivered o.id false) s = .next s' ∧ s'.op? o.id = some p ∧ p.pos = o.pos + copyGroup o.block o.pos ∧
          (s'.unit? o.tid.uid).map (·.wptr) =
            (s2.unit? o.tid.uid).map (fun u => u.wptr.modify ch (· + BitVec.ofNat 64 (copyGroup o.block o.pos))) ∧
          s'.mem = s2.mem ∧ s'.vaults = s2.vaults) ∧
      (copyTotal o.block ≤ o.pos → ∃ s', exec (.copyComplete o.id) s = .next s' ∧ Completes s s' o 0 ∧ s'.mem = s.mem ∧ s'.vaults = s.vaults)) ∧
    (∀ q, s.firstOnSeq o = true → s.seq? o.ctx (o.args.headD 0) = some q →
      (o.kind = .dapp →
        let q' := q.append s.clk.nextId 0 (wordsOf o.block)
        ∃ s', exec (.draftOpExecute o.id) s = .next s' ∧ Completes s s' o (statusWord 0 q'.tokens.length) ∧
          (s'.seq? o.ctx (o.args.headD 0)).map (·.tokens) = some q'.tokens ∧ s'.mem = s.mem ∧ s'.vaults = s.vaults) ∧
      (∀ limit s1, o.kind = .dprop limit →
        s.engineWrite o.ctx .draft o.tid .localMem (o.args.getD 1 0) (proposalBytes (q.propose limit).1) = .done s1 →
        ∃ s', exec (.draftOpExecute o.id) s = .next s' ∧
          Completes s s' o (statusWord 0 ((q.propose limit).1.length + 256 * (q.propose limit).2)) ∧ s'.mem = s.mem ∧ s'.vaults = s.vaults)) ∧
    (∀ m core, o.kind = .ctxload → (s.images.find? (·.addr == o.args.headD 0)) = some m → headerOk (cellsGet s.mem m.addr 256) = true →
      s.imageLive m = true → s.restoreCore m.unit = some core → s.host.noPlace = false → m.unit.task.isSealed = false →
      s.unit? m.unit.uid = none → o.tid.uid ≠ m.unit.uid →
      ∃ s' w, exec (.restore o.id) s = .next s' ∧ Completes s s' o 0 ∧ s'.unit? m.unit.uid = some w ∧ w.core = core ∧ w.fate = .running ∧
        s'.mem = s.mem ∧ s'.vaults = s.vaults)

/-! ## Tasks and commits (12_tasks_grades) -/

/-- No launch, firing or phase is at its end: nothing settles (R335, R355). -/
structure Sys2Proof.Claims.Idle (s : State) : Prop where
  launches : ∀ l ∈ s.work.launches, l.ended = false ∧ (l.state = .started → l.counter ≠ 0)
  firings : ∀ f ∈ s.work.firings, f.started = true → ∃ l ∈ s.work.launches, f.has l = true
  phases : ∀ c, ∀ p ∈ (s.ctx c).phases, s.phaseCount c p.1 ≠ 0

/-- R317, R321 to R324, R342: tseal of a sealed or direct run goes on; tstat gives the task's word; tspawn of a valid block in a
direct or sealed run adds a waiting launch, registers it on the block's records and answers 0; tcommit of a thread of a direct
unit with nothing on its way goes on as a full fence does; trigger of the last live thread of a direct unit marks the unit
triggered, and the thread goes on; in an unsealed task tcommit of the last live thread asks for the commit, and the thread
waits; tabort restarts an unsealed task, whose version is discarded and whose threads stand again at their checkpoint, and
otherwise is the fault 0x29, taken with its record in its own step. Model's choice, where the rules leave it open: log 24, 50,
73, 94. -/
def Obligations.TaskControl : Prop :=
  ∀ (s : State) (i : Instr) (v : View) (u : RUnit) (t : Tid),
    s.Lone i v u t →
    (∀ x, i = .tseal x → u.speculative = false → u.task.phase = .none →
      ∃ s', exec i s = .next s' ∧ s.Becomes s' (s.but t ((s.thread t).past s.clk.now (instrSize i)))) ∧
    (∀ x, i = .tstat x →
      ∃ s', exec i s = .next s' ∧ s.Becomes s' (s.but t ((v.writeD (s.taskState u) (s.thread t)).past s.clk.now (instrSize i)))) ∧
    (∀ x, i = .tspawn x → u.speculative = false → s.blockBad t.uid (v.srcA s t [t.lane]) 64 64 = none →
      let b := s.loadLocal t.uid (v.srcA s t [t.lane]) 64
      spawnBad b = false → s.spawnsTaken < 4096 →
      (∀ r ∈ (spawnReq b).recs, ∃ l, s.translate u.ctx r.1 false false = .ok l ∧ s.recordInvalid (l.addr r.1) = false) →
      ∃ s' l, exec i s = .next s' ∧ s'.work.launches = s.work.launches ++ [l] ∧ l.limit = (spawnReq b).depth ∧ l.state = .waiting ∧
        (∀ r ∈ (spawnReq b).recs, ∃ g ∈ s'.grades.regs, g.launch = l.id ∧ g.ctx = u.ctx ∧ g.addr = r.1 ∧ g.thr = r.2) ∧
        (∀ q, s'.thread q = s.but t ((v.writeD 0 (s.thread t)).past s.clk.now (instrSize i)) q) ∧ s'.mem = s.mem ∧ s'.vaults = s.vaults) ∧
    (∀ x, i = .tcommit x →
      (u.task.atomic = false → s.Quiet t →
        let r := s.synchronise .full t
        ∃ s', exec i s = .next s' ∧ r.Becomes s' (r.but t ((r.thread t).past s.clk.now (instrSize i)))) ∧
      (u.speculative = true → u.task.phase = .none → u.liveThreads.map (·.1) = [t] →
        ∃ s' w, exec i s = .next s' ∧ s'.commits.queue = s.commits.queue ++ [t.uid] ∧ s'.unit? t.uid = some w ∧
          w.task.phase = .wanting ∧ w.task.goal = .chunk ∧ (s'.thread t).pc = (s.thread t).pc ∧ s'.mem = s.mem ∧ s'.vaults = s.vaults)) ∧
    (∀ x, i = .trigger x → u.task.atomic = false → u.task.phase = .none → s.Quiet t → s.resolved u = true → u.liveThreads.map (·.1) = [t] →
      ∃ s' w, exec i s = .next s' ∧ s'.unit? t.uid = some w ∧ w.triggered = true ∧
        (s'.thread t).pc = (s.thread t).pc + BitVec.ofNat 64 (instrSize i)) ∧
    (∀ e x, i = .tabort e x → s.numbered t.uid = false →
      (e = false → u.speculative = true →
        ∃ s' w, exec i s = .next s' ∧ s'.unit? t.uid = some w ∧ w.task.version = [] ∧ w.task.runs = u.task.runs + 1 ∧ s'.mem = s.mem ∧
          ∀ cp k c l, u.task.checkpoint = some cp → cp.crews[k]? = some c → l < 32 → ((w.crew k).thread l).pc = (c.thread l).pc) ∧
      (e = true ∨ u.speculative = false → u.active = true → u.fault = none →
        ∃ s' r, exec i s = .next s' ∧ s'.records = s.records ++ [r] ∧ r.bytes.take 1 = [0x29] ∧ s'.mem = s.mem))

/-- R311 to R313: a token goes to the first task of its die's queue; with it the task, when it has read no line that a commit
with a number has still to merge, takes the next commit number and sends its write signature to the eight arbiters; an arbiter
that tests a signature, or an address, restarts the unsealed task whose read signature it hits, and no other. R268, R313, R317:
the merge of a numbered task that all arbiters have tested, of whose lines no other task has read one since, writes its version,
every byte and no other, in one step; a task that was to seal is sealed. Model's choice, where the rules leave it open: log 48,
49. -/
def Obligations.Commits : Prop :=
  (∀ (s : State) (u : RUnit), s.unit? u.uid = some u → (s.units.map (·.uid)).Nodup →
    (∀ q, s.commits.queue = u.uid :: q → u.uid ∉ q → (∀ k ∈ s.commits.tokens, k.1 ≠ dieOf u.core) → u.task.phase = .wanting →
      u.active = true → s.resolved u = true →
      ∃ s' w, exec (.commitTokenGrant (dieOf u.core)) s = .next s' ∧ s'.commits.tokens = (dieOf u.core, u.uid) :: s.commits.tokens ∧
        s'.commits.queue = q ∧ s'.unit? u.uid = some w ∧ w.task.phase = .token ∧ s'.mem = s.mem) ∧
    (u.active = true → s.resolved u = true → u.task.phase = .token → u.firstReport = none → s.mergesRead u = false →
      (∀ m ∈ s.commits.sigs, m.die ≠ dieOf u.core) → (∀ m ∈ s.commits.addrs, m.die ≠ dieOf u.core) →
      ∃ s' w, exec (.commitStart u.uid) s = .next s' ∧ s'.unit? u.uid = some w ∧ w.task.phase = .numbered s.commits.next ∧
        w.task.untested = List.range 8 ∧ s'.commits.next = s.commits.next + 1 ∧ s'.mem = s.mem ∧
        s'.commits.sigs = s.commits.sigs ++ (List.range 8).map fun d =>
          { die := d, uid := u.uid, n := s.commits.next, lines := u.task.wsig.map fun k => (u.ctx, k) }) ∧
    (∀ die falseHits m, (s.commits.sigs.find? (·.die == die)) = some m → m.uid ≠ u.uid →
      s.signatureHits die (some m.uid) falseHits (fun u => m.lines.any fun k => u.readLine k.1 k.2) = [u.uid] →
      ∃ s' w, exec (.writeSignatureArrival die falseHits) s = .next s' ∧ s'.unit? u.uid = some w ∧ w.task.runs = u.task.runs + 1 ∧
        w.task.version = [] ∧ (∀ z, z ≠ u.uid → z ≠ m.uid → (s'.unit? z).map (·.task) = (s.unit? z).map (·.task)) ∧ s'.mem = s.mem) ∧
    (∀ die falseHits m, (s.commits.addrs.find? (·.die == die)) = some m →
      s.signatureHits die m.source falseHits (fun u => u.readLine m.ctx m.line) = [u.uid] →
      ∃ s' w, exec (.conflictAddressArrival die falseHits) s = .next s' ∧ s'.unit? u.uid = some w ∧ w.task.runs = u.task.runs + 1 ∧
        w.task.version = [] ∧ (∀ z, z ≠ u.uid → (s'.unit? z).map (·.task) = (s.unit? z).map (·.task)) ∧ s'.mem = s.mem)) ∧
  (∀ (s : State) (u : RUnit) (n : Nat),
    s.unit? u.uid = some u → u.task.phase = .numbered n → u.task.untested = [] → u.fault = none → s.mergesBefore u n = false →
    u.task.pubs = [] → u.task.spawns = [] → u.task.goal = .seal → s.launchCancelled u = false → Idle s →
    (∀ o ∈ s.units, o.uid ≠ u.uid → ∀ k ∈ u.task.wsig, o.readLine u.ctx k = false) →
    ∃ s' w, exec (.commitMerge u.uid) s = .next s' ∧
      s'.mem = u.task.version.foldl (fun m (b : VByte) => cellsPut m b.pa [b.val]) s.mem ∧ s'.vaults = s.vaults ∧
      s'.unit? u.uid = some w ∧ w.task.isSealed = true ∧ w.task.version = [] ∧ w.task.rsig = [] ∧ w.task.wsig = [])

/-! ## Grades (12_tasks_grades) -/

/-- R339 to R341: gread and gpub go on their way to the record's home; gwait begins to wait there. R331, R336: a publication
takes the record's next sequence number, skipping 0, and writes state word, dseq and producer as one write; one that leaves the
data as it was keeps dseq. A write to the pubw word of a block that is no known record is an ordinary write. Model's choice,
where the rules leave it open: log 51, 78. -/
def Obligations.GradesAndPublications : Prop :=
  (∀ (s : State) (i : Instr) (v : View) (u : RUnit) (t : Tid),
    s.Lone i v u t → s.Quiet t → u.task.phase = .none →
    let ea := eaOf v (gradeAccess .plain) s t [t.lane]
    s.accessBad t.uid u.ctx .global ea 64 = none →
    (∀ peek x, i = .gread peek x → s.entryFree t u.core = true →
      ∃ s' y, exec i s = .next s' ∧ Starts s s' t (.gread peek) .global ea 64 (instrSize i) v.x.d.toNat 1 y) ∧
    (∀ g same x, i = .gpub g same x → s.entryFree t u.core = true →
      ∃ s' y, exec i s = .next s' ∧ Starts s s' t (.gpub g same) .global ea 64 (instrSize i) v.x.d.toNat 1 y) ∧
    (∀ g chg x, i = .gwait g chg x → (s.thread t).anyEmpty v.x.d.toNat 1 = false →
      ∃ s' y, exec i s = .next s' ∧ s'.txns = s.txns ++ [y] ∧ y.tid = t ∧ y.va = ea ∧
        y.kind = .gwait g (if chg then some (v.srcC s t) else none) ∧ y.phase = .issued ∧ (s'.thread t).pc = (s.thread t).pc ∧
        (s'.thread t).wait = some (.line false) ∧ (s'.thread t).regs = (s.thread t).regs ∧ s'.mem = s.mem ∧ s'.vaults = s.vaults)) ∧
  ((∀ (s : State) (p : Pub) (l : Leaf),
    (s.grades.pubs.find? (·.id == p.id)) = some p → p.txn = none → p.raise = none → s.translate p.ctx p.addr true false = .ok l →
    (∀ q ∈ s.grades.regs, ¬(q.ctx = p.ctx ∧ q.addr = p.addr)) → Idle s →
    let pa := l.addr p.addr
    let st := s.word (pa + 0x0C) 4
    let seq := if st / 256 + 1 = 2 ^ 24 then 1 else st / 256 + 1
    let new := seq * 256 + (if p.grade = .final then 0 else p.depth % 16) * 16 + gradeRank p.grade
    s.recordInvalid pa = false → st % 4 ≠ 3 →
    ∃ s', exec (.publication p.id) s = .next s' ∧ s'.vaults = s.vaults ∧
      s'.mem = cellsPut s.mem (pa + 0x0C) (leBytes 4 new ++ leBytes 4 (if p.same then s.word (pa + 0x10) 4 else seq) ++
        leBytes 4 (match p.by_ with | some b => b.2.2 | none => 0xFFFFFFFF))) ∧
  ∀ (s : State) (src : ExtSource) (ctx addr : Nat) (value : DWord) (l : Leaf),
    s.translate ctx addr true false = .ok l → (ctx, addr) ∉ s.grades.known →
    ∃ s', exec (.externalPublication src ctx addr value) s = .next s' ∧ s'.vaults = s.vaults ∧
      s'.mem = cellsPut s.mem (l.addr addr + 0x20) (leBytes 8 value.toNat))

/-! ## Launches (13_launch_schedule) -/

/-- R363, R365, R367, R369 to R371: launch goes on its way; wfetch clears its flag word and asks the graph engine; cancel
answers 1 for a level that does not live; cancel of a launch that lives leaves it neither waiting nor started; ccount gives the
counter; progress sets the unit's word, and budget the crew's counter, whose old value it gives. In a direct or sealed run.
Model's choice, where the rules leave it open: log 52, 72. -/
def Obligations.LaunchInstructions : Prop :=
  ∀ (s : State) (i : Instr) (v : View) (u : RUnit) (t : Tid),
    s.Direct i v u t → s.Quiet t →
    let a := v.srcA s t [t.lane]
    let b := v.srcB s t [t.lane]
    let past := fun (th : Thread) => s.but t (th.past s.clk.now (instrSize i))
    (∀ x, i = .launch x → s.accessBad t.uid u.ctx .global a 128 = none →
      ∃ s' y, exec i s = .next s' ∧ Starts s s' t .launch .global a 128 (instrSize i) v.x.d.toNat 1 y) ∧
    (∀ x, i = .wfetch x → s.blockBad t.uid a 16 16 = none → (∀ owner w, s.unitOf? owner = some w → Memory.wf w.loc = true) →
      ∃ s' f, exec i s = .next s' ∧ s'.work.fills = s.work.fills ++ [f] ∧ f.tid = t ∧ f.addr = a ∧ f.launch = BitVec.ofNat 32 b ∧
        leNat (s'.loadLocal t.uid (a + 12) 4) = 0 ∧ (∀ q, s'.thread q = past (s.thread t) q) ∧ s'.mem = s.mem ∧ s'.vaults = s.vaults) ∧
    (∀ level x, i = .cancel level x → s.levelLive level u.ctx b = false →
      ∃ s', exec i s = .next s' ∧ s.Becomes s' (past (v.writeD 1 (s.thread t)))) ∧
    (∀ x, i = .cancel .launch x → s.levelLive .launch u.ctx b = true → (s.work.launches.map (·.id)).Nodup →
      ∃ s', exec i s = .next s' ∧ ∀ l ∈ s'.work.launches, l.ctx = u.ctx → l.id.toNat = b → l.state ≠ .waiting ∧ l.state ≠ .started) ∧
    (∀ level x, i = .ccount level x →
      ∃ s', exec i s = .next s' ∧ s.Becomes s' (past (v.writeD (s.levelCount level u.ctx b)
        (if s.levelCount level u.ctx b = 0 then (s.thread t).learn (s.ctx u.ctx).marks else s.thread t)))) ∧
    (∀ x, i = .progress x →
      ∃ s', exec i s = .next s' ∧ (s'.unit? t.uid).map (·.progress) = some (some (a % 65536)) ∧
        (∀ q, s'.thread q = past (s.thread t) q) ∧ s'.mem = s.mem ∧ s'.vaults = s.vaults) ∧
    (∀ x, i = .budget x →
      ∃ s', exec i s = .next s' ∧ (s'.crew t.uid t.crew).budget = (if a = 0 then .disarmed else .running (s.clk.now + a)) ∧
        (∀ q, s'.thread q = past (v.writeD ((s.crew t.uid t.crew).budget.count s.clk.now) (s.thread t)) q) ∧
        s'.mem = s.mem ∧ s'.vaults = s.vaults)

/-- The firings and the launches of which P and Q hold are cancelled, or have ended: none of the launches waits or runs on
(R363). -/
def Sys2Proof.Claims.Cancelled (s : State) (P : Firing → Prop) (Q : Launch → Prop) : Prop :=
  (∀ f ∈ s.work.firings, P f → f.cancelled = true) ∧ ∀ l ∈ s.work.launches, Q l → l.state ≠ .waiting ∧ l.state ≠ .started

/-- R349, R350, R363: a replay, while fewer than four firings of its slot live, makes a new one, with the slot's parameters and
the phase tag written; a CANCEL write cancels the firings, and the launches, of its level in the context of its slot. -/
def Obligations.SlotWrites : Prop :=
  ∀ (s : State) (slot : Nat) (value : DWord),
    let g := s.gslot slot
    let ctx := bits g.bound.toNat 8 0
    g.bound.getLsbD 9 = true →
    (slot < 64 → (s.work.firings.filter (·.slot == slot)).length < 4 → value.toNat < 256 →
      ∃ s' f, exec (.replayWrite slot value) s = .next s' ∧ s'.work.firings = s.work.firings ++ [f] ∧ f.slot = slot ∧ f.ctx = ctx ∧
        f.tag = value.toNat ∧ f.params = g.params ∧ f.gtab = g.gtab.toNat ∧ f.started = false ∧ (s'.gslot slot).replays = g.replays + 1 ∧
        s'.mem = s.mem ∧ s'.vaults = s.vaults) ∧
    ((s.work.launches.map (·.id)).Nodup →
      (value.toNat % 4 = 0 → s.levelLive .launch ctx (value.toNat / 2 ^ 32) = true →
        ∃ s', exec (.cancelLaunchWrite slot value) s = .next s' ∧
          Cancelled s' (fun _ => False) fun l => l.ctx = ctx ∧ l.id.toNat = value.toNat / 2 ^ 32) ∧
      (value.toNat % 4 = 1 → slot < 64 → s.levelLive .graph ctx slot = true →
        ∃ s', exec (.cancelGraphWrite slot value) s = .next s' ∧
          Cancelled s' (fun f => f.ctx = ctx ∧ f.slot = slot) fun l => l.ctx = ctx ∧ ∃ k, l.firing = some (slot, k)) ∧
      (value.toNat % 4 = 2 → s.levelLive .phase ctx (bits value.toNat 15 8) = true →
        ∃ s', exec (.cancelPhaseWrite slot value) s = .next s' ∧
          Cancelled s' (fun f => f.ctx = ctx ∧ f.tag = bits value.toNat 15 8) fun l => l.ctx = ctx ∧ l.tag = some (bits value.toNat 15 8)) ∧
      (value.toNat % 4 = 3 → s.levelLive .job ctx 0 = true →
        ∃ s', exec (.cancelJobWrite slot value) s = .next s' ∧ Cancelled s' (fun f => f.ctx = ctx) fun l => l.ctx = ctx))

/-- R328, R350 to R352, R356: the oldest firing of a slot starts, with its launches; a launch without graded inputs starts when
its edges hold, and a consumer when its records hold their thresholds too. Model's choice, where the rules leave it open: log
31. -/
def Obligations.LaunchesStart : Prop :=
  ∀ (s : State), Idle s →
    (∀ f g, (s.work.firings.find? (·.slot == f.slot)) = some f → f.started = false → s.readGraph f.ctx f.gtab = some g →
      (∀ b ∈ g.bindings, bindingBad b (f.params.getD b.param 0) = false) → (∀ e ∈ g.edges, e.graded = false) → g.nlaunch < 256 →
      (∀ k, k < g.nlaunch → s.refuses (s.launchOf f g k) = false ∧ (s.launchOf f g k).desc.total ≠ 0 ∧
        ∀ l ∈ s.work.launches, l.id ≠ launchId f.slot f.num k) → 0 < g.nlaunch →
      ∃ s', exec (.firingStart f.slot) s = .next s' ∧ ({ f with started := true } : Firing) ∈ s'.work.firings ∧
        (∀ k, k < g.nlaunch → (s'.launch? (launchId f.slot f.num k)).map (·.state) =
          some (if (s.launchOf f g k).deps = [] then .started else .waiting)) ∧ s'.mem = s.mem ∧ s'.vaults = s.vaults) ∧
    (∀ l, s.launch? l.id = some l → l.state = .waiting → l.counter ≠ 0 → s.edgesHold l = true → s.refuses l = false →
      (s.regsOf l.id = [] →
        ∃ s', exec (.launchStart l.id.toNat) s = .next s' ∧ (s'.launch? l.id).map (·.state) = some .started ∧ s'.mem = s.mem) ∧
      (s.regsOf l.id ≠ [] → s.inputsHold l.id false = true →
        ∃ s', exec (.consumerFire l.id.toNat) s = .next s' ∧ (s'.launch? l.id).map (·.state) = some .started ∧ s'.mem = s.mem))

/-- R91, R123, R347, R357 to R359, R367: a unit that a launch offers first and that fits is placed, its threads at the entry
with zeroed registers; one whose threads have exited, and which has nothing on its way, leaves its core. wfetch's answer is
written to its mailbox. Model's choice, where the rules leave it open: log 21, 31. -/
def Obligations.UnitsComeAndGo : Prop :=
  (∀ (s : State) (l : Launch) (index core i : Nat) (loc : List Host.Cell),
    s.launch? (BitVec.ofNat 32 l.id.toNat) = some l → l.candidate = some index → l.state = .started → s.host.noPlace = false →
    (∀ q ∈ s.work.launches, q.before l = true → s.placeable q = none) → s.placeable l = some (i, core) →
    s.localImage l.ctx l.desc = .ok loc →
    ∃ s' w, exec (.unitPlacement l.id.toNat index) s = .next s' ∧ s'.units = s.units ++ [w] ∧ w.core = core ∧ w.launch = l.id ∧
      w.index = index ∧ w.loc = loc ∧ w.crews.length = l.desc.crews ∧
      (∀ c ∈ w.crews, ∀ th ∈ c.threads, th.live = true ∧ th.pc = BitVec.ofNat 64 l.desc.entry ∧
        th.regs = List.replicate l.desc.regs 0) ∧ s'.mem = s.mem ∧ s'.vaults = s.vaults) ∧
  (∀ (s : State) (u : RUnit),
    s.unit? u.uid = some u → u.isSystem = false → u.fault = none → u.fate = .running → u.liveThreads = [] → u.futuresDone = true →
    u.task.phase = .none → s.quiet u.uid = true → (∀ f ∈ s.work.fills, f.tid.uid ≠ u.uid) → u.arrayErr = none → u.speculative = false →
    ∃ s', exec (.unitEnd u.uid) s = .next s' ∧ (∀ w ∈ s'.units, w.uid = u.uid → w.fate = .ended) ∧
      (u.sharing = false → (s.units.map (·.uid)).Nodup → s'.unit? u.uid = none)) ∧
  ∀ (s s1 : State) (f : Fill) (u : RUnit),
    (s.work.fills.find? (·.id == f.id)) = some f → s.unit? f.tid.uid = some u →
    let q := s.fetched u f.launch
    let gone := { s with work := { s.work with fills := s.work.fills.filter fun k => k.id != f.id } }
    State.engineWrite gone u.ctx .thr f.tid .localMem f.addr (q.1.flatMap (leBytes 4) ++ leBytes 4 q.2.1) = .done s1 →
    ∃ s', exec (.wfetchFill f.id) s = .next s' ∧ s'.work.fills = gone.work.fills ∧
      (s'.unit? f.tid.uid).map (·.loc) = (s1.unit? f.tid.uid).map (·.loc) ∧ s'.mem = s.mem ∧ s'.vaults = s.vaults

/-! ## The fabric (14_fabric) -/

/-- The state has sent the packet q, and nothing else: as it travels, ciphered in a confidential context, on a plane that is up
for its target (R375, R485). -/
def Sys2Proof.Claims.Sent (s s' : State) (q : Packet) : Prop := s'.outbox = s.outbox ++ s.wire 0 q

/-- R375, R389, R391, R395, R396, R403: in a direct or sealed run of a context with a domain, of a thread with nothing on its
way: rst and ratom are accepted as new accesses and leave as one packet each; rfence goes on; lwin of a free window whose pages
can be written opens it, clears its counter and answers 0; lwin.close of an open window closes it, writes the state 2 into its
counter and answers 0. Model's choice, where the rules leave it open: log 27, 34, 40, 87, 88. -/
def Obligations.FabricInstructions : Prop :=
  (∀ (s : State) (i : Instr) (v : View) (u : RUnit) (t : Tid),
    s.Direct i v u t → s.Quiet t → (s.ctx u.ctx).domain ≠ 0 → (∀ y ∈ s.txns, y.id < s.clk.nextId) →
    let next := fun (th : Thread) => th.past s.clk.now (instrSize i)
    (∀ ac x, i = .rst ac x →
      let ea := wrap 64 ((v.srcA s t [t.lane] : Int) + toSigned 32 (v.srcB s t [t.lane]))
      let n := v.x.ty.bytes
      let data := leBytes n (v.srcD s t)
      ea % n = 0 → s.entryFree t u.core = true → fabTarget ea ∉ s.fabric.dead →
      ∃ s' y, exec i s = .next s' ∧ s'.txns = s.txns ++ [y] ∧ y.id = s.clk.nextId ∧ y.kind = .rst data ∧ y.tid = t ∧ y.va = ea ∧
        y.size = n ∧ y.target = fabTarget ea ∧ y.grade = u.carries ∧ y.phase = .issued ∧
        Sent s s' (s.address (fabTarget ea) false (s.ctx u.ctx).domain
          (.of 3 (fabVa ea) s.clk.nextId n 0 (packetFlags false u.graded true u.carries) data)) ∧
        (∀ q, s'.thread q = s.but t (next (s.thread t)) q) ∧ s'.mem = s.mem ∧ s'.vaults = s.vaults) ∧
    (∀ dev x, i = .rfence dev x → ∃ s', exec i s = .next s' ∧ s.Becomes s' (s.but t (next (s.thread t)))) ∧
    (∀ x l, i = .lwin x → s.blockBad t.uid (v.srcA s t [t.lane]) 64 64 = none →
      let b := s.loadLocal t.uid (v.srcA s t [t.lane]) 64
      let w := windowOf b
      windowBad b = false → (s.ctx u.ctx).window? w.num = none → s.windowReason u.ctx w.vault w.base w.size = none →
      s.windowReason u.ctx false w.ctr 16 = none → s.translate u.ctx w.ctr true false = .ok l →
      ∃ s', exec i s = .next s' ∧ (s'.ctx u.ctx).window? w.num = some w ∧
        s'.mem = cellsPut s.mem (l.addr w.ctr) (leBytes 8 0 ++ leBytes 4 0 ++ leBytes 4 1) ∧ s'.vaults = s.vaults ∧
        s'.thread t = next (v.writeD 0 (s.thread t))) ∧
    (∀ x w l, i = .lwinClose x → (s.ctx u.ctx).window? (v.srcB s t [t.lane]) = some w → s.translate u.ctx w.ctr true false = .ok l →
      let c := s.counterOf u.ctx w.ctr
      ∃ s', exec i s = .next s' ∧ (s'.ctx u.ctx).window? (v.srcB s t [t.lane]) = none ∧
        s'.mem = cellsPut s.mem (l.addr w.ctr) (leBytes 8 c.1 ++ leBytes 4 c.2.1 ++ leBytes 4 2) ∧ s'.vaults = s.vaults ∧
        s'.thread t = next (v.writeD 0 (s.thread t)))) ∧
  ∀ (s : State) (fn : RComb) (nf : Bool) (ac : Access) (x : Form) (v : View) (u : RUnit) (t : Tid),
    s.Met (.ratom fn nf ac x) v u t → s.Quiet t → u.speculative = false → u.task.phase = .none → (s.ctx u.ctx).domain ≠ 0 →
    (∀ y ∈ s.txns, y.id < s.clk.nextId) → s.entryFree t u.core = true →
    let ea := v.srcA s t [t.lane]
    let b := v.srcB s t [t.lane]
    let n := v.x.ty.bytes
    let code := match fn with | .add => 0 | .min => 1 | .max => 2 | .and => 3 | .or => 4 | .xor => 5
    ea % n = 0 → fabTarget ea ∉ s.fabric.dead →
    ∃ s' y, exec (.ratom fn nf ac x) s = .next s' ∧ s'.txns = s.txns ++ [y] ∧ y.id = s.clk.nextId ∧
      y.kind = .ratom fn v.x.ty b [((t, v.x.d.toNat), none)] ∧ y.tid = t ∧ y.va = ea ∧ y.size = n ∧ y.target = fabTarget ea ∧
      y.grade = u.carries ∧ y.phase = .issued ∧ y.dests = (if nf then [] else [(t, v.x.d.toNat)]) ∧
      Sent s s' (s.address (fabTarget ea) false (s.ctx u.ctx).domain
        (.of 4 (fabVa ea) s.clk.nextId n (code + 16 * v.x.ty.code) (packetFlags false u.graded true u.carries) (leBytes n b))) ∧
      (s'.thread t).pc = (s.thread t).pc + BitVec.ofNat 64 (instrSize (.ratom fn nf ac x)) ∧ (s'.thread t).regs = (s.thread t).regs ∧
      (∀ j, nf = false → j < v.x.ty.regs → (s'.thread t).producer (v.x.d.toNat + j) = some (.txn y.id)) ∧
      (∀ q, q ≠ t → s'.thread q = s.thread q) ∧ s'.mem = s.mem ∧ s'.vaults = s.vaults

/-- Memory after a fabric write of a grade to n bytes of a page: the grade map of a graded-export page notes it (R405). -/
def Sys2Proof.Claims.noted (m : List Host.Cell) (l : Leaf) (va n : Nat) (g : Grade) : List Host.Cell :=
  if l.gx then (mapBytes l va n).foldl (fun m a => cellsPut m a (leBytes 1 (gradeRank g + 4))) m else m

/-- R379 to R384, R391, R393, R405: a request packet of a known peer, in the order of its source, is answered, a read or an
atomic when its home holds no read of the line. A read that is admitted returns the bytes; a write, a multicast write and an
atomic that are admitted perform, and the map of a graded-export page notes their grade; one that is refused performs nothing,
and its reason goes back. q is the packet as its receiver reads it. Model's choice, where the rules leave it open: log 33, 34,
88, 89. -/
def Obligations.FabricRequests : Prop :=
  ∀ (s : State) (p q : Packet),
    let h := s.hear p
    s.dark = false → p.headerBad = false → h.fromPeer p = some h → h.deciphered p = some q → s.fabric.heldPackets = [] →
    q.flags.getLsbD 0 = false ∨ (s.seenOf q.stream).headD 0 = q.seq.toNat →
    let va := q.addr.toNat
    let n := q.payload.length
    let answers := fun (i : Instr) (m : List Host.Cell) (r : Packet) =>
      ∃ s', exec i s = .next s' ∧ Sent s s' (s.address q.src.toNat false q.domain.toNat r) ∧ s'.mem = m ∧ s'.vaults = s.vaults
    let acks := fun (i : Instr) (m : List Host.Cell) (reason : Nat) (bs : List Byte) =>
      answers i m (.of 0x13 va q.tag.toNat bs.length reason 0 bs)
    let last := packetFlags false false (q.flags.getLsbD 4) .absent
    (∀ c l, p.kind = 1 → s.readHeld q va q.len.toNat = false → s.checked q q.src.toNat va q.len.toNat 0 false = .ok (c, l) →
      answers (.readRequest p false) s.mem (.of 0x10 va q.tag.toNat q.len.toNat 0 last (cellsGet s.mem (l.addr va) q.len.toNat))) ∧
    (∀ r, p.kind = 1 → s.readHeld q va q.len.toNat = false → s.checked q q.src.toNat va q.len.toNat 0 false = .error r →
      answers (.readRequest p false) s.mem (.of 0x11 va q.tag.toNat q.len.toNat r last [])) ∧
    (∀ c l, s.checked q q.src.toNat va (max n 1) 1 false = .ok (c, l) → (∀ a, (c, a) ∉ s.grades.known) →
      let m := noted (cellsPut s.mem (l.addr va) q.payload) l va n q.grade
      (p.kind = 3 → acks (.writePacket p false) m 0 []) ∧ (p.kind = 5 → acks (.multicastWrite p false) m 0 [])) ∧
    (∀ c l ty fn, p.kind = 4 → s.atomicHeld q = false → s.checked q q.src.toNat va (max n 1) 2 false = .ok (c, l) →
      Ty.ofCode (bits q.aux.toNat 15 4) = some ty → ([AtomFn.add, .min, .max, .and, .or, .xor])[q.aux.toNat % 16]? = some fn →
      let old := s.word (l.addr va) n
      let new := atomValue fn ty old (leNat q.payload)
      acks (.atomicPacket p false) (noted (if new = old then s.mem else cellsPut s.mem (l.addr va) (leBytes n new)) l va n q.grade) 0
        (leBytes n old)) ∧
    (∀ r, s.checked q q.src.toNat va (max n 1) (if p.kind = 4 then 2 else 1) false = .error r →
      (p.kind = 3 → acks (.writePacket p false) s.mem r []) ∧ (p.kind = 4 → s.atomicHeld q = false → acks (.atomicPacket p false) s.mem r []) ∧
      (p.kind = 5 → acks (.multicastWrite p false) s.mem r []))

/-- R382, R388 to R390, R394, R399, R402, R489: answers. A data segment is written where its rld wants it and counted, and the
last one ends the operation; a completion and an aggregated acknowledgement end theirs, that of a multicast write once its
record is written; an acknowledgement ends its access; without one within the timeout the access fails in its thread's entry;
one that was refused as not final is sent again when the run's ceiling is final. Model's choice, where the rules leave it open:
log 33, 34, 35, 88. -/
def Obligations.FabricAnswers : Prop :=
  (∀ (s : State) (p q : Packet),
    let h := s.hear p
    s.dark = false → p.headerBad = false → h.fromPeer p = some h → h.deciphered p = some q → s.fabric.heldPackets = [] →
    (∀ o s1, p.kind = 0x10 → q.total = 0 → s.op? o.id = some o →
      (s.ops.find? fun (o : Op) => o.id == q.tag.toNat && (o.kind matches .rld) && o.status.isNone) = some o →
      let sp : Space := match o.args.getD 3 0 with | 0 => .global | 1 => .localMem | _ => .vault
      let count := (segmentsOf (fabVa (o.args.headD 0)) (o.args.getD 2 0)).length
      h.engineWrite o.ctx .fab o.tid sp (wrap (if sp = .localMem then 32 else 64)
        ((o.args.getD 1 0 : Int) + (q.addr.toNat - fabVa (o.args.headD 0) : Nat))) q.payload = .done s1 →
      (o.answered + 1 < count →
        ∃ s' z, exec (.dataSegment p false) s = .next s' ∧ s'.op? o.id = some z ∧ z.answered = o.answered + 1 ∧
          s'.units = s1.units ∧ s'.mem = s1.mem ∧ s'.vaults = s1.vaults) ∧
      (o.answered + 1 = count → o.cancelled = false → o.destFail = none → o.reason = 0 →
        ∃ s', exec (.dataSegment p false) s = .next s' ∧ Completes s1 s' o 0 ∧ s'.mem = s1.mem ∧ s'.vaults = s1.vaults)) ∧
    (∀ o, p.kind = 0x12 → q.aux = 0 →
      (s.ops.find? fun (o : Op) => o.id == q.tag.toNat && (o.kind matches .rld3) && o.status.isNone) = some o →
      ∃ s', exec (.completionPacket p) s = .next s' ∧ Completes s s' o 0 ∧ s'.mem = s.mem ∧ s'.vaults = s.vaults) ∧
    (∀ x data, p.kind = 0x13 → q.aux = 0 → x.kind = .rst data → x.phase = .issued → q.tag.toNat = x.id → s.txn? x.id = some x →
      ∃ s', exec (.acknowledgement p) s = .next s' ∧ s'.txn? x.id = none ∧ s'.mem = s.mem ∧ s'.vaults = s.vaults)) ∧
  (∀ (s : State) (p : Packet) (o : Op),
    s.dark = false → p.kind = 0x14 → p.malformed = false → s.fabric.joined = true → p.dinc.toNat = s.fabric.incarnation → field p.payload 2 2 = 0 →
    (s.ops.find? fun (o : Op) => o.id == p.tag.toNat && o.status.isNone) = some o →
    (o.kind = .rld3 → bit (o.args.getD 1 0) 12 = true →
      ∃ s', exec (.aggregatedAcknowledgement p) s = .next s' ∧ Completes s s' o (statusWord 0 (field p.payload 0 2 % 4096)) ∧
        s'.mem = s.mem ∧ s'.vaults = s.vaults) ∧
    (∀ s1, o.kind = .mcst → (s.hear p).engineWrite o.ctx .fab o.tid .localMem (o.args.getD 1 0) (p.payload.take 8) = .done s1 →
      ∃ s', exec (.aggregatedAcknowledgement p) s = .next s' ∧ Completes s1 s' o (statusWord 0 (field p.payload 0 2 % 4096)) ∧
        s'.mem = s.mem ∧ s'.vaults = s.vaults)) ∧
  ∀ (s : State) (x : Txn) (data : List Byte), s.txn? x.id = some x → x.kind = .rst data →
    (x.phase = .issued → x.since + (s.ctx x.ctx).fabTimeout ≤ s.clk.now → x.orphan = false → s.Present x.tid →
      ∃ s' f, exec (.fabricTimeout x.id) s = .next s' ∧ (s'.thread x.tid).fails = (s.thread x.tid).fails ++ [f] ∧ f.cause = 0x24 ∧
        f.unknown = true ∧ f.device = x.target ∧ s'.txn? x.id = none ∧ s'.mem = s.mem) ∧
    (∀ u, x.phase = .resend → s.unitOf? x.tid.uid = some u → u.ceilingFinal = true →
      ∃ s' z, exec (.fabricResendFinal x.id) s = .next s' ∧ s'.txn? x.id = some z ∧ z.phase = .issued ∧ z.grade = .final ∧
        Sent s s' (s.address x.target false (s.ctx x.ctx).domain
          (.of 3 (fabVa x.va) x.id x.size 0 (packetFlags (s.sentBefore x) true true .final) data)) ∧
        s'.mem = s.mem)

/-- R376, R378, R379, R381: a heartbeat leaves on a link in use, and one that comes is noted; a link that has been silent for 10
µs is down for every target; a target for which every plane is down is dead; a peer's first join records its incarnation, and
the peer is not dead; a packet of a reserved kind is dropped, with an error record to the system core of the die that received
it. Model's choice, where the rules leave it open: log 38, 39. -/
def Obligations.Links : Prop :=
  ∀ (s : State) (port : Nat), port < 16 →
    (s.fabric.portUp port = true →
      (∃ s' p, exec (.heartbeatTimer port) s = .next s' ∧ s'.outbox = s.outbox ++ [.packet p] ∧ p.kind = 0x20 ∧ p.plane.toNat = port ∧
        p.src = BitVec.ofNat 16 s.fabric.device ∧ s'.mem = s.mem ∧ s'.units = s.units) ∧
      ((assocGet s.fabric.lastHeard port).getD 0 + 12500 ≤ s.clk.now →
        ∃ s', exec (.linkDeathTimeout port) s = .next s' ∧ s'.outbox = s.outbox ++ [.linkDown port] ∧
          (∀ x, s'.fabric.planeUp port x = false) ∧ s'.mem = s.mem ∧ s'.units = s.units)) ∧
    (∃ s', exec (.heartbeat port) s = .next s' ∧ assocGet s'.fabric.lastHeard port = some s.clk.now ∧ s'.mem = s.mem ∧ s'.units = s.units) ∧
    (∀ target, s.dark = false → (∀ k, k < 16 → k ≠ port → s.fabric.planeUp k target = false) →
      ∃ s', exec (.deathNotice port target) s = .next s' ∧ target ∈ s'.fabric.dead ∧ assocGet s'.fabric.lastHeard port = some s.clk.now) ∧
    (∀ p, s.dark = false → p.kind = 0x22 → p.malformed = false → assocGet s.fabric.peers p.src.toNat = none →
      ∃ s', exec (.join p) s = .next s' ∧ assocGet s'.fabric.peers p.src.toNat = some p.sinc.toNat ∧ p.src.toNat ∉ s'.fabric.dead ∧
        s'.mem = s.mem) ∧
    (∀ p c, s.dark = false → p.knownKind = false → s.sys[p.die]? = some c →
      ∃ s', exec (.reservedKindPacket p) s = .next s' ∧ (s'.sys.getD p.die .reset).pending.length = c.pending.length + 1 ∧
        s'.mem = s.mem ∧ s'.units = s.units)

/-! ## System (16_translation_system, 17_generation_host) -/

/-- R450, R451, R453, R454, R457, R458, R468, R469: shoot starts a shootdown, and shootsync goes on when its own have finished;
pinset in a direct task sets or clears a pin window and answers 0; pincap sets a pinned capacity of one slice or of all and
answers 0; sysrd reads, and syswr writes, the system register that their selector names, and PTROOT takes its bits [51:12]; rpub
makes the stores of its ring in order and answers 0. Model's choice, where the rules leave it open: log 58, 65. -/
def Obligations.SystemInstructions : Prop :=
  ∀ (s : State) (i : Instr) (v : View) (u : RUnit) (t : Tid),
    s.Lone i v u t → s.Quiet t →
    let a := v.srcA s t [t.lane]
    let b := v.srcB s t [t.lane]
    let c := v.srcC s t
    let next := fun (th : Thread) => s.but t (th.past s.clk.now (instrSize i))
    (∀ x, i = .shoot x → a % 4096 = 0 → a < 2 ^ 57 → 1 ≤ c → c ≤ 511 →
      ∃ s' q, exec i s = .next s' ∧ s'.shoots = s.shoots ++ [q] ∧ q.ctx = c ∧ q.base = a ∧
        q.len = (if b = 0 then none else some (b * 4096)) ∧ q.by_ = some t ∧ q.done = false ∧
        (∀ z, s'.thread z = next (s.thread t) z) ∧ s'.mem = s.mem ∧ s'.vaults = s.vaults) ∧
    (∀ x, i = .shootsync x → (∀ q ∈ s.shoots, q.by_ = some t → q.done = true ∧ ∀ k ∈ q.waits, s.settledTxn k = true) →
      ∃ s', exec i s = .next s' ∧ (∀ q, q ∈ s'.shoots ↔ q ∈ s.shoots ∧ q.by_ ≠ some t) ∧
        (∀ z, s'.thread z = next (s.thread t) z) ∧ s'.mem = s.mem ∧ s'.vaults = s.vaults) ∧
    (∀ x, i = .pinset x → u.task.atomic = false → s.blockBad t.uid a 16 16 = none →
      let d := s.loadLocal t.uid a 16
      let w : PinWin := { base := field d 0 8, len := field d 8 4, mask := field d 12 4 }
      w.base % 65536 = 0 → w.base + w.len * 65536 ≤ 2 ^ 57 → w.base < 2 ^ 57 →
      ∃ s', exec i s = .next s' ∧ assocGet (s'.ctx u.ctx).pinw (b % 16) = (if w.len = 0 then none else some w) ∧
        (∀ z, s'.thread z = next (v.writeD 0 (s.thread t)) z) ∧ s'.mem = s.mem ∧ s'.vaults = s.vaults) ∧
    (∀ x, i = .pincap x → 1 ≤ a → a ≤ 511 → c ≤ 6 →
      let named := fun (k : Nat) => if b = 0xFFFFFFFF then k < 256 else k = b % 256
      (∀ k, named k → s.otherPins a k + c ≤ 6) →
      ∃ s', exec i s = .next s' ∧ (∀ k, (assocGet (s'.ctx a).pincap k).getD 0 = if named k then c else (assocGet (s.ctx a).pincap k).getD 0) ∧
        (∀ z, s'.thread z = next (v.writeD 0 (s.thread t)) z) ∧ s'.mem = s.mem ∧ s'.vaults = s.vaults) ∧
    (∀ x w s1, i = .sysrd x → s.sysRead (dieOf u.core) a = some (w, s1) →
      ∃ s', exec i s = .next s' ∧ (∀ z, s'.thread z = next (v.writeD w (s.thread t)) z) ∧ s'.ctxs = s1.ctxs ∧ s'.sys = s1.sys ∧
        s'.mem = s.mem ∧ s'.vaults = s.vaults) ∧
    (∀ x s1, i = .syswr x → s.sysWrite (dieOf u.core) a (BitVec.ofNat 64 b) = some s1 → s1.Present t →
      ∃ s', exec i s = .next s' ∧ s'.ctxs = s1.ctxs ∧ s'.sys = s1.sys ∧ s'.mem = s1.mem ∧ s'.vaults = s1.vaults ∧
        (∀ z, s'.thread z = s1.but t ((s1.thread t).past s.clk.now (instrSize i)) z) ∧
        ∀ k, selector a = some (false, k, 1) →
          (s'.ctx k).ptroot = BitVec.ofNat 64 b &&& 0x000FFFFFFFFFF000 ∧ (∀ z, s'.thread z = next (s.thread t) z) ∧ s'.mem = s.mem) ∧
    (∀ x ring s1, i = .rpub x → u.speculative = false → u.task.phase = .none → u.ceilingFinal = true → a % 64 = 0 →
      let n := leNat (s.loadLocal t.uid b 4)
      let stp := leNat (s.loadLocal t.uid (b + 4) 4)
      let tokens := wordsOf (s.loadLocal t.uid (b + 8) (4 * n))
      let q := ringOf ring
      s.blockBad t.uid b 8 16 = none → s.blockBad t.uid b (8 + 4 * n) 16 = none → s.readBlock u.ctx a 64 = .ok ring → q.bad = false →
      n ≤ 1024 → q.tail / 2 ^ 32 < stp → (q.tail + (2 ^ 32 - q.head % 2 ^ 32)) % 2 ^ 32 + n ≤ q.nslots →
      s.ringStores u.ctx t (((List.range n).map fun k => (q.base + 4 * ((q.tail % 2 ^ 32 + k) % q.nslots), leBytes 4 (tokens.getD k 0))) ++
        [(a + 0x10, leBytes 8 (stp * 2 ^ 32 + (q.tail % 2 ^ 32 + n) % 2 ^ 32))]) = (s1, none) →
      ∃ s', exec i s = .next s' ∧ s'.thread t = (v.writeD 0 (s.thread t)).past s.clk.now (instrSize i) ∧ s'.mem = s1.mem ∧
        s'.vaults = s.vaults)

/-- R133, R349, R450, R457 to R459, R474: the writes that reach a register from outside, and the steps of a shootdown: the
translations of its range are dropped. A write to a register that is not there is dropped, and so is every write to a module
that is shut down or has no power (R488). Model's choice, where the rules leave it open: log 26, 58, 60. -/
def Obligations.RegisterWrites : Prop :=
  ∀ (s : State) (v : DWord),
    (∀ c, c < 512 → v.getLsbD 1 = false → ((s.ctx c).ctxctl.getLsbD 0 = false ∨ v.getLsbD 0 = true) →
      ∃ s', exec (.ctxctlWrite c v) s = .next s' ∧ (s'.ctx c).ctxctl = v &&& ctxctlMask ∧ s'.mem = s.mem ∧ s'.units = s.units) ∧
    (∀ die k t, s.sys[die]? = some k → k.holding = some t → k.evcause = 1 → s.Present t →
      ∃ s', exec (.evdoneWrite die) s = .next s' ∧ (s'.thread t).virt = true ∧ (s'.sys.getD die .reset).holding = none ∧ s'.mem = s.mem) ∧
    (∀ target, s.dark = true → exec (.registerWrite target v) s = .next s) ∧
    (∀ sel s1, s.dark = false → s.sysWrite 0 sel.toNat v = some s1 → exec (.registerWrite (.system sel) v) s = .next s1) ∧
    (s.dark = false → 1200 ≤ v.toNat → v.toNat ≤ 3600 →
      ∃ s', exec (.registerWrite (.bar0 0xA0) v) s = .next s' ∧ s'.host.pwrcap = v ∧ s'.mem = s.mem ∧ s'.units = s.units) ∧
    (∀ off : BitVec 26, s.dark = false → off ≠ 0xA0 → ¬(0x100000 ≤ off.toNat ∧ off.toNat < 0x140000) → off ≠ 0x200000 → off ≠ 0x200008 →
      ∃ s', exec (.registerWrite (.bar0 off) v) s = .next s' ∧ s'.host = s.host ∧ s'.work = s.work ∧ s'.mem = s.mem ∧ s'.units = s.units) ∧
    (∀ sh, (s.shoots.find? fun q => q.id == sh.id && !q.done) = some sh → (∀ u ∈ s.units, u.speculative = false) →
      ∃ s', exec (.shootdown sh.id []) s = .next s' ∧
        (∀ e ∈ s'.caches.tlbs, e.ctx = sh.ctx → ∃ n, sh.len = some n ∧ (e.leaf.va < sh.base + n → e.leaf.va + e.leaf.size ≤ sh.base)) ∧
        (∀ q ∈ s'.shoots, q.id = sh.id → q.done = true) ∧ s'.mem = s.mem)

/-! ## Traps, faults, debugger (15_traps) -/

/-- R369, R373, R410, R412, R415, R416, R435, R460: a pending event enters its handler; a fault writes its record and stops its
unit; a thread at a breakpoint stops; a budget that runs out is the event 6; the watchdog faults every unit of its context; a
system core enters its handler at EVBASE. Model's choice, where the rules leave it open: log 24, 55, 72, 73. -/
def Obligations.TrapSteps : Prop :=
  ∀ (s : State) (u : RUnit), s.unit? u.uid = some u →
    (∀ k e es, k < u.crews.length → (u.crew k).event = none → (u.crew k).pending = e :: es →
      ∃ s', exec (.userTrapEntry u.uid k) s = .next s' ∧ (s'.crew u.uid k).event = some e ∧ (s'.crew u.uid k).pending = es ∧
        (s'.crew u.uid k).frozen = true ∧ (s'.crew u.uid k).handler.live = true ∧
        (s'.crew u.uid k).handler.pc = BitVec.ofNat 64 u.desc.handler ∧ s'.mem = s.mem ∧ s'.vaults = s.vaults) ∧
    (∀ b, u.fault = some b → s.holdsFaults u = false →
      ∃ s' r, exec (.fault u.uid) s = .next s' ∧ s'.records = s.records ++ [r] ∧ r.bytes = b ∧ r.die = dieOf u.core ∧ r.ctx = u.ctx ∧
        (s'.unit? u.uid).map (·.fate) = some .faulted ∧ (∀ o ∈ s'.ops, o.tid.uid ≠ u.uid) ∧ s'.mem = s.mem) ∧
    (∀ t, t.uid = u.uid → u.active = true → (u.crew t.crew).frozen = false → s.atBreakpoint u t = true → s.sched.issue = none →
      (s.ctx u.ctx).dbctl.getLsbD 1 = false →
      ∃ s' r, exec (.pcBreakpoint t.uid t.crew t.lane) s = .next s' ∧
        (s'.thread t).stop = some { handle := s.freshHandle u.ctx, cause := 0x40 } ∧ s'.records = s.records ++ [r] ∧
        r.bytes.take 1 = [0x40] ∧ (∀ q, q ≠ t → s'.thread q = s.thread q) ∧ s'.mem = s.mem ∧ s'.vaults = s.vaults) ∧
    (∀ k e, k < u.crews.length → (u.crew k).budget = .running e → u.active = true → (u.crew k).frozen = false → e ≤ s.clk.now →
      u.desc.handler ≠ 0 → (∃ l, l < 32 ∧ ((u.crew k).thread l).live = true) →
      ∃ s', exec (.budgetOverrun u.uid k) s = .next s' ∧ (s'.crew u.uid k).event.map (·.cause) = some 6 ∧
        (s'.crew u.uid k).frozen = true ∧ (s'.crew u.uid k).budget = .disarmed ∧ s'.mem = s.mem) ∧
    (u.isSystem = false → u.active = true → 1024 * ((s.ctx u.ctx).timers.toNat % 65536) ≠ 0 →
      (assocGet s.clk.acts u.ctx).getD 0 + 1024 * ((s.ctx u.ctx).timers.toNat % 65536) ≤ s.clk.now →
      (∀ w ∈ s.units, w.ctx = u.ctx → ∀ c ∈ w.crews, ∀ th ∈ c.handler :: c.threads, th.external = false) → u.fault = none →
      ∃ s' w b, exec (.deadlockWatchdog u.ctx) s = .next s' ∧ s'.unit? u.uid = some w ∧ w.fault = some b ∧ b.take 1 = [0x2B] ∧
        s'.mem = s.mem) ∧
    (∀ die k q, s.sys[die]? = some k → k.evmask.getLsbD 0 = false → (s.thread ⟨die, 0, 0⟩).live = true → s.nextSource die = some q →
      q.source ≠ 4 →
      ∃ s' j, exec (.systemEvent die) s = .next s' ∧ (s'.thread ⟨die, 0, 0⟩).pc = k.evbase ∧ s'.sys[die]? = some j ∧
        j.evpc = (s.thread ⟨die, 0, 0⟩).pc ∧ j.evcause = BitVec.ofNat 64 q.source ∧ j.evmask = 1 ∧ s'.mem = s.mem)

/-- R434, R437: the debugger's commands on the threads that stand stopped under an open handle: continue and step let them go,
end ends their unit, with the record of a fault that it has met already or one of its own, the reserved action sets bit 0 of
DSTAT; DDATA reads and writes the register that DSEL selects. Model's choice, where the rules leave it open: log 55, 56, 76. -/
def Obligations.DebugCommands : Prop :=
  ∀ (s : State) (ctx : Nat) (v : DWord) (u : RUnit), s.unit? u.uid = some u →
    let named := commanded u ((s.ctx ctx).dbctl.getLsbD 1) v.toNat
    (s.handleUnit ctx (v.toNat % 65536) = some u → named ≠ [] →
      (bits v.toNat 23 22 = 0 →
        ∃ s', exec (.dcmdContinue ctx v) s = .next s' ∧
          (∀ q ∈ named, (s'.thread q).stop = none ∧ (s'.thread q).stepping = none) ∧ s'.mem = s.mem) ∧
      (bits v.toNat 23 22 = 1 →
        ∃ s', exec (.dcmdStep ctx v) s = .next s' ∧
          (∀ q ∈ named, (s'.thread q).stop = none ∧ (s'.thread q).stepping = some (v.toNat % 65536)) ∧ s'.mem = s.mem) ∧
      (bits v.toNat 23 22 = 2 → ((u.fault = none ∧ u.fate ≠ .faulted) ∨ (u.fault.isSome ∧ s.holdsFaults u = false)) →
        ∃ s' r, exec (.dcmdEnd ctx v) s = .next s' ∧ (s'.unit? u.uid).map (·.fate) = some .faulted ∧ s'.records = s.records ++ [r] ∧
          (u.fault = none → r.bytes.take 1 = [0x2D]) ∧ (∀ b, u.fault = some b → r.bytes = b) ∧ s'.mem = s.mem)) ∧
    (bits v.toNat 23 22 = 3 → ∃ s', exec (.dcmdRefused ctx v) s = .next s' ∧ (s'.ctx ctx).dstat.getLsbD 0 = true ∧ s'.units = s.units) ∧
    (∀ t fe n, s.selected ctx = some (u, t, .gpr, fe, n) →
      (∃ s', exec (.ddataRead ctx) s = .next s' ∧
        s'.outbox = s.outbox ++ [.value (BitVec.ofNat 64 (xgetValue .gpr fe .b32 n (s.thread t)))] ∧ s'.mem = s.mem) ∧
      ((s.thread t).live = true → ∃ s', exec (.ddataWrite ctx v) s = .next s' ∧
        (s'.thread t).regs = (Thread.patch .gpr 1 n v.toNat (s.thread t)).regs ∧ s'.mem = s.mem))

/-! ## Pre-emption and issue (13_launch_schedule, 15_traps) -/

/-- R17, R314, R360, R424 to R429: a request for pre-emption takes the form that the unit's state chooses; a drain that lasts
too long chooses again; a save writes the image's header and takes the unit off its core; a flushed unit in its first chunk is
offered again. A regrouping forms bundles of at most 32 ready threads that stand at one PC; a thread ready for 64 cycles is
urgent. Model's choice, where the rules leave it open: log 17, 22, 53, 54. -/
def Obligations.PreemptionSteps : Prop :=
  ∀ (s : State) (u : RUnit), s.unit? u.uid = some u →
    (∀ form, u.preemptable = true → s.preemptForm u true = some form →
      let fate : Fate := match form with | .drain => .draining s.clk.now | .flush | .save => .saving
      (∃ s', exec (.preemptRequest u.uid) s = .next s' ∧ (s'.unit? u.uid).map (·.fate) = some fate ∧ s'.mem = s.mem) ∧
      (∀ l index w, s.launch? (BitVec.ofNat 32 l.id.toNat) = some l → w ∈ s.work.waiting → w.1 = l.id → w.2.1 = index →
        w.2.2 + 65536 ≤ s.clk.now → l.state = .started → (l.unitRec index).at_ = .unplaced → s.placeable l = none → s.makesRoom l index u = true →
        ∃ s', exec (.preemptPriorityWait l.id.toNat index u.uid) s = .next s' ∧ (s'.unit? u.uid).map (·.fate) = some fate ∧
          s'.mem = s.mem)) ∧
    (∀ since form, u.fate = .draining since → since + 2 ^ 20 ≤ s.clk.now → u.fault = none → u.isHeld = false → s.preemptForm u false = some form →
      ∃ s', exec (.drainTimeout u.uid) s = .next s' ∧ (s'.unit? u.uid).map (·.fate) = some .saving ∧ s'.mem = s.mem) ∧
    (u.fate = .saving → u.speculative = false → u.fault = none → u.isHeld = false → s.mayPark u = true → s.saveReady u.uid = true → (∀ o ∈ s.ops, o.kind ≠ .ctxsave) →
      let c := s.ctx u.ctx
      let a := (c.spbase.toNat + c.spUsed + 255) / 256 * 256
      c.inPool a u.imageSize = true → Memory.wf s.mem = true →
      ∃ s', exec (.save u.uid) s = .next s' ∧ s'.unit? u.uid = none ∧
        (∃ m ∈ s'.images, m.addr = a ∧ m.kind = 1 ∧ m.unit.uid = u.uid) ∧ cellsGet s'.mem a 256 = u.header 1 ∧
        (∀ x, x < a ∨ a + 256 ≤ x → cellGet s'.mem x = cellGet s.mem x) ∧ s'.vaults = s.vaults) ∧
    (∀ l, u.fate = .saving → u.speculative = true → u.fault = none → s.numbered u.uid = false → u.task.checkpoint = none →
      s.launch? u.launch = some l → Idle s →
      ∃ s' r, exec (.flushAndRestart u.uid) s = .next s' ∧ (∀ w ∈ s'.units, w.uid = u.uid → w.fate = .ended) ∧
        (s'.launch? u.launch).map (fun l => l.unitRec u.index) = some r ∧ r.at_ = .unplaced ∧ r.again = true ∧ s'.mem = s.mem) ∧
    (∀ core quarter, ∃ s', exec (.regrouping core quarter) s = .next s' ∧ s'.mem = s.mem ∧
      ∀ b ∈ s'.sched.bundles, b.core = core → b.quarter = quarter → b.threads.length ≤ 32 ∧
        ∀ q ∈ b.threads, ∃ w ∈ s.units, w.uid = b.uid ∧ s.ready w q.1 q.2 = true ∧ ((w.crew q.1).thread q.2).pc = b.pc) ∧
    (∀ k l, s.ready u k l = true → ((u.crew k).thread l).urgent = none → ((u.crew k).thread l).readySince + 64 ≤ s.clk.now →
      ∃ s', exec (.threadUrgent u.uid k l) s = .next s' ∧ (s'.thread ⟨u.uid, k, l⟩).urgent = some (((u.crew k).thread l).readySince + 64) ∧
        s'.mem = s.mem)

/-! ## The host (17_generation_host) -/

/-- A command has been served: its status stands in its entry, and CMDHEAD has advanced (R476). -/
structure Sys2Proof.Claims.Served (s s' : State) (status : Nat) : Prop where
  status : cellsGet s'.mem (s.cmdAt + 4) 4 = leBytes 4 status
  head : s'.host.cmdhead = s.host.cmdhead + 1

/-- R475, R476, R479 to R483, R487: the host reads and writes the device DRAM that it may reach, as they stand at rest, and a
snoop returns its line so: a line under the key pair of a domain is cipher text (R484); each command of the ring is served in
order, and its status written. Model's choice, where the rules leave it open: log 11, 18, 59, 63. -/
def Obligations.HostAccesses : Prop :=
  (∀ (s : State) (hpa n : Nat) (data : List Byte), s.recovering = false → s.dark = false →
    ((∀ k, k < n → s.hostMayRead (hpa + k) = true) →
      ∃ s', exec (.hostMemRead hpa n) s = .next s' ∧ s'.outbox = s.outbox ++ [.hostRead (s.restGet hpa n)] ∧ s'.mem = s.mem ∧
        (s.lineKeys = [] → s.restGet hpa n = cellsGet s.mem hpa n)) ∧
    ((∀ k, k < data.length → s.hostBarred (hpa + k) = false) → s.pubwAt hpa = none →
      ∃ s', exec (.hostMemWrite hpa data) s = .next s' ∧ s'.mem = (s.restPut hpa data).mem ∧ s'.vaults = s.vaults ∧
        (s.lineKeys = [] → s'.mem = cellsPut s.mem hpa data)) ∧
    ((∃ k, k < data.length ∧ s.hostBarred (hpa + k) = true) →
      ∃ s', exec (.hostMemWrite hpa data) s = .next s' ∧ s'.mem = s.mem ∧ s'.vaults = s.vaults) ∧
    let pa := 2 ^ 51 + hpa
    ∃ s', exec (.hostSnoop hpa data) s = .next s' ∧
      s'.outbox = s.outbox ++ [.hostRead (sealLine (s.lineKey (pa / 128)) (pa / 128) (cellsGet s.mem (pa / 128 * 128) 128))] ∧
      (s.lineKeys = [] → s'.mem = cellsPut s.mem pa (data.take (128 - pa % 128))) ∧ (data = [] → s'.mem = s.mem)) ∧
  ∀ (s : State) (b : List Byte), s.command? = some b → s.recovering = false → Memory.wf s.mem = true →
    (field b 0 2 = 0 ∨ 9 < field b 0 2 → ∃ s', exec .badCommand s = .next s' ∧ Served s s' 1) ∧
    (cmdBad b = false →
      (∀ w s1, field b 0 2 = 1 → s.sysRead 0 (field b 8 4) = some (w, s1) →
        ∃ s', exec .hostCmdSysrd s = .next s' ∧ Served s s' 0 ∧ cellsGet s'.mem (s.cmdAt + 0x10) 8 = leBytes 8 w) ∧
      (∀ s1, field b 0 2 = 2 → s.sysWrite 0 (field b 8 4) (BitVec.ofNat 64 (field b 0x10 8)) = some s1 →
        ∃ s', exec .hostCmdSyswr s = .next s' ∧ Served s s' (if s.refusesWrite (field b 8 4) (BitVec.ofNat 64 (field b 0x10 8)) then 2 else 0)) ∧
      (∀ sig, field b 0 2 = 3 → field b 2 2 = 0 → ∃ s', exec (.hostCmdAttest sig) s = .next s' ∧ Served s s' 0) ∧
      (field b 0 2 = 4 → s.resident = [] → ∃ s', exec .hostCmdCheckpoint s = .next s' ∧ Served s s' 0) ∧
      (field b 0 2 = 5 → ∃ s', exec .hostCmdRestore s = .next s' ∧ Served s s' 0) ∧
      (field b 0 2 = 6 → field b 0x10 8 % 4096 = 0 → field b 0x10 8 < 2 ^ 57 → field b 2 2 ≠ 0 → (∀ q ∈ s.shoots, q.by_ ≠ none) →
        ∃ s' q, exec .hostCmdShoot s = .next s' ∧ s'.shoots = s.shoots ++ [q] ∧ q.ctx = field b 2 2 ∧ q.base = field b 0x10 8 ∧ s'.mem = s.mem) ∧
      (field b 0 2 = 7 → ∃ s', exec .hostCmdLoadImage s = .next s' ∧ Served s s' 0 ∧
        s'.host.flash = cellsGet s.mem (field b 0x18 8) (field b 0x20 8)) ∧
      (field b 0 2 = 8 → s.host.boot.length = 16 → ∃ s', exec .hostCmdClearIsleMask s = .next s' ∧ Served s s' 0 ∧
        ∀ isle, s'.isleDisabled isle = false) ∧
      (field b 0 2 = 9 → (s.ctx (field b 2 2)).confidential = true →
        (s.host.asked = none → ∃ s' nonce, exec .hostCmdAdmitPeer s = .next s' ∧ s'.outbox = s.outbox ++ [.report (s.peerRequest b nonce)] ∧
          s'.host.asked = some (nonce, s.clk.now)) ∧
        ∀ q inc keyed, s.host.asked = some q → assocGet s.fabric.peers (field b 8 4 % 4096) = some inc.toNat →
          keyed.take 32 = ((s.ctx (field b 2 2)).peermeas.flatMap fun r => leBytes 8 r.toNat) →
          ∃ s', exec (.peerReportAnswer true true (BitVec.ofNat 12 (field b 8 4)) inc q.1 keyed) s = .next s' ∧ Served s s' 0 ∧
            assocGet (s'.ctx (field b 2 2)).attested (field b 8 4 % 4096) = some inc.toNat ∧
            assocGet (s'.ctx (field b 2 2)).linkKeys (field b 8 4 % 4096) = some (s.linkKey (field b 2 2) (leNat (keyed.drop 32))))) ∧
    ∀ peer c dom nonce sig,
      ((s.ctx c).confidential = true → (s.ctx c).domain = dom.toNat →
        ∃ s', exec (.peerReportRequest peer c dom nonce sig) s = .next s' ∧
          s'.outbox = s.outbox ++ [.report (s.report 2 c nonce sig ++ s.certificate)] ∧ s'.mem = s.mem) ∧
      ((s.ctx c).confidential = false ∨ (s.ctx c).domain ≠ dom.toNat → exec (.peerReportRequest peer c dom nonce sig) s = .next s)

/-- R474, R477 to R480, R488: power-on begins start-up at step 1, with device memory 0 and host memory as it was; each step that
succeeds is followed by the next, unless that one has failed in three starts, which stops start-up or, at step 3, enters
recovery mode, and the last makes the device ready; an isle that fails its test is disabled; power loss leaves the module
without power; heat gates the issue and at last shuts the module down. Model's choice, where the rules leave it open: log 7, 75,
by which device memory reads 0 from power-on on and host memory survives, and log 10, 61, 62, 74. -/
def Obligations.PowerSteps : Prop :=
  ∀ (s : State),
    (s.Canonical → s.host.powered = false → ((s.boot 1).failed = false ∨ (s.boot 1).fails < 3) →
      ∃ s', exec .powerOn s = .next s' ∧ s'.host.powered = true ∧ s'.host.step = 1 ∧ s'.vaults = [] ∧
        ∀ a, cellGet s'.mem a = if 2 ^ 51 ≤ a then cellGet s.mem a else 0) ∧
    (s.Canonical → s.host.powered = true →
      ∃ s', exec .powerLoss s = .next s' ∧ s'.host.powered = false ∧ s'.units = State.reset.units ∧
        ∀ a, cellGet s'.mem a = if 2 ^ 51 ≤ a then cellGet s.mem a else 0) ∧
    (s.host.powered = true → s.host.shut = false → s.host.boot.length = 16 →
      (∀ k, s.host.step = k → 1 ≤ k → k ≤ 13 → k ≠ 7 → k ≠ 11 → ((s.boot (k + 1)).failed = false ∨ (s.boot (k + 1)).fails < 3) →
        ∃ s', exec (.startupStep .finished) s = .next s' ∧ s'.host.step = k + 1 ∧ (s'.boot k).finish = true) ∧
      (∀ k, s.host.step = k → 1 ≤ k → k ≤ 13 → k ≠ 7 → k ≠ 11 → (s.boot (k + 1)).failed = true → 3 ≤ (s.boot (k + 1)).fails →
        ∃ s', exec (.startupStep .finished) s = .next s' ∧ s'.host.step = 0 ∧ s'.host.bootstat.getLsbD (if k = 2 then 1 else 2) = true) ∧
      (s.host.step = 14 → ∃ s', exec (.startupStep .finished) s = .next s' ∧ s'.host.step = 0 ∧ s'.host.bootstat.getLsbD 0 = true) ∧
      (∀ i : BitVec 7, s.host.step = 7 → i.toNat < 64 →
        (s.isleDisabled i.toNat = false → ∃ s', exec (.startupStep (.isleTesting i)) s = .next s' ∧ (s'.boot 7).isle = i.toNat ∧
          s'.host.step = 7) ∧
        (s.islesTested = true → ∃ s', exec (.startupStep (.isleTesting 0x7F)) s = .next s' ∧ (s'.boot 7).isle = 0x7F ∧ s'.host.step = 7) ∧
        ((s.boot 7).isle = i.toNat → ∃ s', exec (.startupStep (.isleFaulty i)) s = .next s' ∧ s'.isleDisabled i.toNat = true ∧
          s'.host.step = 7))) ∧
    ∀ t : BitVec 8,
      (95 ≤ t.toNat → ∃ s', exec (.thermalThrottle t) s = .next s' ∧ s'.host.throttled = true ∧ s'.host.temp.toNat = t.toNat ∧
        s'.units = s.units ∧ s'.mem = s.mem) ∧
      (t.toNat < 95 → ∃ s', exec (.throttlingEnd t) s = .next s' ∧ s'.host.throttled = false ∧ s'.units = s.units ∧ s'.mem = s.mem) ∧
      (110 ≤ t.toNat → ∃ s', exec (.thermalShutdown t) s = .next s' ∧ s'.host.shut = true ∧ s'.mem = s.mem)


/-! ## Encoding, stepping, reset (02_encoding, 05_control, 17_generation_host) -/

/-- R36, R39: six words written out from the layouts of the encoding chapter decode to what they stand for: iadd g3, g1, g2; br
−2; mov g5, 0x100000002 under its literal; ffma in f32; ld of a 64-bit word with acquire order at device scope; the fence of
kind rel at system scope. -/
def Obligations.DecodedWords : Prop :=
  (decodeWords [0b00000000000000011000000100000100] =
    .ok (.iaddBase { u := false, d := 3, a := 1, b := .reg 2 }, []) ∧
  decodeWords [0b00001000001111111111111111111110] = .ok (.brBase false 0x3FFFFE, []) ∧
  decodeWords [0b10000111010000101000000000000000, 2, 1] =
    .ok (.movBase { u := false, d := 5, a := 0, b := .lit 0x100000002 }, []) ∧
  decodeWords [0b01001100110000000000000100001000, 0b00000101000001100000011111111110, 0b00000000000000000000000000011110] =
    .ok (.ffma .fsr { Form.plain false .f32 with d := 4, a := 5, b := .reg 6, c := 7 }, []) ∧
  decodeWords [0b01010100000000000000001000010001, 0b00000100000000100000000011111110, 0b00000000000001000011000000011110] =
    .ok (.ldExt false { ep := 1, na := false, l1b := false, ord := .acquire, scope := .device, space := .global }
      { Form.plain false .b64 with d := 8, a := 4, b := .reg 2 }, []) ∧
  decodeWords [0b01011000001010100000000000000000, 0b00000000000000000000000011111110, 0b00000000000000000000000000011110] =
    .ok (.fenceExt .rel .system (Form.plain false .i32), []))

/-- R33 to R57: every legal instruction is what the decoder reads from its words, with every operand and qualifier at every
value that the encoding admits, whatever words follow. -/
def Obligations.RoundTrip : Prop :=
  ∀ (i : Instr) (rest : List Nat), i.hasWords = true → i.WellFormed → decodeWords (encode i ++ rest) = .ok (i, rest)

/-- R34, R60, R253, R360: a step of a module that has power, at a bundle that no other of its path comes before, and none of
whose threads stands at a breakpoint or is due to report a failure, runs the instruction that the words at its PC decode to,
with the lines of the fetch kept by its core and their translations by their slices; where the words decode to nothing the
bundle takes the illegal-instruction fault, and where the fetch fails the fetch fault. A fetch that looks back at nothing reads
the task's own version of a byte, else memory, where no error stands. A prescribed event is the step, and a module that is shut
down or has no power takes none but those of power (R488). The state at which a step looks is that after its begin: the clock
has moved, and threads whose wait is over are ready. Model's choice, where the rules leave it open: log 1, 2, 4. -/
def Obligations.StepRunsDecoded : Prop :=
  (∀ (s : State) (k : Nat) (back : List Nat) (more : List Turn) (b : Bundle) (u : RUnit) (q : Nat × Nat) (qs : List (Nat × Nat)),
    let t0 := s.tick exec
    t0.sched.turns = .issue k back :: more → t0.dark = false → t0.sched.bundles[k]? = some b →
    let s0 : State := { t0 with sched := { t0.sched with turns := more, back } }
    s0.bestBundle (s0.pathMates b) = some b →
    let s1 : State := { t0 with sched := { t0.sched with turns := more, back, bundles := t0.sched.bundles.erase b } }
    let all : List Tid := (q :: qs).map fun p => ⟨b.uid, p.1, p.2⟩
    let t : Tid := ⟨b.uid, q.1, q.2⟩
    let mark := all.foldl (fun m p => max m (s1.thread p).ifMark) 0
    let pc := (s1.thread t).pc.toNat
    s1.unit? b.uid = some u → s1.bundleThreads b = q :: qs → (∀ p ∈ all, s1.atBreakpoint u p = false) →
    (∀ p ∈ all, (s1.thread p).reportDue s1.clk.now = false) →
    (∀ ws i rest, s1.fetchInstr u mark pc = .ok ws → decodeWords ws = .ok (i, rest) →
      let s2 := s1.keepFetch b.uid pc (4 * ws.length)
      step s = exec i { s2 with sched := { s2.sched with issue := some (b.uid, q :: qs) } }) ∧
    (∀ ws e, s1.fetchInstr u mark pc = .ok ws → decodeWords ws = .error e →
      step s = .next ((s1.keepFetch b.uid pc (4 * ws.length)).faultBundle t all.tail { cause := 0x21 })) ∧
    (∀ r, s1.fetchInstr u mark pc = .error r →
      step s = .next (s1.faultBundle t all.tail { cause := 0x28, reason := r, addr := pc }))) ∧
  (∀ (s : State) (u : RUnit) (mark k va pa : Nat), s.sched.back = [] → (∀ o ∈ s.hist, ∃ m ∈ o.made, m.step ≤ s.clk.stepNo) →
    s.fetchAddr u.core u.ctx va = .ok pa →
    (∀ b, u.task.version.find? (·.va == va) = some b → s.fetchByte u mark k va = .ok b.val) ∧
    (u.task.version.find? (·.va == va) = none → s.fetchHeld u.core u.ctx va = true ∨ s.flawed 0 pa 1 = false →
      s.fetchByte u mark k va = .ok (cellGet s.mem pa)) ∧
    (u.task.version.find? (·.va == va) = none → s.fetchHeld u.core u.ctx va = false → s.flawed 0 pa 1 = true →
      s.fetchByte u mark k va = .error rUncorrectable)) ∧
  ∀ (s : State) (i : Instr) (back : List Nat) (more : List Turn),
    let t0 := s.tick exec
    let s0 : State := { t0 with sched := { t0.sched with turns := more, back, issue := none } }
    t0.sched.turns = .event i back :: more →
    (t0.dark = false ∨ powers i = true → step s = exec i s0) ∧
    (t0.dark = true → powers i = false → step s = .next s0)

/-- R94, R123, R412, R459, R474, R476, R481: the registers right after reset, where the spec gives them a value. Model's choice,
where the rules leave it open: log 8, 19. -/
def Obligations.ResetValues : Prop :=
  (∀ c : Nat,
    let x := State.reset.ctx c
    x.ctxctl = 0 ∧ x.ptroot = 0 ∧ x.rtbase = 0 ∧ x.vgrant = 0 ∧ x.fring = 0 ∧ x.frwr = 0 ∧ x.spbase = 0 ∧ x.spsize = 0 ∧
    x.timers = 0x00C80000 ∧ x.fabTimeout = 200 * 1250 ∧ x.phrec = 0 ∧ x.jobrec = 0 ∧ x.pinw = [] ∧ x.pincap = [] ∧
    x.exportTab = [] ∧ x.dbctl = 0 ∧ x.dsel = 0 ∧ x.dstat = 0 ∧ x.ddata = 0 ∧ x.bps = List.replicate 8 0 ∧ x.peermeas = List.replicate 4 0) ∧
  (∀ d : Nat, d < 8 →
    let c := State.reset.sys.getD d .reset
    c.evmask = 1 ∧ c.evcause = 0 ∧ c.evinfo = 0 ∧ c.evpc = 0 ∧ c.evbase = 0) ∧
  State.reset.host.unitsel = 0 ∧
  State.reset.work.gslots = [] ∧ State.reset.ecnt = List.replicate 6 0 ∧
  (∀ d : Nat, State.reset.cycle d = 0) ∧
  State.reset.host.cmdbase = 0 ∧ State.reset.host.cmdtail = 0 ∧ State.reset.host.cmdhead = 0 ∧
  State.reset.host.measure = List.replicate 8 (List.replicate 32 0) ∧
  (∀ u ∈ State.reset.units, u.isSystem = true ∧ ∀ l, ((u.crew 0).thread l).live = false) ∧
  State.reset.work.launches = [] ∧ State.reset.txns = [] ∧ State.reset.ops = []

/-- The memories right after reset are in their canonical form: device DRAM and host memory, the vaults, every local memory. -/
def Obligations.ResetCanonical : Prop := State.reset.Canonical ∧ State.reset.LocalCanonical

/-- R3, R207, R268: every step keeps the memories in their canonical form, from every state, whatever the step is: an
instruction, an access on its way, a copy, a commit, a host access, a packet, a start-up step. -/
def Obligations.StepKeepsCanonical : Prop :=
  ∀ (s s' : State), s.Canonical → step s = .next s' → s'.Canonical

/-- R209, R237, R308, R314: every step keeps every local memory in its canonical form, that of a resident unit, of an image and
of a checkpoint of the device, from every state, whatever the step is: a store, a lent buffer, a copy, an undone version, a
placement, a save, a restore. -/
def Obligations.StepKeepsLocalMemory : Prop :=
  ∀ (s s' : State), s.LocalCanonical → step s = .next s' → s'.LocalCanonical
end

