-- ==== Sys2Proof/Laws/Threads.lean ====
section
/-! SUPPORT. What the accessors of units, crews and threads read after the updates of threads, and what such an update leaves
alone. -/

namespace Sys2Proof.Machine

/-! ## Lists -/

theorem getD_modify_self {α : Type} (l : List α) (i : Nat) (f : α → α) (d : α) (h : i < l.length) :
    (l.modify i f).getD i d = f (l.getD i d) := by
  simp [List.getD_eq_getElem?_getD, List.getElem?_modify, h]

theorem getD_modify_ne {α : Type} (l : List α) (i j : Nat) (f : α → α) (d : α) (h : i ≠ j) :
    (l.modify i f).getD j d = l.getD j d := by
  simp [List.getD_eq_getElem?_getD, List.getElem?_modify, h]

theorem map_modify_same {α β : Type} (l : List α) (i : Nat) (f : α → α) (g : α → β) (h : ∀ a, g (f a) = g a) :
    (l.modify i f).map g = l.map g := by
  induction l generalizing i with
  | nil => simp
  | cons a l ih => cases i <;> simp [h, ih]

/-! ## Units -/

theorem find_map_unit (us : List RUnit) (uid k : Nat) (f : RUnit → RUnit) (hf : ∀ u, (f u).uid = u.uid) :
    (us.map fun u => if u.uid = uid then f u else u).find? (·.uid == k) =
      (us.find? (·.uid == k)).map fun u => if u.uid = uid then f u else u := by
  induction us with
  | nil => rfl
  | cons u us ih =>
    have hu : (if u.uid = uid then f u else u).uid = u.uid := by split <;> simp [hf]
    simp only [List.map_cons, List.find?_cons, hu]
    cases h : u.uid == k <;> simp [ih]

/-- A unit after an update that keeps the numbers of units. -/
theorem unit?_mapUnit (s : State) (uid k : Nat) (f : RUnit → RUnit) (hf : ∀ u, (f u).uid = u.uid) :
    (s.mapUnit uid f).unit? k = (s.unit? k).map fun u => if u.uid = uid then f u else u :=
  find_map_unit s.units uid k f hf

theorem unit?_uid {s : State} {k : Nat} {u : RUnit} (h : s.unit? k = some u) : u.uid = k := by
  have := List.find?_some h
  simpa using this

theorem unit?_mapThread (s : State) (t : Tid) (f : Thread → Thread) (k : Nat) :
    (s.mapThread t f).unit? k =
      (s.unit? k).map fun u => if u.uid = t.uid then u.mapCrew t.crew (·.mapThread t.lane f) else u :=
  unit?_mapUnit s t.uid k _ fun _ => rfl

theorem unit?_mapThread_isSome (s : State) (t : Tid) (f : Thread → Thread) (k : Nat) :
    ((s.mapThread t f).unit? k).isSome = (s.unit? k).isSome := by
  rw [unit?_mapThread]; cases s.unit? k <;> rfl

/-- The unit's fields other than its crews, after an update of one of its threads. -/
theorem unit?_mapThread_some {s : State} {k : Nat} {u : RUnit} (h : s.unit? k = some u) (t : Tid) (f : Thread → Thread) :
    ∃ cs, (s.mapThread t f).unit? k = some { u with crews := cs } := by
  rw [unit?_mapThread, h]
  by_cases hu : u.uid = t.uid
  · exact ⟨u.crews.modify t.crew (·.mapThread t.lane f), by simp [hu, RUnit.mapCrew]⟩
  · exact ⟨u.crews, by simp [hu]⟩

/-! ## Threads -/

theorem Crew.thread_mapThread_self (c : Crew) (l : Nat) (f : Thread → Thread) (h : l = 32 ∨ l < c.threads.length) :
    (c.mapThread l f).thread l = f (c.thread l) := by
  unfold Crew.mapThread Crew.thread
  by_cases hl : l = 32
  · simp [hl]
  · simp only [hl, if_false]
    exact getD_modify_self _ _ _ _ (h.resolve_left hl)

theorem Crew.thread_mapThread_ne (c : Crew) (l k : Nat) (f : Thread → Thread) (h : l ≠ k) :
    (c.mapThread l f).thread k = c.thread k := by
  unfold Crew.mapThread Crew.thread
  by_cases hl : l = 32
  · have hk : k ≠ 32 := fun e => h (hl.trans e.symm)
    simp [hl, hk]
  · by_cases hk : k = 32
    · simp [hl, hk]
    · simp only [hl, hk, if_false]
      exact getD_modify_ne _ _ _ _ _ h

theorem Crew.length_mapThread (c : Crew) (l : Nat) (f : Thread → Thread) :
    (c.mapThread l f).threads.length = c.threads.length := by
  unfold Crew.mapThread
  split <;> simp

theorem RUnit.crew_mapCrew_self (u : RUnit) (k : Nat) (f : Crew → Crew) (h : k < u.crews.length) :
    (u.mapCrew k f).crew k = f (u.crew k) := getD_modify_self _ _ _ _ h

theorem RUnit.crew_mapCrew_ne (u : RUnit) (k j : Nat) (f : Crew → Crew) (h : k ≠ j) :
    (u.mapCrew k f).crew j = u.crew j := getD_modify_ne _ _ _ _ _ h

/-- The thread that an update changes. -/
theorem thread_mapThread_self {s : State} {t : Tid} (f : Thread → Thread) (h : s.Present t) :
    (s.mapThread t f).thread t = f (s.thread t) := by
  obtain ⟨u, hu, hc, hl⟩ := h
  have e := unit?_mapThread s t f t.uid
  rw [hu, Option.map_some, if_pos (unit?_uid hu)] at e
  simp only [State.thread, State.crew, e, hu]
  rw [RUnit.crew_mapCrew_self _ _ _ hc, Crew.thread_mapThread_self _ _ _ hl]

/-- Every other thread. -/
theorem thread_mapThread_ne (s : State) {t q : Tid} (f : Thread → Thread) (h : q ≠ t) :
    (s.mapThread t f).thread q = s.thread q := by
  simp only [State.thread, State.crew, unit?_mapThread]
  cases hu : s.unit? q.uid with
  | none => rfl
  | some u =>
    simp only [Option.map_some]
    by_cases hid : u.uid = t.uid
    · simp only [hid, if_true]
      by_cases hc : t.crew = q.crew
      · have hl : t.lane ≠ q.lane := by
          intro e
          apply h
          cases t; cases q
          simp_all [unit?_uid hu]
        by_cases hlen : q.crew < u.crews.length
        · rw [hc, RUnit.crew_mapCrew_self _ _ _ hlen, Crew.thread_mapThread_ne _ _ _ _ hl]
        · have : (u.mapCrew t.crew (·.mapThread t.lane f)).crew q.crew = u.crew q.crew := by
            simp [RUnit.crew, RUnit.mapCrew, List.getD_eq_getElem?_getD, hlen]
          rw [this]
      · rw [RUnit.crew_mapCrew_ne _ _ _ _ hc]
    · simp only [hid, if_false]

theorem thread_mapThread {s : State} {t : Tid} (f : Thread → Thread) (h : s.Present t) (q : Tid) :
    (s.mapThread t f).thread q = if q = t then f (s.thread t) else s.thread q := by
  by_cases e : q = t
  · subst e; rw [if_pos rfl, thread_mapThread_self f h]
  · rw [if_neg e, thread_mapThread_ne s f e]

/-- Threads that exist still exist after an update of a thread. -/
theorem present_mapThread {s : State} {q : Tid} (h : s.Present q) (t : Tid) (f : Thread → Thread) : (s.mapThread t f).Present q := by
  obtain ⟨u, hu, hc, hl⟩ := h
  refine ⟨_, by rw [unit?_mapThread, hu]; rfl, ?_, ?_⟩ <;> dsimp only
  · split
    · simpa [RUnit.mapCrew] using hc
    · exact hc
  · refine hl.imp id fun hl => ?_
    split
    · by_cases e : t.crew = q.crew
      · rw [e, RUnit.crew_mapCrew_self _ _ _ hc, Crew.length_mapThread]; exact hl
      · rw [RUnit.crew_mapCrew_ne _ _ _ _ e]; exact hl
    · exact hl

/-! ## What an update of a thread leaves alone -/

theorem Crew.shell_mapThread (c : Crew) (l : Nat) (f : Thread → Thread) : (c.mapThread l f).shell = c.shell := by
  unfold Crew.mapThread Crew.shell
  split <;> rfl

theorem RUnit.shell_mapCrew (u : RUnit) (k : Nat) (f : Crew → Crew) (h : ∀ c, (f c).shell = c.shell) :
    (u.mapCrew k f).shell = u.shell := by
  simp [RUnit.shell, RUnit.mapCrew, map_modify_same _ _ _ _ h]

theorem outside_mapUnit (s : State) (uid : Nat) (f : RUnit → RUnit) (h : ∀ u, (f u).shell = u.shell) :
    (s.mapUnit uid f).outside = s.outside := by
  have hu : ∀ u : RUnit, (if u.uid = uid then f u else u).shell = u.shell := fun u => by split <;> simp [h]
  have hm : ∀ m : Image, (if m.unit.uid = uid then { m with unit := f m.unit } else m) = { m with unit := if m.unit.uid = uid then f m.unit else m.unit } := by
    intro m; split <;> rfl
  simp [State.outside, State.mapUnit, Function.comp_def, hu, hm]

@[simp] theorem outside_mapThread (s : State) (t : Tid) (f : Thread → Thread) : (s.mapThread t f).outside = s.outside :=
  outside_mapUnit s _ _ fun u => RUnit.shell_mapCrew u _ _ fun c => Crew.shell_mapThread c _ f

@[simp] theorem outside_touch (s : State) : s.touch.outside = s.outside := rfl

@[simp] theorem outside_act (s : State) (ctx : Nat) : (s.act ctx).outside = s.outside := rfl

@[simp] theorem outside_actOf (s : State) (uid : Nat) : (s.actOf uid).outside = s.outside := by
  unfold State.actOf; split <;> rfl

@[simp] theorem thread_touch (s : State) (q : Tid) : s.touch.thread q = s.thread q := rfl

@[simp] theorem thread_act (s : State) (ctx : Nat) (q : Tid) : (s.act ctx).thread q = s.thread q := rfl

@[simp] theorem thread_actOf (s : State) (uid : Nat) (q : Tid) : (s.actOf uid).thread q = s.thread q := by
  unfold State.actOf; split <;> rfl

@[simp] theorem thread_setNow (s : State) (c : Clock) (q : Tid) : ({ s with clk := c } : State).thread q = s.thread q := rfl

@[simp] theorem now_mapThread (s : State) (t : Tid) (f : Thread → Thread) : (s.mapThread t f).clk = s.clk := rfl

/-! ## Folds over distinct threads -/

/-- Each of a list of distinct threads changed by its own function. -/
theorem thread_foldl_mapThread (ts : List Tid) (f : Tid → Thread → Thread) :
    ∀ (s : State), ts.Nodup → (∀ q ∈ ts, s.Present q) → ∀ q : Tid,
      (ts.foldl (fun s t => s.mapThread t (f t)) s).thread q = if q ∈ ts then f q (s.thread q) else s.thread q := by
  induction ts with
  | nil => intro s _ _ q; simp
  | cons t ts ih =>
    intro s hn hp q
    simp only [List.foldl_cons]
    rw [ih _ (List.nodup_cons.mp hn).2 (fun r hr => present_mapThread (hp r (List.mem_cons_of_mem _ hr)) t _) q,
      thread_mapThread _ (hp t (List.mem_cons_self ..)) q]
    by_cases e : q = t
    · subst e; simp [(List.nodup_cons.mp hn).1]
    · simp [e]

theorem outside_foldl_mapThread (ts : List Tid) (f : Tid → Thread → Thread) :
    ∀ (s : State), (ts.foldl (fun s t => s.mapThread t (f t)) s).outside = s.outside := by
  induction ts with
  | nil => intro s; rfl
  | cons t ts ih => intro s; simp [ih]

theorem clk_foldl_mapThread (ts : List Tid) (f : Tid → Thread → Thread) :
    ∀ (s : State), (ts.foldl (fun s t => s.mapThread t (f t)) s).clk = s.clk := by
  induction ts with
  | nil => intro s; rfl
  | cons t ts ih => intro s; simp [ih]

theorem present_foldl_mapThread {q : Tid} (ts : List Tid) (f : Tid → Thread → Thread) :
    ∀ (s : State), s.Present q → (ts.foldl (fun s t => s.mapThread t (f t)) s).Present q := by
  induction ts with
  | nil => intro s h; exact h
  | cons t ts ih => intro s h; exact ih _ (present_mapThread h t _)

end Sys2Proof.Machine
end

