-- ==== Sys2Proof/Laws/Issue.lean ====
section
/-! SUPPORT. What the issue of a bundle does: threads that go on, the run of one thread, the settling of a bundle without
traps and faults, and the whole of a bundle that computes (R46, R60). -/

namespace Sys2Proof.Machine

/-! ## Threads that go on -/

theorem stepped_none (s : State) (ts : List Tid) (h : ∀ q ∈ ts, (s.thread q).stepping = none) : s.stepped ts = s := by
  have e : (ts.filterMap fun t => let th := s.thread t; if th.live then th.stepping.map fun h => (t, h) else none) = [] := by
    rw [List.filterMap_eq_nil_iff]
    intro q hq
    simp [h q hq]
  unfold State.stepped
  simp only [e]
  rfl

theorem advance_fold (ts : List Tid) (len now : Nat) : ∀ (s : State), s.clk.now = now →
    ts.foldl (fun s t => s.mapThread t fun th => { th.settled s.clk.now with pc := th.pc + BitVec.ofNat 64 len }) s =
      ts.foldl (fun s t => s.mapThread t fun th => th.past now len) s := by
  induction ts with
  | nil => intro s _; rfl
  | cons t ts ih =>
    intro s h
    simp only [List.foldl_cons]
    subst h
    exact ih _ rfl

theorem settle_fold (ts : List Tid) (now : Nat) : ∀ (s : State), s.clk.now = now →
    ts.foldl (fun s t => s.mapThread t fun th => th.settled s.clk.now) s =
      ts.foldl (fun s t => s.mapThread t fun th => th.settled now) s := by
  induction ts with
  | nil => intro s _; rfl
  | cons t ts ih =>
    intro s h
    simp only [List.foldl_cons]
    subst h
    exact ih _ rfl

@[simp] theorem thread_actFor (s : State) (ts : List Tid) (q : Tid) : (s.actFor ts).thread q = s.thread q := by
  unfold State.actFor; split <;> simp

@[simp] theorem outside_actFor (s : State) (ts : List Tid) : (s.actFor ts).outside = s.outside := by
  unfold State.actFor; split <;> simp

theorem past_stepping (th : Thread) (now len : Nat) : (th.past now len).stepping = th.stepping := rfl

section
variable {s : State} {ts : List Tid} (len : Nat)

/-- Threads that go on to the next instruction. -/
theorem thread_advance (hn : ts.Nodup) (hp : ∀ q ∈ ts, s.Present q) (hs : ∀ q ∈ ts, (s.thread q).stepping = none) (q : Tid) :
    (s.advance ts len).thread q = if q ∈ ts then (s.thread q).past s.clk.now len else s.thread q := by
  unfold State.advance
  rw [advance_fold ts len s.clk.now s rfl, stepped_none, thread_actFor,
    thread_foldl_mapThread ts (fun _ th => th.past s.clk.now len) s hn hp q]
  intro q hq
  rw [thread_foldl_mapThread ts (fun _ th => th.past s.clk.now len) s hn hp q, if_pos hq]
  exact hs q hq

theorem outside_advance (hn : ts.Nodup) (hp : ∀ q ∈ ts, s.Present q) (hs : ∀ q ∈ ts, (s.thread q).stepping = none) :
    (s.advance ts len).outside = s.outside := by
  unfold State.advance
  rw [advance_fold ts len s.clk.now s rfl, stepped_none, outside_actFor,
    outside_foldl_mapThread ts (fun _ th => th.past s.clk.now len) s]
  intro q hq
  rw [thread_foldl_mapThread ts (fun _ th => th.past s.clk.now len) s hn hp q, if_pos hq]
  exact hs q hq

theorem present_actOf {q : Tid} (h : s.Present q) (uid : Nat) : (s.actOf uid).Present q := by
  unfold State.actOf; split <;> exact h

theorem present_actFor {q : Tid} (h : s.Present q) (ts : List Tid) : (s.actFor ts).Present q := by
  unfold State.actFor; split
  · exact h
  · exact present_actOf h _

theorem present_advance (hn : ts.Nodup) (hp : ∀ q ∈ ts, s.Present q) (hs : ∀ q ∈ ts, (s.thread q).stepping = none)
    {q : Tid} (h : s.Present q) : (s.advance ts len).Present q := by
  unfold State.advance
  rw [advance_fold ts len s.clk.now s rfl, stepped_none]
  · exact present_actFor (present_foldl_mapThread ts (fun _ th => th.past s.clk.now len) s h) _
  · intro q hq
    rw [thread_foldl_mapThread ts (fun _ th => th.past s.clk.now len) s hn hp q, if_pos hq]
    exact hs q hq

theorem now_actOf (s : State) (uid : Nat) : (s.actOf uid).clk.now = s.clk.now := by
  unfold State.actOf; split <;> rfl

theorem now_actFor (s : State) (ts : List Tid) : (s.actFor ts).clk.now = s.clk.now := by
  unfold State.actFor; split
  · rfl
  · exact now_actOf _ _

theorem now_advance (hn : ts.Nodup) (hp : ∀ q ∈ ts, s.Present q) (hs : ∀ q ∈ ts, (s.thread q).stepping = none) :
    (s.advance ts len).clk.now = s.clk.now := by
  unfold State.advance
  rw [advance_fold ts len s.clk.now s rfl, stepped_none, now_actFor, clk_foldl_mapThread ts (fun _ th => th.past s.clk.now len) s]
  intro q hq
  rw [thread_foldl_mapThread ts (fun _ th => th.past s.clk.now len) s hn hp q, if_pos hq]
  exact hs q hq

/-- Threads whose PCs an instruction has set. -/
theorem thread_settleAll (hn : ts.Nodup) (hp : ∀ q ∈ ts, s.Present q) (hs : ∀ q ∈ ts, (s.thread q).stepping = none) (q : Tid) :
    (s.settleAll ts).thread q = if q ∈ ts then (s.thread q).settled s.clk.now else s.thread q := by
  unfold State.settleAll
  rw [settle_fold ts s.clk.now s rfl, stepped_none, thread_actFor,
    thread_foldl_mapThread ts (fun _ th => th.settled s.clk.now) s hn hp q]
  intro q hq
  rw [thread_foldl_mapThread ts (fun _ th => th.settled s.clk.now) s hn hp q, if_pos hq]
  exact hs q hq

theorem outside_settleAll (hn : ts.Nodup) (hp : ∀ q ∈ ts, s.Present q) (hs : ∀ q ∈ ts, (s.thread q).stepping = none) :
    (s.settleAll ts).outside = s.outside := by
  unfold State.settleAll
  rw [settle_fold ts s.clk.now s rfl, stepped_none, outside_actFor,
    outside_foldl_mapThread ts (fun _ th => th.settled s.clk.now) s]
  intro q hq
  rw [thread_foldl_mapThread ts (fun _ th => th.settled s.clk.now) s hn hp q, if_pos hq]
  exact hs q hq

end

/-! ## Bundles -/

@[simp] theorem settle_start (s : State) (uid : Nat) : (Run.start s).settle uid = s := rfl

/-- A run without traps and faults settles as it stands. -/
theorem settle_plain (r : Run) (uid : Nat) (ht : r.traps = []) (hf : r.faults = []) : r.settle uid = r.st := by
  unfold Run.settle
  rw [hf, ht]
  rfl

variable {s : State} {i : Instr} {v : View} {u : RUnit} {t : Tid} {ts : List Tid}

/-- An instruction that is no crew-collective, at a bundle where it is legal (R60). -/
theorem issue_plain (h : s.Issues i v u t ts) (hc : v.collective = false) (body : View → Nat → State → List Tid → Run) :
    issue i body s =
      .next ((body v (instrSize i)
        (if (t :: ts).filter (fun q => !v.guard (s.thread q)) = [] then s
         else (s.advance ((t :: ts).filter fun q => !v.guard (s.thread q)) (instrSize i)).touch)
        ((t :: ts).filter fun q => v.guard (s.thread q))).settle u.uid) := by
  unfold issue
  rw [h.bundle, h.view]
  have hp : (v.row.priv && !u.isSystem) = false := by
    cases hr : v.row.priv with
    | false => rfl
    | true => simp [h.allowed hr]
  simp [h.legal, h.legalHere, hp, hc]

/-- The same for one thread alone whose guard holds. -/
theorem issue_lone (h : s.Lone i v u t) (hc : v.collective = false) (body : View → Nat → State → List Tid → Run) :
    issue i body s = .next ((body v (instrSize i) s [t]).settle u.uid) := by
  rw [issue_plain h.issues hc]
  simp [h.guard]

/-- What one thread alone comes to at an instruction of the runner eachThread. -/
theorem eachThread_lone (h : s.Lone i v u t) (len : Nat) (f : View → Body) :
    eachThread f v len s [t] =
      (match f v s s t [t] [t.lane] with
      | .done s' => Run.start ((s'.advance [t] len).touch)
      | .went s' => Run.start ((s'.settleAll [t]).touch)
      | .wait w s' => Run.start (s'.waitAll [t] w)
      | .trap c d => { st := s, traps := [(t, c, d)], faults := [] }
      | .fault x => { st := s, traps := [], faults := [(t, x)] }
      | .failed x s' => { st := s', traps := [], faults := [(t, x)] }) := by
  have hb : v.destBusy (s.thread t) = false := h.dest
  have hr : v.check s t [t.lane] = .ready := h.full
  unfold eachThread
  cases hu : v.x.u
  · simp only [Bool.false_eq_true, if_false, List.map_cons, List.map_nil, List.foldl_cons, List.foldl_nil, Run.one, hr, List.any_cons, hb, List.any_nil, Bool.or_false, Run.start]
    cases f v s s t [t] [t.lane] <;> simp [Run.take, State.waitAll, Run.start]
  · simp only [if_true, List.map_cons, List.map_nil, Run.one, hr, List.any_cons, hb, List.any_nil, Bool.or_false, Bool.false_eq_true, if_false, Run.start]
    cases f v s s t [t] [t.lane] <;> simp [Run.take, State.waitAll, Run.start]

/-- One thread alone at an instruction whose body ends at once. -/
theorem issue_lone_done (h : s.Lone i v u t) (hc : v.collective = false) {f : View → Body} {s' : State}
    (hf : f v s s t [t] [t.lane] = .done s') :
    issue i (eachThread f) s = .next (s'.advance [t] (instrSize i)).touch := by
  rw [issue_lone h hc, eachThread_lone h, hf]
  rfl

/-- One thread alone at an instruction that sets its PC. -/
theorem issue_lone_went (h : s.Lone i v u t) (hc : v.collective = false) {f : View → Body} {s' : State}
    (hf : f v s s t [t] [t.lane] = .went s') :
    issue i (eachThread f) s = .next (s'.settleAll [t]).touch := by
  rw [issue_lone h hc, eachThread_lone h, hf]
  rfl

/-! ## Bundles that compute -/

end Sys2Proof.Machine
end

