-- ==== Sys2Proof/Laws/Compute.lean ====
section
/-! SUPPORT. The bundle of an instruction that computes a result from its sources: what every thread holds afterwards (R46,
R93, R97). -/

namespace Sys2Proof.Machine

/-! ## A result written -/

theorem stepping_writeRegs (k : Nat) : ∀ (th : Thread) (n v : Nat), (th.writeRegs n k v).stepping = th.stepping := by
  induction k with
  | zero => intro th n v; rfl
  | succ k ih => intro th n v; exact ih _ _ _

theorem stepping_setPred (th : Thread) (n : Nat) (b : Bool) : (th.setPred n b).stepping = th.stepping := by
  unfold Thread.setPred; split <;> rfl

theorem stepping_writeD (v : View) (r : Nat) (th : Thread) : (v.writeD r th).stepping = th.stepping := by
  unfold View.writeD
  split
  · exact stepping_writeRegs _ _ _ _
  · exact stepping_setPred _ _ _
  all_goals rfl

theorem stepping_wrote (v : View) (r : Nat × List Nat) (th : Thread) : (v.wrote r th).stepping = th.stepping :=
  stepping_writeD v r.1 th

/-- finish without an enabled flag. -/
theorem finish_done (v : View) (s : State) (t : Tid) (rs : List Tid) (r : Nat × List Nat)
    (h : orAll r.2 &&& s.enables t = 0) :
    finish v s t rs r = .done (rs.foldl (fun s q => s.mapThread q (v.wrote r)) s) := by
  unfold finish
  simp only [h, ne_eq, not_true_eq_false, if_false]
  rfl

/-! ## What a run has come to -/

/-- A run has changed the threads of a list and nothing else but clocks. -/
structure Reached (s0 : State) (r : Run) (f : Tid → Thread) : Prop where
  threads : ∀ q, r.st.thread q = f q
  rest : r.st.outside = s0.outside
  now : r.st.clk.now = s0.clk.now
  present : ∀ q, s0.Present q → r.st.Present q
  traps : r.traps = []
  faults : r.faults = []

variable {s0 : State} {r : Run} {f : Tid → Thread}

/-- Threads get a result and go on. -/
theorem Reached.wrote (h : Reached s0 r f) (v : View) (len : Nat) (x : Nat × List Nat) {rs : List Tid} (hn : rs.Nodup)
    (hp : ∀ q ∈ rs, s0.Present q) (hs : ∀ q ∈ rs, (f q).stepping = none) :
    Reached s0 { r with st := (State.advance (rs.foldl (fun s q => s.mapThread q (v.wrote x)) r.st) rs len).touch }
      (fun q => if q ∈ rs then (v.wrote x (f q)).past s0.clk.now len else f q) := by
  have hp' : ∀ q ∈ rs, r.st.Present q := fun q hq => h.present q (hp q hq)
  have hw := thread_foldl_mapThread rs (fun _ => v.wrote x) r.st hn hp'
  have hs' : ∀ q ∈ rs, ((rs.foldl (fun s q => s.mapThread q (v.wrote x)) r.st).thread q).stepping = none := by
    intro q hq
    rw [hw q, if_pos hq, h.threads, stepping_wrote]
    exact hs q hq
  have hp'' : ∀ q ∈ rs, (rs.foldl (fun s q => s.mapThread q (v.wrote x)) r.st).Present q :=
    fun q hq => present_foldl_mapThread rs (fun _ => v.wrote x) r.st (hp' q hq)
  have hclk := clk_foldl_mapThread rs (fun _ => v.wrote x) r.st
  refine ⟨?_, ?_, ?_, ?_, h.traps, h.faults⟩
  · intro q
    rw [thread_touch, thread_advance len hn hp'' hs' q, hw q, h.threads q, hclk, h.now]
    by_cases e : q ∈ rs <;> simp [e]
  · rw [outside_touch, outside_advance len hn hp'' hs', outside_foldl_mapThread rs (fun _ => v.wrote x) r.st, h.rest]
  · show (State.advance _ rs len).clk.now = _
    rw [now_advance len hn hp'' hs', hclk, h.now]
  · intro q hq
    exact present_advance len hn hp'' hs' (present_foldl_mapThread rs (fun _ => v.wrote x) r.st (h.present q hq))

/-- One thread, or the leader under U = 1, goes through an instruction that computes. -/
theorem Reached.one (h : Reached s0 r f) (v : View) (op : Op3) (len : Nat) (b : State) (act : List Nat) (t : Tid) {rs : List Tid}
    (hready : v.check b t act = .ready) (hdest : ∀ q ∈ rs, v.destBusy (b.thread q) = false) (hn : rs.Nodup)
    (hp : ∀ q ∈ rs, s0.Present q) (hs : ∀ q ∈ rs, (f q).stepping = none)
    (ht : orAll (op (b.thread t) (v.srcA b t act) (v.srcB b t act) (v.srcC b t)).2 &&& r.st.enables t = 0) :
    Reached s0 (r.one v len (compute op v) b act t rs)
      (fun q => if q ∈ rs then (v.wrote (op (b.thread t) (v.srcA b t act) (v.srcB b t act) (v.srcC b t)) (f q)).past s0.clk.now len else f q) := by
  have hb : (rs.any fun q => v.destBusy (b.thread q)) = false := by
    rw [List.any_eq_false]
    intro q hq
    simp [hdest q hq]
  have e : r.one v len (compute op v) b act t rs =
      { r with st := (State.advance (rs.foldl (fun s q => s.mapThread q (v.wrote (op (b.thread t) (v.srcA b t act) (v.srcB b t act) (v.srcC b t)))) r.st) rs len).touch } := by
    unfold Run.one compute
    simp only [hready, hb, Bool.false_eq_true, if_false, finish_done v r.st t rs _ ht]
    rfl
  rw [e]
  exact h.wrote v len _ hn hp hs

theorem enables_of_outside {a b : State} (h : a.outside = b.outside) (t : Tid) : a.enables t = b.enables t := by
  have hc : a.ctxs = b.ctxs := by have := congrArg State.ctxs h; exact this
  have hu : a.units.map RUnit.shell = b.units.map RUnit.shell := by have := congrArg State.units h; exact this
  have key : ∀ (l m : List RUnit), l.map RUnit.shell = m.map RUnit.shell → ∀ k : Nat,
      (l.find? (·.uid == k)).map (·.ctx) = (m.find? (·.uid == k)).map (·.ctx) := by
    intro l
    induction l with
    | nil => intro m hm k; cases m with | nil => rfl | cons _ _ => cases hm
    | cons x l ih =>
      intro m hm k
      cases m with
      | nil => cases hm
      | cons y m =>
        simp only [List.map_cons, List.cons.injEq] at hm
        have hxu : x.uid = y.uid := by have := congrArg RUnit.uid hm.1; exact this
        have hxc : x.ctx = y.ctx := by have := congrArg RUnit.ctx hm.1; exact this
        simp only [List.find?_cons, hxu]
        cases y.uid == k with
        | true => simp [hxc]
        | false => exact ih m hm.2 k
  unfold State.enables
  have hk := key a.units b.units hu t.uid
  unfold State.unit?
  cases ha : a.units.find? (·.uid == t.uid) <;> cases hb : b.units.find? (·.uid == t.uid) <;> simp_all [State.ctx]

/-! ## Operands do not see what other threads do -/

theorem srcA_of_thread {v : View} {a b : State} {t : Tid} (hc : v.collective = false) (h : a.thread t = b.thread t) (act : List Nat) :
    v.srcA a t act = v.srcA b t act := by
  have hm : v.x.modA.cls = .identity := by
    unfold View.collective at hc
    simp only [Bool.or_eq_false_iff, bne_eq_false_iff_eq] at hc
    exact hc.1.2
  simp [View.srcA, sourceOf, hm, h]

theorem srcB_of_thread {v : View} {a b : State} {t : Tid} (hc : v.collective = false) (h : a.thread t = b.thread t) (act : List Nat) :
    v.srcB a t act = v.srcB b t act := by
  have hm : v.x.modB.cls = .identity := by
    unfold View.collective at hc
    simp only [Bool.or_eq_false_iff, bne_eq_false_iff_eq] at hc
    exact hc.2
  unfold View.srcB
  cases v.x.b <;> simp [sourceOf, hm, h]

theorem srcC_of_thread {v : View} {a b : State} {t : Tid} (h : a.thread t = b.thread t) : v.srcC a t = v.srcC b t := by
  simp [View.srcC, h]

theorem reads_lane {v : View} (hc : v.collective = false) {lane : Nat} {act : List Nat} {x : Read} (hx : x ∈ v.reads lane act) :
    x.lane = lane := by
  unfold View.collective at hc
  simp only [Bool.or_eq_false_iff, bne_eq_false_iff_eq] at hc
  have key : ∀ (src : Nat) (k : Kind) (n : Nat) (fe : Bool) (m : LaneMod), m.cls = .identity → x ∈ readsOf src k n fe m lane act → x.lane = lane := by
    intro src k n fe m hm hx
    unfold readsOf at hx
    cases k <;> simp [hm] at hx
    exact hx ▸ rfl
  unfold View.reads at hx
  simp only [List.mem_append] at hx
  rcases hx with ((hx | hx) | hx) | hx
  · exact key _ _ _ _ _ hc.1.2 hx
  · split at hx
    · split at hx
      · simp at hx
      · exact key _ _ _ _ _ hc.2 hx
    · simp at hx
  · exact key _ _ _ _ _ rfl hx
  · split at hx
    · exact key _ _ _ _ _ rfl hx
    · simp at hx

theorem check_of_thread {v : View} {a b : State} {t : Tid} (hc : v.collective = false) (h : a.thread t = b.thread t) (act : List Nat) :
    v.check a t act = v.check b t act := by
  have e : (v.reads t.lane act).filter (fun r => (a.thread { t with lane := r.lane }).anyEmpty r.reg r.count) =
      (v.reads t.lane act).filter (fun r => (b.thread { t with lane := r.lane }).anyEmpty r.reg r.count) := by
    apply List.filter_congr
    intro x hx
    rw [reads_lane hc hx, show ({ t with lane := t.lane } : Tid) = t from rfl, h]
  unfold View.check
  rw [e]

/-! ## The bundle -/

/-- What a thread of a bundle reads its operands from: itself, or the lowest active thread under U = 1 (R46). -/
theorem eachThread_compute {v : View} (op : Op3) (len : Nat) (s : State) (act : List Tid) (hn : act.Nodup)
    (hp : ∀ q ∈ act, s.Present q) (hs : ∀ q ∈ act, (s.thread q).stepping = none)
    (hready : ∀ q ∈ act, v.check s (v.reader act q) (act.map (·.lane)) = .ready)
    (hdest : ∀ q ∈ act, v.destBusy (s.thread q) = false)
    (ht : ∀ q ∈ act, orAll (v.resultOf op s act q).2 &&& s.enables (v.reader act q) = 0) :
    Reached s (eachThread (compute op) v len s act)
      (fun q => if q ∈ act then (v.wrote (v.resultOf op s act q) (s.thread q)).past s.clk.now len else s.thread q) := by
  have start : Reached s (Run.start s) s.thread := ⟨fun _ => rfl, rfl, rfl, fun _ h => h, rfl, rfl⟩
  unfold eachThread
  cases hu : v.x.u with
  | true =>
    simp only [if_true]
    cases act with
    | nil => simpa using start
    | cons t ts =>
      have hr : ∀ q, v.reader (t :: ts) q = t := fun q => by simp [View.reader, hu]
      have ho : ∀ q, v.resultOf op s (t :: ts) q = op (s.thread t) (v.srcA s t ((t :: ts).map (·.lane))) (v.srcB s t ((t :: ts).map (·.lane))) (v.srcC s t) := by
        intro q; simp only [View.resultOf, hr]
      have h1 := start.one v op len s ((t :: ts).map (·.lane)) t (rs := t :: ts) (by have := hready t (by simp); rwa [hr] at this) hdest hn hp hs
        (by have := ht t (by simp); rwa [hr, ho] at this)
      simp only [ho]
      exact h1
  | false =>
    simp only [Bool.false_eq_true, if_false]
    have hr : ∀ q, v.reader act q = q := fun q => by simp [View.reader, hu]
    have ho : ∀ q, v.resultOf op s act q = op (s.thread q) (v.srcA s q (act.map (·.lane))) (v.srcB s q (act.map (·.lane))) (v.srcC s q) := by
      intro q; simp only [View.resultOf, hr]
    simp only [hr, ho] at hready ht ⊢
    generalize hlanes : act.map (·.lane) = lanes at *
    clear hlanes
    have main : ∀ (ts : List Tid) (r : Run) (done : List Tid), ts.Nodup → (∀ q ∈ ts, q ∉ done) → (∀ q ∈ ts, q ∈ act) →
        Reached s r (fun q => if q ∈ done then (v.wrote (op (s.thread q) (v.srcA s q lanes) (v.srcB s q lanes) (v.srcC s q)) (s.thread q)).past s.clk.now len else s.thread q) →
        Reached s (ts.foldl (fun r t => r.one v len (compute op v) s lanes t [t]) r)
          (fun q => if q ∈ ts ∨ q ∈ done then (v.wrote (op (s.thread q) (v.srcA s q lanes) (v.srcB s q lanes) (v.srcC s q)) (s.thread q)).past s.clk.now len else s.thread q) := by
      intro ts
      induction ts with
      | nil => intro r done _ _ _ h; simpa using h
      | cons t ts ih =>
        intro r done hn hd ha h
        have hta : t ∈ act := ha t (by simp)
        have htd : t ∉ done := hd t (by simp)
        have h1 := h.one v op len s lanes t (rs := [t]) (hready t hta) (by simpa using hdest t hta) (by simp) (by simpa using hp t hta)
          (by intro q hq; simp only [List.mem_singleton] at hq; subst hq; simp only [htd, if_false]; exact hs _ hta)
          (by rw [enables_of_outside h.rest]; exact ht t hta)
        have h2 := ih _ (t :: done) (List.nodup_cons.mp hn).2
          (by intro q hq hm; rcases List.mem_cons.mp hm with e | e; exact (List.nodup_cons.mp hn).1 (e ▸ hq); exact hd q (by simp [hq]) e)
          (fun q hq => ha q (by simp [hq]))
          (by
            have e : (fun q => if q ∈ [t] then (v.wrote (op (s.thread t) (v.srcA s t lanes) (v.srcB s t lanes) (v.srcC s t)) (if q ∈ done then (v.wrote (op (s.thread q) (v.srcA s q lanes) (v.srcB s q lanes) (v.srcC s q)) (s.thread q)).past s.clk.now len else s.thread q)).past s.clk.now len else (if q ∈ done then (v.wrote (op (s.thread q) (v.srcA s q lanes) (v.srcB s q lanes) (v.srcC s q)) (s.thread q)).past s.clk.now len else s.thread q)) =
                (fun q => if q ∈ t :: done then (v.wrote (op (s.thread q) (v.srcA s q lanes) (v.srcB s q lanes) (v.srcC s q)) (s.thread q)).past s.clk.now len else s.thread q) := by
              funext q
              by_cases e : q = t
              · subst e; simp [htd]
              · simp [e]
            rw [← e]; exact h1)
        simp only [List.foldl_cons]
        have e : (fun q => if q ∈ t :: ts ∨ q ∈ done then (v.wrote (op (s.thread q) (v.srcA s q lanes) (v.srcB s q lanes) (v.srcC s q)) (s.thread q)).past s.clk.now len else s.thread q) =
            (fun q => if q ∈ ts ∨ q ∈ t :: done then (v.wrote (op (s.thread q) (v.srcA s q lanes) (v.srcB s q lanes) (v.srcC s q)) (s.thread q)).past s.clk.now len else s.thread q) := by
          funext q
          by_cases e : q = t <;> simp [e]
        rw [e]; exact h2
    have := main act (Run.start s) [] hn (by simp) (fun _ h => h) (by simpa using start)
    simpa using this

/-- A computing instruction at a bundle: the active threads get their results, and every thread of the bundle goes on. -/
theorem alu_becomes {s : State} {i : Instr} {v : View} {u : RUnit} {t : Tid} {ts : List Tid} (h : s.Issues i v u t ts)
    (hc : v.collective = false) (op : View → Op3)
    (hready : ∀ q ∈ s.active v (t :: ts), v.check s (v.reader (s.active v (t :: ts)) q) ((s.active v (t :: ts)).map (·.lane)) = .ready)
    (hdest : ∀ q ∈ s.active v (t :: ts), v.destBusy (s.thread q) = false)
    (ht : ∀ q ∈ s.active v (t :: ts), orAll (v.resultOf (op v) s (s.active v (t :: ts)) q).2 &&& s.enables (v.reader (s.active v (t :: ts)) q) = 0) :
    ∃ s', issue i (eachThread fun v => compute (op v) v) s = .next s' ∧
      s.Becomes s' (fun q =>
        if q ∈ s.active v (t :: ts) then (v.wrote (v.resultOf (op v) s (s.active v (t :: ts)) q) (s.thread q)).past s.clk.now (instrSize i)
        else if q ∈ t :: ts then (s.thread q).past s.clk.now (instrSize i)
        else s.thread q) := by
  generalize hact : s.active v (t :: ts) = act at *
  have hsub : ∀ q ∈ act, q ∈ t :: ts := by
    intro q hq; rw [← hact] at hq; exact (List.mem_filter.mp hq).1
  have hnact : act.Nodup := by rw [← hact]; exact h.distinct.filter _
  rw [issue_plain h hc]
  have hfil : (t :: ts).filter (fun q => v.guard (s.thread q)) = act := hact
  rw [hfil]
  generalize hoff : (t :: ts).filter (fun q => !v.guard (s.thread q)) = off
  have hoffs : ∀ q ∈ off, q ∈ t :: ts := by
    intro q hq; rw [← hoff] at hq; exact (List.mem_filter.mp hq).1
  have hnoff : off.Nodup := by rw [← hoff]; exact h.distinct.filter _
  have hdis : ∀ q ∈ act, q ∉ off := by
    intro q hq ho
    rw [← hact] at hq; rw [← hoff] at ho
    have h1 := (List.mem_filter.mp hq).2
    have h2 := (List.mem_filter.mp ho).2
    simp [h1] at h2
  have hall : ∀ q, q ∈ t :: ts ↔ q ∈ act ∨ q ∈ off := by
    intro q
    constructor
    · intro hq
      cases hg : v.guard (s.thread q) with
      | true => left; rw [← hact]; exact List.mem_filter.mpr ⟨hq, hg⟩
      | false => right; rw [← hoff]; exact List.mem_filter.mpr ⟨hq, by simp [hg]⟩
    · intro hq; exact hq.elim (hsub q) (hoffs q)
  -- the state after the threads whose guard fails have gone on
  have hmid : ∃ m : State, (if off = [] then s else (s.advance off (instrSize i)).touch) = m ∧
      (∀ q, m.thread q = if q ∈ off then (s.thread q).past s.clk.now (instrSize i) else s.thread q) ∧ m.outside = s.outside ∧
      m.clk.now = s.clk.now ∧ (∀ q, s.Present q → m.Present q) := by
    by_cases e : off = []
    · exact ⟨s, by simp [e], by simp [e], rfl, rfl, fun _ h => h⟩
    · have hp := fun q hq => h.present q (hoffs q hq)
      have hr := fun q hq => h.running q (hoffs q hq)
      refine ⟨(s.advance off (instrSize i)).touch, by simp [e], ?_, ?_, ?_, ?_⟩
      · intro q; rw [thread_touch, thread_advance _ hnoff hp hr]
      · rw [outside_touch, outside_advance _ hnoff hp hr]
      · exact now_advance _ hnoff hp hr
      · intro q hq; exact present_advance _ hnoff hp hr hq
  obtain ⟨m, hm, hth, hout, hnow, hpres⟩ := hmid
  rw [hm]
  have hsame : ∀ q ∈ act, m.thread q = s.thread q := fun q hq => by rw [hth q, if_neg (hdis q hq)]
  have hreader : ∀ q ∈ act, v.reader act q ∈ act := by
    intro q hq
    unfold View.reader
    split
    · cases act with
      | nil => cases hq
      | cons a as => simp
    · exact hq
  have hres : ∀ q ∈ act, v.resultOf (op v) m act q = v.resultOf (op v) s act q := by
    intro q hq
    have e := hsame _ (hreader q hq)
    simp only [View.resultOf, e, srcA_of_thread hc e, srcB_of_thread hc e, srcC_of_thread e]
  have hrun := eachThread_compute (v := v) (op v) (instrSize i) m act hnact (fun q hq => hpres q (h.present q (hsub q hq)))
    (fun q hq => by rw [hsame q hq]; exact h.running q (hsub q hq))
    (fun q hq => by rw [check_of_thread hc (hsame _ (hreader q hq))]; exact hready q hq)
    (fun q hq => by rw [hsame q hq]; exact hdest q hq)
    (fun q hq => by rw [hres q hq, enables_of_outside hout]; exact ht q hq)
  have e : eachThread (fun v => compute (op v) v) v (instrSize i) m act = eachThread (compute (op v)) v (instrSize i) m act := rfl
  rw [e, settle_plain _ _ hrun.traps hrun.faults]
  refine ⟨_, rfl, ⟨?_, ?_⟩⟩
  · intro q
    congr 1
    rw [hrun.threads q]
    by_cases ha : q ∈ act
    · simp only [ha, if_true, hres q ha, hsame q ha, hnow]
    · simp only [ha, if_false, hth q]
      by_cases ho : q ∈ off
      · simp [ho, hoffs q ho]
      · have : q ∉ t :: ts := fun hq => ((hall q).mp hq).elim ha ho
        simp [ho, this]
  · rw [hrun.rest, hout]

end Sys2Proof.Machine
end

