-- ==== Sys2Proof/Laws/Memory.lean ====
section
/-! SUPPORT. The laws of memory as a list of cells: what a read gives after a write, that every memory operation keeps the
canonical form, and that canonical memories which read alike are equal. -/

namespace Sys2Proof.Machine

/-! ## The canonical form -/

/-- A canonical memory with all addresses above a. -/
def Memory.above (a : Nat) (m : List Host.Cell) : Prop := ∀ c ∈ m, a < c.1

theorem Memory.wf_cons (c : Host.Cell) (m : List Host.Cell) :
    Memory.wf (c :: m) = true ↔ c.2 ≠ 0 ∧ Memory.above c.1 m ∧ Memory.wf m = true := by
  induction m generalizing c with
  | nil => simp [Memory.wf, Memory.above]
  | cons d m ih =>
    have := ih d
    simp only [Memory.wf, Bool.and_eq_true, bne_iff_ne, decide_eq_true_eq, this, Memory.above, List.mem_cons, forall_eq_or_imp]
    constructor
    · rintro ⟨⟨h0, h1⟩, h2, h3, h4⟩
      exact ⟨h0, ⟨h1, fun e he => lt_trans h1 (h3 e he)⟩, h2, h3, h4⟩
    · rintro ⟨h0, ⟨h1, _⟩, h2, h3, h4⟩
      exact ⟨⟨h0, h1⟩, h2, h3, h4⟩

theorem mem_cellPut {a : Nat} {b : Byte} {m : List Host.Cell} {c : Host.Cell} (h : c ∈ cellPut a b m) : c = (a, b) ∨ c ∈ m := by
  induction m with
  | nil =>
    unfold cellPut at h
    split at h
    · exact .inr h
    · exact .inl (List.mem_singleton.1 h)
  | cons d m ih =>
    unfold cellPut at h
    split_ifs at h
    · exact .inr h
    · exact List.mem_cons.1 h
    · exact .inr (List.mem_cons_of_mem _ h)
    · exact (List.mem_cons.1 h).imp_right (List.mem_cons_of_mem _)
    · rcases List.mem_cons.1 h with h | h
      · exact .inr (h ▸ List.mem_cons_self)
      · exact (ih h).imp_right (List.mem_cons_of_mem _)

theorem Memory.above_cellPut {a k : Nat} (b : Byte) {m : List Host.Cell} (hk : k < a) (h : Memory.above k m) :
    Memory.above k (cellPut a b m) := fun e he => by
  rcases mem_cellPut he with rfl | he
  · exact hk
  · exact h e he

/-- A write of one byte keeps the canonical form. -/
theorem wf_cellPut (a : Nat) (b : Byte) {m : List Host.Cell} (h : Memory.wf m = true) : Memory.wf (cellPut a b m) = true := by
  induction m with
  | nil => unfold cellPut; split <;> simp_all [Memory.wf]
  | cons c m ih =>
    obtain ⟨k, v⟩ := c
    obtain ⟨hv, ha, hm⟩ := (Memory.wf_cons _ _).1 h
    unfold cellPut
    split_ifs with h1 h2 h3 h4
    · exact h
    · exact (Memory.wf_cons _ _).2 ⟨h2, by
        intro e he
        rcases List.mem_cons.1 he with rfl | he
        · exact h1
        · exact lt_trans h1 (ha e he), h⟩
    · exact hm
    · exact (Memory.wf_cons _ _).2 ⟨h4, by rw [h3]; exact ha, hm⟩
    · exact (Memory.wf_cons _ _).2 ⟨hv, Memory.above_cellPut b (by show k < a; omega) ha, ih hm⟩

/-- A write of any bytes keeps the canonical form. -/
theorem wf_cellsPut (bs : List Byte) : ∀ (a : Nat) {m : List Host.Cell}, Memory.wf m = true → Memory.wf (cellsPut m a bs) = true := by
  induction bs with
  | nil => exact fun _ _ h => h
  | cons b bs ih => exact fun a _ h => ih (a + 1) (wf_cellPut a b h)

theorem Memory.wf_filter (p : Host.Cell → Bool) {m : List Host.Cell} (h : Memory.wf m = true) : Memory.wf (m.filter p) = true := by
  induction m with
  | nil => exact h
  | cons c m ih =>
    obtain ⟨hv, ha, hm⟩ := (Memory.wf_cons _ _).1 h
    rw [List.filter_cons]
    split
    · exact (Memory.wf_cons _ _).2 ⟨hv, fun e he => ha e (List.mem_filter.1 he).1, ih hm⟩
    · exact ih hm

theorem wf_clearCells {m : List Host.Cell} (h : Memory.wf m = true) (a n : Nat) : Memory.wf (clearCells m a n) = true :=
  Memory.wf_filter _ h

theorem wf_foldl_cellPut {α : Type} (f : α → Nat) (g : α → Byte) (l : List α) :
    ∀ {m : List Host.Cell}, Memory.wf m = true → Memory.wf (l.foldl (fun r c => cellPut (f c) (g c) r) m) = true := by
  induction l with
  | nil => exact fun h => h
  | cons c l ih => exact fun h => ih (wf_cellPut _ _ h)

theorem wf_moveCells (m : List Host.Cell) (a n d : Nat) {r : List Host.Cell} (h : Memory.wf r = true) :
    Memory.wf (moveCells m a n d r) = true :=
  wf_foldl_cellPut (α := Host.Cell) (fun c => c.1 - a + d) (fun c => c.2) _ h

/-! ## Reads after writes -/

theorem cellGet_above {a k : Nat} {m : List Host.Cell} (h : Memory.above k m) (ha : a ≤ k) : cellGet m a = 0 := by
  cases m with
  | nil => rfl
  | cons c m =>
    have : k < c.1 := h c (by simp)
    unfold cellGet
    rw [if_neg (by omega), if_pos (by omega)]

/-- A read after a write of one byte to a canonical memory: the byte written there, what was there before elsewhere. -/
theorem cellGet_cellPut (a x : Nat) (b : Byte) {m : List Host.Cell} (h : Memory.wf m = true) :
    cellGet (cellPut a b m) x = if x = a then b else cellGet m x := by
  induction m with
  | nil =>
    unfold cellPut
    split_ifs <;> simp_all [cellGet]
  | cons c m ih =>
    obtain ⟨k, v⟩ := c
    obtain ⟨-, ha, hm⟩ := (Memory.wf_cons _ _).1 h
    have hka : ∀ y, y ≤ k → cellGet m y = 0 := fun y hy => cellGet_above ha hy
    have hk : cellGet m k = 0 := cellGet_above ha le_rfl
    unfold cellPut
    rcases lt_trichotomy a k with h1 | h1 | h1
    · rw [if_pos h1]
      by_cases hb : b = 0
      · rw [if_pos hb]
        by_cases hx : x = a
        · subst hx
          rw [if_pos rfl, hb]
          simp only [cellGet, if_neg (by omega : ¬ x = k), if_pos h1]
        · rw [if_neg hx]
      · rw [if_neg hb, cellGet]
        by_cases hx : x = a
        · rw [if_pos hx, if_pos hx]
        · rw [if_neg hx, if_neg hx]
          by_cases hl : x < a
          · rw [if_pos hl, cellGet, if_neg (by omega), if_pos (by omega)]
          · rw [if_neg hl]
    · subst h1
      rw [if_neg (lt_irrefl a), if_pos rfl]
      by_cases hb : b = 0
      · rw [if_pos hb]
        by_cases hx : x = a
        · rw [if_pos hx, hx, hk, hb]
        · rw [if_neg hx, cellGet, if_neg hx]
          by_cases hl : x < a
          · rw [if_pos hl, hka x (by omega)]
          · rw [if_neg hl]
      · rw [if_neg hb, cellGet, cellGet]
        by_cases hx : x = a
        · rw [if_pos hx, if_pos hx]
        · rw [if_neg hx, if_neg hx, if_neg hx]
    · rw [if_neg (by omega), if_neg (by omega), cellGet, cellGet, ih hm]
      by_cases hx : x = a
      · rw [if_neg (by omega), if_neg (by omega), if_pos hx, if_pos hx]
      · rw [if_neg hx, if_neg hx]

theorem cellGet_cellsPut_out (bs : List Byte) : ∀ (a x : Nat) {m : List Host.Cell}, Memory.wf m = true →
    x < a ∨ a + bs.length ≤ x → cellGet (cellsPut m a bs) x = cellGet m x := by
  induction bs with
  | nil => exact fun _ _ _ _ _ => rfl
  | cons b bs ih =>
    intro a x m h hx
    simp only [List.length_cons] at hx
    rw [cellsPut, ih (a + 1) x (wf_cellPut a b h) (by omega), cellGet_cellPut a x b h, if_neg (by omega)]

theorem cellGet_cellsPut_in (bs : List Byte) : ∀ (a k : Nat) {m : List Host.Cell}, Memory.wf m = true → k < bs.length →
    cellGet (cellsPut m a bs) (a + k) = bs.getD k 0 := by
  induction bs with
  | nil => intro a k m _ hk; simp at hk
  | cons b bs ih =>
    intro a k m h hk
    cases k with
    | zero =>
      rw [cellsPut, cellGet_cellsPut_out bs (a + 1) (a + 0) (wf_cellPut a b h) (by omega), cellGet_cellPut a (a + 0) b h]
      simp
    | succ k =>
      have := ih (a + 1) k (m := cellPut a b m) (wf_cellPut a b h) (by simpa using hk)
      rw [cellsPut, show a + (k + 1) = a + 1 + k by omega, this]
      simp

/-- n bytes read back where they were written. -/
theorem cellsGet_cellsPut (bs : List Byte) : ∀ (a : Nat) {m : List Host.Cell}, Memory.wf m = true →
    cellsGet (cellsPut m a bs) a bs.length = bs := by
  induction bs with
  | nil => exact fun _ _ _ => rfl
  | cons b bs ih =>
    intro a m h
    have h0 := cellGet_cellsPut_in (b :: bs) a 0 h (by simp)
    simp only [List.length_cons, cellsGet]
    rw [show cellGet (cellsPut m a (b :: bs)) a = b by simpa using h0, cellsPut, ih (a + 1) (wf_cellPut a b h)]

/-- Canonical memories that read alike are equal. -/
theorem Memory.ext {m m' : List Host.Cell} (h : Memory.wf m = true) (h' : Memory.wf m' = true)
    (e : ∀ a, cellGet m a = cellGet m' a) : m = m' := by
  induction m generalizing m' with
  | nil =>
    cases m' with
    | nil => rfl
    | cons c m' =>
      obtain ⟨hv, -, -⟩ := (Memory.wf_cons _ _).1 h'
      exact absurd (by simpa [cellGet] using (e c.1).symm) hv
  | cons c m ih =>
    obtain ⟨k, v⟩ := c
    obtain ⟨hv, ha, hm⟩ := (Memory.wf_cons _ _).1 h
    cases m' with
    | nil => exact absurd (by simpa [cellGet] using e k) hv
    | cons d m' =>
      obtain ⟨k', v'⟩ := d
      obtain ⟨hv', ha', hm'⟩ := (Memory.wf_cons _ _).1 h'
      have hk : k = k' := by
        rcases lt_trichotomy k k' with hl | hl | hl
        · have := e k
          simp only [cellGet, if_true, if_neg (by omega : ¬ k = k'), if_pos hl] at this
          exact absurd this hv
        · exact hl
        · have := e k'
          simp only [cellGet, if_true, if_neg (by omega : ¬ k' = k), if_pos hl] at this
          exact absurd this.symm hv'
      subst hk
      have hvv : v = v' := by simpa [cellGet] using e k
      subst hvv
      rw [ih hm hm' fun a => by
        rcases Nat.lt_or_ge k a with hl | hl
        · have := e a
          simpa only [cellGet, if_neg (by omega : ¬ a = k), if_neg (by omega : ¬ a < k)] using this
        · rw [cellGet_above ha hl, cellGet_above ha' hl]]

/-! ## The operations of the machine on its memories -/

theorem State.Canonical.writeMem {s : State} (h : s.Canonical) (pa : Nat) (bs : List Byte) (p : Path) (t : Option Tid) :
    (s.writeMem pa bs p t).Canonical :=
  ⟨wf_cellsPut bs pa h.mem, h.vaults⟩

theorem State.Canonical.writeVault {s : State} (h : s.Canonical) (a : Nat) (bs : List Byte) (p : Path) (t : Option Tid) :
    (s.writeVault a bs p t).Canonical :=
  ⟨h.mem, wf_cellsPut bs a h.vaults⟩

theorem State.Canonical.writeOwnLocal {s : State} (h : s.Canonical) (uid a : Nat) (bs : List Byte) (p : Path) (t : Option Tid) :
    (s.writeOwnLocal uid a bs p t).Canonical :=
  ⟨h.mem, h.vaults⟩

/-- A state with the same memories is canonical with the other. -/
theorem State.Canonical.of_eq {s r : State} (h : s.Canonical) (hm : r.mem = s.mem) (hv : r.vaults = s.vaults) : r.Canonical :=
  ⟨by rw [hm]; exact h.mem, by rw [hv]; exact h.vaults⟩

theorem State.Canonical.undo (uid : Nat) : ∀ (l : List (LineKey × Nat × List Byte)) {s : State}, s.Canonical → (s.undo uid l).Canonical := by
  intro l
  induction l with
  | nil => exact fun h => h
  | cons k l ih =>
    intro s h
    unfold State.undo
    apply ih
    split
    · exact ⟨h.mem, h.vaults⟩
    · exact ⟨h.mem, wf_cellsPut _ _ h.vaults⟩
    · exact h

theorem wf_foldl_cellsPut {α : Type} (f : α → Nat) (g : α → List Byte) (l : List α) :
    ∀ {m : List Host.Cell}, Memory.wf m = true → Memory.wf (l.foldl (fun r c => cellsPut r (f c) (g c)) m) = true := by
  induction l with
  | nil => exact fun h => h
  | cons c l ih => exact fun h => ih (wf_cellsPut _ _ h)

/-- A loop whose every round keeps a property keeps it. -/
theorem foldl_keeps {α β : Type} (P : β → Prop) (f : β → α → β) (hf : ∀ s x, P s → P (f s x)) (l : List α) :
    ∀ s, P s → P (l.foldl f s) := by
  induction l with
  | nil => exact fun _ h => h
  | cons x l ih => exact fun s h => ih _ (hf s x h)

theorem State.Canonical.writeCheckpoint {s : State} (h : s.Canonical) (addr : Nat) : (s.writeCheckpoint addr).Canonical := by
  refine ⟨?_, h.vaults⟩
  apply wf_moveCells
  exact wf_foldl_cellsPut (α := Nat × Nat) (fun q => addr + q.1 * 128) _ _ (wf_moveCells _ _ _ _ (wf_clearCells h.mem _ _))

/-- A line taken under a key pair, of whatever domain, keeps the form (R484). -/
theorem State.Canonical.underKey {s : State} (h : s.Canonical) (line key : Nat) : (s.underKey line key).Canonical := by
  unfold State.underKey
  split
  · exact h
  · exact ⟨wf_cellsPut _ _ h.mem, h.vaults⟩

theorem State.Canonical.recipher {s : State} (h : s.Canonical) : s.recipher.Canonical := by
  unfold State.recipher
  split
  · exact h
  · exact foldl_keeps State.Canonical _ (fun _ q h => h.underKey _ _) _ _ h

theorem State.Canonical.readCheckpoint {s : State} (h : s.Canonical) (addr : Nat) : (s.readCheckpoint addr).Canonical := by
  unfold State.readCheckpoint
  have h0 := foldl_keeps State.Canonical (fun s (q : Nat × Nat) => s.underKey q.1 0) (fun _ _ h => h.underKey _ _)
    (s.lineKeys.filter fun q => lineIn addr (dramSize + vaultSize) q.1) s h
  dsimp only
  split <;> exact ⟨wf_moveCells _ _ _ _ (wf_clearCells h0.mem _ _), wf_moveCells _ _ _ _ rfl⟩

theorem State.Canonical.reset : State.reset.Canonical := ⟨rfl, rfl⟩

end Sys2Proof.Machine
end

