-- ==== Sys2Proof/Laws/State.lean ====
section
/-! SUPPORT. What each field of the state reads after each named update of it: one lemma a field and update. -/

namespace Sys2Proof.Machine

/-! ## mapUnit -/

@[simp] theorem State.mapUnit_sched (s : State) (uid : Nat) (f : RUnit → RUnit) : (s.mapUnit uid f).sched = s.sched := rfl
@[simp] theorem State.mapUnit_clk (s : State) (uid : Nat) (f : RUnit → RUnit) : (s.mapUnit uid f).clk = s.clk := rfl
@[simp] theorem State.mapUnit_ctxs (s : State) (uid : Nat) (f : RUnit → RUnit) : (s.mapUnit uid f).ctxs = s.ctxs := rfl
@[simp] theorem State.mapUnit_mem (s : State) (uid : Nat) (f : RUnit → RUnit) : (s.mapUnit uid f).mem = s.mem := rfl
@[simp] theorem State.mapUnit_vaults (s : State) (uid : Nat) (f : RUnit → RUnit) : (s.mapUnit uid f).vaults = s.vaults := rfl
@[simp] theorem State.mapUnit_lineKeys (s : State) (uid : Nat) (f : RUnit → RUnit) : (s.mapUnit uid f).lineKeys = s.lineKeys := rfl
@[simp] theorem State.mapUnit_hist (s : State) (uid : Nat) (f : RUnit → RUnit) : (s.mapUnit uid f).hist = s.hist := rfl
@[simp] theorem State.mapUnit_flaws (s : State) (uid : Nat) (f : RUnit → RUnit) : (s.mapUnit uid f).flaws = s.flaws := rfl
@[simp] theorem State.mapUnit_caches (s : State) (uid : Nat) (f : RUnit → RUnit) : (s.mapUnit uid f).caches = s.caches := rfl
@[simp] theorem State.mapUnit_txns (s : State) (uid : Nat) (f : RUnit → RUnit) : (s.mapUnit uid f).txns = s.txns := rfl
@[simp] theorem State.mapUnit_ops (s : State) (uid : Nat) (f : RUnit → RUnit) : (s.mapUnit uid f).ops = s.ops := rfl
@[simp] theorem State.mapUnit_commits (s : State) (uid : Nat) (f : RUnit → RUnit) : (s.mapUnit uid f).commits = s.commits := rfl
@[simp] theorem State.mapUnit_grades (s : State) (uid : Nat) (f : RUnit → RUnit) : (s.mapUnit uid f).grades = s.grades := rfl
@[simp] theorem State.mapUnit_work (s : State) (uid : Nat) (f : RUnit → RUnit) : (s.mapUnit uid f).work = s.work := rfl
@[simp] theorem State.mapUnit_records (s : State) (uid : Nat) (f : RUnit → RUnit) : (s.mapUnit uid f).records = s.records := rfl
@[simp] theorem State.mapUnit_sys (s : State) (uid : Nat) (f : RUnit → RUnit) : (s.mapUnit uid f).sys = s.sys := rfl
@[simp] theorem State.mapUnit_ecnt (s : State) (uid : Nat) (f : RUnit → RUnit) : (s.mapUnit uid f).ecnt = s.ecnt := rfl
@[simp] theorem State.mapUnit_shoots (s : State) (uid : Nat) (f : RUnit → RUnit) : (s.mapUnit uid f).shoots = s.shoots := rfl
@[simp] theorem State.mapUnit_outbox (s : State) (uid : Nat) (f : RUnit → RUnit) : (s.mapUnit uid f).outbox = s.outbox := rfl
@[simp] theorem State.mapUnit_fabric (s : State) (uid : Nat) (f : RUnit → RUnit) : (s.mapUnit uid f).fabric = s.fabric := rfl
@[simp] theorem State.mapUnit_draft (s : State) (uid : Nat) (f : RUnit → RUnit) : (s.mapUnit uid f).draft = s.draft := rfl
@[simp] theorem State.mapUnit_host (s : State) (uid : Nat) (f : RUnit → RUnit) : (s.mapUnit uid f).host = s.host := rfl

/-! ## mapCrew -/

@[simp] theorem State.mapCrew_sched (s : State) (uid c : Nat) (f : Crew → Crew) : (s.mapCrew uid c f).sched = s.sched := rfl
@[simp] theorem State.mapCrew_clk (s : State) (uid c : Nat) (f : Crew → Crew) : (s.mapCrew uid c f).clk = s.clk := rfl
@[simp] theorem State.mapCrew_ctxs (s : State) (uid c : Nat) (f : Crew → Crew) : (s.mapCrew uid c f).ctxs = s.ctxs := rfl
@[simp] theorem State.mapCrew_mem (s : State) (uid c : Nat) (f : Crew → Crew) : (s.mapCrew uid c f).mem = s.mem := rfl
@[simp] theorem State.mapCrew_vaults (s : State) (uid c : Nat) (f : Crew → Crew) : (s.mapCrew uid c f).vaults = s.vaults := rfl
@[simp] theorem State.mapCrew_lineKeys (s : State) (uid c : Nat) (f : Crew → Crew) : (s.mapCrew uid c f).lineKeys = s.lineKeys := rfl
@[simp] theorem State.mapCrew_hist (s : State) (uid c : Nat) (f : Crew → Crew) : (s.mapCrew uid c f).hist = s.hist := rfl
@[simp] theorem State.mapCrew_flaws (s : State) (uid c : Nat) (f : Crew → Crew) : (s.mapCrew uid c f).flaws = s.flaws := rfl
@[simp] theorem State.mapCrew_caches (s : State) (uid c : Nat) (f : Crew → Crew) : (s.mapCrew uid c f).caches = s.caches := rfl
@[simp] theorem State.mapCrew_txns (s : State) (uid c : Nat) (f : Crew → Crew) : (s.mapCrew uid c f).txns = s.txns := rfl
@[simp] theorem State.mapCrew_ops (s : State) (uid c : Nat) (f : Crew → Crew) : (s.mapCrew uid c f).ops = s.ops := rfl
@[simp] theorem State.mapCrew_commits (s : State) (uid c : Nat) (f : Crew → Crew) : (s.mapCrew uid c f).commits = s.commits := rfl
@[simp] theorem State.mapCrew_grades (s : State) (uid c : Nat) (f : Crew → Crew) : (s.mapCrew uid c f).grades = s.grades := rfl
@[simp] theorem State.mapCrew_work (s : State) (uid c : Nat) (f : Crew → Crew) : (s.mapCrew uid c f).work = s.work := rfl
@[simp] theorem State.mapCrew_records (s : State) (uid c : Nat) (f : Crew → Crew) : (s.mapCrew uid c f).records = s.records := rfl
@[simp] theorem State.mapCrew_sys (s : State) (uid c : Nat) (f : Crew → Crew) : (s.mapCrew uid c f).sys = s.sys := rfl
@[simp] theorem State.mapCrew_ecnt (s : State) (uid c : Nat) (f : Crew → Crew) : (s.mapCrew uid c f).ecnt = s.ecnt := rfl
@[simp] theorem State.mapCrew_shoots (s : State) (uid c : Nat) (f : Crew → Crew) : (s.mapCrew uid c f).shoots = s.shoots := rfl
@[simp] theorem State.mapCrew_outbox (s : State) (uid c : Nat) (f : Crew → Crew) : (s.mapCrew uid c f).outbox = s.outbox := rfl
@[simp] theorem State.mapCrew_fabric (s : State) (uid c : Nat) (f : Crew → Crew) : (s.mapCrew uid c f).fabric = s.fabric := rfl
@[simp] theorem State.mapCrew_draft (s : State) (uid c : Nat) (f : Crew → Crew) : (s.mapCrew uid c f).draft = s.draft := rfl
@[simp] theorem State.mapCrew_host (s : State) (uid c : Nat) (f : Crew → Crew) : (s.mapCrew uid c f).host = s.host := rfl

/-! ## mapThread -/

@[simp] theorem State.mapThread_sched (s : State) (t : Tid) (f : Thread → Thread) : (s.mapThread t f).sched = s.sched := rfl
@[simp] theorem State.mapThread_clk (s : State) (t : Tid) (f : Thread → Thread) : (s.mapThread t f).clk = s.clk := rfl
@[simp] theorem State.mapThread_ctxs (s : State) (t : Tid) (f : Thread → Thread) : (s.mapThread t f).ctxs = s.ctxs := rfl
@[simp] theorem State.mapThread_mem (s : State) (t : Tid) (f : Thread → Thread) : (s.mapThread t f).mem = s.mem := rfl
@[simp] theorem State.mapThread_vaults (s : State) (t : Tid) (f : Thread → Thread) : (s.mapThread t f).vaults = s.vaults := rfl
@[simp] theorem State.mapThread_lineKeys (s : State) (t : Tid) (f : Thread → Thread) : (s.mapThread t f).lineKeys = s.lineKeys := rfl
@[simp] theorem State.mapThread_hist (s : State) (t : Tid) (f : Thread → Thread) : (s.mapThread t f).hist = s.hist := rfl
@[simp] theorem State.mapThread_flaws (s : State) (t : Tid) (f : Thread → Thread) : (s.mapThread t f).flaws = s.flaws := rfl
@[simp] theorem State.mapThread_caches (s : State) (t : Tid) (f : Thread → Thread) : (s.mapThread t f).caches = s.caches := rfl
@[simp] theorem State.mapThread_txns (s : State) (t : Tid) (f : Thread → Thread) : (s.mapThread t f).txns = s.txns := rfl
@[simp] theorem State.mapThread_ops (s : State) (t : Tid) (f : Thread → Thread) : (s.mapThread t f).ops = s.ops := rfl
@[simp] theorem State.mapThread_commits (s : State) (t : Tid) (f : Thread → Thread) : (s.mapThread t f).commits = s.commits := rfl
@[simp] theorem State.mapThread_grades (s : State) (t : Tid) (f : Thread → Thread) : (s.mapThread t f).grades = s.grades := rfl
@[simp] theorem State.mapThread_work (s : State) (t : Tid) (f : Thread → Thread) : (s.mapThread t f).work = s.work := rfl
@[simp] theorem State.mapThread_records (s : State) (t : Tid) (f : Thread → Thread) : (s.mapThread t f).records = s.records := rfl
@[simp] theorem State.mapThread_sys (s : State) (t : Tid) (f : Thread → Thread) : (s.mapThread t f).sys = s.sys := rfl
@[simp] theorem State.mapThread_ecnt (s : State) (t : Tid) (f : Thread → Thread) : (s.mapThread t f).ecnt = s.ecnt := rfl
@[simp] theorem State.mapThread_shoots (s : State) (t : Tid) (f : Thread → Thread) : (s.mapThread t f).shoots = s.shoots := rfl
@[simp] theorem State.mapThread_outbox (s : State) (t : Tid) (f : Thread → Thread) : (s.mapThread t f).outbox = s.outbox := rfl
@[simp] theorem State.mapThread_fabric (s : State) (t : Tid) (f : Thread → Thread) : (s.mapThread t f).fabric = s.fabric := rfl
@[simp] theorem State.mapThread_draft (s : State) (t : Tid) (f : Thread → Thread) : (s.mapThread t f).draft = s.draft := rfl
@[simp] theorem State.mapThread_host (s : State) (t : Tid) (f : Thread → Thread) : (s.mapThread t f).host = s.host := rfl

/-! ## dropUnit -/

@[simp] theorem State.dropUnit_sched (s : State) (uid : Nat) : (s.dropUnit uid).sched = s.sched := rfl
@[simp] theorem State.dropUnit_clk (s : State) (uid : Nat) : (s.dropUnit uid).clk = s.clk := rfl
@[simp] theorem State.dropUnit_ctxs (s : State) (uid : Nat) : (s.dropUnit uid).ctxs = s.ctxs := rfl
@[simp] theorem State.dropUnit_mem (s : State) (uid : Nat) : (s.dropUnit uid).mem = s.mem := rfl
@[simp] theorem State.dropUnit_vaults (s : State) (uid : Nat) : (s.dropUnit uid).vaults = s.vaults := rfl
@[simp] theorem State.dropUnit_lineKeys (s : State) (uid : Nat) : (s.dropUnit uid).lineKeys = s.lineKeys := rfl
@[simp] theorem State.dropUnit_hist (s : State) (uid : Nat) : (s.dropUnit uid).hist = s.hist := rfl
@[simp] theorem State.dropUnit_flaws (s : State) (uid : Nat) : (s.dropUnit uid).flaws = s.flaws := rfl
@[simp] theorem State.dropUnit_caches (s : State) (uid : Nat) : (s.dropUnit uid).caches = s.caches := rfl
@[simp] theorem State.dropUnit_txns (s : State) (uid : Nat) : (s.dropUnit uid).txns = s.txns := rfl
@[simp] theorem State.dropUnit_ops (s : State) (uid : Nat) : (s.dropUnit uid).ops = s.ops := rfl
@[simp] theorem State.dropUnit_commits (s : State) (uid : Nat) : (s.dropUnit uid).commits = s.commits := rfl
@[simp] theorem State.dropUnit_grades (s : State) (uid : Nat) : (s.dropUnit uid).grades = s.grades := rfl
@[simp] theorem State.dropUnit_work (s : State) (uid : Nat) : (s.dropUnit uid).work = s.work := rfl
@[simp] theorem State.dropUnit_images (s : State) (uid : Nat) : (s.dropUnit uid).images = s.images := rfl
@[simp] theorem State.dropUnit_records (s : State) (uid : Nat) : (s.dropUnit uid).records = s.records := rfl
@[simp] theorem State.dropUnit_sys (s : State) (uid : Nat) : (s.dropUnit uid).sys = s.sys := rfl
@[simp] theorem State.dropUnit_ecnt (s : State) (uid : Nat) : (s.dropUnit uid).ecnt = s.ecnt := rfl
@[simp] theorem State.dropUnit_shoots (s : State) (uid : Nat) : (s.dropUnit uid).shoots = s.shoots := rfl
@[simp] theorem State.dropUnit_outbox (s : State) (uid : Nat) : (s.dropUnit uid).outbox = s.outbox := rfl
@[simp] theorem State.dropUnit_fabric (s : State) (uid : Nat) : (s.dropUnit uid).fabric = s.fabric := rfl
@[simp] theorem State.dropUnit_draft (s : State) (uid : Nat) : (s.dropUnit uid).draft = s.draft := rfl
@[simp] theorem State.dropUnit_host (s : State) (uid : Nat) : (s.dropUnit uid).host = s.host := rfl

/-! ## mapCtx -/

@[simp] theorem State.mapCtx_sched (s : State) (c : Nat) (f : Context → Context) : (s.mapCtx c f).sched = s.sched := rfl
@[simp] theorem State.mapCtx_clk (s : State) (c : Nat) (f : Context → Context) : (s.mapCtx c f).clk = s.clk := rfl
@[simp] theorem State.mapCtx_units (s : State) (c : Nat) (f : Context → Context) : (s.mapCtx c f).units = s.units := rfl
@[simp] theorem State.mapCtx_mem (s : State) (c : Nat) (f : Context → Context) : (s.mapCtx c f).mem = s.mem := rfl
@[simp] theorem State.mapCtx_vaults (s : State) (c : Nat) (f : Context → Context) : (s.mapCtx c f).vaults = s.vaults := rfl
@[simp] theorem State.mapCtx_lineKeys (s : State) (c : Nat) (f : Context → Context) : (s.mapCtx c f).lineKeys = s.lineKeys := rfl
@[simp] theorem State.mapCtx_hist (s : State) (c : Nat) (f : Context → Context) : (s.mapCtx c f).hist = s.hist := rfl
@[simp] theorem State.mapCtx_flaws (s : State) (c : Nat) (f : Context → Context) : (s.mapCtx c f).flaws = s.flaws := rfl
@[simp] theorem State.mapCtx_caches (s : State) (c : Nat) (f : Context → Context) : (s.mapCtx c f).caches = s.caches := rfl
@[simp] theorem State.mapCtx_txns (s : State) (c : Nat) (f : Context → Context) : (s.mapCtx c f).txns = s.txns := rfl
@[simp] theorem State.mapCtx_ops (s : State) (c : Nat) (f : Context → Context) : (s.mapCtx c f).ops = s.ops := rfl
@[simp] theorem State.mapCtx_commits (s : State) (c : Nat) (f : Context → Context) : (s.mapCtx c f).commits = s.commits := rfl
@[simp] theorem State.mapCtx_grades (s : State) (c : Nat) (f : Context → Context) : (s.mapCtx c f).grades = s.grades := rfl
@[simp] theorem State.mapCtx_work (s : State) (c : Nat) (f : Context → Context) : (s.mapCtx c f).work = s.work := rfl
@[simp] theorem State.mapCtx_images (s : State) (c : Nat) (f : Context → Context) : (s.mapCtx c f).images = s.images := rfl
@[simp] theorem State.mapCtx_records (s : State) (c : Nat) (f : Context → Context) : (s.mapCtx c f).records = s.records := rfl
@[simp] theorem State.mapCtx_sys (s : State) (c : Nat) (f : Context → Context) : (s.mapCtx c f).sys = s.sys := rfl
@[simp] theorem State.mapCtx_ecnt (s : State) (c : Nat) (f : Context → Context) : (s.mapCtx c f).ecnt = s.ecnt := rfl
@[simp] theorem State.mapCtx_shoots (s : State) (c : Nat) (f : Context → Context) : (s.mapCtx c f).shoots = s.shoots := rfl
@[simp] theorem State.mapCtx_outbox (s : State) (c : Nat) (f : Context → Context) : (s.mapCtx c f).outbox = s.outbox := rfl
@[simp] theorem State.mapCtx_fabric (s : State) (c : Nat) (f : Context → Context) : (s.mapCtx c f).fabric = s.fabric := rfl
@[simp] theorem State.mapCtx_draft (s : State) (c : Nat) (f : Context → Context) : (s.mapCtx c f).draft = s.draft := rfl
@[simp] theorem State.mapCtx_host (s : State) (c : Nat) (f : Context → Context) : (s.mapCtx c f).host = s.host := rfl

/-! ## touch -/

@[simp] theorem State.touch_sched (s : State) : s.touch.sched = s.sched := rfl
@[simp] theorem State.touch_units (s : State) : s.touch.units = s.units := rfl
@[simp] theorem State.touch_ctxs (s : State) : s.touch.ctxs = s.ctxs := rfl
@[simp] theorem State.touch_mem (s : State) : s.touch.mem = s.mem := rfl
@[simp] theorem State.touch_vaults (s : State) : s.touch.vaults = s.vaults := rfl
@[simp] theorem State.touch_lineKeys (s : State) : s.touch.lineKeys = s.lineKeys := rfl
@[simp] theorem State.touch_hist (s : State) : s.touch.hist = s.hist := rfl
@[simp] theorem State.touch_flaws (s : State) : s.touch.flaws = s.flaws := rfl
@[simp] theorem State.touch_caches (s : State) : s.touch.caches = s.caches := rfl
@[simp] theorem State.touch_txns (s : State) : s.touch.txns = s.txns := rfl
@[simp] theorem State.touch_ops (s : State) : s.touch.ops = s.ops := rfl
@[simp] theorem State.touch_commits (s : State) : s.touch.commits = s.commits := rfl
@[simp] theorem State.touch_grades (s : State) : s.touch.grades = s.grades := rfl
@[simp] theorem State.touch_work (s : State) : s.touch.work = s.work := rfl
@[simp] theorem State.touch_images (s : State) : s.touch.images = s.images := rfl
@[simp] theorem State.touch_records (s : State) : s.touch.records = s.records := rfl
@[simp] theorem State.touch_sys (s : State) : s.touch.sys = s.sys := rfl
@[simp] theorem State.touch_ecnt (s : State) : s.touch.ecnt = s.ecnt := rfl
@[simp] theorem State.touch_shoots (s : State) : s.touch.shoots = s.shoots := rfl
@[simp] theorem State.touch_outbox (s : State) : s.touch.outbox = s.outbox := rfl
@[simp] theorem State.touch_fabric (s : State) : s.touch.fabric = s.fabric := rfl
@[simp] theorem State.touch_draft (s : State) : s.touch.draft = s.draft := rfl
@[simp] theorem State.touch_host (s : State) : s.touch.host = s.host := rfl

/-! ## act -/

@[simp] theorem State.act_sched (s : State) (c : Nat) : (s.act c).sched = s.sched := rfl
@[simp] theorem State.act_units (s : State) (c : Nat) : (s.act c).units = s.units := rfl
@[simp] theorem State.act_ctxs (s : State) (c : Nat) : (s.act c).ctxs = s.ctxs := rfl
@[simp] theorem State.act_mem (s : State) (c : Nat) : (s.act c).mem = s.mem := rfl
@[simp] theorem State.act_vaults (s : State) (c : Nat) : (s.act c).vaults = s.vaults := rfl
@[simp] theorem State.act_lineKeys (s : State) (c : Nat) : (s.act c).lineKeys = s.lineKeys := rfl
@[simp] theorem State.act_hist (s : State) (c : Nat) : (s.act c).hist = s.hist := rfl
@[simp] theorem State.act_flaws (s : State) (c : Nat) : (s.act c).flaws = s.flaws := rfl
@[simp] theorem State.act_caches (s : State) (c : Nat) : (s.act c).caches = s.caches := rfl
@[simp] theorem State.act_txns (s : State) (c : Nat) : (s.act c).txns = s.txns := rfl
@[simp] theorem State.act_ops (s : State) (c : Nat) : (s.act c).ops = s.ops := rfl
@[simp] theorem State.act_commits (s : State) (c : Nat) : (s.act c).commits = s.commits := rfl
@[simp] theorem State.act_grades (s : State) (c : Nat) : (s.act c).grades = s.grades := rfl
@[simp] theorem State.act_work (s : State) (c : Nat) : (s.act c).work = s.work := rfl
@[simp] theorem State.act_images (s : State) (c : Nat) : (s.act c).images = s.images := rfl
@[simp] theorem State.act_records (s : State) (c : Nat) : (s.act c).records = s.records := rfl
@[simp] theorem State.act_sys (s : State) (c : Nat) : (s.act c).sys = s.sys := rfl
@[simp] theorem State.act_ecnt (s : State) (c : Nat) : (s.act c).ecnt = s.ecnt := rfl
@[simp] theorem State.act_shoots (s : State) (c : Nat) : (s.act c).shoots = s.shoots := rfl
@[simp] theorem State.act_outbox (s : State) (c : Nat) : (s.act c).outbox = s.outbox := rfl
@[simp] theorem State.act_fabric (s : State) (c : Nat) : (s.act c).fabric = s.fabric := rfl
@[simp] theorem State.act_draft (s : State) (c : Nat) : (s.act c).draft = s.draft := rfl
@[simp] theorem State.act_host (s : State) (c : Nat) : (s.act c).host = s.host := rfl

/-! ## send -/

@[simp] theorem State.send_sched (s : State) (x : Sent) : (s.send x).sched = s.sched := rfl
@[simp] theorem State.send_clk (s : State) (x : Sent) : (s.send x).clk = s.clk := rfl
@[simp] theorem State.send_units (s : State) (x : Sent) : (s.send x).units = s.units := rfl
@[simp] theorem State.send_ctxs (s : State) (x : Sent) : (s.send x).ctxs = s.ctxs := rfl
@[simp] theorem State.send_mem (s : State) (x : Sent) : (s.send x).mem = s.mem := rfl
@[simp] theorem State.send_vaults (s : State) (x : Sent) : (s.send x).vaults = s.vaults := rfl
@[simp] theorem State.send_lineKeys (s : State) (x : Sent) : (s.send x).lineKeys = s.lineKeys := rfl
@[simp] theorem State.send_hist (s : State) (x : Sent) : (s.send x).hist = s.hist := rfl
@[simp] theorem State.send_flaws (s : State) (x : Sent) : (s.send x).flaws = s.flaws := rfl
@[simp] theorem State.send_caches (s : State) (x : Sent) : (s.send x).caches = s.caches := rfl
@[simp] theorem State.send_txns (s : State) (x : Sent) : (s.send x).txns = s.txns := rfl
@[simp] theorem State.send_ops (s : State) (x : Sent) : (s.send x).ops = s.ops := rfl
@[simp] theorem State.send_commits (s : State) (x : Sent) : (s.send x).commits = s.commits := rfl
@[simp] theorem State.send_grades (s : State) (x : Sent) : (s.send x).grades = s.grades := rfl
@[simp] theorem State.send_work (s : State) (x : Sent) : (s.send x).work = s.work := rfl
@[simp] theorem State.send_images (s : State) (x : Sent) : (s.send x).images = s.images := rfl
@[simp] theorem State.send_records (s : State) (x : Sent) : (s.send x).records = s.records := rfl
@[simp] theorem State.send_sys (s : State) (x : Sent) : (s.send x).sys = s.sys := rfl
@[simp] theorem State.send_ecnt (s : State) (x : Sent) : (s.send x).ecnt = s.ecnt := rfl
@[simp] theorem State.send_shoots (s : State) (x : Sent) : (s.send x).shoots = s.shoots := rfl
@[simp] theorem State.send_fabric (s : State) (x : Sent) : (s.send x).fabric = s.fabric := rfl
@[simp] theorem State.send_draft (s : State) (x : Sent) : (s.send x).draft = s.draft := rfl
@[simp] theorem State.send_host (s : State) (x : Sent) : (s.send x).host = s.host := rfl

/-! ## writeMem -/

@[simp] theorem State.writeMem_sched (s : State) (pa : Nat) (bs : List Byte) (p : Path) (t : Option Tid) : (s.writeMem pa bs p t).sched = s.sched := rfl
@[simp] theorem State.writeMem_clk (s : State) (pa : Nat) (bs : List Byte) (p : Path) (t : Option Tid) : (s.writeMem pa bs p t).clk = s.clk := rfl
@[simp] theorem State.writeMem_units (s : State) (pa : Nat) (bs : List Byte) (p : Path) (t : Option Tid) : (s.writeMem pa bs p t).units = s.units := rfl
@[simp] theorem State.writeMem_ctxs (s : State) (pa : Nat) (bs : List Byte) (p : Path) (t : Option Tid) : (s.writeMem pa bs p t).ctxs = s.ctxs := rfl
@[simp] theorem State.writeMem_vaults (s : State) (pa : Nat) (bs : List Byte) (p : Path) (t : Option Tid) : (s.writeMem pa bs p t).vaults = s.vaults := rfl
@[simp] theorem State.writeMem_lineKeys (s : State) (pa : Nat) (bs : List Byte) (p : Path) (t : Option Tid) : (s.writeMem pa bs p t).lineKeys = s.lineKeys := rfl
@[simp] theorem State.writeMem_caches (s : State) (pa : Nat) (bs : List Byte) (p : Path) (t : Option Tid) : (s.writeMem pa bs p t).caches = s.caches := rfl
@[simp] theorem State.writeMem_txns (s : State) (pa : Nat) (bs : List Byte) (p : Path) (t : Option Tid) : (s.writeMem pa bs p t).txns = s.txns := rfl
@[simp] theorem State.writeMem_ops (s : State) (pa : Nat) (bs : List Byte) (p : Path) (t : Option Tid) : (s.writeMem pa bs p t).ops = s.ops := rfl
@[simp] theorem State.writeMem_commits (s : State) (pa : Nat) (bs : List Byte) (p : Path) (t : Option Tid) : (s.writeMem pa bs p t).commits = s.commits := rfl
@[simp] theorem State.writeMem_grades (s : State) (pa : Nat) (bs : List Byte) (p : Path) (t : Option Tid) : (s.writeMem pa bs p t).grades = s.grades := rfl
@[simp] theorem State.writeMem_work (s : State) (pa : Nat) (bs : List Byte) (p : Path) (t : Option Tid) : (s.writeMem pa bs p t).work = s.work := rfl
@[simp] theorem State.writeMem_images (s : State) (pa : Nat) (bs : List Byte) (p : Path) (t : Option Tid) : (s.writeMem pa bs p t).images = s.images := rfl
@[simp] theorem State.writeMem_records (s : State) (pa : Nat) (bs : List Byte) (p : Path) (t : Option Tid) : (s.writeMem pa bs p t).records = s.records := rfl
@[simp] theorem State.writeMem_sys (s : State) (pa : Nat) (bs : List Byte) (p : Path) (t : Option Tid) : (s.writeMem pa bs p t).sys = s.sys := rfl
@[simp] theorem State.writeMem_ecnt (s : State) (pa : Nat) (bs : List Byte) (p : Path) (t : Option Tid) : (s.writeMem pa bs p t).ecnt = s.ecnt := rfl
@[simp] theorem State.writeMem_shoots (s : State) (pa : Nat) (bs : List Byte) (p : Path) (t : Option Tid) : (s.writeMem pa bs p t).shoots = s.shoots := rfl
@[simp] theorem State.writeMem_outbox (s : State) (pa : Nat) (bs : List Byte) (p : Path) (t : Option Tid) : (s.writeMem pa bs p t).outbox = s.outbox := rfl
@[simp] theorem State.writeMem_fabric (s : State) (pa : Nat) (bs : List Byte) (p : Path) (t : Option Tid) : (s.writeMem pa bs p t).fabric = s.fabric := rfl
@[simp] theorem State.writeMem_draft (s : State) (pa : Nat) (bs : List Byte) (p : Path) (t : Option Tid) : (s.writeMem pa bs p t).draft = s.draft := rfl
@[simp] theorem State.writeMem_host (s : State) (pa : Nat) (bs : List Byte) (p : Path) (t : Option Tid) : (s.writeMem pa bs p t).host = s.host := rfl

/-! ## writeVault -/

@[simp] theorem State.writeVault_sched (s : State) (a : Nat) (bs : List Byte) (p : Path) (t : Option Tid) : (s.writeVault a bs p t).sched = s.sched := rfl
@[simp] theorem State.writeVault_clk (s : State) (a : Nat) (bs : List Byte) (p : Path) (t : Option Tid) : (s.writeVault a bs p t).clk = s.clk := rfl
@[simp] theorem State.writeVault_units (s : State) (a : Nat) (bs : List Byte) (p : Path) (t : Option Tid) : (s.writeVault a bs p t).units = s.units := rfl
@[simp] theorem State.writeVault_ctxs (s : State) (a : Nat) (bs : List Byte) (p : Path) (t : Option Tid) : (s.writeVault a bs p t).ctxs = s.ctxs := rfl
@[simp] theorem State.writeVault_mem (s : State) (a : Nat) (bs : List Byte) (p : Path) (t : Option Tid) : (s.writeVault a bs p t).mem = s.mem := rfl
@[simp] theorem State.writeVault_lineKeys (s : State) (a : Nat) (bs : List Byte) (p : Path) (t : Option Tid) : (s.writeVault a bs p t).lineKeys = s.lineKeys := rfl
@[simp] theorem State.writeVault_caches (s : State) (a : Nat) (bs : List Byte) (p : Path) (t : Option Tid) : (s.writeVault a bs p t).caches = s.caches := rfl
@[simp] theorem State.writeVault_txns (s : State) (a : Nat) (bs : List Byte) (p : Path) (t : Option Tid) : (s.writeVault a bs p t).txns = s.txns := rfl
@[simp] theorem State.writeVault_ops (s : State) (a : Nat) (bs : List Byte) (p : Path) (t : Option Tid) : (s.writeVault a bs p t).ops = s.ops := rfl
@[simp] theorem State.writeVault_commits (s : State) (a : Nat) (bs : List Byte) (p : Path) (t : Option Tid) : (s.writeVault a bs p t).commits = s.commits := rfl
@[simp] theorem State.writeVault_grades (s : State) (a : Nat) (bs : List Byte) (p : Path) (t : Option Tid) : (s.writeVault a bs p t).grades = s.grades := rfl
@[simp] theorem State.writeVault_work (s : State) (a : Nat) (bs : List Byte) (p : Path) (t : Option Tid) : (s.writeVault a bs p t).work = s.work := rfl
@[simp] theorem State.writeVault_images (s : State) (a : Nat) (bs : List Byte) (p : Path) (t : Option Tid) : (s.writeVault a bs p t).images = s.images := rfl
@[simp] theorem State.writeVault_records (s : State) (a : Nat) (bs : List Byte) (p : Path) (t : Option Tid) : (s.writeVault a bs p t).records = s.records := rfl
@[simp] theorem State.writeVault_sys (s : State) (a : Nat) (bs : List Byte) (p : Path) (t : Option Tid) : (s.writeVault a bs p t).sys = s.sys := rfl
@[simp] theorem State.writeVault_ecnt (s : State) (a : Nat) (bs : List Byte) (p : Path) (t : Option Tid) : (s.writeVault a bs p t).ecnt = s.ecnt := rfl
@[simp] theorem State.writeVault_shoots (s : State) (a : Nat) (bs : List Byte) (p : Path) (t : Option Tid) : (s.writeVault a bs p t).shoots = s.shoots := rfl
@[simp] theorem State.writeVault_outbox (s : State) (a : Nat) (bs : List Byte) (p : Path) (t : Option Tid) : (s.writeVault a bs p t).outbox = s.outbox := rfl
@[simp] theorem State.writeVault_fabric (s : State) (a : Nat) (bs : List Byte) (p : Path) (t : Option Tid) : (s.writeVault a bs p t).fabric = s.fabric := rfl
@[simp] theorem State.writeVault_draft (s : State) (a : Nat) (bs : List Byte) (p : Path) (t : Option Tid) : (s.writeVault a bs p t).draft = s.draft := rfl
@[simp] theorem State.writeVault_host (s : State) (a : Nat) (bs : List Byte) (p : Path) (t : Option Tid) : (s.writeVault a bs p t).host = s.host := rfl

/-! ## writeOwnLocal -/

@[simp] theorem State.writeOwnLocal_sched (s : State) (uid a : Nat) (bs : List Byte) (p : Path) (t : Option Tid) : (s.writeOwnLocal uid a bs p t).sched = s.sched := rfl
@[simp] theorem State.writeOwnLocal_clk (s : State) (uid a : Nat) (bs : List Byte) (p : Path) (t : Option Tid) : (s.writeOwnLocal uid a bs p t).clk = s.clk := rfl
@[simp] theorem State.writeOwnLocal_ctxs (s : State) (uid a : Nat) (bs : List Byte) (p : Path) (t : Option Tid) : (s.writeOwnLocal uid a bs p t).ctxs = s.ctxs := rfl
@[simp] theorem State.writeOwnLocal_mem (s : State) (uid a : Nat) (bs : List Byte) (p : Path) (t : Option Tid) : (s.writeOwnLocal uid a bs p t).mem = s.mem := rfl
@[simp] theorem State.writeOwnLocal_vaults (s : State) (uid a : Nat) (bs : List Byte) (p : Path) (t : Option Tid) : (s.writeOwnLocal uid a bs p t).vaults = s.vaults := rfl
@[simp] theorem State.writeOwnLocal_lineKeys (s : State) (uid a : Nat) (bs : List Byte) (p : Path) (t : Option Tid) : (s.writeOwnLocal uid a bs p t).lineKeys = s.lineKeys := rfl
@[simp] theorem State.writeOwnLocal_caches (s : State) (uid a : Nat) (bs : List Byte) (p : Path) (t : Option Tid) : (s.writeOwnLocal uid a bs p t).caches = s.caches := rfl
@[simp] theorem State.writeOwnLocal_txns (s : State) (uid a : Nat) (bs : List Byte) (p : Path) (t : Option Tid) : (s.writeOwnLocal uid a bs p t).txns = s.txns := rfl
@[simp] theorem State.writeOwnLocal_ops (s : State) (uid a : Nat) (bs : List Byte) (p : Path) (t : Option Tid) : (s.writeOwnLocal uid a bs p t).ops = s.ops := rfl
@[simp] theorem State.writeOwnLocal_commits (s : State) (uid a : Nat) (bs : List Byte) (p : Path) (t : Option Tid) : (s.writeOwnLocal uid a bs p t).commits = s.commits := rfl
@[simp] theorem State.writeOwnLocal_grades (s : State) (uid a : Nat) (bs : List Byte) (p : Path) (t : Option Tid) : (s.writeOwnLocal uid a bs p t).grades = s.grades := rfl
@[simp] theorem State.writeOwnLocal_work (s : State) (uid a : Nat) (bs : List Byte) (p : Path) (t : Option Tid) : (s.writeOwnLocal uid a bs p t).work = s.work := rfl
@[simp] theorem State.writeOwnLocal_records (s : State) (uid a : Nat) (bs : List Byte) (p : Path) (t : Option Tid) : (s.writeOwnLocal uid a bs p t).records = s.records := rfl
@[simp] theorem State.writeOwnLocal_sys (s : State) (uid a : Nat) (bs : List Byte) (p : Path) (t : Option Tid) : (s.writeOwnLocal uid a bs p t).sys = s.sys := rfl
@[simp] theorem State.writeOwnLocal_ecnt (s : State) (uid a : Nat) (bs : List Byte) (p : Path) (t : Option Tid) : (s.writeOwnLocal uid a bs p t).ecnt = s.ecnt := rfl
@[simp] theorem State.writeOwnLocal_shoots (s : State) (uid a : Nat) (bs : List Byte) (p : Path) (t : Option Tid) : (s.writeOwnLocal uid a bs p t).shoots = s.shoots := rfl
@[simp] theorem State.writeOwnLocal_outbox (s : State) (uid a : Nat) (bs : List Byte) (p : Path) (t : Option Tid) : (s.writeOwnLocal uid a bs p t).outbox = s.outbox := rfl
@[simp] theorem State.writeOwnLocal_fabric (s : State) (uid a : Nat) (bs : List Byte) (p : Path) (t : Option Tid) : (s.writeOwnLocal uid a bs p t).fabric = s.fabric := rfl
@[simp] theorem State.writeOwnLocal_draft (s : State) (uid a : Nat) (bs : List Byte) (p : Path) (t : Option Tid) : (s.writeOwnLocal uid a bs p t).draft = s.draft := rfl
@[simp] theorem State.writeOwnLocal_host (s : State) (uid a : Nat) (bs : List Byte) (p : Path) (t : Option Tid) : (s.writeOwnLocal uid a bs p t).host = s.host := rfl

/-! ## releaseToken -/

@[simp] theorem State.releaseToken_sched (s : State) (uid : Nat) : (s.releaseToken uid).sched = s.sched := rfl
@[simp] theorem State.releaseToken_clk (s : State) (uid : Nat) : (s.releaseToken uid).clk = s.clk := rfl
@[simp] theorem State.releaseToken_units (s : State) (uid : Nat) : (s.releaseToken uid).units = s.units := rfl
@[simp] theorem State.releaseToken_ctxs (s : State) (uid : Nat) : (s.releaseToken uid).ctxs = s.ctxs := rfl
@[simp] theorem State.releaseToken_mem (s : State) (uid : Nat) : (s.releaseToken uid).mem = s.mem := rfl
@[simp] theorem State.releaseToken_vaults (s : State) (uid : Nat) : (s.releaseToken uid).vaults = s.vaults := rfl
@[simp] theorem State.releaseToken_lineKeys (s : State) (uid : Nat) : (s.releaseToken uid).lineKeys = s.lineKeys := rfl
@[simp] theorem State.releaseToken_hist (s : State) (uid : Nat) : (s.releaseToken uid).hist = s.hist := rfl
@[simp] theorem State.releaseToken_flaws (s : State) (uid : Nat) : (s.releaseToken uid).flaws = s.flaws := rfl
@[simp] theorem State.releaseToken_caches (s : State) (uid : Nat) : (s.releaseToken uid).caches = s.caches := rfl
@[simp] theorem State.releaseToken_txns (s : State) (uid : Nat) : (s.releaseToken uid).txns = s.txns := rfl
@[simp] theorem State.releaseToken_ops (s : State) (uid : Nat) : (s.releaseToken uid).ops = s.ops := rfl
@[simp] theorem State.releaseToken_grades (s : State) (uid : Nat) : (s.releaseToken uid).grades = s.grades := rfl
@[simp] theorem State.releaseToken_work (s : State) (uid : Nat) : (s.releaseToken uid).work = s.work := rfl
@[simp] theorem State.releaseToken_images (s : State) (uid : Nat) : (s.releaseToken uid).images = s.images := rfl
@[simp] theorem State.releaseToken_records (s : State) (uid : Nat) : (s.releaseToken uid).records = s.records := rfl
@[simp] theorem State.releaseToken_sys (s : State) (uid : Nat) : (s.releaseToken uid).sys = s.sys := rfl
@[simp] theorem State.releaseToken_ecnt (s : State) (uid : Nat) : (s.releaseToken uid).ecnt = s.ecnt := rfl
@[simp] theorem State.releaseToken_shoots (s : State) (uid : Nat) : (s.releaseToken uid).shoots = s.shoots := rfl
@[simp] theorem State.releaseToken_outbox (s : State) (uid : Nat) : (s.releaseToken uid).outbox = s.outbox := rfl
@[simp] theorem State.releaseToken_fabric (s : State) (uid : Nat) : (s.releaseToken uid).fabric = s.fabric := rfl
@[simp] theorem State.releaseToken_draft (s : State) (uid : Nat) : (s.releaseToken uid).draft = s.draft := rfl
@[simp] theorem State.releaseToken_host (s : State) (uid : Nat) : (s.releaseToken uid).host = s.host := rfl

/-! ## stopEngines -/

@[simp] theorem State.stopEngines_sched (s : State) (uid : Nat) : (s.stopEngines uid).sched = s.sched := rfl
@[simp] theorem State.stopEngines_clk (s : State) (uid : Nat) : (s.stopEngines uid).clk = s.clk := rfl
@[simp] theorem State.stopEngines_units (s : State) (uid : Nat) : (s.stopEngines uid).units = s.units := rfl
@[simp] theorem State.stopEngines_ctxs (s : State) (uid : Nat) : (s.stopEngines uid).ctxs = s.ctxs := rfl
@[simp] theorem State.stopEngines_mem (s : State) (uid : Nat) : (s.stopEngines uid).mem = s.mem := rfl
@[simp] theorem State.stopEngines_vaults (s : State) (uid : Nat) : (s.stopEngines uid).vaults = s.vaults := rfl
@[simp] theorem State.stopEngines_lineKeys (s : State) (uid : Nat) : (s.stopEngines uid).lineKeys = s.lineKeys := rfl
@[simp] theorem State.stopEngines_hist (s : State) (uid : Nat) : (s.stopEngines uid).hist = s.hist := rfl
@[simp] theorem State.stopEngines_flaws (s : State) (uid : Nat) : (s.stopEngines uid).flaws = s.flaws := rfl
@[simp] theorem State.stopEngines_caches (s : State) (uid : Nat) : (s.stopEngines uid).caches = s.caches := rfl
@[simp] theorem State.stopEngines_commits (s : State) (uid : Nat) : (s.stopEngines uid).commits = s.commits := rfl
@[simp] theorem State.stopEngines_grades (s : State) (uid : Nat) : (s.stopEngines uid).grades = s.grades := rfl
@[simp] theorem State.stopEngines_work (s : State) (uid : Nat) : (s.stopEngines uid).work = s.work := rfl
@[simp] theorem State.stopEngines_images (s : State) (uid : Nat) : (s.stopEngines uid).images = s.images := rfl
@[simp] theorem State.stopEngines_records (s : State) (uid : Nat) : (s.stopEngines uid).records = s.records := rfl
@[simp] theorem State.stopEngines_sys (s : State) (uid : Nat) : (s.stopEngines uid).sys = s.sys := rfl
@[simp] theorem State.stopEngines_ecnt (s : State) (uid : Nat) : (s.stopEngines uid).ecnt = s.ecnt := rfl
@[simp] theorem State.stopEngines_shoots (s : State) (uid : Nat) : (s.stopEngines uid).shoots = s.shoots := rfl
@[simp] theorem State.stopEngines_outbox (s : State) (uid : Nat) : (s.stopEngines uid).outbox = s.outbox := rfl
@[simp] theorem State.stopEngines_fabric (s : State) (uid : Nat) : (s.stopEngines uid).fabric = s.fabric := rfl
@[simp] theorem State.stopEngines_draft (s : State) (uid : Nat) : (s.stopEngines uid).draft = s.draft := rfl
@[simp] theorem State.stopEngines_host (s : State) (uid : Nat) : (s.stopEngines uid).host = s.host := rfl

/-! ## addRecord -/

@[simp] theorem State.addRecord_sched (s : State) (u : RUnit) (bytes : List Byte) : (s.addRecord u bytes).sched = s.sched := rfl
@[simp] theorem State.addRecord_clk (s : State) (u : RUnit) (bytes : List Byte) : (s.addRecord u bytes).clk = s.clk := rfl
@[simp] theorem State.addRecord_units (s : State) (u : RUnit) (bytes : List Byte) : (s.addRecord u bytes).units = s.units := rfl
@[simp] theorem State.addRecord_ctxs (s : State) (u : RUnit) (bytes : List Byte) : (s.addRecord u bytes).ctxs = s.ctxs := rfl
@[simp] theorem State.addRecord_mem (s : State) (u : RUnit) (bytes : List Byte) : (s.addRecord u bytes).mem = s.mem := rfl
@[simp] theorem State.addRecord_vaults (s : State) (u : RUnit) (bytes : List Byte) : (s.addRecord u bytes).vaults = s.vaults := rfl
@[simp] theorem State.addRecord_lineKeys (s : State) (u : RUnit) (bytes : List Byte) : (s.addRecord u bytes).lineKeys = s.lineKeys := rfl
@[simp] theorem State.addRecord_hist (s : State) (u : RUnit) (bytes : List Byte) : (s.addRecord u bytes).hist = s.hist := rfl
@[simp] theorem State.addRecord_flaws (s : State) (u : RUnit) (bytes : List Byte) : (s.addRecord u bytes).flaws = s.flaws := rfl
@[simp] theorem State.addRecord_caches (s : State) (u : RUnit) (bytes : List Byte) : (s.addRecord u bytes).caches = s.caches := rfl
@[simp] theorem State.addRecord_txns (s : State) (u : RUnit) (bytes : List Byte) : (s.addRecord u bytes).txns = s.txns := rfl
@[simp] theorem State.addRecord_ops (s : State) (u : RUnit) (bytes : List Byte) : (s.addRecord u bytes).ops = s.ops := rfl
@[simp] theorem State.addRecord_commits (s : State) (u : RUnit) (bytes : List Byte) : (s.addRecord u bytes).commits = s.commits := rfl
@[simp] theorem State.addRecord_grades (s : State) (u : RUnit) (bytes : List Byte) : (s.addRecord u bytes).grades = s.grades := rfl
@[simp] theorem State.addRecord_work (s : State) (u : RUnit) (bytes : List Byte) : (s.addRecord u bytes).work = s.work := rfl
@[simp] theorem State.addRecord_images (s : State) (u : RUnit) (bytes : List Byte) : (s.addRecord u bytes).images = s.images := rfl
@[simp] theorem State.addRecord_sys (s : State) (u : RUnit) (bytes : List Byte) : (s.addRecord u bytes).sys = s.sys := rfl
@[simp] theorem State.addRecord_ecnt (s : State) (u : RUnit) (bytes : List Byte) : (s.addRecord u bytes).ecnt = s.ecnt := rfl
@[simp] theorem State.addRecord_shoots (s : State) (u : RUnit) (bytes : List Byte) : (s.addRecord u bytes).shoots = s.shoots := rfl
@[simp] theorem State.addRecord_outbox (s : State) (u : RUnit) (bytes : List Byte) : (s.addRecord u bytes).outbox = s.outbox := rfl
@[simp] theorem State.addRecord_fabric (s : State) (u : RUnit) (bytes : List Byte) : (s.addRecord u bytes).fabric = s.fabric := rfl
@[simp] theorem State.addRecord_draft (s : State) (u : RUnit) (bytes : List Byte) : (s.addRecord u bytes).draft = s.draft := rfl
@[simp] theorem State.addRecord_host (s : State) (u : RUnit) (bytes : List Byte) : (s.addRecord u bytes).host = s.host := rfl

/-! ## clockOn -/

@[simp] theorem State.clockOn_sched (s : State) : s.clockOn.sched = s.sched := rfl
@[simp] theorem State.clockOn_units (s : State) : s.clockOn.units = s.units := rfl
@[simp] theorem State.clockOn_ctxs (s : State) : s.clockOn.ctxs = s.ctxs := rfl
@[simp] theorem State.clockOn_mem (s : State) : s.clockOn.mem = s.mem := rfl
@[simp] theorem State.clockOn_vaults (s : State) : s.clockOn.vaults = s.vaults := rfl
@[simp] theorem State.clockOn_lineKeys (s : State) : s.clockOn.lineKeys = s.lineKeys := rfl
@[simp] theorem State.clockOn_hist (s : State) : s.clockOn.hist = s.hist := rfl
@[simp] theorem State.clockOn_flaws (s : State) : s.clockOn.flaws = s.flaws := rfl
@[simp] theorem State.clockOn_caches (s : State) : s.clockOn.caches = s.caches := rfl
@[simp] theorem State.clockOn_txns (s : State) : s.clockOn.txns = s.txns := rfl
@[simp] theorem State.clockOn_ops (s : State) : s.clockOn.ops = s.ops := rfl
@[simp] theorem State.clockOn_commits (s : State) : s.clockOn.commits = s.commits := rfl
@[simp] theorem State.clockOn_grades (s : State) : s.clockOn.grades = s.grades := rfl
@[simp] theorem State.clockOn_work (s : State) : s.clockOn.work = s.work := rfl
@[simp] theorem State.clockOn_images (s : State) : s.clockOn.images = s.images := rfl
@[simp] theorem State.clockOn_records (s : State) : s.clockOn.records = s.records := rfl
@[simp] theorem State.clockOn_sys (s : State) : s.clockOn.sys = s.sys := rfl
@[simp] theorem State.clockOn_ecnt (s : State) : s.clockOn.ecnt = s.ecnt := rfl
@[simp] theorem State.clockOn_shoots (s : State) : s.clockOn.shoots = s.shoots := rfl
@[simp] theorem State.clockOn_outbox (s : State) : s.clockOn.outbox = s.outbox := rfl
@[simp] theorem State.clockOn_fabric (s : State) : s.clockOn.fabric = s.fabric := rfl
@[simp] theorem State.clockOn_draft (s : State) : s.clockOn.draft = s.draft := rfl
@[simp] theorem State.clockOn_host (s : State) : s.clockOn.host = s.host := rfl

/-! ## What the updates write -/

@[simp] theorem State.touch_moved (s : State) : s.touch.clk.moved = s.clk.stepNo := rfl
@[simp] theorem State.touch_now (s : State) : s.touch.clk.now = s.clk.now := rfl
@[simp] theorem State.touch_stepNo (s : State) : s.touch.clk.stepNo = s.clk.stepNo := rfl
@[simp] theorem State.act_now (s : State) (c : Nat) : (s.act c).clk.now = s.clk.now := rfl
@[simp] theorem State.act_stepNo (s : State) (c : Nat) : (s.act c).clk.stepNo = s.clk.stepNo := rfl
@[simp] theorem State.act_moved (s : State) (c : Nat) : (s.act c).clk.moved = s.clk.moved := rfl
@[simp] theorem State.send_outbox (s : State) (x : Sent) : (s.send x).outbox = s.outbox ++ [x] := rfl
@[simp] theorem State.writeMem_mem (s : State) (pa : Nat) (bs : List Byte) (p : Path) (t : Option Tid) : (s.writeMem pa bs p t).mem = cellsPut s.mem pa bs := rfl
@[simp] theorem State.writeVault_vaults (s : State) (a : Nat) (bs : List Byte) (p : Path) (t : Option Tid) : (s.writeVault a bs p t).vaults = cellsPut s.vaults a bs := rfl
@[simp] theorem State.newId_fst (s : State) : s.newId.1 = s.clk.nextId := rfl
@[simp] theorem State.free_fst (s : State) : s.free.1 = Config.freeValue s.clk.freeNo := rfl
@[simp] theorem State.clockOn_stepNo (s : State) : s.clockOn.clk.stepNo = s.clk.stepNo + 1 := rfl
@[simp] theorem State.newId_sched (s : State) : s.newId.2.sched = s.sched := rfl
@[simp] theorem State.newId_units (s : State) : s.newId.2.units = s.units := rfl
@[simp] theorem State.newId_ctxs (s : State) : s.newId.2.ctxs = s.ctxs := rfl
@[simp] theorem State.newId_mem (s : State) : s.newId.2.mem = s.mem := rfl
@[simp] theorem State.newId_vaults (s : State) : s.newId.2.vaults = s.vaults := rfl
@[simp] theorem State.newId_lineKeys (s : State) : s.newId.2.lineKeys = s.lineKeys := rfl
@[simp] theorem State.newId_hist (s : State) : s.newId.2.hist = s.hist := rfl
@[simp] theorem State.newId_flaws (s : State) : s.newId.2.flaws = s.flaws := rfl
@[simp] theorem State.newId_caches (s : State) : s.newId.2.caches = s.caches := rfl
@[simp] theorem State.newId_txns (s : State) : s.newId.2.txns = s.txns := rfl
@[simp] theorem State.newId_ops (s : State) : s.newId.2.ops = s.ops := rfl
@[simp] theorem State.newId_commits (s : State) : s.newId.2.commits = s.commits := rfl
@[simp] theorem State.newId_grades (s : State) : s.newId.2.grades = s.grades := rfl
@[simp] theorem State.newId_work (s : State) : s.newId.2.work = s.work := rfl
@[simp] theorem State.newId_images (s : State) : s.newId.2.images = s.images := rfl
@[simp] theorem State.newId_records (s : State) : s.newId.2.records = s.records := rfl
@[simp] theorem State.newId_sys (s : State) : s.newId.2.sys = s.sys := rfl
@[simp] theorem State.newId_ecnt (s : State) : s.newId.2.ecnt = s.ecnt := rfl
@[simp] theorem State.newId_shoots (s : State) : s.newId.2.shoots = s.shoots := rfl
@[simp] theorem State.newId_outbox (s : State) : s.newId.2.outbox = s.outbox := rfl
@[simp] theorem State.newId_fabric (s : State) : s.newId.2.fabric = s.fabric := rfl
@[simp] theorem State.newId_draft (s : State) : s.newId.2.draft = s.draft := rfl
@[simp] theorem State.newId_host (s : State) : s.newId.2.host = s.host := rfl
@[simp] theorem State.free_sched (s : State) : s.free.2.sched = s.sched := rfl
@[simp] theorem State.free_units (s : State) : s.free.2.units = s.units := rfl
@[simp] theorem State.free_ctxs (s : State) : s.free.2.ctxs = s.ctxs := rfl
@[simp] theorem State.free_mem (s : State) : s.free.2.mem = s.mem := rfl
@[simp] theorem State.free_vaults (s : State) : s.free.2.vaults = s.vaults := rfl
@[simp] theorem State.free_lineKeys (s : State) : s.free.2.lineKeys = s.lineKeys := rfl
@[simp] theorem State.free_hist (s : State) : s.free.2.hist = s.hist := rfl
@[simp] theorem State.free_flaws (s : State) : s.free.2.flaws = s.flaws := rfl
@[simp] theorem State.free_caches (s : State) : s.free.2.caches = s.caches := rfl
@[simp] theorem State.free_txns (s : State) : s.free.2.txns = s.txns := rfl
@[simp] theorem State.free_ops (s : State) : s.free.2.ops = s.ops := rfl
@[simp] theorem State.free_commits (s : State) : s.free.2.commits = s.commits := rfl
@[simp] theorem State.free_grades (s : State) : s.free.2.grades = s.grades := rfl
@[simp] theorem State.free_work (s : State) : s.free.2.work = s.work := rfl
@[simp] theorem State.free_images (s : State) : s.free.2.images = s.images := rfl
@[simp] theorem State.free_records (s : State) : s.free.2.records = s.records := rfl
@[simp] theorem State.free_sys (s : State) : s.free.2.sys = s.sys := rfl
@[simp] theorem State.free_ecnt (s : State) : s.free.2.ecnt = s.ecnt := rfl
@[simp] theorem State.free_shoots (s : State) : s.free.2.shoots = s.shoots := rfl
@[simp] theorem State.free_outbox (s : State) : s.free.2.outbox = s.outbox := rfl
@[simp] theorem State.free_fabric (s : State) : s.free.2.fabric = s.fabric := rfl
@[simp] theorem State.free_draft (s : State) : s.free.2.draft = s.draft := rfl
@[simp] theorem State.free_host (s : State) : s.free.2.host = s.host := rfl

/-! ## Threads -/

@[simp] theorem Thread.setReg_live (th : Thread) (n v : Nat) : (th.setReg n v).live = th.live := rfl
@[simp] theorem Thread.setReg_pc (th : Thread) (n v : Nat) : (th.setReg n v).pc = th.pc := rfl
@[simp] theorem Thread.setReg_empty (th : Thread) (n v : Nat) : (th.setReg n v).empty = th.empty := rfl
@[simp] theorem Thread.setReg_preds (th : Thread) (n v : Nat) : (th.setReg n v).preds = th.preds := rfl
@[simp] theorem Thread.setReg_fsr (th : Thread) (n v : Nat) : (th.setReg n v).fsr = th.fsr := rfl
@[simp] theorem Thread.setReg_rstack (th : Thread) (n v : Nat) : (th.setReg n v).rstack = th.rstack := rfl
@[simp] theorem Thread.setReg_spilled (th : Thread) (n v : Nat) : (th.setReg n v).spilled = th.spilled := rfl
@[simp] theorem Thread.setReg_lrstat (th : Thread) (n v : Nat) : (th.setReg n v).lrstat = th.lrstat := rfl
@[simp] theorem Thread.setReg_lrTxn (th : Thread) (n v : Nat) : (th.setReg n v).lrTxn = th.lrTxn := rfl
@[simp] theorem Thread.setReg_wait (th : Thread) (n v : Nat) : (th.setReg n v).wait = th.wait := rfl
@[simp] theorem Thread.setReg_tried (th : Thread) (n v : Nat) : (th.setReg n v).tried = th.tried := rfl
@[simp] theorem Thread.setReg_hold (th : Thread) (n v : Nat) : (th.setReg n v).hold = th.hold := rfl
@[simp] theorem Thread.setReg_acquire (th : Thread) (n v : Nat) : (th.setReg n v).acquire = th.acquire := rfl
@[simp] theorem Thread.setReg_arrival (th : Thread) (n v : Nat) : (th.setReg n v).arrival = th.arrival := rfl
@[simp] theorem Thread.setReg_latch (th : Thread) (n v : Nat) : (th.setReg n v).latch = th.latch := rfl
@[simp] theorem Thread.setReg_fails (th : Thread) (n v : Nat) : (th.setReg n v).fails = th.fails := rfl
@[simp] theorem Thread.setReg_readySince (th : Thread) (n v : Nat) : (th.setReg n v).readySince = th.readySince := rfl
@[simp] theorem Thread.setReg_urgent (th : Thread) (n v : Nat) : (th.setReg n v).urgent = th.urgent := rfl
@[simp] theorem Thread.setReg_stop (th : Thread) (n v : Nat) : (th.setReg n v).stop = th.stop := rfl
@[simp] theorem Thread.setReg_passBp (th : Thread) (n v : Nat) : (th.setReg n v).passBp = th.passBp := rfl
@[simp] theorem Thread.setReg_stepping (th : Thread) (n v : Nat) : (th.setReg n v).stepping = th.stepping := rfl
@[simp] theorem Thread.setReg_virt (th : Thread) (n v : Nat) : (th.setReg n v).virt = th.virt := rfl
@[simp] theorem Thread.setReg_wrotePc (th : Thread) (n v : Nat) : (th.setReg n v).wrotePc = th.wrotePc := rfl
@[simp] theorem Thread.setReg_ifMark (th : Thread) (n v : Nat) : (th.setReg n v).ifMark = th.ifMark := rfl
@[simp] theorem Thread.setReg_marks (th : Thread) (n v : Nat) : (th.setReg n v).marks = th.marks := rfl
@[simp] theorem Thread.markFull_live (th : Thread) (n k : Nat) : (th.markFull n k).live = th.live := rfl
@[simp] theorem Thread.markFull_pc (th : Thread) (n k : Nat) : (th.markFull n k).pc = th.pc := rfl
@[simp] theorem Thread.markFull_regs (th : Thread) (n k : Nat) : (th.markFull n k).regs = th.regs := rfl
@[simp] theorem Thread.markFull_preds (th : Thread) (n k : Nat) : (th.markFull n k).preds = th.preds := rfl
@[simp] theorem Thread.markFull_fsr (th : Thread) (n k : Nat) : (th.markFull n k).fsr = th.fsr := rfl
@[simp] theorem Thread.markFull_rstack (th : Thread) (n k : Nat) : (th.markFull n k).rstack = th.rstack := rfl
@[simp] theorem Thread.markFull_spilled (th : Thread) (n k : Nat) : (th.markFull n k).spilled = th.spilled := rfl
@[simp] theorem Thread.markFull_lrstat (th : Thread) (n k : Nat) : (th.markFull n k).lrstat = th.lrstat := rfl
@[simp] theorem Thread.markFull_lrTxn (th : Thread) (n k : Nat) : (th.markFull n k).lrTxn = th.lrTxn := rfl
@[simp] theorem Thread.markFull_wait (th : Thread) (n k : Nat) : (th.markFull n k).wait = th.wait := rfl
@[simp] theorem Thread.markFull_tried (th : Thread) (n k : Nat) : (th.markFull n k).tried = th.tried := rfl
@[simp] theorem Thread.markFull_hold (th : Thread) (n k : Nat) : (th.markFull n k).hold = th.hold := rfl
@[simp] theorem Thread.markFull_acquire (th : Thread) (n k : Nat) : (th.markFull n k).acquire = th.acquire := rfl
@[simp] theorem Thread.markFull_arrival (th : Thread) (n k : Nat) : (th.markFull n k).arrival = th.arrival := rfl
@[simp] theorem Thread.markFull_latch (th : Thread) (n k : Nat) : (th.markFull n k).latch = th.latch := rfl
@[simp] theorem Thread.markFull_fails (th : Thread) (n k : Nat) : (th.markFull n k).fails = th.fails := rfl
@[simp] theorem Thread.markFull_readySince (th : Thread) (n k : Nat) : (th.markFull n k).readySince = th.readySince := rfl
@[simp] theorem Thread.markFull_urgent (th : Thread) (n k : Nat) : (th.markFull n k).urgent = th.urgent := rfl
@[simp] theorem Thread.markFull_stop (th : Thread) (n k : Nat) : (th.markFull n k).stop = th.stop := rfl
@[simp] theorem Thread.markFull_passBp (th : Thread) (n k : Nat) : (th.markFull n k).passBp = th.passBp := rfl
@[simp] theorem Thread.markFull_stepping (th : Thread) (n k : Nat) : (th.markFull n k).stepping = th.stepping := rfl
@[simp] theorem Thread.markFull_virt (th : Thread) (n k : Nat) : (th.markFull n k).virt = th.virt := rfl
@[simp] theorem Thread.markFull_wrotePc (th : Thread) (n k : Nat) : (th.markFull n k).wrotePc = th.wrotePc := rfl
@[simp] theorem Thread.markFull_ifMark (th : Thread) (n k : Nat) : (th.markFull n k).ifMark = th.ifMark := rfl
@[simp] theorem Thread.markFull_marks (th : Thread) (n k : Nat) : (th.markFull n k).marks = th.marks := rfl
@[simp] theorem Thread.markEmpty_live (th : Thread) (n k : Nat) (p : Producer) : (th.markEmpty n k p).live = th.live := rfl
@[simp] theorem Thread.markEmpty_pc (th : Thread) (n k : Nat) (p : Producer) : (th.markEmpty n k p).pc = th.pc := rfl
@[simp] theorem Thread.markEmpty_regs (th : Thread) (n k : Nat) (p : Producer) : (th.markEmpty n k p).regs = th.regs := rfl
@[simp] theorem Thread.markEmpty_preds (th : Thread) (n k : Nat) (p : Producer) : (th.markEmpty n k p).preds = th.preds := rfl
@[simp] theorem Thread.markEmpty_fsr (th : Thread) (n k : Nat) (p : Producer) : (th.markEmpty n k p).fsr = th.fsr := rfl
@[simp] theorem Thread.markEmpty_rstack (th : Thread) (n k : Nat) (p : Producer) : (th.markEmpty n k p).rstack = th.rstack := rfl
@[simp] theorem Thread.markEmpty_spilled (th : Thread) (n k : Nat) (p : Producer) : (th.markEmpty n k p).spilled = th.spilled := rfl
@[simp] theorem Thread.markEmpty_lrstat (th : Thread) (n k : Nat) (p : Producer) : (th.markEmpty n k p).lrstat = th.lrstat := rfl
@[simp] theorem Thread.markEmpty_lrTxn (th : Thread) (n k : Nat) (p : Producer) : (th.markEmpty n k p).lrTxn = th.lrTxn := rfl
@[simp] theorem Thread.markEmpty_wait (th : Thread) (n k : Nat) (p : Producer) : (th.markEmpty n k p).wait = th.wait := rfl
@[simp] theorem Thread.markEmpty_tried (th : Thread) (n k : Nat) (p : Producer) : (th.markEmpty n k p).tried = th.tried := rfl
@[simp] theorem Thread.markEmpty_hold (th : Thread) (n k : Nat) (p : Producer) : (th.markEmpty n k p).hold = th.hold := rfl
@[simp] theorem Thread.markEmpty_acquire (th : Thread) (n k : Nat) (p : Producer) : (th.markEmpty n k p).acquire = th.acquire := rfl
@[simp] theorem Thread.markEmpty_arrival (th : Thread) (n k : Nat) (p : Producer) : (th.markEmpty n k p).arrival = th.arrival := rfl
@[simp] theorem Thread.markEmpty_latch (th : Thread) (n k : Nat) (p : Producer) : (th.markEmpty n k p).latch = th.latch := rfl
@[simp] theorem Thread.markEmpty_fails (th : Thread) (n k : Nat) (p : Producer) : (th.markEmpty n k p).fails = th.fails := rfl
@[simp] theorem Thread.markEmpty_readySince (th : Thread) (n k : Nat) (p : Producer) : (th.markEmpty n k p).readySince = th.readySince := rfl
@[simp] theorem Thread.markEmpty_urgent (th : Thread) (n k : Nat) (p : Producer) : (th.markEmpty n k p).urgent = th.urgent := rfl
@[simp] theorem Thread.markEmpty_stop (th : Thread) (n k : Nat) (p : Producer) : (th.markEmpty n k p).stop = th.stop := rfl
@[simp] theorem Thread.markEmpty_passBp (th : Thread) (n k : Nat) (p : Producer) : (th.markEmpty n k p).passBp = th.passBp := rfl
@[simp] theorem Thread.markEmpty_stepping (th : Thread) (n k : Nat) (p : Producer) : (th.markEmpty n k p).stepping = th.stepping := rfl
@[simp] theorem Thread.markEmpty_virt (th : Thread) (n k : Nat) (p : Producer) : (th.markEmpty n k p).virt = th.virt := rfl
@[simp] theorem Thread.markEmpty_wrotePc (th : Thread) (n k : Nat) (p : Producer) : (th.markEmpty n k p).wrotePc = th.wrotePc := rfl
@[simp] theorem Thread.markEmpty_ifMark (th : Thread) (n k : Nat) (p : Producer) : (th.markEmpty n k p).ifMark = th.ifMark := rfl
@[simp] theorem Thread.markEmpty_marks (th : Thread) (n k : Nat) (p : Producer) : (th.markEmpty n k p).marks = th.marks := rfl
@[simp] theorem Thread.orFlags_live (th : Thread) (f : Nat) : (th.orFlags f).live = th.live := rfl
@[simp] theorem Thread.orFlags_pc (th : Thread) (f : Nat) : (th.orFlags f).pc = th.pc := rfl
@[simp] theorem Thread.orFlags_regs (th : Thread) (f : Nat) : (th.orFlags f).regs = th.regs := rfl
@[simp] theorem Thread.orFlags_empty (th : Thread) (f : Nat) : (th.orFlags f).empty = th.empty := rfl
@[simp] theorem Thread.orFlags_preds (th : Thread) (f : Nat) : (th.orFlags f).preds = th.preds := rfl
@[simp] theorem Thread.orFlags_rstack (th : Thread) (f : Nat) : (th.orFlags f).rstack = th.rstack := rfl
@[simp] theorem Thread.orFlags_spilled (th : Thread) (f : Nat) : (th.orFlags f).spilled = th.spilled := rfl
@[simp] theorem Thread.orFlags_lrstat (th : Thread) (f : Nat) : (th.orFlags f).lrstat = th.lrstat := rfl
@[simp] theorem Thread.orFlags_lrTxn (th : Thread) (f : Nat) : (th.orFlags f).lrTxn = th.lrTxn := rfl
@[simp] theorem Thread.orFlags_wait (th : Thread) (f : Nat) : (th.orFlags f).wait = th.wait := rfl
@[simp] theorem Thread.orFlags_tried (th : Thread) (f : Nat) : (th.orFlags f).tried = th.tried := rfl
@[simp] theorem Thread.orFlags_hold (th : Thread) (f : Nat) : (th.orFlags f).hold = th.hold := rfl
@[simp] theorem Thread.orFlags_acquire (th : Thread) (f : Nat) : (th.orFlags f).acquire = th.acquire := rfl
@[simp] theorem Thread.orFlags_arrival (th : Thread) (f : Nat) : (th.orFlags f).arrival = th.arrival := rfl
@[simp] theorem Thread.orFlags_latch (th : Thread) (f : Nat) : (th.orFlags f).latch = th.latch := rfl
@[simp] theorem Thread.orFlags_fails (th : Thread) (f : Nat) : (th.orFlags f).fails = th.fails := rfl
@[simp] theorem Thread.orFlags_readySince (th : Thread) (f : Nat) : (th.orFlags f).readySince = th.readySince := rfl
@[simp] theorem Thread.orFlags_urgent (th : Thread) (f : Nat) : (th.orFlags f).urgent = th.urgent := rfl
@[simp] theorem Thread.orFlags_stop (th : Thread) (f : Nat) : (th.orFlags f).stop = th.stop := rfl
@[simp] theorem Thread.orFlags_passBp (th : Thread) (f : Nat) : (th.orFlags f).passBp = th.passBp := rfl
@[simp] theorem Thread.orFlags_stepping (th : Thread) (f : Nat) : (th.orFlags f).stepping = th.stepping := rfl
@[simp] theorem Thread.orFlags_virt (th : Thread) (f : Nat) : (th.orFlags f).virt = th.virt := rfl
@[simp] theorem Thread.orFlags_wrotePc (th : Thread) (f : Nat) : (th.orFlags f).wrotePc = th.wrotePc := rfl
@[simp] theorem Thread.orFlags_ifMark (th : Thread) (f : Nat) : (th.orFlags f).ifMark = th.ifMark := rfl
@[simp] theorem Thread.orFlags_marks (th : Thread) (f : Nat) : (th.orFlags f).marks = th.marks := rfl
@[simp] theorem Thread.settled_live (th : Thread) (now : Nat) : (th.settled now).live = th.live := rfl
@[simp] theorem Thread.settled_pc (th : Thread) (now : Nat) : (th.settled now).pc = th.pc := rfl
@[simp] theorem Thread.settled_regs (th : Thread) (now : Nat) : (th.settled now).regs = th.regs := rfl
@[simp] theorem Thread.settled_empty (th : Thread) (now : Nat) : (th.settled now).empty = th.empty := rfl
@[simp] theorem Thread.settled_preds (th : Thread) (now : Nat) : (th.settled now).preds = th.preds := rfl
@[simp] theorem Thread.settled_fsr (th : Thread) (now : Nat) : (th.settled now).fsr = th.fsr := rfl
@[simp] theorem Thread.settled_rstack (th : Thread) (now : Nat) : (th.settled now).rstack = th.rstack := rfl
@[simp] theorem Thread.settled_spilled (th : Thread) (now : Nat) : (th.settled now).spilled = th.spilled := rfl
@[simp] theorem Thread.settled_lrstat (th : Thread) (now : Nat) : (th.settled now).lrstat = th.lrstat := rfl
@[simp] theorem Thread.settled_lrTxn (th : Thread) (now : Nat) : (th.settled now).lrTxn = th.lrTxn := rfl
@[simp] theorem Thread.settled_tried (th : Thread) (now : Nat) : (th.settled now).tried = th.tried := rfl
@[simp] theorem Thread.settled_hold (th : Thread) (now : Nat) : (th.settled now).hold = th.hold := rfl
@[simp] theorem Thread.settled_acquire (th : Thread) (now : Nat) : (th.settled now).acquire = th.acquire := rfl
@[simp] theorem Thread.settled_fails (th : Thread) (now : Nat) : (th.settled now).fails = th.fails := rfl
@[simp] theorem Thread.settled_stop (th : Thread) (now : Nat) : (th.settled now).stop = th.stop := rfl
@[simp] theorem Thread.settled_stepping (th : Thread) (now : Nat) : (th.settled now).stepping = th.stepping := rfl
@[simp] theorem Thread.settled_wrotePc (th : Thread) (now : Nat) : (th.settled now).wrotePc = th.wrotePc := rfl
@[simp] theorem Thread.settled_ifMark (th : Thread) (now : Nat) : (th.settled now).ifMark = th.ifMark := rfl
@[simp] theorem Thread.settled_marks (th : Thread) (now : Nat) : (th.settled now).marks = th.marks := rfl

@[simp] theorem Thread.setPred_live (th : Thread) (n : Nat) (b : Bool) : (th.setPred n b).live = th.live := by unfold Thread.setPred; split <;> rfl
@[simp] theorem Thread.setPred_pc (th : Thread) (n : Nat) (b : Bool) : (th.setPred n b).pc = th.pc := by unfold Thread.setPred; split <;> rfl
@[simp] theorem Thread.setPred_regs (th : Thread) (n : Nat) (b : Bool) : (th.setPred n b).regs = th.regs := by unfold Thread.setPred; split <;> rfl
@[simp] theorem Thread.setPred_empty (th : Thread) (n : Nat) (b : Bool) : (th.setPred n b).empty = th.empty := by unfold Thread.setPred; split <;> rfl
@[simp] theorem Thread.setPred_fsr (th : Thread) (n : Nat) (b : Bool) : (th.setPred n b).fsr = th.fsr := by unfold Thread.setPred; split <;> rfl
@[simp] theorem Thread.setPred_rstack (th : Thread) (n : Nat) (b : Bool) : (th.setPred n b).rstack = th.rstack := by unfold Thread.setPred; split <;> rfl
@[simp] theorem Thread.setPred_spilled (th : Thread) (n : Nat) (b : Bool) : (th.setPred n b).spilled = th.spilled := by unfold Thread.setPred; split <;> rfl
@[simp] theorem Thread.setPred_lrstat (th : Thread) (n : Nat) (b : Bool) : (th.setPred n b).lrstat = th.lrstat := by unfold Thread.setPred; split <;> rfl
@[simp] theorem Thread.setPred_lrTxn (th : Thread) (n : Nat) (b : Bool) : (th.setPred n b).lrTxn = th.lrTxn := by unfold Thread.setPred; split <;> rfl
@[simp] theorem Thread.setPred_wait (th : Thread) (n : Nat) (b : Bool) : (th.setPred n b).wait = th.wait := by unfold Thread.setPred; split <;> rfl
@[simp] theorem Thread.setPred_tried (th : Thread) (n : Nat) (b : Bool) : (th.setPred n b).tried = th.tried := by unfold Thread.setPred; split <;> rfl
@[simp] theorem Thread.setPred_hold (th : Thread) (n : Nat) (b : Bool) : (th.setPred n b).hold = th.hold := by unfold Thread.setPred; split <;> rfl
@[simp] theorem Thread.setPred_acquire (th : Thread) (n : Nat) (b : Bool) : (th.setPred n b).acquire = th.acquire := by unfold Thread.setPred; split <;> rfl
@[simp] theorem Thread.setPred_arrival (th : Thread) (n : Nat) (b : Bool) : (th.setPred n b).arrival = th.arrival := by unfold Thread.setPred; split <;> rfl
@[simp] theorem Thread.setPred_latch (th : Thread) (n : Nat) (b : Bool) : (th.setPred n b).latch = th.latch := by unfold Thread.setPred; split <;> rfl
@[simp] theorem Thread.setPred_fails (th : Thread) (n : Nat) (b : Bool) : (th.setPred n b).fails = th.fails := by unfold Thread.setPred; split <;> rfl
@[simp] theorem Thread.setPred_readySince (th : Thread) (n : Nat) (b : Bool) : (th.setPred n b).readySince = th.readySince := by unfold Thread.setPred; split <;> rfl
@[simp] theorem Thread.setPred_urgent (th : Thread) (n : Nat) (b : Bool) : (th.setPred n b).urgent = th.urgent := by unfold Thread.setPred; split <;> rfl
@[simp] theorem Thread.setPred_stop (th : Thread) (n : Nat) (b : Bool) : (th.setPred n b).stop = th.stop := by unfold Thread.setPred; split <;> rfl
@[simp] theorem Thread.setPred_passBp (th : Thread) (n : Nat) (b : Bool) : (th.setPred n b).passBp = th.passBp := by unfold Thread.setPred; split <;> rfl
@[simp] theorem Thread.setPred_stepping (th : Thread) (n : Nat) (b : Bool) : (th.setPred n b).stepping = th.stepping := by unfold Thread.setPred; split <;> rfl
@[simp] theorem Thread.setPred_virt (th : Thread) (n : Nat) (b : Bool) : (th.setPred n b).virt = th.virt := by unfold Thread.setPred; split <;> rfl
@[simp] theorem Thread.setPred_wrotePc (th : Thread) (n : Nat) (b : Bool) : (th.setPred n b).wrotePc = th.wrotePc := by unfold Thread.setPred; split <;> rfl
@[simp] theorem Thread.setPred_ifMark (th : Thread) (n : Nat) (b : Bool) : (th.setPred n b).ifMark = th.ifMark := by unfold Thread.setPred; split <;> rfl
@[simp] theorem Thread.setPred_marks (th : Thread) (n : Nat) (b : Bool) : (th.setPred n b).marks = th.marks := by unfold Thread.setPred; split <;> rfl

@[simp] theorem Thread.writeRegs_live (k : Nat) : ∀ (th : Thread) (n v : Nat), (th.writeRegs n k v).live = th.live := by
  induction k with
  | zero => exact fun _ _ _ => rfl
  | succ k ih => exact fun th n v => ih (th.setReg n v) (n + 1) (v / 2 ^ 32)
@[simp] theorem Thread.writeRegs_pc (k : Nat) : ∀ (th : Thread) (n v : Nat), (th.writeRegs n k v).pc = th.pc := by
  induction k with
  | zero => exact fun _ _ _ => rfl
  | succ k ih => exact fun th n v => ih (th.setReg n v) (n + 1) (v / 2 ^ 32)
@[simp] theorem Thread.writeRegs_empty (k : Nat) : ∀ (th : Thread) (n v : Nat), (th.writeRegs n k v).empty = th.empty := by
  induction k with
  | zero => exact fun _ _ _ => rfl
  | succ k ih => exact fun th n v => ih (th.setReg n v) (n + 1) (v / 2 ^ 32)
@[simp] theorem Thread.writeRegs_preds (k : Nat) : ∀ (th : Thread) (n v : Nat), (th.writeRegs n k v).preds = th.preds := by
  induction k with
  | zero => exact fun _ _ _ => rfl
  | succ k ih => exact fun th n v => ih (th.setReg n v) (n + 1) (v / 2 ^ 32)
@[simp] theorem Thread.writeRegs_fsr (k : Nat) : ∀ (th : Thread) (n v : Nat), (th.writeRegs n k v).fsr = th.fsr := by
  induction k with
  | zero => exact fun _ _ _ => rfl
  | succ k ih => exact fun th n v => ih (th.setReg n v) (n + 1) (v / 2 ^ 32)
@[simp] theorem Thread.writeRegs_rstack (k : Nat) : ∀ (th : Thread) (n v : Nat), (th.writeRegs n k v).rstack = th.rstack := by
  induction k with
  | zero => exact fun _ _ _ => rfl
  | succ k ih => exact fun th n v => ih (th.setReg n v) (n + 1) (v / 2 ^ 32)
@[simp] theorem Thread.writeRegs_spilled (k : Nat) : ∀ (th : Thread) (n v : Nat), (th.writeRegs n k v).spilled = th.spilled := by
  induction k with
  | zero => exact fun _ _ _ => rfl
  | succ k ih => exact fun th n v => ih (th.setReg n v) (n + 1) (v / 2 ^ 32)
@[simp] theorem Thread.writeRegs_lrstat (k : Nat) : ∀ (th : Thread) (n v : Nat), (th.writeRegs n k v).lrstat = th.lrstat := by
  induction k with
  | zero => exact fun _ _ _ => rfl
  | succ k ih => exact fun th n v => ih (th.setReg n v) (n + 1) (v / 2 ^ 32)
@[simp] theorem Thread.writeRegs_lrTxn (k : Nat) : ∀ (th : Thread) (n v : Nat), (th.writeRegs n k v).lrTxn = th.lrTxn := by
  induction k with
  | zero => exact fun _ _ _ => rfl
  | succ k ih => exact fun th n v => ih (th.setReg n v) (n + 1) (v / 2 ^ 32)
@[simp] theorem Thread.writeRegs_wait (k : Nat) : ∀ (th : Thread) (n v : Nat), (th.writeRegs n k v).wait = th.wait := by
  induction k with
  | zero => exact fun _ _ _ => rfl
  | succ k ih => exact fun th n v => ih (th.setReg n v) (n + 1) (v / 2 ^ 32)
@[simp] theorem Thread.writeRegs_tried (k : Nat) : ∀ (th : Thread) (n v : Nat), (th.writeRegs n k v).tried = th.tried := by
  induction k with
  | zero => exact fun _ _ _ => rfl
  | succ k ih => exact fun th n v => ih (th.setReg n v) (n + 1) (v / 2 ^ 32)
@[simp] theorem Thread.writeRegs_hold (k : Nat) : ∀ (th : Thread) (n v : Nat), (th.writeRegs n k v).hold = th.hold := by
  induction k with
  | zero => exact fun _ _ _ => rfl
  | succ k ih => exact fun th n v => ih (th.setReg n v) (n + 1) (v / 2 ^ 32)
@[simp] theorem Thread.writeRegs_acquire (k : Nat) : ∀ (th : Thread) (n v : Nat), (th.writeRegs n k v).acquire = th.acquire := by
  induction k with
  | zero => exact fun _ _ _ => rfl
  | succ k ih => exact fun th n v => ih (th.setReg n v) (n + 1) (v / 2 ^ 32)
@[simp] theorem Thread.writeRegs_arrival (k : Nat) : ∀ (th : Thread) (n v : Nat), (th.writeRegs n k v).arrival = th.arrival := by
  induction k with
  | zero => exact fun _ _ _ => rfl
  | succ k ih => exact fun th n v => ih (th.setReg n v) (n + 1) (v / 2 ^ 32)
@[simp] theorem Thread.writeRegs_latch (k : Nat) : ∀ (th : Thread) (n v : Nat), (th.writeRegs n k v).latch = th.latch := by
  induction k with
  | zero => exact fun _ _ _ => rfl
  | succ k ih => exact fun th n v => ih (th.setReg n v) (n + 1) (v / 2 ^ 32)
@[simp] theorem Thread.writeRegs_fails (k : Nat) : ∀ (th : Thread) (n v : Nat), (th.writeRegs n k v).fails = th.fails := by
  induction k with
  | zero => exact fun _ _ _ => rfl
  | succ k ih => exact fun th n v => ih (th.setReg n v) (n + 1) (v / 2 ^ 32)
@[simp] theorem Thread.writeRegs_readySince (k : Nat) : ∀ (th : Thread) (n v : Nat), (th.writeRegs n k v).readySince = th.readySince := by
  induction k with
  | zero => exact fun _ _ _ => rfl
  | succ k ih => exact fun th n v => ih (th.setReg n v) (n + 1) (v / 2 ^ 32)
@[simp] theorem Thread.writeRegs_urgent (k : Nat) : ∀ (th : Thread) (n v : Nat), (th.writeRegs n k v).urgent = th.urgent := by
  induction k with
  | zero => exact fun _ _ _ => rfl
  | succ k ih => exact fun th n v => ih (th.setReg n v) (n + 1) (v / 2 ^ 32)
@[simp] theorem Thread.writeRegs_stop (k : Nat) : ∀ (th : Thread) (n v : Nat), (th.writeRegs n k v).stop = th.stop := by
  induction k with
  | zero => exact fun _ _ _ => rfl
  | succ k ih => exact fun th n v => ih (th.setReg n v) (n + 1) (v / 2 ^ 32)
@[simp] theorem Thread.writeRegs_passBp (k : Nat) : ∀ (th : Thread) (n v : Nat), (th.writeRegs n k v).passBp = th.passBp := by
  induction k with
  | zero => exact fun _ _ _ => rfl
  | succ k ih => exact fun th n v => ih (th.setReg n v) (n + 1) (v / 2 ^ 32)
@[simp] theorem Thread.writeRegs_stepping (k : Nat) : ∀ (th : Thread) (n v : Nat), (th.writeRegs n k v).stepping = th.stepping := by
  induction k with
  | zero => exact fun _ _ _ => rfl
  | succ k ih => exact fun th n v => ih (th.setReg n v) (n + 1) (v / 2 ^ 32)
@[simp] theorem Thread.writeRegs_virt (k : Nat) : ∀ (th : Thread) (n v : Nat), (th.writeRegs n k v).virt = th.virt := by
  induction k with
  | zero => exact fun _ _ _ => rfl
  | succ k ih => exact fun th n v => ih (th.setReg n v) (n + 1) (v / 2 ^ 32)
@[simp] theorem Thread.writeRegs_wrotePc (k : Nat) : ∀ (th : Thread) (n v : Nat), (th.writeRegs n k v).wrotePc = th.wrotePc := by
  induction k with
  | zero => exact fun _ _ _ => rfl
  | succ k ih => exact fun th n v => ih (th.setReg n v) (n + 1) (v / 2 ^ 32)
@[simp] theorem Thread.writeRegs_ifMark (k : Nat) : ∀ (th : Thread) (n v : Nat), (th.writeRegs n k v).ifMark = th.ifMark := by
  induction k with
  | zero => exact fun _ _ _ => rfl
  | succ k ih => exact fun th n v => ih (th.setReg n v) (n + 1) (v / 2 ^ 32)
@[simp] theorem Thread.writeRegs_marks (k : Nat) : ∀ (th : Thread) (n v : Nat), (th.writeRegs n k v).marks = th.marks := by
  induction k with
  | zero => exact fun _ _ _ => rfl
  | succ k ih => exact fun th n v => ih (th.setReg n v) (n + 1) (v / 2 ^ 32)

end Sys2Proof.Machine
end

