-- ==== Sys2Proof/Machine/PresaText.lean ====
section
/-! DEFINITION. presa's source text: lines, tokens, expressions and operands (03_assembly_object R61 to R63, R67 to R69,
R71). No step of the device runs this text; the words it stands for are what the device fetches (log 80). -/

namespace Sys2Proof.Presa

open Machine

/-- What presa reports as wrong (R63). -/
inductive Wrong where
  | character | number | string | bracket | operandCount | operand | modifier | accessWord | expression | divideByZero
  | shiftCount | relocatable | undefinedSymbol | redefined | floatConstant | range | mnemonic | suffix | qualifierTwice
  | qualifierMissing | typeMissing | guard | codeAddress | reach | directive | directiveOperand | badSection | zeroFill
  | misaligned | unit | task | handler | routine | graph | insn
  | unsettled
  | encoding (why : Illegal)
  deriving DecidableEq, Repr

/-- A result, or the column and what is wrong there. -/
abbrev Res (α : Type) := Except (Nat × Wrong) α

/-! ## Tokens (R61, R62) -/

/-- A token. A whole number keeps whether it was written as decimal digits only; a float constant is m × 10^e. -/
inductive Tok where
  | name (s : String)
  | int (n : Nat) (plain : Bool)
  | float (m : Nat) (e : Int)
  | ref (n : Nat) (ahead : Bool)
  | str (s : String)
  | op (s : String)
  deriving DecidableEq, Repr

/-- Tokens with the columns they start in. -/
abbrev Toks := List (Nat × Tok)

def identStart (c : Char) : Bool := c.isAlpha || c == '_' || c == '.'
def identChar (c : Char) : Bool := identStart c || c.isDigit
def hexDigit (c : Char) : Bool := c.isDigit || (decide ('a' ≤ c) && decide (c ≤ 'f')) || (decide ('A' ≤ c) && decide (c ≤ 'F'))

/-- The value of a digit. -/
def digitVal (c : Char) : Nat :=
  if c.isDigit then c.toNat - 48 else if 'a' ≤ c then c.toNat - 87 else c.toNat - 55

/-- R62: an underscore stands between two digits only. -/
def underscoresOk : List Char → Bool
  | [] => false
  | ['_'] => false
  | [_] => true
  | '_' :: _ => false
  | _ :: '_' :: '_' :: _ => false
  | _ :: '_' :: cs => underscoresOk cs
  | _ :: cs => underscoresOk cs

/-- Digits of a base, underscores left out. -/
def digitsVal (base : Nat) (cs : List Char) : Nat :=
  (cs.filter (· != '_')).foldl (fun n c => n * base + digitVal c) 0

/-- The front of a list of characters that a test accepts, and the rest. -/
def spanChars (p : Char → Bool) : List Char → List Char × List Char
  | [] => ([], [])
  | c :: cs => if p c then (let r := spanChars p cs; (c :: r.1, r.2)) else ([], c :: cs)

/-- The quotation mark. -/
def quoteMark : Char := Char.ofNat 34

/-- The characters do not go on with an identifier. -/
def stops : List Char → Bool
  | [] => true
  | c :: _ => !identChar c

/-- An exponent at the front: its value and the rest; none when there is none. -/
def lexExponent : List Char → Option (Int × List Char)
  | e :: cs =>
    if e = 'e' ∨ e = 'E' then
      let (neg, ds) := match cs with
        | '-' :: ds => (true, ds)
        | '+' :: ds => (false, ds)
        | ds => (false, ds)
      match spanChars Char.isDigit ds with
      | ([], _) => none
      | (d, rest) => some ((if neg then -1 else 1) * (digitsVal 10 d : Int), rest)
    else none
  | [] => none

/-- A token that starts with a digit (R61, R62). -/
def lexNumber (cs : List Char) : Option (Tok × List Char) :=
  let radix := fun (base : Nat) (p : Char → Bool) (ds : List Char) =>
    match spanChars (fun c => p c || c == '_') ds with
    | (d, rest) => if underscoresOk d && stops rest then some (Tok.int (digitsVal base d) false, rest) else none
  let dec :=
    match spanChars (fun c => c.isDigit || c == '_') cs with
    | (d, rest) =>
      let whole := d.all Char.isDigit
      match rest with
      | '.' :: fs =>
        match spanChars Char.isDigit fs with
        | (f, rest) =>
          match lexExponent rest with
          | some (e, rest) => if whole && stops rest then some (.float (digitsVal 10 (d ++ f)) (e - f.length), rest) else none
          | none => if whole && stops rest then some (.float (digitsVal 10 (d ++ f)) (-(f.length : Int)), rest) else none
      | _ =>
        match lexExponent rest with
        | some (e, rest) => if whole && stops rest then some (.float (digitsVal 10 d) e, rest) else none
        | none =>
          match rest with
          | 'b' :: after => if whole && stops after then some (.ref (digitsVal 10 d) false, after) else none
          | 'f' :: after => if whole && stops after then some (.ref (digitsVal 10 d) true, after) else none
          | _ => if underscoresOk d && stops rest then some (.int (digitsVal 10 d) whole, rest) else none
  match cs with
  | '0' :: 'x' :: ds => radix 16 hexDigit ds
  | '0' :: 'b' :: d :: ds => if d == '0' || d == '1' then radix 2 (fun c => c == '0' || c == '1') (d :: ds) else dec
  | _ => dec

/-- The tokens of a line; a comment ends it (R61). The first number is a bound on the characters left. -/
def lexLine : Nat → Nat → List Char → Res Toks
  | _, _, [] => .ok []
  | 0, col, _ => .error (col, .character)
  | k + 1, col, c :: cs =>
    let put := fun (t : Tok) (n : Nat) (rest : List Char) => do
      let ts ← lexLine k (col + n) rest
      .ok ((col, t) :: ts)
    if c = ' ' ∨ c = '\t' ∨ c = '\r' then lexLine k (col + 1) cs
    else if c = ';' then .ok []
    else if c.isDigit then
      match lexNumber (c :: cs) with
      | some (t, rest) => put t ((c :: cs).length - rest.length) rest
      | none => .error (col, .number)
    else if identStart c then
      match spanChars identChar (c :: cs) with
      | (d, rest) => put (.name (String.ofList d)) d.length rest
    else if c = quoteMark then
      match spanChars (· != quoteMark) cs with
      | (d, _ :: rest) => put (.str (String.ofList d)) (d.length + 2) rest
      | (_, []) => .error (col, .string)
    else
      match c, cs with
      | '/', '/' :: _ => .ok []
      | '<', '<' :: rest => put (.op "<<") 2 rest
      | '>', '>' :: rest => put (.op ">>") 2 rest
      | _, _ => if [',', ':', '(', ')', '[', ']', '!', '-', '~', '*', '/', '%', '&', '^', '|', '+', '='].contains c then put (.op (String.ofList [c])) 1 cs else .error (col, .character)

/-! ## Lines (R61, R68) -/

/-- A label: an identifier or a numeric label. -/
inductive Label where
  | name (s : String)
  | num (n : Nat)
  deriving DecidableEq, Repr

/-- A line without its comment: label, guard, instruction or directive, operands. -/
structure Stmt where
  label : Option (Nat × Label) := none
  guard : Option (BitVec 7 × Bool) := none
  /-- column of the guard or of the mnemonic -/
  col : Nat := 1
  op : Option String := none
  args : List Toks := []
  deriving DecidableEq, Repr

/-- The operands of a line: separated by commas outside brackets. -/
def splitArgs : Nat → Toks → Toks → Res (List Toks)
  | 0, cur, [] => .ok [cur.reverse]
  | _ + 1, cur, [] => .error ((cur.head?.map (·.1)).getD 1, .bracket)
  | d, cur, (c, .op o) :: ts =>
    if o = "," ∧ d = 0 then do
      if cur = [] then .error (c, .operand)
      else .ok (cur.reverse :: (← splitArgs 0 [] ts))
    else if o = "(" ∨ o = "[" then splitArgs (d + 1) ((c, .op o) :: cur) ts
    else if o = ")" ∨ o = "]" then
      match d with
      | 0 => .error (c, .bracket)
      | d + 1 => splitArgs d ((c, .op o) :: cur) ts
    else splitArgs d ((c, .op o) :: cur) ts
  | d, cur, t :: ts => splitArgs d (t :: cur) ts

/-- A number below a bound written after a letter, without leading zeros. -/
def numbered (s : String) : Option (Char × Nat) :=
  match s.toList with
  | c :: ds =>
    if ds ≠ [] ∧ ds.all Char.isDigit ∧ (ds.head? ≠ some '0' ∨ ds.length = 1) then some (c, digitsVal 10 ds) else none
  | [] => none

/-- Names of the register kinds (R67). -/
inductive RegK where
  | g | d | q | p | m
  deriving DecidableEq, Repr

/-- A register name (R67). -/
def regOf (s : String) : Option (RegK × Nat) :=
  match numbered s with
  | some ('g', n) => if n < 256 then some (.g, n) else none
  | some ('d', n) => if n < 256 ∧ n % 2 = 0 then some (.d, n) else none
  | some ('q', n) => if n < 256 ∧ n % 4 = 0 then some (.q, n) else none
  | some ('p', n) => if n < 128 then some (.p, n) else none
  | some ('m', n) => if n < 16 then some (.m, n) else none
  | _ => none

/-- A guard at the front of a line (R68). -/
def guardOf (neg : Bool) (c : Nat) (s : String) : Res (BitVec 7 × Bool) :=
  match regOf s with
  | some (.p, n) => .ok (BitVec.ofNat 7 n, neg)
  | _ => .error (c, .guard)

/-- A line from its tokens. DESIGN CHOICE (log 80): R61 lets each part of a line be absent and says nothing of a guard with no
instruction after it; a guard that stands alone, or before a directive (Asm.run), is an error. -/
def stmtOf (ts : Toks) : Res Stmt := do
  let (label, ts) := match ts with
    | (c, .name s) :: (_, .op ":") :: r => (some (c, Label.name s), r)
    | (c, .int n true) :: (_, .op ":") :: r => (some (c, Label.num n), r)
    | r => (none, r)
  let col := (ts.head?.map (·.1)).getD 1
  let (guard, ts) ← match ts with
    | (_, .op "(") :: (c, .name s) :: (_, .op ")") :: r => do .ok (some (← guardOf false c s), r)
    | (_, .op "(") :: (_, .op "!") :: (c, .name s) :: (_, .op ")") :: r => do .ok (some (← guardOf true c s), r)
    | r => .ok (none, r)
  match ts with
  | [] => if guard.isSome then .error (col, .guard) else .ok { label, col }
  | (_, .name op) :: [] => .ok { label, guard, col, op := some op }
  | (_, .name op) :: r =>
    let args ← splitArgs 0 [] r
    match args.find? (· = []) with
    | some _ => .error (col, .operand)
    | none => .ok { label, guard, col, op := some op, args }
  | (c, _) :: _ => .error (c, .mnemonic)

/-- A source line (R61). -/
def parseLine (s : String) : Res Stmt := do stmtOf (← lexLine s.length 1 s.toList)

/-! ## Expressions (R62) -/

/-- Binary operators. -/
inductive BinOp where
  | mul | div | rem | shl | shr | and | xor | or | add | sub
  deriving DecidableEq, Repr

/-- The operator and its precedence in C, higher binding tighter. -/
def binOp (s : String) : Option (BinOp × Nat) :=
  match s with
  | "*" => some (.mul, 6)
  | "/" => some (.div, 6)
  | "%" => some (.rem, 6)
  | "+" => some (.add, 5)
  | "-" => some (.sub, 5)
  | "<<" => some (.shl, 4)
  | ">>" => some (.shr, 4)
  | "&" => some (.and, 3)
  | "^" => some (.xor, 2)
  | "|" => some (.or, 1)
  | _ => none

/-- An expression, with the columns of its symbols and operators. -/
inductive Expr where
  | int (n : Nat)
  | sym (c : Nat) (s : String)
  | ref (c : Nat) (n : Nat) (ahead : Bool)
  | neg (e : Expr)
  | inv (c : Nat) (e : Expr)
  | bin (c : Nat) (op : BinOp) (a b : Expr)
  deriving DecidableEq, Repr

/-- The binary operators of a level or above that follow an operand. -/
def climb (operand : Nat → Nat → Toks → Res (Expr × Toks)) (lvl : Nat) : Nat → Expr → Toks → Res (Expr × Toks)
  | 0, a, ts => .ok (a, ts)
  | k + 1, a, ts =>
    match ts with
    | (c, .op o) :: r =>
      match binOp o with
      | some (op, p) =>
        if p < lvl then .ok (a, ts)
        else do
          let (b, r) ← operand (p + 1) c r
          climb operand lvl k (.bin c op a b) r
      | none => .ok (a, ts)
    | _ => .ok (a, ts)

/-- An expression whose operators bind at a level or tighter. The first number bounds the tokens left; the third is the column
to report where they run out, that of the token before. DESIGN CHOICE (log 80): R62 does not say whether a float constant may
stand in an expression; it stands alone where a number is asked for, and is an error inside one. -/
def exprAt : Nat → Nat → Nat → Toks → Res (Expr × Toks)
  | 0, _, c, ts => .error ((ts.head?.map (·.1)).getD c, .expression)
  | k + 1, lvl, c, ts => do
    let (a, r) ← match ts with
      | (_, .int n _) :: r => .ok (Expr.int n, r)
      | (c, .name s) :: r => .ok (.sym c s, r)
      | (c, .ref n f) :: r => .ok (.ref c n f, r)
      | (c, .op "-") :: r => do
        let (e, r) ← exprAt k 7 c r
        .ok (.neg e, r)
      | (c, .op "~") :: r => do
        let (e, r) ← exprAt k 7 c r
        .ok (.inv c e, r)
      | (c, .op "(") :: r => do
        let (e, r) ← exprAt k 1 c r
        match r with
        | (_, .op ")") :: r => .ok (e, r)
        | _ => .error (c, .bracket)
      | (c, .float _ _) :: _ => .error (c, .floatConstant)
      | (c, _) :: _ => .error (c, .expression)
      | [] => .error (c, .expression)
    climb (exprAt k) lvl k a r

/-- The whole of the tokens as one expression; c is the column before them. -/
def exprOf (c : Nat) (ts : Toks) : Res Expr := do
  match ← exprAt (ts.length + 1) 1 c ts with
  | (e, []) => .ok e
  | (_, (c, _) :: _) => .error (c, .expression)

/-- What a symbolic term stands for: a name, or a place in a section (the operand `.` and the numeric labels). -/
inductive SymKey where
  | name (s : String)
  | at (sec off : Nat)
  deriving DecidableEq, Repr

/-- A value: a number plus symbols with whole coefficients. -/
structure Val where
  k : Int
  terms : List (SymKey × Int) := []
  deriving DecidableEq, Repr

/-- A term added to terms, equal symbols joined and zero coefficients left out. -/
def addTerm : List (SymKey × Int) → SymKey × Int → List (SymKey × Int)
  | [], t => if t.2 = 0 then [] else [t]
  | (s, c) :: ts, t =>
    if s = t.1 then (if c + t.2 = 0 then ts else (s, c + t.2) :: ts) else (s, c) :: addTerm ts t

/-- The sum of whole numbers. -/
def sumInt : List Int → Int
  | [] => 0
  | x :: xs => x + sumInt xs

/-- The offset of a symbol in its section; 0 for one that the file does not define. -/
def offsetOf (locate : SymKey → Option (Nat × Nat)) (s : SymKey) : Int :=
  match locate s with
  | some p => (p.2 : Nat)
  | none => 0

/-- R62: the symbols of one section are a constant where their coefficients cancel. locate gives the section and offset of
a symbol that the file defines. -/
def Val.settleSec (locate : SymKey → Option (Nat × Nat)) (v : Val) (sec : Nat) : Val :=
  let mine := v.terms.filter fun t => (locate t.1).any (·.1 == sec)
  if sumInt (mine.map (·.2)) = 0 then
    { k := v.k + sumInt (mine.map fun t => t.2 * offsetOf locate t.1), terms := v.terms.filter fun t => !mine.contains t }
  else v

/-- The sections of the symbols of terms. -/
def secsOf (locate : SymKey → Option (Nat × Nat)) (ts : List (SymKey × Int)) : List Nat :=
  (ts.filterMap fun t => (locate t.1).map (·.1)).eraseDups

/-- The value as a number or as one symbol plus a number; none where it reduces to neither (R62). -/
def Val.reduce (locate : SymKey → Option (Nat × Nat)) (v : Val) : Option (Int ⊕ (SymKey × Int)) :=
  let v := (secsOf locate v.terms).foldl (Val.settleSec locate) v
  match v.terms with
  | [] => some (.inl v.k)
  | [(s, c)] => if c = 1 then some (.inr (s, v.k)) else none
  | ts =>
    if (ts.all fun t => (locate t.1).isSome) ∧ (secsOf locate ts).length = 1 ∧ sumInt (ts.map (·.2)) = 1 then
      (ts.find? fun t => decide (0 < t.2)).map fun t =>
        .inr (t.1, v.k + sumInt (ts.map fun t => t.2 * offsetOf locate t.1) - offsetOf locate t.1)
    else none

/-- R62: an operator on whole numbers; division truncates toward zero. DESIGN CHOICE (log 80): a shift by a negative count,
which the spec gives no meaning, is an error. -/
def BinOp.eval (op : BinOp) (c : Nat) (x y : Int) : Res Int :=
  match op with
  | .mul => .ok (x * y)
  | .div => if y = 0 then .error (c, .divideByZero) else .ok (x.tdiv y)
  | .rem => if y = 0 then .error (c, .divideByZero) else .ok (x.tmod y)
  | .shl => if y < 0 then .error (c, .shiftCount) else .ok (x * 2 ^ y.toNat)
  | .shr => if y < 0 then .error (c, .shiftCount) else .ok (x.fdiv (2 ^ y.toNat))
  | .and => .ok (x.land y)
  | .xor => .ok (x.xor y)
  | .or => .ok (x.lor y)
  | .add => .ok (x + y)
  | .sub => .ok (x - y)

/-- The number a value is, or an error at a column where it has symbols left. -/
def Val.number (locate : SymKey → Option (Nat × Nat)) (c : Nat) (v : Val) : Res Int :=
  match v.reduce locate with
  | some (.inl k) => .ok k
  | _ => .error (c, .relocatable)

/-- The value of an expression; leaf gives the value of a symbol or a numeric label. -/
def Expr.eval (locate : SymKey → Option (Nat × Nat)) (leaf : Expr → Res Val) : Expr → Res Val
  | .int n => .ok { k := n }
  | .sym c s => leaf (.sym c s)
  | .ref c n f => leaf (.ref c n f)
  | .neg e => do
    let v ← e.eval locate leaf
    .ok { k := -v.k, terms := v.terms.map fun t => (t.1, -t.2) }
  | .inv c e => do .ok { k := -(← (← e.eval locate leaf).number locate c) - 1 }
  | .bin c op a b => do
    let x ← a.eval locate leaf
    let y ← b.eval locate leaf
    match op with
    | .add => .ok { k := x.k + y.k, terms := y.terms.foldl addTerm x.terms }
    | .sub => .ok { k := x.k - y.k, terms := y.terms.foldl (fun ts t => addTerm ts (t.1, -t.2)) x.terms }
    | .mul =>
      match x.reduce locate, y.reduce locate with
      | some (.inl n), _ => .ok { k := n * y.k, terms := (y.terms.map fun t => (t.1, n * t.2)).filter (·.2 != 0) }
      | _, some (.inl n) => .ok { k := n * x.k, terms := (x.terms.map fun t => (t.1, n * t.2)).filter (·.2 != 0) }
      | _, _ => .error (c, .relocatable)
    | .div | .rem | .shl | .shr | .and | .xor | .or => do
      .ok { k := ← op.eval c (← x.number locate c) (← y.number locate c) }

/-! ## Operands (R67, R69) -/

/-- A source as written: the register, its modifiers and its full/empty bit. -/
structure Src where
  kind : RegK
  num : Nat
  mod : LaneMod := .zero
  fe : Bool := false
  deriving DecidableEq, Repr

/-- What follows the address register inside brackets. -/
inductive AddrOff where
  | none
  | reg (n : Nat) (fe : Bool)
  | plus (e : Expr)
  | minus (e : Expr)
  deriving DecidableEq, Repr

/-- An operand. -/
inductive Operand where
  | src (s : Src)
  | addr (a : Nat) (fe : Bool) (off : AddrOff)
  | expr (e : Expr)
  | float (neg : Bool) (m : Nat) (e : Int)
  deriving DecidableEq, Repr

/-- The segment size of a written size. -/
def segOf (n : Nat) : Option SegSize :=
  [SegSize.s32, .s2, .s4, .s8, .s16].find? (·.lanes == n)

/-- The class of a written lane modifier. -/
def classOf (s : String) : Option ModClass :=
  match s with
  | "rot" => some .rotate
  | "bfly" => some .butterfly
  | "bcast" => some .broadcast
  | _ => none

/-- The lane modifier and the `!` after a register. -/
def srcTail (s : Src) (ts : Toks) : Res Src := do
  let (s, ts) ← match ts with
    | (c, .op "^") :: (_, .name f) :: (_, .op "(") :: (_, .int n _) :: (_, .op ",") :: (_, .int dist _) :: (_, .op ")") :: r =>
      match classOf f, segOf n with
      | some cls, some seg => if dist < n then .ok ({ s with mod := { s.mod with cls, seg, dist := BitVec.ofNat 5 dist } }, r) else .error (c, .modifier)
      | _, _ => .error (c, .modifier)
    | r => .ok (s, r)
  match ts with
  | [] => .ok s
  | [(_, .op "!")] => .ok { s with fe := true }
  | (c, _) :: _ => .error (c, .operand)

/-- A source with a numeric modifier; none where the name is no register. -/
def srcOf (num : NumMod) (s : String) (r : Toks) : Res (Option Operand) :=
  match regOf s with
  | some (k, n) => do .ok (some (.src (← srcTail { kind := k, num := n, mod := { LaneMod.zero with num } } r)))
  | none => .ok none

/-- What stands after the address register inside the brackets; c is their column (R67, R210). An offset register may carry
the `!` of its full/empty bit (R48). -/
def offOf (c : Nat) (ts : Toks) : Res AddrOff :=
  match ts with
  | [] => .ok .none
  | (_, .op "+") :: (cx, .name x) :: e =>
    match e, regOf x with
    | [], some (.g, n) => .ok (.reg n false)
    | [(_, .op "!")], some (.g, n) => .ok (.reg n true)
    | _, some _ => .error (cx, .operand)
    | _, none => do .ok (.plus (← exprOf cx ((cx, .name x) :: e)))
  | (cp, .op "+") :: e => do .ok (.plus (← exprOf cp e))
  | (_, .op "-") :: (cx, .name x) :: e =>
    if (regOf x).isSome then .error (cx, .operand) else do .ok (.minus (← exprOf cx ((cx, .name x) :: e)))
  | (cp, .op "-") :: e => do .ok (.minus (← exprOf cp e))
  | _ => .error (c, .operand)

/-- A memory address: the register's name and the tokens after it, the closing bracket the last; the address register may
carry the `!` of its full/empty bit (R48). -/
def addrOf (c : Nat) (s : String) (r : Toks) : Res Operand :=
  match regOf s, r.getLast? with
  | some (.g, a), some t =>
    if t.2 ≠ .op "]" then .error (c, .bracket)
    else
      match r.dropLast with
      | (_, .op "!") :: off => do .ok (.addr a true (← offOf c off))
      | off => do .ok (.addr a false (← offOf c off))
  | _, _ => .error (c, .operand)

/-- An operand of an instruction. -/
def operandOf (ts : Toks) : Res Operand := do
  let found : Option Operand ← match ts with
    | (_, .op "-") :: (_, .op "|") :: (_, .name s) :: (_, .op "|") :: r => srcOf .negAbs s r
    | (_, .op "|") :: (_, .name s) :: (_, .op "|") :: r => srcOf .abs s r
    | (_, .op "-") :: (_, .name s) :: r => srcOf .neg s r
    | (_, .name s) :: r => srcOf .none s r
    | [(_, .float m e)] => .ok (some (.float false m e))
    | [(_, .op "-"), (_, .float m e)] => .ok (some (.float true m e))
    | (c, .op "[") :: (_, .name s) :: r => do .ok (some (← addrOf c s r))
    | _ => .ok none
  match found with
  | some o => .ok o
  | none => do .ok (.expr (← exprOf ((ts.head?.map (·.1)).getD 1) ts))

/-- One word of an access-control operand: its group and the field with the word set (R69). -/
def accessWord (s : String) (a : Access) : Option (Nat × Access) :=
  match s with
  | "ep0" => some (0, { a with ep := 0 })
  | "ep1" => some (0, { a with ep := 1 })
  | "ep2" => some (0, { a with ep := 2 })
  | "ep3" => some (0, { a with ep := 3 })
  | "na" => some (1, { a with na := true })
  | "l1b" => some (2, { a with l1b := true })
  | "plain" => some (3, { a with ord := .plain })
  | "acq" => some (3, { a with ord := .acquire })
  | "rel" => some (3, { a with ord := .release })
  | "acqrel" => some (3, { a with ord := .acqRel })
  | "crew" => some (4, { a with scope := .crew })
  | "unit" => some (4, { a with scope := .unit })
  | "isle" => some (4, { a with scope := .isle })
  | "die" => some (4, { a with scope := .die })
  | "device" => some (4, { a with scope := .device })
  | "system" => some (4, { a with scope := .system })
  | "fabric" => some (4, { a with scope := .fabric })
  | "global" => some (5, { a with space := .global })
  | "local" => some (5, { a with space := .localMem })
  | "vault" => some (5, { a with space := .vault })
  | _ => none

/-- The words of an access-control operand, each group at most once. -/
def accessOf : List Nat → Access → Toks → Res Access
  | _, a, [] => .ok a
  | seen, a, (c, .name s) :: ts =>
    match accessWord s a with
    | some (g, a) => if seen.contains g then .error (c, .accessWord) else accessOf (g :: seen) a ts
    | none => .error (c, .accessWord)
  | _, _, (c, _) :: _ => .error (c, .accessWord)

/-- The operand starts with a word of the access-control groups. -/
def isAccess (ts : Toks) : Bool :=
  match ts with
  | (_, .name s) :: _ => (accessWord s .base).isSome
  | _ => false

/-! ## Constants (R71) -/

/-- A whole number or a float constant rounded to nearest even in a scalar format, and whether that was inexact. -/
def floatBits (t : Ty) (neg : Bool) (m : Nat) (e : Int) : Nat × Bool :=
  let f := fmtOf t
  let r :=
    if 0 ≤ e then f.roundFin .rne neg (m * 10 ^ e.toNat) 0
    else
      let den := 10 ^ (-e).toNat
      let k := 80 + Nat.log2 den
      let q := m * 2 ^ k / den
      let rem := m * 2 ^ k % den
      f.roundFin .rne neg (2 * q + (if rem = 0 then 0 else 1)) (-(k : Int) - 1)
  (r.1, r.2 != 0)

/-- Scalar float types (R42). -/
def scalarFloat (t : Ty) : Bool := t == .f32 || t == .f16 || t == .bf16

/-- A whole number as the literal of an operand of a type, and whether rounding it was inexact; none out of range. DESIGN CHOICE (log 80): R71
gives no range for a constant on a 128-bit operand; the model takes that of a 64-bit one. -/
def intLiteral (t : Ty) (v : Int) : Option (Nat × Bool) :=
  if scalarFloat t then some (floatBits t (decide (v < 0)) v.natAbs 0)
  else
    let w := if 64 ≤ t.width then 64 else 32
    if -(2 ^ (w - 1) : Nat) ≤ v ∧ v < (2 ^ w : Nat) then some (wrap w v, false) else none

end Sys2Proof.Presa
end

