-- ==== Sys2Proof/Machine/Presa.lean ====
section
/-! DEFINITION. presa's mnemonics and the words it chooses for them, its raw form and its disassembly (03_assembly_object R64
to R73; the qualifier tables of R96, R118, R145, R171, R198, R215, R249, R281, R320, R361, R386, R420, R449, R462; R292). No
step of the device runs this (log 80). -/

namespace Sys2Proof.Presa

/-! ## Mnemonics (R64, R65) -/

/-- A group of qualifiers: the SUB bits it sets, its names with the values they set, and whether one must be written. -/
structure Group where
  lo : Nat
  width : Nat
  names : List (String × Nat)
  req : Bool := false
  deriving DecidableEq, Repr

/-- Names with consecutive values. -/
def named (lo width first : Nat) (names : List String) : Group :=
  { lo, width, names := names.zipIdx first }

/-- The hexadecimal digits of a number, lower case. -/
def hexDigits : Nat → Nat → String
  | 0, _ => ""
  | k + 1, n => hexDigits k (n / 16) ++ String.ofList [(['0', '1', '2', '3', '4', '5', '6', '7', '8', '9', 'a', 'b', 'c', 'd', 'e', 'f'] : List Char).getD (n % 16) '0']

/-- The decimal digits of a number. -/
def decDigits (n : Nat) : String := toString n

/-- A stem followed by the numbers from first on. -/
def counted (stem : String) (first count : Nat) : List String :=
  (List.range count).map fun k => stem ++ decDigits (first + k)

/-- A mnemonic's op: the major, its function for an FN major, and its qualifiers in canonical order. -/
structure OpRow where
  name : String
  major : Nat
  fn : Nat := 0
  groups : List Group := []
  deriving DecidableEq, Repr

/-- R58: the FN majors, whose SUB[7:4] is a function. -/
def fnMajor (op : Nat) : Bool := [0x16, 0x2B, 0x3B, 0x3E, 0x3F, 0x71, 0x77, 0x78, 0x79, 0x7B, 0x7C, 0x7D, 0x7E].contains op

/-- Ops without qualifiers, in consecutive majors. -/
def plainOps (first : Nat) (names : List String) : List OpRow :=
  (names.zipIdx first).map fun p => { name := p.1, major := p.2 }

/-- Ops without qualifiers that are the functions of one major. -/
def fnOps (major first : Nat) (names : List String) : List OpRow :=
  (names.zipIdx first).map fun p => { name := p.1, major, fn := 16 * p.2 }

def condNames : List String := ["eq", "ne", "lt", "le", "gt", "ge"]
def fcondNames : List String := condNames ++ ["un", "ord"]
def rndNames : List String := ["rne", "rtz", "rup", "rdn"]
def combNames : List String := ["add", "min", "max", "and", "or", "xor"]
def pathNames : List String := ["thr", "copy", "mat", "pft", "fab", "draft"]
def gradeNames : List String := ["guess", "prov", "final"]
def combineGroup : Group := named 4 2 1 ["pand", "por"]
def rndGroup : Group := named 0 3 1 rndNames
def kindGroup : Group := named 0 2 1 ["pr", "fsr", "pc"]
def levelGroup : Group := named 0 4 0 ["launch", "graph", "phase", "job"]

/-- The names of R94. -/
def sregNames : List (String × Nat) :=
  [("lane", 0x00), ("crew", 0x01), ("ncrew", 0x02), ("unitx", 0x04), ("unity", 0x05), ("unitz", 0x06), ("gridx", 0x08),
   ("gridy", 0x09), ("gridz", 0x0A), ("launch", 0x0C), ("task", 0x0D), ("version", 0x0E), ("prio", 0x0F), ("tmode", 0x10),
   ("core", 0x11), ("isle", 0x12), ("die", 0x13), ("device", 0x14), ("incarnation", 0x15), ("rslot", 0x16), ("cycle", 0x18)] ++
  (counted "cwp" 0 8).zipIdx 0x20 ++ [("lrstat", 0x28)]

/-- 04_integer and 05_control (R96, R118). -/
def opsA : List OpRow :=
  plainOps 0x00 ["iadd", "isub", "imul", "imulh", "imad", "idiv", "irem", "imin", "imax", "iabs", "ineg", "and", "or", "xor",
    "andn", "not", "shl", "shr", "sar", "rol", "bfe", "bfi"] ++
  fnOps 0x16 0 ["popc", "clz", "brev"] ++
  [{ name := "lea", major := 0x18, groups := [named 0 3 1 (counted "sh" 1 7), named 3 1 1 ["zx"]] },
   { name := "icmp", major := 0x19, groups := [named 0 4 0 condNames, combineGroup] },
   { name := "pset", major := 0x1A, groups := [named 0 1 1 ["all"]] },
   { name := "plop", major := 0x1B, groups := [{ named 0 8 0 ((List.range 256).map fun n => "lut" ++ hexDigits 2 n) with req := true }] },
   { name := "sel", major := 0x1C }, { name := "mov", major := 0x1D },
   { name := "sreg", major := 0x1E, groups := [{ lo := 0, width := 8, names := sregNames, req := true }] },
   { name := "cvti", major := 0x1F, groups := [named 0 4 0 ["fromi32", "fromu32", "fromi64", "fromu64", "fromi16x2", "fromu16x2", "fromi8x4", "fromu8x4"], named 4 2 0 (counted "e" 0 4)] },
   { name := "br", major := 0x20 },
   { name := "brx", major := 0x21, groups := [{ named 0 8 0 (counted "n" 1 256) with req := true }] },
   { name := "call", major := 0x22 }, { name := "callx", major := 0x23 }, { name := "ret", major := 0x24 },
   { name := "exit", major := 0x25 },
   { name := "mset", major := 0x26, groups := [named 0 2 1 ["add", "del"]] },
   { name := "mjoin", major := 0x27 }, { name := "mbar", major := 0x28 },
   { name := "mop", major := 0x29, groups := [{ named 0 4 0 ((List.range 16).map fun n => "lut" ++ hexDigits 1 n) with req := true }] },
   { name := "yield", major := 0x2A }, { name := "nop", major := 0x2B },
   { name := "brk", major := 0x2B, fn := 0x10, groups := [named 0 4 0 (counted "c" 0 16)] }] ++
  plainOps 0x2C ["fwait", "ftest", "fcancel", "fmov"]

/-- 06_float, 07_matrix and 08_crosslane (R145, R171, R198). -/
def opsB : List OpRow :=
  ["fadd", "fsub", "fmul", "ffma"].zipIdx.map (fun p => { name := p.1, major := 0x30 + p.2, groups := [rndGroup] }) ++
  plainOps 0x34 ["fmin", "fmax"] ++
  [{ name := "fcmp", major := 0x36, groups := [named 0 4 0 fcondNames, combineGroup] },
   { name := "fsel", major := 0x37, groups := [named 0 4 0 condNames] },
   { name := "frcp", major := 0x38 }, { name := "frsq", major := 0x39 },
   { name := "fsqrt", major := 0x3A, groups := [rndGroup] }] ++
  fnOps 0x3B 0 ["fexp2", "flog2", "ftanh"] ++
  [{ name := "fclass", major := 0x3C },
   { name := "cvtf", major := 0x3D, groups := [{ lo := 3, width := 5, req := true, names := [("fromi32", 0), ("fromu32", 1), ("fromf32", 8), ("fromf16", 9), ("frombf16", 10), ("fromf16x2", 11), ("frombf16x2", 12), ("frome4m3x4", 13), ("frome5m2x4", 14)] }, rndGroup] },
   { name := "fpack", major := 0x3E, groups := [named 0 1 1 ["hdr"]] },
   { name := "funpack", major := 0x3E, fn := 0x10, groups := [named 0 1 1 ["hi"]] },
   { name := "fsrr", major := 0x3F, groups := [named 0 1 1 ["clr"]] },
   { name := "fsrw", major := 0x3F, fn := 0x10, groups := [named 0 2 1 ["flags", "rm"]] },
   { name := "mma", major := 0x40, groups := [named 0 1 1 ["solo"]] },
   { name := "mmasp", major := 0x41, groups := [{ named 1 2 1 ["n8", "n16", "n32"] with req := true }, named 0 1 1 ["solo"]] },
   { name := "bload", major := 0x42 }, { name := "mdrain", major := 0x43 },
   { name := "mzero", major := 0x44, groups := [named 0 2 0 (counted "acc" 0 4)] },
   { name := "mstat", major := 0x45, groups := [{ lo := 0, width := 5, names := (counted "acc" 0 4).zipIdx ++ (counted "bs" 0 16).zipIdx 16, req := true }, named 5 2 1 ["fmt", "sa", "sb"]] },
   { name := "vote", major := 0x48, groups := [named 0 2 1 ["all", "any", "uni"]] },
   { name := "cred", major := 0x49, groups := [named 0 4 0 combNames, named 4 3 1 rndNames] },
   { name := "cscan", major := 0x4A, groups := [named 0 4 0 combNames, named 4 3 1 rndNames, named 7 1 1 ["excl"]] },
   { name := "cperm", major := 0x4B, groups := [named 0 1 1 ["wrap"]] },
   { name := "sample", major := 0x4C },
   { name := "xget", major := 0x4D, groups := [kindGroup, named 2 1 1 ["fe"]] },
   { name := "xput", major := 0x4E, groups := [kindGroup] }]

/-- 09_memory, 10_ordering and 11_atomics_routines (R215, R249, R281). -/
def opsC : List OpRow :=
  [{ name := "ld", major := 0x50, groups := [named 0 1 1 ["sx"]] }, { name := "st", major := 0x51 },
   { name := "ldnc", major := 0x52, groups := [named 0 1 1 ["sx"]] }, { name := "stnc", major := 0x53 },
   { name := "pf", major := 0x54 }, { name := "pft", major := 0x55 },
   { name := "cflush", major := 0x56, groups := [named 0 2 1 ["evict", "l1"]] },
   { name := "copy", major := 0x57, groups := [named 0 3 0 (counted "ch" 0 8)] },
   { name := "bbwait", major := 0x58 }, { name := "bgive", major := 0x59 },
   { name := "btake", major := 0x5A, groups := [named 0 1 1 ["wait"]] }, { name := "binfo", major := 0x5B },
   { name := "fence", major := 0x60, groups := [named 6 2 0 ["full", "acq", "rel", "ww"], named 3 3 0 ["device", "crew", "unit", "isle", "die", "system", "fabric"]] },
   { name := "pfence", major := 0x61, groups := [{ named 0 4 0 pathNames with req := true }, { named 4 4 0 pathNames with req := true }] },
   { name := "ifence", major := 0x62 },
   { name := "atom", major := 0x68, groups := [named 0 4 0 (combNames ++ ["exch"])] },
   { name := "ared", major := 0x69, groups := [named 0 4 0 (combNames ++ ["exch"])] },
   { name := "acas", major := 0x6A, groups := [named 0 1 1 ["nf"]] }, { name := "lrdef", major := 0x6B },
   { name := "lrun", major := 0x6C, groups := [{ named 0 6 0 (counted "n" 0 64) with req := true }] },
   { name := "lrdrop", major := 0x6D },
   { name := "waitv", major := 0x6E, groups := [named 0 1 1 ["to"]] }, { name := "wakev", major := 0x6F }]

/-- 12_tasks_grades to 17_generation_host (R320, R361, R386, R420, R449, R462). -/
def opsD : List OpRow :=
  [{ name := "tspawn", major := 0x70 }] ++ fnOps 0x71 0 ["tcommit", "trigger"] ++
  [{ name := "tabort", major := 0x71, fn := 0x20, groups := [named 0 1 1 ["end"]] }, { name := "tseal", major := 0x71, fn := 0x30 },
   { name := "tstat", major := 0x72 },
   { name := "gread", major := 0x73, groups := [named 0 1 1 ["peek"]] },
   { name := "gpub", major := 0x74, groups := [{ named 0 2 1 gradeNames with req := true }, named 2 1 1 ["same"]] },
   { name := "gwait", major := 0x75, groups := [{ named 0 2 1 gradeNames with req := true }, named 2 1 1 ["chg"]] },
   { name := "launch", major := 0x76 }, { name := "wfetch", major := 0x77 },
   { name := "cancel", major := 0x77, fn := 0x10, groups := [levelGroup] },
   { name := "ccount", major := 0x77, fn := 0x20, groups := [levelGroup] }] ++
  fnOps 0x77 3 ["progress", "budget"] ++ fnOps 0x78 0 ["rld", "rld3"] ++ fnOps 0x79 0 ["rst", "mcst"] ++
  [{ name := "ratom", major := 0x7A, groups := [named 0 4 0 combNames, named 4 1 1 ["nf"]] },
   { name := "rfence", major := 0x7B, groups := [named 0 1 1 ["dev"]] },
   { name := "lwin", major := 0x7B, fn := 0x10, groups := [named 0 1 1 ["close"]] }] ++
  fnOps 0x7C 0 ["trap", "resume", "hret"] ++
  fnOps 0x7D 0 ["shoot", "shootsync", "pinset", "pincap", "ctxsave", "ctxload", "sysrd", "syswr"] ++
  [{ name := "dprop", major := 0x7E, groups := [{ lo := 0, width := 4, names := (List.range 16).map fun k => ("n" ++ decDigits (16 - k), k) }] }] ++
  fnOps 0x7E 1 ["dapp", "dclr", "rpub"]

/-- Every op that presa knows. -/
def opRows : List OpRow := opsA ++ opsB ++ opsC ++ opsD

/-- The names of R42, in the order of their codes. -/
def tyNames : List String :=
  ["i32", "u32", "i64", "u64", "i16x2", "u16x2", "i8x4", "u8x4", "f32", "f16", "bf16", "f16x2", "bf16x2", "e4m3x4", "e5m2x4",
   "e2m1x8", "b32", "b64", "b128", "b8", "b16"]

/-- The type of a name. -/
def tyOfName (s : String) : Option Ty := (tyNames.zipIdx.find? (·.1 == s)).bind fun p => Ty.ofCode p.2

/-- The name of a type. -/
def tyName (t : Ty) : String := tyNames.getD t.code ""

/-- A mnemonic taken apart. -/
structure Mnem where
  row : OpRow
  sub : Nat
  ty : Option Ty := none
  u : Bool := false
  s : Bool := false
  msk : Nat := 15
  /-- groups already written -/
  done : List Nat := []
  /-- parts already written: 0 qualifiers, 1 type, 2 u, 3 s, 4 mN -/
  stage : Nat := 0
  deriving DecidableEq, Repr

/-- One suffix (R65). A name of two groups sets the first of them that is not set yet (R249). -/
def Mnem.suffix (m : Mnem) (p : String) : Except Wrong Mnem :=
  let hits := m.row.groups.zipIdx.filterMap fun g => (g.1.names.find? (·.1 == p)).map fun v => (g.2, v.2 * 2 ^ g.1.lo)
  if hits ≠ [] then
    if m.stage ≠ 0 then .error .suffix
    else
      match hits.find? (fun h => !m.done.contains h.1) with
      | some h => .ok { m with sub := m.sub + h.2, done := h.1 :: m.done }
      | none => .error .qualifierTwice
  else
    match tyOfName p with
    | some t => if m.stage < 1 then .ok { m with ty := some t, stage := 1 } else .error .suffix
    | none =>
      if p = "u" then (if m.stage < 2 then .ok { m with u := true, stage := 2 } else .error .suffix)
      else if p = "s" then (if m.stage < 3 then .ok { m with s := true, stage := 3 } else .error .suffix)
      else
        match regOf p with
        | some (.m, n) => if m.stage < 4 then .ok { m with msk := n, stage := 4 } else .error .suffix
        | _ => .error .suffix

/-- The parts of a mnemonic between its full stops. -/
def splitDots : List Char → List Char → List String
  | cur, [] => [String.ofList cur.reverse]
  | cur, '.' :: cs => String.ofList cur.reverse :: splitDots [] cs
  | cur, c :: cs => splitDots (c :: cur) cs

/-- A mnemonic (R64, R65). -/
def mnemOf (s : String) : Except Wrong Mnem :=
  match splitDots [] s.toList with
  | op :: parts =>
    match opRows.find? (·.name == op) with
    | none => .error .mnemonic
    | some row => do
      let m ← parts.foldlM Mnem.suffix { row, sub := row.fn }
      if row.groups.zipIdx.any (fun g => g.1.req && !m.done.contains g.2) then .error .qualifierMissing else .ok m
  | [] => .error .mnemonic

/-- The instruction of a mnemonic and operand fields. -/
def Mnem.instr (m : Mnem) (x : Form) (ac : Access) : Option Instr := Instr.ofOpSub m.row.major m.sub x ac

/-- The default type of a major (R64): the first type of its row, but for those whose chapter says otherwise. -/
def Mnem.defaultTy (m : Mnem) : Option Ty :=
  if m.row.major = 0x1F ∨ m.row.major = 0x3D then none
  else if m.row.major = 0x14 then some .u32
  else if m.row.major = 0x49 ∨ m.row.major = 0x4A then some .i32
  else
    match (m.instr (.plain false .i32) .base).bind Instr.view with
    | some v => some (v.row.types.head?.getD .i32)
    | none => none

/-! ## Operands and lengths (R67 to R72) -/

/-- How an address operand is written: with an offset that fills source B, without one, or not in brackets (R67, R210,
R229, R282, R301, R320, R386). -/
inductive AddrStyle where
  | none | bare | offset
  deriving DecidableEq, Repr

def Mnem.addrStyle (m : Mnem) : AddrStyle :=
  let op := m.row.major
  if [0x50, 0x51, 0x52, 0x53, 0x54, 0x73, 0x74, 0x75].contains op || (op == 0x79 && m.row.fn == 0) then .offset
  else if [0x56, 0x68, 0x69, 0x6A, 0x6E, 0x6F, 0x78, 0x79, 0x7A].contains op then .bare
  else .none

/-- The register kind that a field is written with (R67). -/
def Kind.written (k : Kind) (r : RegK) : Bool :=
  match k, r with
  | .regs 1, .g | .regs 2, .d | .regs 4, .q | .handle, .g | .pred, .p | .mask, .m => true
  | _, _ => false

/-- The type that governs a constant in source B (R71). -/
def constTy (m : Mnem) (v : View) : Ty :=
  let op := m.row.major
  let byRegs := match v.row.b with
    | .regs 2 => Ty.b64
    | .regs 4 => .b128
    | _ => .b32
  if [0x68, 0x69, 0x6A, 0x6E, 0x7A].contains op then v.x.ty
  else if op = 0x4C ∨ (op = 0x3E ∧ m.sub = 1) then .f32
  else
    match v.row.numB with
    | some t => if v.row.b = .regs t.regs then t else byRegs
    | none => byRegs

/-- What the assembler knows while it encodes: where the instruction stands, the number that an expression is where that is
known, its value in full (a number, or a symbol plus a number), and where symbols stand. -/
structure Known where
  sec : Nat
  off : Nat
  early : Expr → Option Int
  value : Nat → Expr → Res (Int ⊕ (SymKey × Int))
  locate : SymKey → Option (Nat × Nat)

/-- A relocation against a symbol at the start of an instruction: its type (R83), symbol and addend. -/
structure Rel where
  type : Nat
  sym : SymKey
  addend : Int
  deriving DecidableEq, Repr

/-- The words of an instruction, what the linker patches in them, and whether a constant was rounded. -/
structure Encoded where
  words : List Nat
  rel : Option Rel := none
  inexact : Bool := false
  deriving DecidableEq, Repr

/-- A constant in source B: an immediate, a literal, or a code address (R71, R72). -/
inductive BVal where
  | reg (n : Nat)
  | fixed (v : Int) (lit : Option (Nat × Bool))
  | float (bits : Nat) (inexact : Bool)
  | later (v : Nat) (inexact : Bool)
  | sym (r : Rel)
  | code (sym : SymKey) (addend : Int)
  deriving DecidableEq, Repr

/-- An expression in source B. -/
def bExpr (k : Known) (c : Nat) (t : Ty) (code neg : Bool) (e : Expr) : Res BVal :=
  let e := if neg then Expr.neg e else e
  if code then
    match k.early e with
    | some _ => .error (c, .codeAddress)
    | none => do
      match ← k.value c e with
      | .inl _ => .error (c, .codeAddress)
      | .inr (s, a) => .ok (.code s a)
  else
    match k.early e with
    | some v => .ok (.fixed v (intLiteral t v))
    | none => do
      match ← k.value c e with
      | .inl v =>
        match intLiteral t v with
        | some (l, nx) => .ok (.later l nx)
        | none => .error (c, .range)
      | .inr (s, a) => if scalarFloat t then .error (c, .relocatable) else .ok (.sym ⟨if t.width ≤ 32 then 5 else 4, s, a⟩)

/-- The operands as they are read, field by field. -/
structure Fields where
  d : Nat := 0
  a : Nat := 0
  b : BVal := .reg 0
  c : Nat := 0
  modA : LaneMod := .zero
  modB : LaneMod := .zero
  feA : Bool := false
  feB : Bool := false
  feC : Bool := false
  deriving DecidableEq, Repr

/-- A field of the encoding. -/
inductive Slot where
  | d | a | b | c
  deriving DecidableEq, Repr

/-- One operand put into its field (R67). -/
def Fields.put (f : Fields) (k : Known) (m : Mnem) (v : View) (slot : Slot) (ts : Toks) : Res Fields := do
  let c := (ts.head?.map (·.1)).getD 1
  let o ← operandOf ts
  let t := constTy m v
  let code := v.row.lit == .code || v.row.lit == .codeOnly
  let bad : Res Fields := .error (c, .operand)
  match slot, o with
  | .d, .src s => if Kind.written v.row.d s.kind then (if s.mod = .zero ∧ !s.fe then .ok { f with d := s.num } else .error (c, .modifier)) else bad
  | .a, .src s => if m.addrStyle = .none ∧ Kind.written v.row.a s.kind then .ok { f with a := s.num, modA := s.mod, feA := s.fe } else bad
  | .a, .addr a feA off =>
    match m.addrStyle, off with
    | .none, _ => bad
    | .bare, .none => .ok { f with a, feA }
    | .bare, _ => bad
    | .offset, .none => do .ok { f with a, feA, b := ← bExpr k c .b32 false false (.int 0) }
    | .offset, .reg n feB => .ok { f with a, feA, b := .reg n, feB }
    | .offset, .plus e => do .ok { f with a, feA, b := ← bExpr k c .b32 false false e }
    | .offset, .minus e => do .ok { f with a, feA, b := ← bExpr k c .b32 false true e }
  | .b, .src s => if Kind.written v.row.b s.kind then .ok { f with b := .reg s.num, modB := s.mod, feB := s.fe } else bad
  | .b, .expr e => if v.row.lit = .none then bad else do .ok { f with b := ← bExpr k c t code false e }
  | .b, .float neg mant e =>
    if v.row.lit = .none ∨ code = true ∨ !scalarFloat t then .error (c, .floatConstant)
    else (let r := floatBits t neg mant e; .ok { f with b := .float r.1 r.2 })
  | .c, .src s => if Kind.written v.row.c s.kind then (if s.mod = .zero then .ok { f with c := s.num, feC := s.fe } else .error (c, .modifier)) else bad
  | .c, .expr e =>
    if v.row.c = .num then
      match k.early e with
      | some n => if 0 ≤ n ∧ n < 256 then .ok { f with c := n.toNat } else .error (c, .range)
      | none => .error (c, .relocatable)
    else bad
  | _, _ => bad

/-- The fields that an instruction uses, in the order they are written. -/
def slotsOf (m : Mnem) (v : View) : List Slot :=
  (if v.row.d = .unused then [] else [.d]) ++ (if v.row.a = .unused then [] else [.a]) ++
  (if (v.row.b = .unused ∧ v.row.lit ≠ .codeOnly) ∨ m.addrStyle = .offset then [] else [.b]) ++
  (if v.row.c = .unused then [] else [.c])

/-- The base type of a major with a base form (R37). -/
def baseTy (op : Nat) : Option Ty :=
  match Instr.ofBase op { u := false, d := 0, a := 0, b := .reg 0 } with
  | some i => i.view.map (·.x.ty)
  | none => if (Instr.ofBareBase op false 0).isSome then some .i32 else none

/-- R70: a base word can carry the instruction, its constant apart. -/
def baseFits (m : Mnem) (v : View) (guarded : Bool) (f : Fields) (ac : Access) : Bool :=
  baseTy m.row.major == some v.x.ty && m.sub == 0 && !guarded && !m.s && m.msk == 15 && f.modA == .zero && f.modB == .zero &&
  !f.feA && !f.feB && !f.feC && decide (f.d < 128) && decide (f.a < 128) &&
  (match f.b with | .reg n => decide (n < 128) | _ => true) && v.row.c == .unused && (!acMajor m.row.major || ac == .base)

/-- The literal of a constant, the relocation that it needs, and whether it was rounded. A code address in the same section
is filled in (R119, R120). -/
def BVal.literal (b : BVal) (k : Known) (c : Nat) : Res (Option (DWord × Option Rel × Bool)) :=
  match b with
  | .reg _ => .ok none
  | .fixed _ (some (l, nx)) => .ok (some (BitVec.ofNat 64 l, none, nx))
  | .fixed _ none => .error (c, .range)
  | .float l nx => .ok (some (BitVec.ofNat 64 l, none, nx))
  | .later l nx => .ok (some (BitVec.ofNat 64 l, none, nx))
  | .sym r => .ok (some (0, some r, false))
  | .code s a =>
    match k.locate s with
    | some (sec, off) => .ok (some (if sec = k.sec then (BitVec.ofInt 64 (off + a - k.off), none, false) else (0, some ⟨6, s, a⟩, false)))
    | none => .ok (some (0, some ⟨6, s, a⟩, false))

/-- R71: the immediate of a constant, if it fits. -/
def BVal.immediate (b : BVal) (op : Nat) : Option (BitVec 7) :=
  match b with
  | .fixed v _ =>
    if op = 0x50 ∨ op = 0x51 then (if v % 4 = 0 ∧ -256 ≤ v ∧ v ≤ 252 then some (BitVec.ofInt 7 (v / 4)) else none)
    else if -64 ≤ v ∧ v ≤ 63 then some (BitVec.ofInt 7 v) else none
  | .reg _ | .float _ _ | .later _ _ | .sym _ | .code _ _ => none

/-- The words of an instruction that meets no condition of R59. -/
def finish (c : Nat) (i : Option Instr) (rel : Option Rel) (inexact : Bool) : Res Encoded :=
  match i with
  | none => .error (c, .encoding .unassignedSub)
  | some i =>
    match i.illegal with
    | some why => .error (c, .encoding why)
    | none => .ok { words := encode i, rel, inexact }

/-- R72: the word offset of a base br or call, or the relocation that fills it in. -/
def branchWord (k : Known) (c : Nat) (s : SymKey) (a : Int) : Res (BitVec 22 × Option Rel) :=
  match k.locate s with
  | some (sec, off) =>
    if sec = k.sec then
      let d : Int := off + a - k.off
      if d % 4 = 0 ∧ -(2 ^ 23 : Int) ≤ d ∧ d < 2 ^ 23 then .ok (BitVec.ofInt 22 (d / 4), none) else .error (c, .reach)
    else .ok (0, some ⟨3, s, a⟩)
  | none => .ok (0, some ⟨3, s, a⟩)

/-- The shortest words that carry the fields (R70 to R72). -/
def Fields.encode (f : Fields) (k : Known) (c : Nat) (m : Mnem) (v : View) (guarded : Bool) (ac : Access) : Res Encoded := do
  let op := m.row.major
  if baseFits m v guarded f ac then
    match Instr.ofBareBase op m.u 0, f.b with
    | some _, .code s a =>
      let r ← branchWord k c s a
      finish c ((Instr.ofBareBase op m.u r.1.toNat).bind id) r.2 false
    | some i, _ => finish c i none false
    | none, b =>
      let x : BaseForm := { u := m.u, d := BitVec.ofNat 7 f.d, a := BitVec.ofNat 7 f.a, b := .reg (match b with | .reg n => BitVec.ofNat 7 n | _ => 0) }
      match b.immediate op with
      | some n => finish c (Instr.ofBase op { x with b := .imm n }) none false
      | none =>
        match ← b.literal k c with
        | some (l, rel, nx) => finish c (Instr.ofBase op { x with b := .lit l }) rel nx
        | none => finish c (Instr.ofBase op x) none false
  else
    let lit ← f.b.literal k c
    let x : Form := { v.x with d := BitVec.ofNat 8 f.d, a := BitVec.ofNat 8 f.a, c := BitVec.ofNat 8 f.c, modA := f.modA, modB := f.modB, feA := f.feA, feB := f.feB, feC := f.feC, b := match lit, f.b with
        | some (l, _, _), _ => .lit l
        | none, .reg n => .reg (BitVec.ofNat 8 n)
        | none, _ => .reg 0 }
    if acMajor op ∧ f.modB ≠ .zero then .error (c, .modifier)
    else
      match lit with
      | some (_, rel, nx) => finish c (m.instr x ac) rel nx
      | none => finish c (m.instr x ac) none false

/-- An instruction: its mnemonic and operands to words (R64 to R72). -/
def assemble (k : Known) (s : Stmt) (op : String) : Res Encoded := do
  let c := s.col
  let m ← match mnemOf op with
    | .ok m => .ok m
    | .error w => .error (c, w)
  let ty ← match m.ty, m.defaultTy with
    | some t, _ => .ok t
    | none, some t => .ok t
    | none, none => .error (c, .typeMissing)
  let (args, ac) ← match acMajor m.row.major, s.args.getLast? with
    | true, some last => if isAccess last then do .ok (s.args.dropLast, ← accessOf [] .base last) else .ok (s.args, Access.base)
    | _, _ => .ok (s.args, Access.base)
  let g := s.guard.getD (127, false)
  let x : Form := { Form.plain m.u ty with sat := m.s, msk := BitVec.ofNat 4 m.msk, guard := g.1, gn := g.2 }
  match (m.instr x ac).bind Instr.view with
  | none => .error (c, .encoding .unassignedSub)
  | some v =>
    if m.ty.isSome ∧ !v.row.types.contains ty then .error (c, .encoding .typeCode)
    else if !v.row.ok then .error (c, .encoding .unassignedSub)
    else
      let slots := slotsOf m v
      if slots.length ≠ args.length then .error (c, .operandCount)
      else do
        let f ← (slots.zip args).foldlM (fun (f : Fields) p => f.put k m v p.1 p.2) {}
        f.encode k c m v s.guard.isSome ac

/-! ## The raw form (R73) -/

/-- The fields of the two shapes and their widths. -/
def rawBase : List (String × Nat) := [("op", 7), ("d", 7), ("a", 7), ("b", 7), ("i", 1), ("u", 1)]
def rawExt : List (String × Nat) :=
  [("op", 7), ("sub", 8), ("d", 8), ("s", 1), ("w", 5), ("u", 1), ("a", 8), ("b", 8), ("c", 8), ("guard", 7), ("gn", 1),
   ("moda", 12), ("modb", 12), ("fea", 1), ("feb", 1), ("fec", 1), ("msk", 4)]

/-- The value given to a field of the raw form. -/
def rawGet (fs : List (String × Int)) (name : String) (default : Nat) : Nat :=
  match fs.find? (·.1 == name) with
  | some p => p.2.toNat
  | none => default

/-- The words of the raw form: only field widths are checked, and R59 is not applied; none where a value does not fit. DESIGN
CHOICE (log 80): a field other than lit takes its bit pattern, and a negative value does not fit. -/
def rawWords (ext : Bool) (fs : List (String × Int)) : Option (List Nat) :=
  let widths := if ext then rawExt else rawBase
  let fits := fs.all fun f =>
    if f.1 = "lit" then decide (-(2 ^ 63 : Int) ≤ f.2) && decide (f.2 < 2 ^ 64)
    else match widths.find? (·.1 == f.1) with
      | some w => decide (0 ≤ f.2) && decide (f.2 < (2 ^ w.2 : Nat))
      | none => false
  if !fits || (fs.map (·.1)).eraseDups.length != fs.length then none
  else
    let g := fun n => rawGet fs n 0
    let lit := (fs.find? (·.1 == "lit")).map fun p => BitVec.ofInt 64 p.2
    if ext then
      some (ExtFields.words { u := g "u" == 1, op := g "op", sub := g "sub", d := g "d", s := g "s" == 1, w := g "w", a := g "a", b := g "b", c := g "c", guard := rawGet fs "guard" 127, gn := g "gn" == 1, modA := g "moda", modB := g "modb", feA := g "fea" == 1, feB := g "feb" == 1, feC := g "fec" == 1, msk := rawGet fs "msk" 15, rsv := false, lit })
    else
      let w := g "u" * 2 ^ 29 + g "op" * 2 ^ 22 + g "d" * 2 ^ 15 + g "a" * 2 ^ 8 + g "b" * 2 + g "i"
      some (match lit with
        | some v => (2 ^ 31 + w) :: litWords v
        | none => [w])

/-! ## Disassembly (R66) -/

/-- The op of a major and SUB value. -/
def rowOf (major sub : Nat) : Option OpRow :=
  opRows.find? fun r => r.major == major && (!fnMajor major || r.fn == sub / 16 * 16)

/-- The canonical mnemonic of a major, SUB value and operand fields. -/
def spellMnem (major sub : Nat) (v : View) : Option String :=
  (rowOf major sub).map fun r =>
    let quals := r.groups.filterMap fun g =>
      let n := sub / 2 ^ g.lo % 2 ^ g.width
      if n ≠ 0 ∨ g.req = true then (g.names.find? (·.2 == n)).map (·.1) else none
    let parts := [r.name] ++ quals ++ (if v.row.types = [] then [] else [tyName v.x.ty]) ++ (if v.x.u then ["u"] else []) ++
      (if v.x.sat then ["s"] else []) ++ (if v.x.msk = 15 then [] else ["m" ++ decDigits v.x.msk.toNat])
    ".".intercalate parts

/-- A register as it is written. -/
def spellReg (k : Kind) (n : Nat) : String :=
  (match k with
    | .regs 2 => "d"
    | .regs 4 => "q"
    | .pred => "p"
    | .mask => "m"
    | .num => ""
    | .regs _ | .handle | .unused => "g") ++ decDigits n

/-- A source with its modifiers (R67). -/
def spellSrc (k : Kind) (n : Nat) (m : LaneMod) (fe : Bool) : String :=
  let r := spellReg k n
  let r := match m.num with
    | .none => r
    | .neg => "-" ++ r
    | .abs => "|" ++ r ++ "|"
    | .negAbs => "-|" ++ r ++ "|"
  let lane := fun f => "^" ++ f ++ "(" ++ decDigits m.seg.lanes ++ "," ++ decDigits m.dist.toNat ++ ")"
  r ++ (match m.cls with
    | .identity => ""
    | .rotate => lane "rot"
    | .butterfly => lane "bfly"
    | .broadcast => lane "bcast") ++ (if fe then "!" else "")

/-- m × 2^e with the factors of two that a negative e allows taken out of m. -/
def stripTwos : Nat → Nat → Int → Nat × Int
  | 0, m, e => (m, e)
  | k + 1, m, e => if m % 2 = 0 ∧ e < 0 then stripTwos k (m / 2) (e + 1) else (m, e)

/-- A whole number: in decimal where it is small, else in hexadecimal. -/
def spellInt (w l : Nat) : String :=
  let v := toSigned w l
  if -32768 ≤ v ∧ v < 32768 then toString v else "0x" ++ hexDigits (w / 4) l

/-- A literal as a constant of its type; none for a float value that no constant stands for, and where bits beyond the
operand are set. -/
def spellConst (t : Ty) (l : Nat) : Option String :=
  if scalarFloat t then
    match (Machine.fmtOf t).value l with
    | .fin neg m e =>
      let (m, e) := stripTwos 200 m e
      let dec := if 0 ≤ e then (m * 2 ^ e.toNat, (0 : Int)) else (m * 5 ^ (-e).toNat, e)
      if (floatBits t neg dec.1 dec.2).1 = l then some ((if neg then "-" else "") ++ decDigits dec.1 ++ "e" ++ toString dec.2) else none
    | _ => none
  else if t.width ≤ 32 then (if l < 2 ^ 32 then some (spellInt 32 l) else none)
  else some (spellInt 64 l)

/-- The words of an access-control field that differ from the defaults (R69). -/
def spellAccess (a : Access) : String :=
  " ".intercalate ((if a.ep = 1 then [] else ["ep" ++ decDigits a.ep.toNat]) ++ (if a.na then ["na"] else []) ++ (if a.l1b then ["l1b"] else []) ++
    (match a.ord with | .plain => [] | .acquire => ["acq"] | .release => ["rel"] | .acqRel => ["acqrel"]) ++
    (match a.scope with | .crew => [] | .unit => ["unit"] | .isle => ["isle"] | .die => ["die"] | .device => ["device"] | .system => ["system"] | .fabric => ["fabric"]) ++
    (match a.space with | .global => [] | .localMem => ["local"] | .vault => ["vault"]))

/-- The major and SUB value of an instruction. -/
def Instr.majorSub (i : Instr) : Nat × Nat :=
  match i.baseForm, i.bareBase with
  | some (op, _), _ => (op, 0)
  | none, some (op, _, _) => (op, 0)
  | none, none => i.opSub

/-- An instruction in presa's canonical spelling, with its operands (R66 to R69); none where a literal has no constant. -/
def spell (i : Instr) : Option String := do
  let v ← i.view
  let (major, sub) := Instr.majorSub i
  let row ← rowOf major sub
  let mn ← spellMnem major sub v
  let m : Mnem := { row, sub }
  let x := v.x
  let imm : Option Int := match i.baseForm with
    | some (op, f) =>
      match f.b with
      | .imm n => some (n.toInt * (if op = 0x50 ∨ op = 0x51 then 4 else 1))
      | .reg _ | .lit _ => none
    | none => none
  let b : String ← match imm, x.b, v.row.lit with
    | some n, _, _ => some (toString n)
    | none, .reg n, _ => some (spellSrc v.row.b n.toNat (if v.ac.isSome then .zero else x.modB) x.feB)
    | none, .lit l, .value => spellConst (if m.addrStyle = .offset then .b32 else constTy m v) l.toNat
    | none, .lit l, _ => some (if 0 ≤ l.toInt then ". + " ++ toString l.toInt else ". - " ++ toString (-l.toInt))
  let base := spellSrc (.regs 1) x.a.toNat .zero x.feA
  let a := match m.addrStyle with
    | .none => spellSrc v.row.a x.a.toNat x.modA x.feA
    | .bare => "[" ++ base ++ "]"
    | .offset => "[" ++ base ++ "+" ++ b ++ "]"
  let args := (slotsOf m v).map fun
    | .d => spellReg v.row.d x.d.toNat
    | .a => a
    | .b => b
    | .c => spellSrc v.row.c x.c.toNat .zero x.feC
  let args := args ++ (match v.ac with | some ac => if ac = .base then [] else [spellAccess ac] | none => [])
  let guard := if x.guard = 127 ∧ !x.gn then "" else if x.gn then "(!p" ++ decDigits x.guard.toNat ++ ") " else "(p" ++ decDigits x.guard.toNat ++ ") "
  some (guard ++ mn ++ (if args = [] then "" else " " ++ ", ".intercalate args))

/-- The raw form of words whose length their first word gives; the fields that have their defaults are left out. DESIGN
CHOICE (log 80): the raw form has no field for the reserved bit of the third word, so words with that bit set are printed as
they are, with `.word`. -/
def spellRaw (ws : List Nat) : String :=
  let plain := ".word " ++ ", ".intercalate (ws.map fun w => "0x" ++ hexDigits 8 w)
  let put := fun (n : String) (v d : Nat) => if v = d then [] else [n ++ "=" ++ decDigits v]
  let lit := fun (lo hi : Nat) => ["lit=0x" ++ hexDigits 16 (hi * 2 ^ 32 + lo)]
  let base := fun (w : Nat) (l : List String) =>
    ".insn base, " ++ ", ".intercalate (["op=" ++ decDigits (bits w 28 22)] ++ put "d" (bits w 21 15) 0 ++ put "a" (bits w 14 8) 0 ++ put "b" (bits w 7 1) 0 ++ put "i" (bits w 0 0) 0 ++ put "u" (bits w 29 29) 0 ++ l)
  let ext := fun (w0 w1 w2 : Nat) (l : List String) =>
    if bit w2 0 then plain
    else
      let f := ExtFields.ofWords w0 w1 w2 none
      ".insn ext, " ++ ", ".intercalate (["op=" ++ decDigits f.op] ++ put "sub" f.sub 0 ++ put "d" f.d 0 ++ put "s" (boolNat f.s) 0 ++ put "w" f.w 0 ++ put "u" (boolNat f.u) 0 ++ put "a" f.a 0 ++ put "b" f.b 0 ++ put "c" f.c 0 ++ put "guard" f.guard 127 ++ put "gn" (boolNat f.gn) 0 ++ put "moda" f.modA 0 ++ put "modb" f.modB 0 ++ put "fea" (boolNat f.feA) 0 ++ put "feb" (boolNat f.feB) 0 ++ put "fec" (boolNat f.feC) 0 ++ put "msk" f.msk 15 ++ l)
  match ws with
  | [w] => base w []
  | [w0, a, b] => if bits w0 31 30 = 2 then base w0 (lit a b) else ext w0 a b []
  | [w0, w1, w2, a, b] => ext w0 w1 w2 (lit a b)
  | _ => plain

/-- The first instruction of words in presa's spelling, and the words after it (R66). -/
def disassemble (ws : List Nat) : String × List Nat :=
  let n := match ws with
    | w :: _ => wordCount w
    | [] => 0
  match decodeWords ws with
  | .ok (i, rest) => ((spell i).getD (spellRaw (ws.take n)), rest)
  | .error _ => (spellRaw (ws.take n), ws.drop n)

end Sys2Proof.Presa
end

