-- ==== Sys2Proof/Machine/Qof.lean ====
section
/-! DEFINITION. The QOF object format, linking, loading, and the launch descriptors and graph tables that a driver builds from
it (03_assembly_object R80 to R90, R348). No step of the device runs this: a file becomes bytes in memory from outside (log 81);
the loading image command and start-up take its result (R459, R477). -/

namespace Sys2Proof.Qof

open Machine

/-! ## Records -/

/-- The little-endian fields of the given widths at the front of bytes; none where the bytes end first. -/
def readFields : List Nat → List Byte → Option (List Nat)
  | [], _ => some []
  | w :: ws, bs => if bs.length < w then none else (readFields ws (bs.drop w)).map (leNat (bs.take w) :: ·)

/-- The bytes of fields, each a width and a value. -/
def writeFields (fs : List (Nat × Nat)) : List Byte := fs.flatMap fun f => leBytes f.1 f.2

/-- Consecutive records of a size in bytes. -/
def records (size : Nat) (widths : List Nat) (bs : List Byte) : List (List Nat) :=
  (pieces size (bs.length / size) bs).filterMap (readFields widths)

/-- The index or offset that names nothing. -/
def noIndex : Nat := 0xFFFFFFFF

/-- R81: an entry of the section table, with the section's bytes; a zero-fill section has none. -/
structure Section where
  name : Nat
  type : Nat
  flags : Nat := 0
  addr : Nat := 0
  align : Nat := 2
  link : Nat := 0
  entsize : Nat := 0
  size : Nat := 0
  data : List Byte := []
  deriving DecidableEq, Repr

def Section.null : Section := { name := 0, type := 0, align := 0 }

/-- A section whose bytes the image holds: code, data or zero-fill. -/
def Section.content (s : Section) : Bool := s.type == 1 || s.type == 2 || s.type == 3

/-- Flag bit 4: a vault image. -/
def Section.vault (s : Section) : Bool := bit s.flags 4

/-- R80: a QOF file; section 0 is the null section. -/
structure File where
  flags : Nat
  strsec : Nat
  entry : Nat := noIndex
  secs : List Section
  deriving DecidableEq, Repr

/-- R82. -/
structure Symbol where
  name : Nat
  sec : Nat
  bind : Nat
  kind : Nat
  value : Nat
  size : Nat := 0
  deriving DecidableEq, Repr

def symbolWidths : List Nat := [4, 2, 1, 1, 8, 8]
def Symbol.ofFields : List Nat → Symbol
  | [name, sec, bind, kind, value, size] => { name, sec, bind, kind, value, size }
  | _ => { name := 0, sec := 0, bind := 0, kind := 0, value := 0 }
def Symbol.bytes (s : Symbol) : List Byte := writeFields (symbolWidths.zip [s.name, s.sec, s.bind, s.kind, s.value, s.size])

/-- R83; the addend is kept as its 64 bits. -/
structure Reloc where
  place : Nat
  symbol : Nat
  type : Nat
  rsv : Nat := 0
  addend : Nat
  deriving DecidableEq, Repr

def relocWidths : List Nat := [8, 4, 2, 2, 8]
def Reloc.ofFields : List Nat → Reloc
  | [place, symbol, type, rsv, addend] => { place, symbol, type, rsv, addend }
  | _ => { place := 0, symbol := 0, type := 0, addend := 0 }
def Reloc.bytes (r : Reloc) : List Byte := writeFields (relocWidths.zip [r.place, r.symbol, r.type, r.rsv, r.addend])

/-- R85. -/
structure UnitRecord where
  name : Nat
  entry : Nat
  handler : Nat := noIndex
  regs : Nat
  crews : Nat
  loc : Nat
  mode : Nat := 0
  prio : Nat := 0
  rsv0 : Nat := 0
  limage : Nat := noIndex
  priv : Nat := 1024
  accs : Nat := 0
  bslots : Nat := 0
  chans : Nat := 0
  diemask : Nat := 0
  hint : Nat := 0
  vbase : Nat := 0
  vstride : Nat := 0
  rsv1 : Nat := 0
  deriving DecidableEq, Repr

def unitWidths : List Nat := [4, 4, 4, 2, 2, 4, 1, 1, 2, 4, 4, 1, 1, 1, 1, 2, 2, 2, 22]
def UnitRecord.ofFields : List Nat → UnitRecord
  | [name, entry, handler, regs, crews, loc, mode, prio, rsv0, limage, priv, accs, bslots, chans, diemask, hint, vbase,
     vstride, rsv1] =>
    { name, entry, handler, regs, crews, loc, mode, prio, rsv0, limage, priv, accs, bslots, chans, diemask, hint, vbase, vstride, rsv1 }
  | _ => { name := 0, entry := 0, regs := 0, crews := 0, loc := 0 }
def UnitRecord.bytes (u : UnitRecord) : List Byte :=
  writeFields (unitWidths.zip [u.name, u.entry, u.handler, u.regs, u.crews, u.loc, u.mode, u.prio, u.rsv0, u.limage, u.priv, u.accs, u.bslots, u.chans, u.diemask, u.hint, u.vbase, u.vstride, u.rsv1])

/-- R87; the constants are the four words as one number. -/
structure RoutineRecord where
  name : Nat
  number : Nat
  count : Nat
  rsv : Nat := 0
  isec : Nat
  ioff : Nat
  consts : Nat
  deriving DecidableEq, Repr

def routineWidths : List Nat := [4, 1, 1, 2, 4, 4, 16]
def RoutineRecord.ofFields : List Nat → RoutineRecord
  | [name, number, count, rsv, isec, ioff, consts] => { name, number, count, rsv, isec, ioff, consts }
  | _ => { name := 0, number := 0, count := 0, isec := 0, ioff := 0, consts := 0 }
def RoutineRecord.bytes (r : RoutineRecord) : List Byte :=
  writeFields (routineWidths.zip [r.name, r.number, r.count, r.rsv, r.isec, r.ioff, r.consts])

/-- R88: a launch entry. -/
structure LaunchEntry where
  unit : Nat
  gx : Nat
  gy : Nat
  gz : Nat
  mode : Nat
  prio : Nat
  rsv0 : Nat := 0
  args : Nat := noIndex
  rsv1 : Nat := 0
  deriving DecidableEq, Repr

def launchWidths : List Nat := [4, 4, 4, 4, 1, 1, 2, 4, 8]
def LaunchEntry.ofFields : List Nat → LaunchEntry
  | [unit, gx, gy, gz, mode, prio, rsv0, args, rsv1] => { unit, gx, gy, gz, mode, prio, rsv0, args, rsv1 }
  | _ => { unit := 0, gx := 0, gy := 0, gz := 0, mode := 0, prio := 0 }
def LaunchEntry.bytes (l : LaunchEntry) : List Byte :=
  writeFields (launchWidths.zip [l.unit, l.gx, l.gy, l.gz, l.mode, l.prio, l.rsv0, l.args, l.rsv1])

/-- R88: an edge entry. -/
structure EdgeEntry where
  src : Nat
  dst : Nat
  kind : Nat
  grade : Nat
  rsv0 : Nat := 0
  object : Nat := noIndex
  rsv1 : Nat := 0
  deriving DecidableEq, Repr

def edgeWidths : List Nat := [2, 2, 1, 1, 2, 4, 4]
def EdgeEntry.ofFields : List Nat → EdgeEntry
  | [src, dst, kind, grade, rsv0, object, rsv1] => { src, dst, kind, grade, rsv0, object, rsv1 }
  | _ => { src := 0, dst := 0, kind := 0, grade := 0 }
def EdgeEntry.bytes (e : EdgeEntry) : List Byte :=
  writeFields (edgeWidths.zip [e.src, e.dst, e.kind, e.grade, e.rsv0, e.object, e.rsv1])

/-- R88: a binding entry. -/
structure BindEntry where
  param : Nat
  rsv0 : Nat := 0
  launch : Nat
  field : Nat
  rsv1 : Nat := 0
  deriving DecidableEq, Repr

def bindWidths : List Nat := [1, 1, 2, 2, 10]
def BindEntry.ofFields : List Nat → BindEntry
  | [param, rsv0, launch, field, rsv1] => { param, rsv0, launch, field, rsv1 }
  | _ => { param := 0, launch := 0, field := 0 }
def BindEntry.bytes (b : BindEntry) : List Byte := writeFields (bindWidths.zip [b.param, b.rsv0, b.launch, b.field, b.rsv1])

/-- R88: a graph record. -/
structure GraphRecord where
  name : Nat
  depth : Nat
  launches : List LaunchEntry
  edges : List EdgeEntry
  binds : List BindEntry
  /-- reserved bytes of the header and the offsets' low bits, zero where the record is well formed -/
  rsv : Nat := 0
  deriving DecidableEq, Repr

def graphWidths : List Nat := [4, 1, 1, 2, 2, 2, 4, 4, 4, 8]

def GraphRecord.bytes (g : GraphRecord) : List Byte :=
  let loff := 32
  let eoff := loff + 32 * g.launches.length
  let boff := eoff + 16 * g.edges.length
  writeFields (graphWidths.zip [g.name, g.depth, g.launches.length, g.edges.length, g.binds.length, 0, loff, eoff, boff, 0]) ++
  g.launches.flatMap LaunchEntry.bytes ++ g.edges.flatMap EdgeEntry.bytes ++ g.binds.flatMap BindEntry.bytes

/-- The graph record at the front of bytes, and how many bytes it takes. -/
def graphAt (bs : List Byte) : Option (GraphRecord × Nat) :=
  match readFields graphWidths bs with
  | some [name, depth, nl, ne, nb, rsv0, loff, eoff, boff, rsv1] =>
    let stop := max (loff + 32 * nl) (max (eoff + 16 * ne) (boff + 16 * nb))
    if bs.length < stop then none
    else
      let part := fun (o n : Nat) => (bs.drop o).take n
      some ({ name, depth, rsv := rsv0 + rsv1 + loff % 8 + eoff % 8 + boff % 8,
              launches := (records 32 launchWidths (part loff (32 * nl))).map .ofFields,
              edges := (records 16 edgeWidths (part eoff (16 * ne))).map .ofFields,
              binds := (records 16 bindWidths (part boff (16 * nb))).map .ofFields }, max 32 ((stop + 7) / 8 * 8))
  | _ => none

/-- The graph records of a section, one after another; none where the bytes end inside one. -/
def graphsOf : Nat → List Byte → Option (List GraphRecord)
  | _, [] => some []
  | 0, _ => none
  | k + 1, bs =>
    match graphAt bs with
    | some (g, n) => (graphsOf k (bs.drop n)).map (g :: ·)
    | none => none

/-- R89. -/
structure LineEntry where
  offset : Nat
  line : Nat
  file : Nat
  col : Nat
  flags : Nat
  deriving DecidableEq, Repr

def lineWidths : List Nat := [4, 4, 4, 2, 2]
def LineEntry.ofFields : List Nat → LineEntry
  | [offset, line, file, col, flags] => { offset, line, file, col, flags }
  | _ => { offset := 0, line := 0, file := 0, col := 0, flags := 0 }
def LineEntry.bytes (l : LineEntry) : List Byte := writeFields (lineWidths.zip [l.offset, l.line, l.file, l.col, l.flags])

/-! ## The parts of a file -/

def File.section (f : File) (i : Nat) : Section := f.secs.getD i .null

/-- The sections of a type, with their indexes. -/
def File.ofType (f : File) (t : Nat) : List (Nat × Section) :=
  (f.secs.zipIdx.filter (·.1.type == t)).map fun p => (p.2, p.1)

/-- The symbols, the null symbol first; an object has one symbol section. -/
def File.symbols (f : File) : List Symbol :=
  (f.ofType 5).flatMap fun p => (records 24 symbolWidths p.2.data).map .ofFields

/-- The relocations of every relocation section, with the index of the section that they patch. -/
def File.relocs (f : File) : List (Nat × Reloc) :=
  (f.ofType 6).flatMap fun p => (records 24 relocWidths p.2.data).map fun r => (p.2.link, .ofFields r)

def File.units (f : File) : List UnitRecord := (f.ofType 7).flatMap fun p => (records 64 unitWidths p.2.data).map .ofFields
def File.routines (f : File) : List RoutineRecord :=
  (f.ofType 8).flatMap fun p => (records 32 routineWidths p.2.data).map .ofFields
def File.graphs (f : File) : List GraphRecord := (f.ofType 9).flatMap fun p => (graphsOf p.2.data.length p.2.data).getD []

/-- The line tables, each with the index of the section it describes. -/
def File.lines (f : File) : List (Nat × List LineEntry) :=
  (f.ofType 10).map fun p => (p.2.link, (records 16 lineWidths p.2.data).map .ofFields)

/-- The string at an offset of a string section, up to its zero byte. -/
def stringAt (data : List Byte) (o : Nat) : List Byte := (data.drop o).takeWhile (· != 0)

/-- The name of a symbol. -/
def File.symName (f : File) (s : Symbol) : List Byte :=
  match f.ofType 5 with
  | (_, t) :: _ => stringAt (f.section t.link).data s.name
  | [] => []

/-! ## Writing and reading (R80, R81, R90) -/

/-- One step of the CRC-32 of IEEE 802.3 over a bit, the register reflected. -/
def crcBit : Nat → Nat → Nat
  | 0, c => c
  | k + 1, c => crcBit k (if c % 2 = 1 then (c / 2) ^^^ 0xEDB88320 else c / 2)

/-- CRC-32 (IEEE 802.3 polynomial) of bytes (log 82). -/
def crc32 (bs : List Byte) : Nat := bs.foldl (fun c b => crcBit 8 (c ^^^ b.toNat)) 0xFFFFFFFF ^^^ 0xFFFFFFFF

def headerWidths : List Nat := [4, 2, 2, 4, 4, 8, 4, 4, 4, 4, 8, 4, 12]
def sectionWidths : List Nat := [4, 2, 2, 8, 8, 8, 4, 4, 4, 4]

/-- The file offsets of sections placed one after another, each at a multiple of 8; zero-fill and the null section take no
bytes and have offset 0. -/
def placeSecs : Nat → List Section → List (Nat × Section)
  | _, [] => []
  | o, s :: ss =>
    if s.data = [] then (0, s) :: placeSecs o ss else (o, s) :: placeSecs ((o + s.data.length + 7) / 8 * 8) ss

/-- Zero bytes up to a multiple of 8. -/
def padTo8 (bs : List Byte) : List Byte := bs ++ List.replicate ((8 - bs.length % 8) % 8) 0

/-- The bytes of a file: header, section table, sections. -/
def File.bytes (f : File) : List Byte :=
  let placed := placeSecs (64 + 48 * f.secs.length) f.secs
  let table := placed.flatMap fun p =>
    writeFields (sectionWidths.zip [p.2.name, p.2.type, p.2.flags, p.2.addr, p.1, p.2.size, p.2.align, p.2.link, p.2.entsize, 0])
  let body := f.secs.flatMap fun s => padTo8 s.data
  let header := fun (crc : Nat) =>
    writeFields (headerWidths.zip [0x00464F51, 1, f.flags, 1, 64, 64, f.secs.length, 48, f.strsec, f.entry, 0, crc, 0])
  let crc := crc32 (header 0 ++ table ++ body)
  header crc ++ table ++ body

/-- Why a loader rejects a file (R90). -/
inductive Reject where
  | header
  | crc
  | reserved
  | placement
  | limits
  | undefinedSymbol
  | privileged
  | notLinked
  deriving DecidableEq, Repr

/-- The bytes with those of the crc field zero. -/
def zeroCrc (bs : List Byte) : List Byte := bs.take 0x30 ++ [0, 0, 0, 0] ++ bs.drop 0x34

/-- Ranges of file bytes that do not meet. -/
def disjoint : List (Nat × Nat) → Bool
  | [] => true
  | r :: rs => rs.all (fun q => decide (r.1 + r.2 ≤ q.1) || decide (q.1 + q.2 ≤ r.1)) && disjoint rs

/-- Offsets that rise from entry to entry (R89). -/
def rising : List Nat → Bool
  | a :: b :: rest => decide (a < b) && rising (b :: rest)
  | _ => true

/-- Reserved fields and codes of the records (R80 to R89), all zero. -/
def File.reservedOk (f : File) : Bool :=
  decide (f.flags < 4) &&
  f.secs.all (fun s => decide (s.type ≤ 10) && decide (s.flags < 32)) && f.secs.head? == some Section.null &&
  f.symbols.all (fun s => decide (s.bind ≤ 2) && decide (s.kind ≤ 7)) &&
  f.relocs.all (fun r => r.2.rsv == 0 && decide (1 ≤ r.2.type) && decide (r.2.type ≤ 6)) &&
  f.units.all (fun u => u.rsv0 == 0 && u.rsv1 == 0 && decide (u.hint < 3)) &&
  f.routines.all (·.rsv == 0) &&
  f.graphs.all (fun g => g.rsv == 0 && g.launches.all (fun l => l.rsv0 == 0 && l.rsv1 == 0) && g.edges.all (fun e => e.rsv0 == 0 && e.rsv1 == 0) && g.binds.all (fun b => b.rsv0 == 0 && b.rsv1 == 0 && decide (b.field < 4))) &&
  f.lines.all (fun t => t.2.all fun l => decide (l.flags < 4))

/-- The entry size of a table section (R81). -/
def entSize (type : Nat) : Nat :=
  match type with
  | 5 => 24
  | 6 => 24
  | 7 => 64
  | 8 => 32
  | 10 => 16
  | _ => 0

/-- A section index that names a section, or a symbol index that names a symbol. -/
def File.secIx (f : File) (i : Nat) : Bool := decide (0 < i) && decide (i < f.secs.length)
def File.symIx (f : File) (i : Nat) : Bool := decide (0 < i) && decide (i < f.symbols.length)

/-- R82, R85: a symbol index that names a handler symbol. -/
def File.handlerIx (f : File) (i : Nat) : Bool := f.symIx i && (f.symbols.getD i (.ofFields [])).kind == 6

/-- R81, R85: a section index that names a section with the local-image flag. -/
def File.localImageIx (f : File) (i : Nat) : Bool := f.secIx i && bit (f.section i).flags 3

/-- R85. -/
def File.unitOk (f : File) (u : UnitRecord) : Bool :=
  f.symIx u.entry && (u.handler == noIndex || f.handlerIx u.handler) && decide (32 ≤ u.regs) && decide (u.regs ≤ 256) && u.regs % 8 == 0 &&
  decide (1 ≤ u.crews) && decide (u.crews ≤ 32) && u.loc % 4096 == 0 && decide (u.loc ≤ 262144) && decide (u.mode ≤ 1) && decide (u.prio ≤ 3) &&
  (u.limage == noIndex || f.localImageIx u.limage) && u.priv % 128 == 0 && decide (128 ≤ u.priv) && decide (u.priv ≤ 65536) &&
  decide (u.accs ≤ 4) && decide (u.bslots ≤ 16) && decide (u.chans ≤ 8) && decide (u.vbase ≤ 511) && decide (u.vstride ≤ 511) &&
  (u.vstride == 0 || u.hint == 2)

/-- R87. -/
def File.routineOk (f : File) (r : RoutineRecord) : Bool :=
  decide (r.number ≤ 63) && decide (1 ≤ r.count) && decide (r.count ≤ 64) && f.secIx r.isec && r.ioff % 4 == 0 &&
  decide (r.ioff + 4 * r.count ≤ (f.section r.isec).size)

/-- R88. -/
def File.graphOk (f : File) (g : GraphRecord) : Bool :=
  let n := g.launches.length
  decide (1 ≤ g.depth) && decide (g.depth ≤ 15) && decide (1 ≤ n) && decide (n ≤ 255) && decide (g.binds.length ≤ 256) &&
  g.launches.all (fun l => decide (l.unit < f.units.length) && decide (1 ≤ l.gx) && decide (1 ≤ l.gy) && decide (1 ≤ l.gz) && decide (l.mode ≤ 1) && decide (l.prio ≤ 3) && (l.args == noIndex || f.symIx l.args)) &&
  g.edges.all (fun e => decide (e.src < n) && decide (e.dst < n) && (if e.kind = 0 then e.grade == 0 && e.object == noIndex else e.kind == 1 && decide (e.grade ≤ 2) && f.symIx e.object)) &&
  g.binds.all (fun b => decide (b.param ≤ 63) && decide (b.launch < n))

/-- The record fields lie inside their limits (R80, R81, R85 to R89). -/
def File.limitsOk (f : File) : Bool :=
  f.secs.tail.all (fun s => decide (2 ≤ s.align) && decide (s.align ≤ 16) && s.entsize == entSize s.type && (s.entsize == 0 || s.size % s.entsize == 0) && (bit f.flags 0 || s.addr == 0)) &&
  (f.section f.strsec).type == 4 && (f.entry == noIndex || f.symIx f.entry) &&
  f.symbols.all (fun s => s.sec == 0xFFFF || decide (s.sec < f.secs.length)) &&
  f.relocs.all (fun r => f.secIx r.1 && decide (r.2.symbol < f.symbols.length)) &&
  f.units.all f.unitOk && f.routines.all f.routineOk &&
  (f.ofType 9).all (fun p => (graphsOf p.2.data.length p.2.data).isSome) && f.graphs.all f.graphOk &&
  f.lines.all (fun t => rising (t.2.map (·.offset)) && t.2.all fun l => decide (1 ≤ l.line) && decide (1 ≤ l.col))

/-- The content sections of a linked image do not overlap in the image; a vault image stands apart (R84, R90). -/
def File.placed (f : File) : Bool :=
  !bit f.flags 0 || disjoint ((f.secs.filter fun s => s.content && !s.vault && decide (0 < s.size)).map fun s => (s.addr, s.size))

/-- A linked image holds no undefined symbol (R80, R90); symbol 0 stands for the image base. -/
def File.undefined (f : File) : Bool := bit f.flags 0 && f.symbols.tail.any (·.sec == 0)

/-- The sections of a file that the header and the section table describe; each with its file range. -/
def readSecs (bs : List Byte) (shoff shnum : Nat) : Option (List ((Nat × Nat) × Section)) :=
  (List.range shnum).mapM fun i =>
    match readFields sectionWidths (bs.drop (shoff + 48 * i)) with
    | some [name, type, flags, addr, offset, size, align, link, entsize, rsv] =>
      let held := if type = 0 ∨ type = 3 then 0 else size
      some ((offset, held), { name, type, flags := flags + 2 ^ 16 * rsv, addr, align, link, entsize, size, data := (bs.drop offset).take held })
    | _ => none

/-- A file from its bytes, or why a loader rejects it (R90). -/
def File.ofBytes (bs : List Byte) : Except Reject File :=
  match readFields headerWidths bs with
  | some [magic, version, flags, arch, hsize, shoff, shnum, shent, strsec, entry, rsv0, crc, rsv1] =>
    if magic ≠ 0x00464F51 ∨ version ≠ 1 ∨ arch ≠ 1 ∨ hsize ≠ 64 ∨ shent ≠ 48 then .error .header
    else if crc ≠ crc32 (zeroCrc bs) then .error .crc
    else
      match readSecs bs shoff shnum with
      | none => .error .placement
      | some secs =>
        let f : File := { flags, strsec, entry, secs := secs.map (·.2) }
        let ranges := (secs.map (·.1)).filter (0 < ·.2)
        if rsv0 ≠ 0 ∨ rsv1 ≠ 0 ∨ !f.reservedOk then .error .reserved
        else if !(ranges.all fun r => decide (r.1 + r.2 ≤ bs.length)) || !disjoint ranges || !f.placed then .error .placement
        else if shoff % 8 ≠ 0 ∨ !f.limitsOk then .error .limits
        else if f.undefined then .error .undefinedSymbol
        else .ok f
  | _ => .error .header

/-! ## Relocations and linking (R83, R84) -/

/-- Why a link or a load fails (R83, R84). -/
inductive LinkError where
  | twice (name : List Byte)
  | undefined (name : List Byte)
  | range
  | noLiteral
  | type
  | vault
  deriving DecidableEq, Repr

/-- Bytes with a number written little-endian at an offset. -/
def patch (bs : List Byte) (o n : Nat) (v : Int) : List Byte := bs.take o ++ leBytes n (wrap (8 * n) v) ++ bs.drop (o + n)

/-- The address of the literal of the instruction at a place, from the LEN field of its first word (R83). -/
def literalAt (bs : List Byte) (p : Nat) : Option Nat :=
  match bits (leNat ((bs.drop p).take 4)) 31 30 with
  | 2 => some (p + 4)
  | 3 => some (p + 12)
  | _ => none

/-- R83: the effect of a relocation on the bytes it patches: v is S + A, and pc the address of the place. -/
def applyReloc (bs : List Byte) (type place : Nat) (v pc : Int) : Except LinkError (List Byte) :=
  let in32 := decide (0 ≤ v) && decide (v < 2 ^ 32)
  match type with
  | 1 => .ok (patch bs place 8 v)
  | 2 => if in32 then .ok (patch bs place 4 v) else .error .range
  | 3 =>
    let d := v - pc
    if d % 4 = 0 ∧ -(2 ^ 21 : Int) ≤ d / 4 ∧ d / 4 < 2 ^ 21 then
      let w := leNat ((bs.drop place).take 4)
      .ok (patch bs place 4 ((w / 2 ^ 22 * 2 ^ 22 + wrap 22 (d / 4) : Nat) : Int))
    else .error .range
  | 4 => match literalAt bs place with
    | some l => .ok (patch bs l 8 v)
    | none => .error .noLiteral
  | 5 => match literalAt bs place with
    | some l => if in32 then .ok (patch (patch bs l 4 v) (l + 4) 4 0) else .error .range
    | none => .error .noLiteral
  | 6 => match literalAt bs place with
    | some l => .ok (patch bs l 8 (v - pc))
    | none => .error .noLiteral
  | _ => .error .type

/-- An object's part of the image: where its sections, strings, symbols and units come to stand. -/
structure Part where
  file : File
  secBase : Nat
  strBase : Nat
  symBase : Nat
  unitBase : Nat
  graphBase : Nat
  deriving DecidableEq, Repr

/-- The content sections of a file with their own indexes. -/
def File.contents (f : File) : List (Nat × Section) := (f.secs.zipIdx.filter (·.1.content)).map fun p => (p.2, p.1)

/-- The index that a content section of a part has in the image. -/
def Part.secOf (p : Part) (i : Nat) : Nat :=
  if i = 0 ∨ i = 0xFFFF ∨ i = noIndex then i
  else p.secBase + (p.file.contents.takeWhile (·.1 != i)).length

/-- The bytes of the graph records of a file. -/
def File.graphBytes (f : File) : List Byte := f.graphs.flatMap GraphRecord.bytes

/-- Sections given addresses in turn, each at a multiple of its alignment; a vault image has address 0 (R84). -/
def assign : Nat → List Section → List Section
  | _, [] => []
  | a, s :: ss =>
    if s.vault then { s with addr := 0 } :: assign a ss
    else
      let o := (a + 2 ^ s.align - 1) / 2 ^ s.align * 2 ^ s.align
      { s with addr := o } :: assign (o + s.size) ss

/-- The string section of an object. -/
def File.strings (f : File) : List Byte := (f.section f.strsec).data

/-- The parts of an image, in the order the objects are given; the null section stands before them, and `first` symbols. -/
def partsOf (first : Nat) (fs : List File) : List Part :=
  (fs.foldl (fun (acc : List Part × Nat × Nat × Nat × Nat × Nat) f =>
    let (ps, sec, str, sym, unit, graph) := acc
    (ps ++ [{ file := f, secBase := sec, strBase := str, symBase := sym, unitBase := unit, graphBase := graph }],
     sec + f.contents.length, str + f.strings.length, sym + (f.symbols.length - 1), unit + f.units.length, graph + f.graphBytes.length)) ([], 1, 0, first, 0, 0)).1

/-- The definitions of a name among the global symbols of every object: the part and the symbol's index there. -/
def definers (ps : List Part) (name : List Byte) : List (Part × Nat × Symbol) :=
  ps.flatMap fun p => (p.file.symbols.zipIdx.filter fun s => s.1.bind == 1 && s.1.sec != 0 && p.file.symName s.1 == name).map fun s => (p, s.2, s.1)

/-- The definition that a symbol index of a part stands for. -/
def Part.resolve (p : Part) (ps : List Part) (i : Nat) : Except LinkError (Part × Nat × Symbol) :=
  let s := p.file.symbols.getD i (.ofFields [])
  if s.sec ≠ 0 then .ok (p, i, s)
  else
    match definers ps (p.file.symName s) with
    | [d] => .ok d
    | [] => .error (.undefined (p.file.symName s))
    | _ => .error (.twice (p.file.symName s))

/-- The symbol index of the image for a symbol index of a part; the index that names nothing stays. -/
def Part.symOf (p : Part) (ps : List Part) (i : Nat) : Except LinkError Nat :=
  if i = noIndex then .ok i else (p.resolve ps i).map fun d => d.1.symBase + d.2.1 - 1

/-- One relocation of an object: the patched bytes of its section, or the entry that stays in the image (R84). secs are the
content sections of the image after the null section, and vsym gives the section symbol of a vault image. -/
def linkOne (ps : List Part) (secs : List Section) (vsym : Nat → Nat) (p : Part) (sec : Nat) (r : Reloc) :
    Except LinkError ((List Byte → Except LinkError (List Byte)) × Option (Nat × Reloc)) := do
  let (q, _, s) ← p.resolve ps r.symbol
  let a := toSigned 64 r.addend
  let at_ := p.secOf sec
  let home := secs.getD at_ .null
  let pc : Int := home.addr + r.place
  let keep := r.type == 1 || r.type == 2 || r.type == 4 || r.type == 5
  if s.sec = 0xFFFF then .ok (fun bs => applyReloc bs r.type r.place (toSigned 64 s.value + a) pc, none)
  else
    let tgt := q.secOf s.sec
    let t := secs.getD tgt .null
    let v : Int := t.addr + s.value + a
    if keep then
      let e : Reloc := { r with symbol := if t.vault then vsym tgt else 0, addend := wrap 64 v }
      if (r.type = 2 ∨ r.type = 5) ∧ !t.vault ∧ !(0 ≤ v ∧ v < 2 ^ 32) then .error .range
      else if (r.type = 4 ∨ r.type = 5) ∧ (literalAt home.data r.place).isNone then .error .noLiteral
      else .ok (fun bs => .ok bs, some (at_, e))
    else if r.type ≠ 3 ∧ r.type ≠ 6 then .error .type
    else if (t.vault ∨ home.vault) ∧ tgt ≠ at_ then .error .vault
    else .ok (fun bs => applyReloc bs r.type r.place v pc, none)

/-- A table section. -/
def tableSec (name type link : Nat) (data : List Byte) : Section :=
  { name, type, link, entsize := entSize type, size := data.length, data, align := 3 }

/-- The table sections of an image or an object, where they hold something: symbols, one relocation section for each section
patched, unit, routine and graph records, line tables; at is the index of the string section. -/
def tables (strAt : Nat) (syms : List Symbol) (rels : List (Nat × Reloc)) (units : List UnitRecord) (routines : List RoutineRecord)
    (graphs : List GraphRecord) (lines : List (Nat × List LineEntry)) : List Section :=
  let some1 := fun (s : Section) => if s.data = [] then [] else [s]
  [tableSec 0 5 strAt (syms.flatMap Symbol.bytes)] ++
  ((rels.map (·.1)).eraseDups.map fun i => tableSec 0 6 i ((rels.filter (·.1 == i)).flatMap fun r => r.2.bytes)) ++
  some1 (tableSec 0 7 0 (units.flatMap UnitRecord.bytes)) ++ some1 (tableSec 0 8 0 (routines.flatMap RoutineRecord.bytes)) ++
  some1 (tableSec 0 9 0 (graphs.flatMap GraphRecord.bytes)) ++
  (lines.map fun l => tableSec 0 10 l.1 (l.2.flatMap LineEntry.bytes))

/-- Objects linked into an image (R84). -/
def link (fs : List File) : Except LinkError File := do
  let contents := fs.flatMap fun f => f.contents.map (·.2)
  let vaults := (contents.zipIdx 1).filter (·.1.vault) |>.map (·.2)
  let ps := partsOf (1 + vaults.length) fs
  let placed := Section.null :: assign 0 contents
  let named := ps.flatMap fun p => (p.file.symbols.filter fun s => s.bind == 1 && s.sec != 0).map (p.file.symName ·)
  match named.find? fun n => (named.filter (· == n)).length ≠ 1 with
  | some n => .error (.twice n)
  | none => do
    let vsym := fun i => 1 + (vaults.takeWhile (· != i)).length
    let rels ← (ps.flatMap fun p => p.file.relocs.map fun r => (p, r)).mapM fun pr => do
      let x ← linkOne ps placed vsym pr.1 pr.2.1 pr.2.2
      .ok (pr.1.secOf pr.2.1, x)
    let patched ← rels.foldlM (fun (secs : List Section) r => do
      let s := secs.getD r.1 .null
      .ok (secs.set r.1 { s with data := ← r.2.1 s.data })) placed
    let strAt := patched.length
    let vsyms := vaults.map fun i => ({ name := 0, sec := i, bind := 0, kind := 0, value := 0 } : Symbol)
    let unitAt := strAt + 2 + ((rels.filterMap (·.2.2)).map (·.1)).eraseDups.length
    let graphSec := unitAt + (if ps.any (fun p => p.file.units != []) then 1 else 0) + (if ps.any (fun p => p.file.routines != []) then 1 else 0)
    let syms ← (ps.flatMap fun p => (p.file.symbols.tail.zipIdx 1).map fun s => (p, s)).mapM fun x => do
      let (p, s, i) := x
      let (q, _, d) ← p.resolve ps i
      let (sec, value) := match (q.file.section d.sec).type with
        | 7 => (unitAt, d.value + 64 * q.unitBase)
        | 9 => (graphSec, d.value + q.graphBase)
        | _ => (q.secOf d.sec, d.value)
      .ok ({ s with name := s.name + p.strBase, sec, value, kind := d.kind, bind := if s.bind = 2 then 0 else s.bind } : Symbol)
    let units ← (ps.flatMap fun p => p.file.units.map fun u => (p, u)).mapM fun x => do
      let (p, u) := x
      .ok { u with name := u.name + p.strBase, entry := ← p.symOf ps u.entry, handler := ← p.symOf ps u.handler, limage := p.secOf u.limage }
    let routines := ps.flatMap fun p => p.file.routines.map fun r => { r with name := r.name + p.strBase, isec := p.secOf r.isec }
    let graphs ← (ps.flatMap fun p => p.file.graphs.map fun g => (p, g)).mapM fun x => do
      let (p, g) := x
      let launches ← g.launches.mapM fun l => do .ok { l with unit := l.unit + p.unitBase, args := ← p.symOf ps l.args }
      let edges ← g.edges.mapM fun e => do .ok { e with object := ← p.symOf ps e.object }
      .ok { g with name := g.name + p.strBase, launches, edges }
    let lines := ps.flatMap fun p => p.file.lines.map fun t => (p.secOf t.1, t.2.map fun l => { l with file := l.file + p.strBase })
    let entry ← match ps.find? (·.file.entry != noIndex) with
      | some p => p.symOf ps p.file.entry
      | none => .ok noIndex
    let strings := fs.flatMap File.strings
    let strSec : Section := { name := 0, type := 4, align := 2, size := strings.length, data := strings }
    let named := patched.zipIdx.map fun s =>
      match (ps.filter fun p => decide (p.secBase ≤ s.2)).getLast? with
      | some p => if s.2 = 0 then s.1 else { s.1 with name := s.1.name + p.strBase }
      | none => s.1
    .ok { flags := 1, strsec := strAt, entry,
          secs := named ++ [strSec] ++ tables strAt (.ofFields [] :: vsyms ++ syms) (rels.filterMap (·.2.2)) units routines graphs lines }

/-! ## Loading (R84, R90) -/

/-- Where a loader puts an image: its base, and an address for each vault-image section (its index and the address). -/
structure Placement where
  base : Nat
  vaults : List (Nat × Nat)
  deriving DecidableEq, Repr

/-- The loaded address of a section. -/
def Placement.addr (pl : Placement) (f : File) (i : Nat) : Nat :=
  let s := f.section i
  if s.vault then (((pl.vaults.find? (·.1 == i)).map (·.2)).getD 0) else pl.base + s.addr

/-- The loaded address of a symbol; symbol 0 is the image base, and an absolute symbol is its value. -/
def Placement.symAddr (pl : Placement) (f : File) (i : Nat) : Nat :=
  let s := f.symbols.getD i (.ofFields [])
  if i = 0 then pl.base else if s.sec = 0xFFFF then s.value else pl.addr f s.sec + s.value

/-- R84, R209: the section lies in the vault of one core in service (R30), at a multiple of 128. -/
def vaultAddrOk (s : State) (a size : Nat) : Bool :=
  decide (a < 2 ^ 31) && a % 128 == 0 && decide (a % 2 ^ 22 + size ≤ 2 ^ 22) && !s.isleDisabled (isleOf (a / 2 ^ 22))

/-- What a loader does with an image: the bytes it puts into memory, section by section with their addresses, the vault
sections marked, and the vault granules that it has granted to the context (R84). -/
structure Loaded where
  pieces : List (Bool × Nat × List Byte)
  granules : List Nat
  deriving DecidableEq, Repr

/-- The 64 KiB granules of n bytes of a vault. -/
def granulesOf (a n : Nat) : List Nat := if n = 0 then [] else (List.range ((a + n - 1) / 65536 + 1 - a / 65536)).map (a / 65536 + ·)

/-- The granules are granted to a context: their bits in its grant map are set (R84, R211, R458). -/
def Loaded.grant (l : Loaded) (ctx : Nat) (s : State) : State :=
  let map := (s.ctx ctx).vgrant.toNat
  l.granules.foldl (fun s g => s.writeMem (map + g / 8) [cellGet s.mem (map + g / 8) ||| BitVec.ofNat 8 (2 ^ (g % 8))] .copy none) s

/-- The loading of an image for a context of a device. A privileged image is accepted only by the start-up path (R90); vault
granules can be granted only to a context that has a grant map (R458). -/
def load (s : State) (ctx : Nat) (startup : Bool) (bs : List Byte) (pl : Placement) : Except (Reject ⊕ LinkError) Loaded :=
  match File.ofBytes bs with
  | .error r => .error (.inl r)
  | .ok f =>
    if bit f.flags 0 = false then .error (.inl .notLinked)
    else if bit f.flags 1 ∧ !startup then .error (.inl .privileged)
    else if f.secs.zipIdx.any fun x => x.1.content && x.1.vault && ((s.ctx ctx).vgrant == 0 || !(pl.vaults.any fun v => v.1 == x.2 && vaultAddrOk s v.2 x.1.size)) then .error (.inr .vault)
    else
      let patched := f.relocs.foldlM (fun (secs : List Section) r =>
        let s := secs.getD r.1 .null
        let v : Int := pl.symAddr f r.2.symbol + toSigned 64 r.2.addend
        (applyReloc s.data r.2.type r.2.place v (pl.addr f r.1 + r.2.place)).map fun d => secs.set r.1 { s with data := d }) f.secs
      match patched with
      | .error e => .error (.inr e)
      | .ok secs =>
        let placed := (secs.zipIdx.filter (·.1.content)).map fun x => (x.1, pl.addr f x.2)
        .ok { pieces := placed.map fun x => (x.1.vault, x.2, if x.1.type = 3 then List.replicate x.1.size 0 else x.1.data)
              granules := (placed.flatMap fun x => if x.1.vault then granulesOf x.2 x.1.size else []).eraseDups }

/-- R89: the line-table entry of an offset: the one with the greatest offset not above it. -/
def lineAt (ls : List LineEntry) (off : Nat) : Option LineEntry := (ls.takeWhile (decide <| ·.offset ≤ off)).getLast?

/-- The source position of a PC in a loaded image: the section that holds it, and its line table. -/
def lineOf (f : File) (pl : Placement) (pc : Nat) : Option LineEntry :=
  match (f.secs.zipIdx.filter (·.1.content)).find? fun s => decide (pl.addr f s.2 ≤ pc) && decide (pc < pl.addr f s.2 + s.1.size) with
  | some s =>
    match f.lines.find? (·.1 == s.2) with
    | some t => lineAt t.2 (pc - pl.addr f s.2)
    | none => none
  | none => none

/-! ## What a driver builds (R86, R348) -/

/-- The memory that a driver allocates for a launch (R86). sstride is the size the driver asks for: what it allocates is at least
the scratch need (strideFor). -/
structure Allocation where
  crec : Nat
  lrec : Nat
  scratch : Nat
  sslots : Nat
  sstride : Nat
  deriving DecidableEq, Repr

/-- The bytes of a scratch slot that a driver allocates: at least the scratch need of R346, in whole pages (R86, R345). -/
def strideFor (u : UnitRecord) (mode asked : Nat) : Nat :=
  max asked ((Machine.scratchNeed u.crews u.priv u.regs (mode == 1) + 4095) / 4096 * 4096)

/-- The fields of the launch descriptor of R344 for a launch entry (R86). -/
def descFields (f : File) (pl : Placement) (l : LaunchEntry) (al : Allocation) : List (Nat × Nat) :=
  let u := f.units.getD l.unit (.ofFields [])
  let sym := fun i => if i = noIndex then 0 else pl.symAddr f i
  let im := if u.limage = noIndex then (0, 0) else ((f.section u.limage).size, pl.addr f u.limage)
  [(8, sym u.entry), (8, sym u.handler), (4, l.gx), (4, l.gy), (4, l.gz), (2, u.regs), (2, u.crews), (4, u.loc), (4, u.priv),
   (1, l.mode), (1, l.prio), (1, u.accs), (1, u.bslots), (1, u.chans), (1, u.diemask), (2, u.hint), (2, u.vbase), (2, u.vstride),
   (4, im.1), (8, im.2), (8, sym l.args), (8, al.crec), (8, al.lrec), (8, al.scratch), (4, al.sslots), (4, strideFor u l.mode al.sstride), (24, 0)]

/-- The 128 bytes of a launch descriptor (R86, R344). -/
def descBytes (f : File) (pl : Placement) (l : LaunchEntry) (al : Allocation) : List Byte := writeFields (descFields f pl l al)

/-- The graph table that a driver builds from a graph record (R348): the header, the descriptors, the edges, the bindings. -/
def graphTable (f : File) (pl : Placement) (g : GraphRecord) (al : Nat → Allocation) : List Byte :=
  let n := g.launches.length
  let doff := 128
  let eoff := doff + 128 * n
  let boff := eoff + 16 * g.edges.length
  writeFields [(1, n), (1, g.depth), (2, g.edges.length), (2, g.binds.length), (2, 0), (4, doff), (4, eoff), (4, boff), (12, 0), (96, 0)] ++
  (g.launches.zipIdx.flatMap fun l => descBytes f pl l.1 (al l.2)) ++
  (g.edges.flatMap fun e => writeFields [(1, e.src), (1, e.dst), (1, e.kind), (1, if e.kind = 1 then e.grade + 1 else 0), (4, 0), (8, if e.kind = 1 then pl.symAddr f e.object else 0)]) ++
  (g.binds.flatMap fun b => writeFields [(1, b.param), (1, b.launch), (1, b.field), (1, 0)])

end Sys2Proof.Qof
end

