-- ==== Sys2Proof/Machine/PresaObject.lean ====
section
/-! DEFINITION. presa's directives, line routines, graphs and listings, and the object it writes (03_assembly_object R63, R74 to
R79, R82, R89; R292). No step of the device runs this (log 80). -/

namespace Sys2Proof.Presa

open Machine

/-! ## What a source file declares -/

/-- A section while it is filled; its bytes stand in reverse order, and a zero-fill section only has a size. DESIGN CHOICE
(log 80): a section is aligned to 4 bytes unless its line says otherwise. -/
structure ASec where
  name : String
  type : Nat
  flags : Nat
  align : Nat := 2
  size : Nat := 0
  rev : List Byte := []
  deriving DecidableEq, Repr

/-- What a name stands for: a place, or a constant. -/
inductive Def where
  | label (sec off : Nat)
  | equ (v : Int)
  deriving DecidableEq, Repr

/-- A relocation: the section, the place, and what it adds there (R83). -/
structure ARel where
  sec : Nat
  place : Nat
  rel : Rel
  deriving DecidableEq, Repr

/-- A line-table entry (R89). -/
structure ALine where
  sec : Nat
  off : Nat
  file : String
  line : Nat
  col : Nat
  flags : Nat
  deriving DecidableEq, Repr

/-- A unit, with where its declaration stands and whether a `.task` line named it (R76, R77). -/
structure AUnit where
  name : String
  line : Nat
  col : Nat
  entry : String
  handler : Option String
  limage : Option String
  tasked : Bool := false
  rec_ : Qof.UnitRecord
  deriving DecidableEq, Repr

/-- A line routine (R78). -/
structure ARoutine where
  name : String
  number : Nat
  consts : List Nat
  sec : Nat
  off : Nat
  count : Nat := 0
  /-- section to go back to -/
  back : Nat
  deriving DecidableEq, Repr

/-- A launch of a graph; mode and priority are none where the unit's stand (R79). -/
structure ALaunch where
  name : String
  unit : String
  grid : List Nat
  mode : Option Nat
  prio : Option Nat
  args : Option (String)
  line : Nat
  col : Nat
  deriving DecidableEq, Repr

/-- An edge of a graph: producer, consumer, and for a graded edge the grade's code and the object (R79, R88). -/
structure AEdge where
  src : Nat
  dst : Nat
  graded : Option (Nat × String)
  line : Nat
  col : Nat
  deriving DecidableEq, Repr

/-- A graph (R79). -/
structure AGraph where
  name : String
  depth : Nat
  launches : List ALaunch := []
  edges : List AEdge := []
  binds : List (Nat × Nat × Nat) := []
  deriving DecidableEq, Repr

/-- A line of the listing (R74). -/
structure Listing where
  off : Nat
  code : Bool
  bytes : List Byte
  src : String
  deriving DecidableEq, Repr

/-- The assembler after some lines. -/
structure Asm where
  file : String
  secs : List ASec := []
  cur : Option Nat := none
  defs : List (String × Def) := []
  sets : List (String × Int) := []
  /-- numeric labels: number, line, place -/
  nums : List (Nat × Nat × Nat × Nat) := []
  /-- names and numeric labels as the pass before found them -/
  later : List (String × Def) := []
  laterNums : List (Nat × Nat × Nat × Nat) := []
  globals : List (String × Nat × Nat) := []
  externs : List String := []
  /-- names that `.handler` declares, with their lines and columns -/
  handlers : List (String × Nat × Nat) := []
  rels : List ARel := []
  lines : List ALine := []
  units : List AUnit := []
  routines : List ARoutine := []
  graphs : List AGraph := []
  routine : Option ARoutine := none
  graph : Option AGraph := none
  loc : Option (String × Nat × Nat) := none
  listing : List Listing := []
  warnings : List (Nat × Nat) := []
  line : Nat := 0
  /-- the first pass, in which a value that is not known yet counts as 0 -/
  first : Bool := false
  deriving DecidableEq, Repr

/-! ## Sections and bytes (R75) -/

/-- The section of a name is selected, and created if it is new; none where it exists with other properties. -/
def Asm.select (a : Asm) (name : String) (type flags : Nat) : Option Asm :=
  match a.secs.zipIdx.find? (·.1.name == name) with
  | some s => if s.1.type = type ∧ s.1.flags = flags then some { a with cur := some s.2 } else none
  | none => some { a with secs := a.secs ++ [{ name, type, flags }], cur := some a.secs.length }

/-- The assembler with a section selected: `.text` where no directive chose one (log 80). -/
def Asm.ready (a : Asm) : Asm :=
  match a.cur with
  | some _ => a
  | none => (a.select ".text" 1 5).getD a

/-- The current section, its index and its size. -/
def Asm.sec (a : Asm) : ASec := a.secs.getD (a.cur.getD 0) { name := "", type := 0, flags := 0 }
def Asm.here (a : Asm) : Nat × Nat := (a.cur.getD 0, a.sec.size)

/-- The current section changed. -/
def Asm.withSec (a : Asm) (f : ASec → ASec) : Asm := { a with secs := a.secs.modify (a.cur.getD 0) f }

/-- Bytes at the end of the current section. -/
def Asm.emit (a : Asm) (bs : List Byte) : Asm :=
  a.withSec fun s => { s with size := s.size + bs.length, rev := if s.type = 3 then [] else bs.reverse ++ s.rev }

/-- Bytes of a source line, with the line of the listing. -/
def Asm.emitLine (a : Asm) (code : Bool) (bs : List Byte) (src : String) : Asm :=
  { a.emit bs with listing := { off := a.sec.size, code, bytes := bs, src } :: a.listing }

/-- A line-table entry for an instruction at the end of the current section; `.loc` gives the position once (R75, R89). -/
def Asm.mark (a : Asm) (col flags : Nat) : Asm :=
  let (file, line, col) := a.loc.getD (a.file, a.line, col)
  { a with loc := none, lines := { sec := a.here.1, off := a.here.2, file, line, col, flags } :: a.lines }

/-! ## Values -/

def Asm.findDef (a : Asm) (s : String) : Option Def := (a.defs.find? (·.1 == s)).map (·.2)
/-- The definition of a name: from the lines so far, else as the pass before found it. -/
def Asm.lookup (a : Asm) (s : String) : Option Def :=
  match a.findDef s with
  | some d => some d
  | none => (a.later.find? (·.1 == s)).map (·.2)
def Asm.findSet (a : Asm) (s : String) : Option Int := (a.sets.find? (·.1 == s)).map (·.2)

/-- The place of a symbol. -/
def Asm.locate (a : Asm) : SymKey → Option (Nat × Nat)
  | .at sec off => some (sec, off)
  | .name s =>
    match a.lookup s with
    | some (.label sec off) => some (sec, off)
    | some (.equ _) | none => none

/-- A symbol as far as it is known; one that is not stays a symbol. -/
def Asm.early (a : Asm) : Expr → Res Val
  | .sym _ s =>
    if s = "." then .ok { k := 0, terms := [(.at a.here.1 a.here.2, 1)] }
    else
      match a.findSet s, a.lookup s with
      | some v, _ => .ok { k := v }
      | none, some (.equ v) => .ok { k := v }
      | none, _ => .ok { k := 0, terms := [(.name s, 1)] }
  | .ref c n ahead =>
    if ahead then
      match a.laterNums.reverse.find? fun p => p.1 == n && decide (a.line < p.2.1) with
      | some p => .ok { k := 0, terms := [(.at p.2.2.1 p.2.2.2, 1)] }
      | none => .ok { k := 0, terms := [(.name (decDigits n ++ "f"), 1)] }
    else
      match a.nums.find? (·.1 == n) with
      | some p => .ok { k := 0, terms := [(.at p.2.2.1 p.2.2.2, 1)] }
      | none => .error (c, .undefinedSymbol)
  | .int n => .ok { k := n }
  | .neg _ | .inv .. | .bin .. => .error (1, .expression)

/-- A symbol, from all the lines: fin is the assembler after the pass before. -/
def Asm.late (a fin : Asm) : Expr → Res Val
  | .sym c s =>
    if s = "." then .ok { k := 0, terms := [(.at a.here.1 a.here.2, 1)] }
    else
      match a.findSet s, fin.findDef s with
      | some v, _ => .ok { k := v }
      | none, some (.equ v) => .ok { k := v }
      | none, some (.label _ _) => .ok { k := 0, terms := [(.name s, 1)] }
      | none, none => if fin.externs.contains s then .ok { k := 0, terms := [(.name s, 1)] } else .error (c, .undefinedSymbol)
  | .ref c n ahead =>
    let found := if ahead then fin.nums.reverse.find? (fun p => p.1 == n && decide (a.line < p.2.1)) else a.nums.find? (·.1 == n)
    match found with
    | some p => .ok { k := 0, terms := [(.at p.2.2.1 p.2.2.2, 1)] }
    | none => .error (c, .undefinedSymbol)
  | .int n => .ok { k := n }
  | .neg _ | .inv .. | .bin .. => .error (1, .expression)

/-- The number that an expression is, where it is known. -/
def Asm.number (a : Asm) (e : Expr) : Option Int :=
  match e.eval a.locate a.early with
  | .ok v =>
    match v.reduce a.locate with
    | some (.inl n) => some n
    | _ => none
  | .error _ => none

/-- The value of an expression: a number, or a symbol plus a number. In the first pass one that is not yet known stands for a
symbol. -/
def Asm.value (a : Asm) (fin : Option Asm) (c : Nat) (e : Expr) : Res (Int ⊕ (SymKey × Int)) :=
  match fin with
  | none => .ok (match a.number e with | some n => .inl n | none => .inr (.name "", 0))
  | some f => do
    match (← e.eval f.locate (a.late f)).reduce f.locate with
    | some r => .ok r
    | none => .error (c, .relocatable)

/-- What an instruction is encoded with. -/
def Asm.known (a : Asm) (fin : Option Asm) : Known :=
  { sec := a.here.1, off := a.here.2, early := a.number, value := a.value fin, locate := (fin.getD a).locate }

/-- A directive's operand as a number. -/
def Asm.const (a : Asm) (ts : Toks) : Res Int := do
  let c := (ts.head?.map (·.1)).getD 1
  match a.number (← exprOf c ts) with
  | some n => .ok n
  | none => if a.first then .ok 0 else .error (c, .relocatable)

/-- The same, within limits that are not negative. -/
def Asm.within (a : Asm) (lo hi : Nat) (ts : Toks) : Res Nat := do
  let n ← a.const ts
  if lo ≤ n ∧ n ≤ hi then .ok n.toNat else if a.first then .ok lo else .error ((ts.head?.map (·.1)).getD 1, .range)

/-- The 32 bits of a number that fits in them (R71, R78). -/
def Asm.bits32 (a : Asm) (ts : Toks) : Res Nat := do
  let n ← a.const ts
  if -(2 ^ 31 : Int) ≤ n ∧ n < 2 ^ 32 then .ok (wrap 32 n) else if a.first then .ok 0 else .error ((ts.head?.map (·.1)).getD 1, .range)

/-- A single name. -/
def nameArg (w : Wrong) (ts : Toks) : Res String :=
  match ts with
  | [(_, .name s)] => .ok s
  | (c, _) :: _ => .error (c, w)
  | [] => .error (1, w)

/-- Operands of the form key=value. -/
def keyArgs : List Toks → Res (List (String × Toks))
  | [] => .ok []
  | ((c, .name k) :: (_, .op "=") :: v) :: rest => do
    let r ← keyArgs rest
    if v = [] ∨ r.any (·.1 == k) then .error (c, .directiveOperand) else .ok ((k, v) :: r)
  | ((c, _) :: _) :: _ => .error (c, .directiveOperand)
  | [] :: _ => .error (1, .directiveOperand)

/-- The value of a key. -/
def keyOf (ks : List (String × Toks)) (k : String) : Option Toks := (ks.find? (·.1 == k)).map (·.2)

/-- Every key is one that the directive takes. -/
def keysOk (ks : List (String × Toks)) (names : List String) : Bool := ks.all fun k => names.contains k.1

/-- A numeric key with limits and a default. -/
def Asm.keyNat (a : Asm) (ks : List (String × Toks)) (k : String) (lo hi : Nat) (default : Option Nat) (c : Nat) : Res Nat :=
  match keyOf ks k, default with
  | some ts, _ => a.within lo hi ts
  | none, some n => .ok n
  | none, none => .error (c, .directiveOperand)

/-- One of some names, by its place among them. -/
def choice (names : List String) (ts : Toks) : Res Nat :=
  match ts with
  | [(c, .name s)] =>
    match names.zipIdx.find? (·.1 == s) with
    | some p => .ok p.2
    | none => .error (c, .directiveOperand)
  | (c, _) :: _ => .error (c, .directiveOperand)
  | [] => .error (1, .directiveOperand)

/-- Numbers in parentheses, each read by the function given. -/
def tuple (one : Toks → Res Nat) (n : Nat) (ts : Toks) : Res (List Nat) :=
  match ts, ts.getLast? with
  | (c, .op "(") :: r, some (_, .op ")") => do
    let parts ← splitArgs 0 [] r.dropLast
    if parts.length ≠ n ∨ parts.contains [] then .error (c, .directiveOperand) else parts.mapM one
  | (c, _) :: _, _ => .error (c, .directiveOperand)
  | [], _ => .error (1, .directiveOperand)

/-! ## Data directives (R71, R75) -/

/-- One value of a data directive of n bytes at the end of the section. a0 is the assembler at the start of the line, whose
address the operand `.` is (R62). -/
def Asm.datum (a0 : Asm) (fin : Option Asm) (n : Nat) (a : Asm) (ts : Toks) : Res (Asm × List Byte) := do
  let c := (ts.head?.map (·.1)).getD 1
  let e ← exprOf c ts
  match ← a0.value fin c e with
  | .inl v =>
    if -(2 ^ (8 * n - 1) : Nat) ≤ v ∧ v < (2 ^ (8 * n) : Nat) then .ok (a, leBytes n (wrap (8 * n) v)) else .error (c, .range)
  | .inr (s, k) =>
    if fin.isSome ∧ n < 4 then .error (c, .relocatable)
    else .ok ({ a with rels := { sec := a.here.1, place := a.here.2, rel := ⟨if n = 8 then 1 else 2, s, k⟩ } :: a.rels }, leBytes n 0)

/-- One value of a float directive. -/
def Asm.floatDatum (a0 : Asm) (t : Ty) (a : Asm) (ts : Toks) : Res (Asm × List Byte) := do
  let c := (ts.head?.map (·.1)).getD 1
  let (bits, nx) ← match ts with
    | [(_, .float m e)] => .ok (floatBits t false m e)
    | [(_, .op "-"), (_, .float m e)] => .ok (floatBits t true m e)
    | ts => do
      let v ← a0.const ts
      .ok (floatBits t (decide (v < 0)) v.natAbs 0)
  .ok ({ a with warnings := if nx then (a.line, c) :: a.warnings else a.warnings }, leBytes (t.width / 8) bits)

/-- Values one after another. -/
def Asm.data (a : Asm) (src : String) (one : Asm → Toks → Res (Asm × List Byte)) (args : List Toks) : Res Asm := do
  let start := a.sec.size
  let r ← args.foldlM (fun (x : Asm × List Byte) ts => do
    let (a, bs) ← one x.1 ts
    .ok (a.emit bs, x.2 ++ bs)) (a, [])
  .ok { r.1 with listing := { off := start, code := false, bytes := r.2, src } :: r.1.listing }

/-- R75: the padding of an alignment, nop words in an executable section. DESIGN CHOICE (log 80): none, which is an error,
where whole nop words do not fill the gap. -/
def Asm.pad (a : Asm) (n : Nat) : Option (List Byte) :=
  let k := (2 ^ n - a.sec.size % 2 ^ n) % 2 ^ n
  if bit a.sec.flags 2 then (if k % 4 = 0 then some ((List.replicate (k / 4) 0x0AC00000).flatMap (leBytes 4)) else none)
  else some (List.replicate k 0)

/-! ## Line routines (R78, R292) -/

/-- The names of R290 in the order of ROP. -/
def routineOps : List String :=
  ["iadd", "isub", "imul", "imin", "imax", "and", "or", "xor", "shl", "shr", "sar", "icmp", "fadd", "fmul", "ffma", "fmin",
   "fmax", "fcmp", "sel", "mov", "li", "lih"]

/-- The types of R289 in the order of T. -/
def routineTypes : List String := ["i32", "u32", "b32", "f32", "f16x2", "bf16x2"]

/-- An entry of the routine register space (R288). -/
def routineReg (ts : Toks) : Res Nat :=
  match ts with
  | [(c, .name s)] =>
    match numbered s with
    | some ('l', n) => if n < 32 then .ok n else .error (c, .operand)
    | some ('a', n) => if n < 4 then .ok (32 + n) else .error (c, .operand)
    | some ('t', n) => if n < 28 then .ok (36 + n) else .error (c, .operand)
    | some ('k', n) => if n < 4 then .ok (64 + n) else .error (c, .operand)
    | some ('v', n) => if n < 2 then .ok (68 + n) else .error (c, .operand)
    | _ => .error (c, .operand)
  | (c, _) :: _ => .error (c, .operand)
  | [] => .error (1, .operand)

/-- A routine predicate. -/
def routinePred (ts : Toks) : Res Nat :=
  match ts with
  | [(c, .name s)] =>
    match regOf s with
    | some (.p, n) => if n < 8 then .ok n else .error (c, .operand)
    | _ => .error (c, .operand)
  | (c, _) :: _ => .error (c, .operand)
  | [] => .error (1, .operand)

/-- The fields of a routine word (R289). -/
def routineWord (op t d a b p : Nat) : Nat := op * 2 ^ 27 + t * 2 ^ 24 + d * 2 ^ 17 + a * 2 ^ 10 + b * 2 ^ 3 + p

/-- A routine instruction (R292): the mnemonic `op[.cond].type` and its operands. -/
def Asm.routineInsn (a : Asm) (s : Stmt) (mnem : String) : Res Nat := do
  let c := s.col
  let parts := splitDots [] mnem.toList
  let op ← match routineOps.zipIdx.find? fun o => parts.head? == some o.1 with
    | some o => .ok o.2
    | none => .error (c, .routine)
  let conds := if op = 0x0B then condNames else if op = 0x11 then fcondNames else []
  let word ←
    if op = 0x14 ∨ op = 0x15 then
      match parts, s.args with
      | [_], [d, i] => do
        let n ← if op = 0x14 then a.const i else do .ok ((← a.within 0 65535 i : Nat) : Int)
        if -32768 ≤ n ∧ n ≤ 65535 ∧ (op = 0x15 ∨ n ≤ 32767) then .ok (routineWord op 0 (← routineReg d) 0 0 0 + wrap 16 n) else .error (c, .range)
      | _, _ => .error (c, .operandCount)
    else do
      let (cond, ty) ← match parts with
        | [_, k, t] =>
          match conds.zipIdx.find? (·.1 == k) with
          | some x => .ok (x.2, t)
          | none => .error (c, .suffix)
        | [_, t] => .ok (0, t)
        | _ => .error (c, .suffix)
      let t ← match routineTypes.zipIdx.find? (·.1 == ty) with
        | some x => .ok x.2
        | none => .error (c, .suffix)
      match s.args with
      | [d, x] => if op = 0x13 then do .ok (routineWord op t (← routineReg d) (← routineReg x) 0 0) else .error (c, .operandCount)
      | [d, x, y] =>
        if op = 0x13 ∨ op = 0x12 then .error (c, .operandCount)
        else do
          let dst ← if conds = [] then routineReg d else routinePred d
          .ok (routineWord op t dst (← routineReg x) (← routineReg y) cond)
      | [d, x, y, p] => if op = 0x12 then do .ok (routineWord op t (← routineReg d) (← routineReg x) (← routineReg y) (← routinePred p)) else .error (c, .operandCount)
      | _ => .error (c, .operandCount)
  if (Machine.routineInvalid word).isSome then .error (c, .routine) else .ok word

/-! ## Units, tasks and graphs (R76, R77, R79) -/

/-- `.unit`. -/
def Asm.unitLine (a : Asm) (c : Nat) (args : List Toks) : Res Asm := do
  match args with
  | [] => .error (c, .directiveOperand)
  | n :: rest => do
    let name ← nameArg .unit n
    let ks ← keyArgs rest
    let nat := fun k lo hi (d : Option Nat) => a.keyNat ks k lo hi d c
    let opt := fun k => match keyOf ks k with
      | some ts => (nameArg .unit ts).map some
      | none => .ok none
    let entry ← match keyOf ks "entry" with
      | some ts => nameArg .unit ts
      | none => .error (c, .unit)
    let handler ← opt "handler"
    let limage ← opt "limage"
    let regs ← nat "regs" 32 256 none
    let crews ← nat "crews" 1 32 none
    let loc ← nat "local" 0 262144 none
    let priv ← nat "private" 128 65536 (some 1024)
    let accs ← nat "accs" 0 4 (some 0)
    let bslots ← nat "bslots" 0 16 (some 0)
    let chans ← nat "chans" 0 8 (some 0)
    let diemask ← nat "diemask" 0 255 (some 0)
    let hint ← match keyOf ks "hint" with
      | some ts => choice ["none", "fixed", "strided"] ts
      | none => .ok 0
    let vbase ← nat "vbase" 0 511 (if hint = 0 then some 0 else none)
    let vstride ← nat "vstride" 0 511 (if hint = 2 then none else some 0)
    if !keysOk ks ["entry", "handler", "limage", "regs", "crews", "local", "private", "accs", "bslots", "chans", "diemask", "hint", "vbase", "vstride"] ∨
        regs % 8 ≠ 0 ∨ loc % 4096 ≠ 0 ∨ priv % 128 ≠ 0 ∨ ((keyOf ks "vstride").isSome ∧ hint ≠ 2) ∨ a.units.any (·.name == name) then .error (c, .unit)
    else
      .ok { a with units := a.units ++ [{ name, line := a.line, col := c, entry, handler, limage, rec_ := { name := 0, entry := 0, regs, crews, loc, priv, accs, bslots, chans, diemask, hint, vbase, vstride } }] }

/-- `.task`. -/
def Asm.taskLine (a : Asm) (c : Nat) (args : List Toks) : Res Asm := do
  match args with
  | [] => .error (c, .directiveOperand)
  | n :: rest => do
    let name ← nameArg .task n
    let ks ← keyArgs rest
    let mode ← match keyOf ks "mode" with
      | some ts => choice ["direct", "atomic"] ts
      | none => .error (c, .task)
    let prio ← a.keyNat ks "prio" 0 3 (some 0) c
    match a.units.find? (·.name == name) with
    | some u =>
      if u.tasked ∨ !keysOk ks ["mode", "prio"] then .error (c, .task)
      else .ok { a with units := a.units.map fun x => if x.name = name then { x with tasked := true, rec_ := { x.rec_ with mode, prio } } else x }
    | none => .error (c, .task)

/-- `.launch`, `.after` and `.bind` inside a graph; a launch may be named before its line, so names are looked up in the
second pass. The counts stay within the fields of R88. -/
def AGraph.line (g : AGraph) (a : Asm) (fin : Option Asm) (c : Nat) (op : String) (args : List Toks) : Res AGraph := do
  let index := fun (ts : Toks) => do
    let n ← nameArg .graph ts
    match fin with
    | none => .ok 0
    | some f =>
      match ((f.graphs.find? (·.name == g.name)).map (·.launches)).bind fun ls => ls.zipIdx.find? (·.1.name == n) with
      | some l => .ok l.2
      | none => .error ((ts.head?.map (·.1)).getD c, .graph)
  match args with
  | [] => .error (c, .directiveOperand)
  | n :: rest =>
    if op = ".launch" then do
      let name ← nameArg .graph n
      let ks ← keyArgs rest
      let unit ← match keyOf ks "unit" with
        | some ts => nameArg .graph ts
        | none => .error (c, .graph)
      let grid ← match keyOf ks "grid" with
        | some ts => tuple (a.within 1 (2 ^ 32 - 1)) 3 ts
        | none => .error (c, .graph)
      let mode ← match keyOf ks "mode" with
        | some ts => (choice ["direct", "atomic"] ts).map some
        | none => .ok none
      let prio ← match keyOf ks "prio" with
        | some ts => (a.within 0 3 ts).map some
        | none => .ok none
      let args ← match keyOf ks "args" with
        | some ts => (nameArg .graph ts).map some
        | none => .ok none
      if g.launches.length ≥ 255 ∨ g.launches.any (·.name == name) ∨ !keysOk ks ["unit", "grid", "mode", "prio", "args"] then .error (c, .graph)
      else .ok { g with launches := g.launches ++ [{ name, unit, grid, mode, prio, args, line := a.line, col := c }] }
    else if op = ".after" then do
      let dst ← index n
      let ks ← keyArgs rest
      let src ← match keyOf ks "from" with
        | some ts => index ts
        | none => .error (c, .graph)
      let graded ← match keyOf ks "grade", keyOf ks "object" with
        | some gr, some ob => do .ok (some (← choice ["guess", "provisional", "final"] gr, ← nameArg .graph ob))
        | none, none => .ok none
        | _, _ => .error (c, .graph)
      if !keysOk ks ["from", "grade", "object"] ∨ g.edges.length ≥ 65535 then .error (c, .graph)
      else .ok { g with edges := g.edges ++ [{ src, dst, graded, line := a.line, col := c }] }
    else
      match rest with
      | [[(cf, .name s)]] => do
        let p ← a.within 0 63 n
        let parts := splitDots [] s.toList
        let l ← index [(cf, .name (".".intercalate parts.dropLast))]
        let f ← choice ["gridx", "gridy", "gridz", "args"] [(cf, .name (parts.getLastD ""))]
        if g.binds.length ≥ 64 * 4 ∨ (fin.isSome ∧ g.binds.any fun b => b.2 == (l, f)) then .error (cf, .graph) else .ok { g with binds := g.binds ++ [(p, l, f)] }
      | _ => .error (c, .graph)

/-- R79: the edges close no cycle. A launch without an edge lies on none. -/
def AGraph.acyclic (g : AGraph) : Bool :=
  let nodes := (g.edges.flatMap fun e => [e.src, e.dst]).eraseDups
  cycleNodes (g.edges.map fun e => { src := e.src, dst := e.dst, graded := false, thr := 0, addr := 0 }) nodes.length nodes == []

/-! ## One line -/

/-- A name is defined once. -/
def Asm.define (a : Asm) (c : Nat) (s : String) (d : Def) : Res Asm :=
  if (a.findDef s).isSome ∨ (a.findSet s).isSome ∨ a.externs.contains s then .error (c, .redefined) else .ok { a with defs := (s, d) :: a.defs }

/-- The fields of a raw instruction (R73). DESIGN CHOICE (log 80): the spec does not say whether lit of `.insn` may take a
relocation; a relocatable value is an error. -/
def Asm.rawArgs (a : Asm) (fin : Option Asm) : List Toks → Res (List (String × Int))
  | [] => .ok []
  | ((c, .name k) :: (_, .op "=") :: v) :: rest => do
    let n ← match ← a.value fin c (← exprOf c v) with
      | .inl n => .ok n
      | .inr _ => if fin.isSome then .error (c, .relocatable) else .ok 0
    .ok ((k, n) :: (← a.rawArgs fin rest))
  | ((c, _) :: _) :: _ => .error (c, .insn)
  | [] :: _ => .error (1, .insn)

/-- Words of an instruction in the current section, with its line-table entry. -/
def Asm.code (a : Asm) (s : Stmt) (words : List Nat) (src : String) : Res Asm :=
  if !bit a.sec.flags 2 then .error (s.col, .badSection)
  else if a.sec.size % 4 ≠ 0 then .error (s.col, .misaligned)
  else .ok ((a.mark s.col 1).emitLine true (words.flatMap (leBytes 4)) src)

/-- A directive (R75). DESIGN CHOICE (log 80): the file operand of `.loc` is a string in quotation marks; `.lmem` and `.vault`
sections have the flags r and w; `.section` gives the type that its flags name. -/
def Asm.directive (a : Asm) (fin : Option Asm) (s : Stmt) (op src : String) : Res Asm := do
  let c := s.col
  let bad : Res Asm := .error (c, .directiveOperand)
  let std := fun (n : String) (t f : Nat) => match s.args, a.select n t f with
    | [], some a => .ok a
    | [], none => .error (c, .badSection)
    | _, _ => bad
  let inData := fun (f : Asm → Res Asm) =>
    let a := a.ready
    if a.sec.type = 3 then .error (c, .zeroFill) else if s.args = [] then bad else f a
  let num := fun (n : Nat) => inData fun a => a.data src (a.datum fin n) s.args
  let flt := fun (t : Ty) => inData fun a => a.data src (a.floatDatum t) s.args
  match op, s.args with
  | ".text", _ => std ".text" 1 5
  | ".rodata", _ => std ".rodata" 2 1
  | ".data", _ => std ".data" 2 3
  | ".bss", _ => std ".bss" 3 3
  | ".lmem", [n] => do match a.select (← nameArg .badSection n) 2 11 with | some a => .ok a | none => .error (c, .badSection)
  | ".vault", [n] => do match a.select (← nameArg .badSection n) 2 19 with | some a => .ok a | none => .error (c, .badSection)
  | ".section", [n, [(cf, .str fl)]] => do
    let cs := fl.toList
    let flags := boolNat (cs.contains 'r') + 2 * boolNat (cs.contains 'w') + 4 * boolNat (cs.contains 'x')
    let name ← nameArg .badSection n
    if cs.any (fun ch => !(ch == 'r' || ch == 'w' || ch == 'x')) then .error (cf, .badSection)
    else match a.select name (if name = ".bss" then 3 else if bit flags 2 then 1 else 2) flags with
      | some a => .ok a
      | none => .error (c, .badSection)
  | ".byte", _ => num 1
  | ".half", _ => num 2
  | ".word", _ => num 4
  | ".dword", _ => num 8
  | ".f16", _ => flt .f16
  | ".bf16", _ => flt .bf16
  | ".f32", _ => flt .f32
  | ".ascii", [[(_, .str t)]] => inData fun a => .ok (a.emitLine false (t.toUTF8.toList.map fun b => BitVec.ofNat 8 b.toNat) src)
  | ".zero", [n] => do
    let k ← a.within 0 (2 ^ 40) n
    let a := a.ready
    if a.sec.type = 3 then .ok (a.withSec fun s => { s with size := s.size + k }) else .ok (a.emitLine false (List.replicate k 0) src)
  | ".align", [n] => do
    let k ← a.within 2 16 n
    let a := a.ready.withSec fun s => { s with align := max s.align k }
    match a.pad k with
    | some bs => .ok (a.emit bs)
    | none => .error (c, .misaligned)
  | ".global", [n] => do
    let name ← nameArg .directiveOperand n
    .ok { a with globals := (name, a.line, c) :: a.globals }
  | ".extern", [n] => do
    let name ← nameArg .directiveOperand n
    if (a.findDef name).isSome then .error (c, .redefined) else .ok { a with externs := if a.externs.contains name then a.externs else a.externs ++ [name] }
  | ".equ", [n, e] => do a.define c (← nameArg .directiveOperand n) (.equ (← a.const e))
  | ".set", [n, e] => do
    let name ← nameArg .directiveOperand n
    let v ← a.const e
    if (a.findDef name).isSome then .error (c, .redefined) else .ok { a with sets := (name, v) :: a.sets }
  | ".loc", [[(_, .str f)], l, k] => do .ok { a with loc := some (f, ← a.within 1 (2 ^ 32 - 1) l, ← a.within 1 65535 k) }
  | ".insn", [(cf, .name shape)] :: fields => do
    let fs ← a.ready.rawArgs fin fields
    if shape ≠ "base" ∧ shape ≠ "ext" then .error (cf, .insn)
    else match rawWords (shape == "ext") fs with
      | some ws => a.ready.code s ws src
      | none => .error (c, .insn)
  | ".unit", args => a.unitLine c args
  | ".task", args => a.taskLine c args
  | ".handler", [n] => do
    let name ← nameArg .handler n
    .ok { a with handlers := if a.handlers.any (·.1 == name) then a.handlers else a.handlers ++ [(name, a.line, c)] }
  | ".routine", n :: rest => do
    let name ← nameArg .routine n
    let ks ← keyArgs rest
    let number ← a.keyNat ks "number" 0 63 none c
    let consts ← match keyOf ks "const" with
      | some ts => tuple a.bits32 4 ts
      | none => .ok [0, 0, 0, 0]
    if a.routines.any (·.number == number) ∨ !keysOk ks ["number", "const"] then .error (c, .routine)
    else
      let back := a.ready
      match back.select ".rodata" 2 1 with
      | some r => do
        let r := r.emit (List.replicate ((4 - r.sec.size % 4) % 4) 0)
        let r ← r.define c name (.label r.here.1 r.here.2)
        .ok { r with routine := some { name, number, consts, sec := r.here.1, off := r.here.2, back := back.here.1 } }
      | none => .error (c, .badSection)
  | ".graph", [n, d] => do
    let name ← nameArg .graph n
    let ks ← keyArgs [d]
    let depth ← a.keyNat ks "depth" 1 15 none c
    if a.graphs.any (·.name == name) then .error (c, .graph) else .ok { a with graph := some { name, depth } }
  | _, _ =>
    if [".lmem", ".vault", ".section", ".ascii", ".zero", ".align", ".global", ".extern", ".equ", ".set", ".loc", ".insn", ".handler", ".routine", ".graph"].contains op then bad
    else .error (c, .directive)

/-- A line inside a routine. -/
def Asm.routineLine (a : Asm) (r : ARoutine) (s : Stmt) (op src : String) : Res Asm := do
  if op = ".endroutine" then
    if r.count = 0 then .error (s.col, .routine)
    else .ok { a with routine := none, routines := a.routines ++ [r], cur := some r.back }
  else if s.guard.isSome ∨ r.count ≥ 64 then .error (s.col, .routine)
  else do
    let w ← a.routineInsn s op
    .ok { (a.mark s.col 3).emitLine true (leBytes 4 w) src with routine := some { r with count := r.count + 1 } }

/-- The label of a line. -/
def Asm.labelled (a : Asm) (l : Option (Nat × Label)) : Res Asm :=
  match l with
  | none => .ok a
  | some (c, .name s) => let a := a.ready; a.define c s (.label a.here.1 a.here.2)
  | some (_, .num n) => let a := a.ready; .ok { a with nums := (n, a.line, a.here.1, a.here.2) :: a.nums }

/-- One source line; a guard before a directive is an error (log 80). An edge that closes a cycle is reported at its own line (R63,
R79). fin is the assembler after the pass before, none in the first. -/
def Asm.run (fin : Option Asm) (a : Asm) (src : String) : Res Asm := do
  let a := { a with line := a.line + 1 }
  let s ← parseLine src
  let a ← a.labelled s.label
  match s.op with
  | none => .ok a
  | some op =>
    match a.routine, a.graph with
    | some r, _ => a.routineLine r s op src
    | none, some g =>
      if op = ".endgraph" then
        if g.launches = [] then .error (s.col, .graph) else .ok { a with graph := none, graphs := a.graphs ++ [g] }
      else if [".launch", ".after", ".bind"].contains op then do
        let g' ← g.line a fin s.col op s.args
        if op = ".after" ∧ fin.isSome ∧ !g'.acyclic then .error (s.col, .graph) else .ok { a with graph := some g' }
      else .error (s.col, .graph)
    | none, none =>
      if op.toList.head? = some '.' then
        if s.guard.isSome then .error (s.col, .guard) else a.directive fin s op src
      else do
        let a := a.ready
        let e ← assemble (a.known fin) s op
        let b ← a.code s e.words src
        .ok { b with
          rels := match e.rel with | some rel => { sec := a.here.1, place := a.here.2, rel } :: b.rels | none => b.rels
          warnings := if e.inexact then (a.line, s.col) :: b.warnings else b.warnings }

/-! ## The object (R76, R80 to R89) -/

/-- An error or a warning, with its file, line and column (R63). -/
structure Report where
  file : String
  line : Nat
  col : Nat
  what : Option Wrong
  deriving DecidableEq, Repr

/-- The lines of a source text. -/
def sourceLines : List Char → List Char → List String
  | cur, [] => [String.ofList cur.reverse]
  | cur, '\n' :: cs => String.ofList cur.reverse :: sourceLines [] cs
  | cur, c :: cs => sourceLines (c :: cur) cs

/-- One pass over the lines. -/
def pass (fin : Option Asm) : Asm → List String → Except Report Asm
  | a, [] => if a.routine.isSome ∨ a.graph.isSome then .error ⟨a.file, a.line, 1, some (if a.routine.isSome then .routine else .graph)⟩ else .ok a
  | a, l :: ls =>
    match a.run fin l with
    | .ok b => pass fin b ls
    | .error e => .error ⟨a.file, a.line + 1, e.1, some e.2⟩

/-- The offset of a string among strings that follow an empty one, each with a zero byte after it. -/
def stringOff : Nat → List String → String → Nat
  | _, [], _ => 0
  | o, t :: ts, s => if s = "" then 0 else if t = s then o else stringOff (o + t.utf8ByteSize + 1) ts s

/-- The bytes of a string section. -/
def stringBytes (ts : List String) : List Byte :=
  0 :: ts.flatMap fun t => (t.toUTF8.toList.map fun b => BitVec.ofNat 8 b.toNat) ++ [0]

/-- The symbols of an object after the null symbol, each with the key that relocations name it by: labels and constants in
the order they are defined, externs, units, graphs, and the places that only relocations name (R82). DESIGN CHOICE (log 80): the
symbol of a unit or of a graph names the place of its record in the section of unit or graph records. -/
def Asm.symbols (a : Asm) (unitSec graphSec : Nat) (off : String → Nat) : List (SymKey × Qof.Symbol) :=
  let bind := fun (s : String) => if a.globals.any (·.1 == s) then 1 else 0
  let kind := fun (s : String) (sec : Nat) =>
    if a.handlers.any (·.1 == s) then 6
    else if a.routines.any (·.name == s) then 4
    else if a.graphs.any (fun g => g.edges.any fun e => e.graded.any (·.2 == s)) then 7
    else if bit (a.secs.getD sec { name := "", type := 0, flags := 0 }).flags 2 then 1 else 2
  let places := (a.rels.reverse.filterMap fun r => match r.rel.sym with | .at s o => some (s, o) | .name _ => none).eraseDups
  let graphOffs := (a.graphs.foldl (fun (acc : List Nat × Nat) g => (acc.1 ++ [acc.2], acc.2 + 32 + 32 * g.launches.length + 16 * (g.edges.length + g.binds.length))) ([], 0)).1
  (a.defs.reverse.map fun d => (SymKey.name d.1, match d.2 with
    | .label sec o => ({ name := off d.1, sec := sec + 1, bind := bind d.1, kind := kind d.1 sec, value := o } : Qof.Symbol)
    | .equ v => { name := off d.1, sec := 0xFFFF, bind := bind d.1, kind := 0, value := wrap 64 v })) ++
  (a.externs.map fun s => (SymKey.name s, { name := off s, sec := 0, bind := 2, kind := 0, value := 0 })) ++
  (a.units.zipIdx.map fun u => (SymKey.name (".unit " ++ u.1.name), { name := off u.1.name, sec := unitSec, bind := bind u.1.name, kind := 3, value := 64 * u.2, size := 64 })) ++
  ((a.graphs.zip graphOffs).map fun g => (SymKey.name (".graph " ++ g.1.name), { name := off g.1.name, sec := graphSec, bind := bind g.1.name, kind := 5, value := g.2 })) ++
  (places.map fun p => (SymKey.at p.1 p.2, { name := 0, sec := p.1 + 1, bind := 0, kind := 0, value := p.2 }))

/-- The index of a symbol; the null symbol is 0. -/
def symIndex (syms : List (SymKey × Qof.Symbol)) (k : SymKey) : Nat :=
  match syms.zipIdx.find? (·.1.1 == k) with
  | some s => s.2 + 1
  | none => 0

/-- R76: the records of the units: entry and handler lie in executable sections, the handler is declared, and the local
image fits. DESIGN CHOICE (log 80): they are labels of this file; the section of a symbol that `.extern` declares is not
known, and naming one is an error. -/
def Asm.unitRecord (a : Asm) (ix : String → Nat) (off : String → Nat) (u : AUnit) : Except Report Qof.UnitRecord :=
  let bad : Except Report Qof.UnitRecord := .error ⟨a.file, u.line, u.col, some .unit⟩
  let inCode := fun s => match a.findDef s with
    | some (.label sec _) => bit (a.secs.getD sec { name := "", type := 0, flags := 0 }).flags 2
    | some (.equ _) | none => false
  let handlerOk := match u.handler with | some h => inCode h && a.handlers.any (·.1 == h) | none => true
  let image := match u.limage with
    | some n => (a.secs.zipIdx.find? fun s => s.1.name == n && bit s.1.flags 3).map fun s => (s.2 + 1, s.1.size)
    | none => some (Qof.noIndex, 0)
  match image with
  | some (im, size) =>
    if !inCode u.entry ∨ !handlerOk ∨ u.rec_.loc < size then bad
    else .ok { u.rec_ with name := off u.name, entry := ix u.entry, handler := match u.handler with | some h => ix h | none => Qof.noIndex, limage := im }
  | none => bad

/-- R79, R88: the record of a graph. -/
def Asm.graphRecord (a : Asm) (ix : String → Nat) (off : String → Nat) (g : AGraph) : Except Report Qof.GraphRecord := do
  let launches ← g.launches.mapM fun l =>
    match a.units.zipIdx.find? (·.1.name == l.unit), l.args.map ix with
    | none, _ => .error ⟨a.file, l.line, l.col, some .graph⟩
    | _, some 0 => .error ⟨a.file, l.line, l.col, some .undefinedSymbol⟩
    | some u, args => .ok ({ unit := u.2, gx := l.grid.getD 0 0, gy := l.grid.getD 1 0, gz := l.grid.getD 2 0, mode := l.mode.getD u.1.rec_.mode, prio := l.prio.getD u.1.rec_.prio, args := args.getD Qof.noIndex } : Qof.LaunchEntry)
  let edges ← g.edges.mapM fun e =>
    match e.graded with
    | none => .ok ({ src := e.src, dst := e.dst, kind := 0, grade := 0 } : Qof.EdgeEntry)
    | some (gr, o) => if ix o = 0 then .error ⟨a.file, e.line, e.col, some .undefinedSymbol⟩ else .ok { src := e.src, dst := e.dst, kind := 1, grade := gr, object := ix o }
  .ok { name := off g.name, depth := g.depth, launches, edges, binds := g.binds.map fun b => { param := b.1, launch := b.2.1, field := b.2.2 } }

/-- The object of an assembled file (R80 to R89). -/
def Asm.object (a : Asm) : Except Report Qof.File := do
  match a.globals.find? fun g => (a.findDef g.1).isNone && !a.externs.contains g.1 && !a.units.any (·.name == g.1) && !a.graphs.any (·.name == g.1), a.handlers.find? fun h => !(match a.findDef h.1 with | some (.label sec _) => bit (a.secs.getD sec { name := "", type := 0, flags := 0 }).flags 2 | _ => false) with
  | some g, _ => .error ⟨a.file, g.2.1, g.2.2, some .undefinedSymbol⟩
  | none, some h => .error ⟨a.file, h.2.1, h.2.2, some .handler⟩
  | none, none => do
    let strs := (a.secs.map (·.name) ++ a.defs.reverse.map (·.1) ++ a.externs ++ a.units.map (·.name) ++ a.graphs.map (·.name) ++ a.lines.reverse.map (·.file)).eraseDups
    let off := stringOff 1 strs
    let strAt := a.secs.length + 1
    let rels := a.rels.reverse
    let unitSec := strAt + 2 + (rels.map (·.sec)).eraseDups.length
    let graphSec := unitSec + (if a.units = [] then 0 else 1) + (if a.routines = [] then 0 else 1)
    let syms := a.symbols unitSec graphSec off
    let ix := fun s => symIndex syms (.name s)
    let units ← a.units.mapM (a.unitRecord ix off)
    let graphs ← a.graphs.mapM (a.graphRecord ix off)
    let routines := a.routines.map fun r => ({ name := off r.name, number := r.number, count := r.count, isec := r.sec + 1, ioff := r.off, consts := leNat (r.consts.flatMap (leBytes 4)) } : Qof.RoutineRecord)
    let relocs := rels.map fun r => (r.sec + 1, ({ place := r.place, symbol := symIndex syms r.rel.sym, type := r.rel.type, addend := wrap 64 r.rel.addend } : Qof.Reloc))
    let lines := a.lines.reverse
    let tables := (lines.map (·.sec)).eraseDups.map fun s => (s + 1, (lines.filter (·.sec == s)).map fun l => ({ offset := l.off, line := l.line, file := off l.file, col := l.col, flags := l.flags } : Qof.LineEntry))
    let content := a.secs.map fun s => ({ name := off s.name, type := s.type, flags := s.flags, align := s.align, size := s.size, data := s.rev.reverse } : Qof.Section)
    let strData := stringBytes strs
    let entry := match a.units with
      | u :: _ => ix (".unit " ++ u.name)
      | [] => Qof.noIndex
    .ok { flags := 0, strsec := strAt, entry, secs := [Qof.Section.null] ++ content ++ [{ name := 0, type := 4, align := 2, size := strData.length, data := strData }] ++ Qof.tables strAt (.ofFields [] :: syms.map (·.2)) relocs units routines graphs tables }

/-- Passes until every name stands where the pass before found it: lengths depend on constants (R70, R71). -/
def settle (ls : List String) : Nat → Asm → Except Report Asm
  | 0, prev => .error ⟨prev.file, 1, 1, some .unsettled⟩
  | k + 1, prev => do
    let a ← pass (some prev) { file := prev.file, later := prev.defs, laterNums := prev.nums } ls
    if a.defs = prev.defs ∧ a.nums = prev.nums then .ok a else settle ls k a

/-- A source text assembled: the object, the listing and the warnings, or the first error; an error writes no object (R63). -/
def assembleText (file text : String) : Except Report (Qof.File × List Listing × List Report) := do
  let ls := sourceLines [] text.toList
  let first ← pass none { file, first := true } ls
  let a ← settle ls 16 first
  let f ← a.object
  .ok (f, a.listing.reverse, a.warnings.reverse.map fun w => ⟨file, w.1, w.2, none⟩)

/-! ## Listings (R74) -/

/-- Eight hexadecimal digits in two groups. -/
def hexGroup (n : Nat) : String :=
  let upper := fun (s : String) => String.ofList (s.toList.map Char.toUpper)
  upper (hexDigits 4 (n / 65536)) ++ "_" ++ upper (hexDigits 4 n)

/-- Bytes in groups of four, in memory order. -/
def dataGroups : List Byte → List String
  | a :: b :: c :: d :: rest => hexGroup (((a.toNat * 256 + b.toNat) * 256 + c.toNat) * 256 + d.toNat) :: dataGroups rest
  | [] => []
  | rest => [String.ofList ((rest.flatMap fun b => (hexDigits 2 b.toNat).toList).map Char.toUpper)]

/-- The text of a line of a listing. -/
def Listing.text (l : Listing) : String :=
  hexGroup l.off ++ " " ++ " ".intercalate (if l.code then (wordsOfBytes l.bytes).map hexGroup else dataGroups l.bytes) ++ " " ++ l.src

end Sys2Proof.Presa
end

