-- ==== Sys2Proof/Tests/Slice0.lean ====
section
/-! SUPPORT. Tests: the decoder on words written out from the encoding chapter and on the words that the chapters list, the
conditions of a legal encoding, single steps, and for each statement a state and operands that meet its premises. -/

namespace Sys2Proof.Tests

open Sys2Proof Machine

/-! ## Decoding (R36 to R58) -/

/-- Operands of an extended form with guard p127 and MSK 15. -/
def form (ty : Ty) (d a b c : BitVec 8) : Form := { Form.plain false ty with d, a, b := .reg b, c }

/-- An extended form with a literal. -/
def jump (l : DWord) : Form := { Form.plain false .i32 with b := .lit l }

def base (d a : BitVec 7) (b : BaseB) : BaseForm := { u := false, d, a, b }

/-- 0xC30: EP 3, acquire, device scope, global space. -/
def acq : Access := { ep := 3, na := false, l1b := false, ord := .acquire, scope := .device, space := .global }

/-- 0x44E: EP 1, release, die scope, vault space. -/
def rel : Access := { ep := 1, na := false, l1b := false, ord := .release, scope := .die, space := .vault }

/-- 0x600: EP 1, no allocation, plain, crew scope, global space. -/
def pl : Access := { ep := 1, na := true, l1b := false, ord := .plain, scope := .crew, space := .global }

/-- The words decode to the instruction and nothing is left over. -/
def decodes (ws : List Nat) (i : Instr) : Bool :=
  match decodeWords ws with
  | .ok (j, []) => decide (j = i)
  | .ok (_, _ :: _) | .error _ => false

def decodesAll (l : List (List Nat × Instr)) : Bool := l.all fun p => decodes p.1 p.2 && encode p.2 == p.1

theorem test_decode_integer : decodesAll [
    ([0x40000207, 0x0C0400FE, 0x0000001E], .iaddExt (form .u8x4 8 12 4 0)),
    ([0x40400204, 0x0C0400FE, 0x0000001E], .isubExt (form .i16x2 8 12 4 0)),
    ([0x40800203, 0x0C0400FE, 0x0000001E], .imulExt (form .u64 8 12 4 0)),
    ([0x40C00202, 0x0C0400FE, 0x0000001E], .imulhExt (form .i64 8 12 4 0)),
    ([0x41000201, 0x0C0414FE, 0x0000001E], .imad (form .u32 8 12 4 20)),
    ([0x41400201, 0x0C0400FE, 0x0000001E], .idivExt (form .u32 8 12 4 0)),
    ([0x41800202, 0x0C0400FE, 0x0000001E], .iremExt (form .i64 8 12 4 0)),
    ([0x41C00206, 0x0C0400FE, 0x0000001E], .iminExt (form .i8x4 8 12 4 0)),
    ([0x42000205, 0x0C0400FE, 0x0000001E], .imaxExt (form .u16x2 8 12 4 0)),
    ([0x42400202, 0x0C0000FE, 0x0000001E], .iabsExt (form .i64 8 12 0 0)),
    ([0x42800206, 0x0C0000FE, 0x0000001E], .inegExt (form .i8x4 8 12 0 0)),
    ([0x42C00212, 0x0C0400FE, 0x0000001E], .andExt (form .b128 8 12 4 0)),
    ([0x43000211, 0x0C0400FE, 0x0000001E], .orExt (form .b64 8 12 4 0)),
    ([0x43400210, 0x0C0400FE, 0x0000001E], .xorExt (form .b32 8 12 4 0)),
    ([0x43800212, 0x0C0400FE, 0x0000001E], .andnExt (form .b128 8 12 4 0)),
    ([0x43C00211, 0x0C0000FE, 0x0000001E], .notExt (form .b64 8 12 0 0)),
    ([0x44000211, 0x0C0400FE, 0x0000001E], .shlExt (form .b64 8 12 4 0)),
    ([0x44400210, 0x0C0400FE, 0x0000001E], .shrExt (form .b32 8 12 4 0)),
    ([0x44800211, 0x0C0400FE, 0x0000001E], .sarExt (form .b64 8 12 4 0)),
    ([0x44C00210, 0x0C0400FE, 0x0000001E], .rolExt (form .b32 8 12 4 0)),
    ([0x45000202, 0x0C0400FE, 0x0000001E], .bfe (form .i64 8 12 4 0)),
    ([0x45400210, 0x0C0414FE, 0x0000001E], .bfi (form .b32 8 12 4 20)),
    ([0x45800211, 0x0C0000FE, 0x0000001E], .popcExt (form .b64 8 12 0 0)),
    ([0x45840210, 0x0C0000FE, 0x0000001E], .clz (form .b32 8 12 0 0)),
    ([0x45880211, 0x0C0000FE, 0x0000001E], .brev (form .b64 8 12 0 0)),
    ([0x46034203, 0x0C0400FE, 0x0000001E], .lea 5 true (form .u64 8 12 4 0)),
    ([0x46494203, 0x0C0414FE, 0x0000001E], .icmp .ge .por (form .u64 8 12 4 20)),
    ([0x46804211, 0x0C0400FE, 0x0000001E], .pset true (form .b64 8 12 4 0)),
    ([0x46F60210, 0x0C0414FE, 0x0000001E], .plop 0xD8 (form .b32 8 12 4 20)),
    ([0x47000212, 0x0C0414FE, 0x0000001E], .sel (form .b128 8 12 4 20)),
    ([0x47400212, 0x000400FE, 0x0000001E], .movExt (form .b128 8 0 4 0)),
    ([0x47894203, 0x000000FE, 0x0000001E], .sreg (.cwp 5) (form .u64 8 0 0 0)),
    ([0x47CD8200, 0x0C0000FE, 0x0000001E], .cvti .i8x4 3 (form .i32 8 12 0 0))] = true := by decide

theorem test_decode_control : decodesAll [
    ([0xC8000000, 0x000000FE, 0x0000001E, 0x0000002C, 0x00000000], .brExt (jump 0x2C)),
    ([0x48418000, 0x0C0400FE, 0x0000001E], .brx 6 (form .i32 0 12 4 0)),
    ([0xC8800000, 0x000000FE, 0x0000001E, 0x0000002C, 0x00000000], .callExt (jump 0x2C)),
    ([0x48C00000, 0x0C0000FE, 0x0000001E], .callx (form .i32 0 12 0 0)),
    ([0x49000000, 0x000000FE, 0x0000001E], .retExt (form .i32 0 0 0 0)),
    ([0x49400000, 0x0C0000FE, 0x0000001E], .exitExt (form .i32 0 12 0 0)),
    ([0x49804200, 0x000000FE, 0x0000001E], .mset .add (form .i32 8 0 0 0)),
    ([0x49C00000, 0x0C0000FE, 0x0000001E], .mjoin (form .i32 0 12 0 0)),
    ([0x4A000000, 0x0C0000FE, 0x0000001E], .mbar (form .i32 0 12 0 0)),
    ([0x4A424200, 0x0C0400FE, 0x0000001E], .mop 9 (form .i32 8 12 4 0)),
    ([0x4A800000, 0x000000FE, 0x0000001E], .yieldExt (form .i32 0 0 0 0)),
    ([0x4AC00000, 0x000000FE, 0x0000001E], .nopExt (form .i32 0 0 0 0)),
    ([0x4AC74000, 0x000000FE, 0x0000001E], .brk 13 (form .i32 0 0 0 0)),
    ([0x4B000200, 0x0C0000FE, 0x0000001E], .fwaitExt (form .i32 8 12 0 0)),
    ([0x4B400200, 0x0C0000FE, 0x0000001E], .ftest (form .i32 8 12 0 0)),
    ([0x4B800000, 0x0C0000FE, 0x0000001E], .fcancel (form .i32 0 12 0 0)),
    ([0x4BC00200, 0x0C0000FE, 0x0000001E], .fmov (form .i32 8 12 0 0))] = true := by decide

theorem test_decode_float : decodesAll [
    ([0x4C008209, 0x0C0400FE, 0x0000001E], .faddExt .rtz (form .f16 8 12 4 0)),
    ([0x4C40C20A, 0x0C0400FE, 0x0000001E], .fsubExt .rup (form .bf16 8 12 4 0)),
    ([0x4C81020B, 0x0C0400FE, 0x0000001E], .fmulExt .rdn (form .f16x2 8 12 4 0)),
    ([0x4CC0420C, 0x0C0414FE, 0x0000001E], .ffma .rne (form .bf16x2 8 12 4 20)),
    ([0x4D000208, 0x0C0400FE, 0x0000001E], .fminExt (form .f32 8 12 4 0)),
    ([0x4D400209, 0x0C0400FE, 0x0000001E], .fmaxExt (form .f16 8 12 4 0)),
    ([0x4D85C20A, 0x0C0414FE, 0x0000001E], .fcmp .ord .pand (form .bf16 8 12 4 20)),
    ([0x4DC0C20B, 0x0C0414FE, 0x0000001E], .fsel .le (form .f16x2 8 12 4 20)),
    ([0x4E000208, 0x0C0000FE, 0x0000001E], .frcp (form .f32 8 12 0 0)),
    ([0x4E400209, 0x0C0000FE, 0x0000001E], .frsq (form .f16 8 12 0 0)),
    ([0x4E808208, 0x0C0000FE, 0x0000001E], .fsqrt .rtz (form .f32 8 12 0 0)),
    ([0x4EC00209, 0x0C0000FE, 0x0000001E], .fexp2 (form .f16 8 12 0 0)),
    ([0x4EC40208, 0x0C0000FE, 0x0000001E], .flog2 (form .f32 8 12 0 0)),
    ([0x4EC8020A, 0x0C0000FE, 0x0000001E], .ftanh (form .bf16 8 12 0 0)),
    ([0x4F000208, 0x0C0000FE, 0x0000001E], .fclass (form .f32 8 12 0 0)),
    ([0x4F504209, 0x0C0000FE, 0x0000001E], .cvtf .f32 .rne (form .f16 8 12 0 0)),
    ([0x4F804210, 0x0C0400FE, 0x0000001E], .fpackHdr (form .b32 8 12 4 0)),
    ([0x4F80020F, 0x0C0414FE, 0x0000001E], .fpack (form .e2m1x8 8 12 4 20)),
    ([0x4F844208, 0x0C0400FE, 0x0000001E], .funpack true (form .f32 8 12 4 0)),
    ([0x4FC04210, 0x000000FE, 0x0000001E], .fsrr true (form .b32 8 0 0 0)),
    ([0x4FC48010, 0x000400FE, 0x0000001E], .fsrw .rm (form .b32 0 0 4 0))] = true := by decide

theorem test_decode_matrix : decodesAll [
    ([0x50004200, 0x0C0400FE, 0x0000001E], .mma true (form .i32 8 12 4 0)),
    ([0x50418200, 0x0C0400FE, 0x0000001E], .mmasp .n32 false (form .i32 8 12 4 0)),
    ([0x50800200, 0x0C0400FE, 0x0000001E], .bload (form .i32 8 12 4 0)),
    ([0x50C00200, 0x0C0000FE, 0x0000001E], .mdrain (form .i32 8 12 0 0)),
    ([0x5100C200, 0x000000FE, 0x0000001E], .mzero 3 (form .i32 8 0 0 0)),
    ([0x515E4200, 0x000000FE, 0x0000001E], .mstat (.bs 9) .sb (form .i32 8 0 0 0))] = true := by decide

theorem test_decode_crosslane : decodesAll [
    ([0x5200C200, 0x0C0000FE, 0x0000001E], .vote .uni (form .i32 8 12 0 0)),
    ([0x52404202, 0x0C0000FE, 0x0000001E], .cred .min .fsr (form .i64 8 12 0 0)),
    ([0x52A40208, 0x0C0000FE, 0x0000001E], .cscan .add .rne true (form .f32 8 12 0 0)),
    ([0x52C04212, 0x0C0400FE, 0x0000001E], .cperm true (form .b128 8 12 4 0)),
    ([0x53000208, 0x0C0414FE, 0x0000001E], .sample (form .f32 8 12 4 20)),
    ([0x53404210, 0x000414FE, 0x0000001E], .xget .pred false (form .b32 8 0 4 20)),
    ([0x53800011, 0x0C0414FE, 0x0000001E], .xput .gpr (form .b64 0 12 4 20))] = true := by decide

theorem test_decode_memory : decodesAll [
    ([0x54004214, 0x0C0400FE, 0x000C301E], .ldExt true acq (form .b16 8 12 4 0)),
    ([0x54400213, 0x0C0400FE, 0x00044E1E], .stExt rel (form .b8 8 12 4 0)),
    ([0x54800212, 0x0C0400FE, 0x0006001E], .ldnc false pl (form .b128 8 12 4 0)),
    ([0x54C00210, 0x0C0400FE, 0x0006001E], .stnc pl (form .b32 8 12 4 0)),
    ([0x55000000, 0x0C0400FE, 0x0006001E], .pf pl (form .i32 0 12 4 0)),
    ([0x55400200, 0x0C0000FE, 0x0006001E], .pft pl (form .i32 8 12 0 0)),
    ([0x55808000, 0x0C0400FE, 0x0006001E], .cflush .l1 pl (form .i32 0 12 4 0)),
    ([0x55C18200, 0x0C0000FE, 0x0000001E], .copy 6 (form .i32 8 12 0 0)),
    ([0x56000000, 0x0C0400FE, 0x0000001E], .bbwait (form .i32 0 12 4 0)),
    ([0x56400200, 0x0C0400FE, 0x0000001E], .bgive (form .i32 8 12 4 0)),
    ([0x56804200, 0x0C0400FE, 0x0000001E], .btake true (form .i32 8 12 4 0)),
    ([0x56C00200, 0x0C0000FE, 0x0000001E], .binfo (form .i32 8 12 0 0))] = true := by decide

theorem test_decode_order : decodesAll [
    ([0x583C0000, 0x000000FE, 0x0000001E], .fenceExt .ww .fabric (form .i32 0 0 0 0)),
    ([0x58548000, 0x000000FE, 0x0000001E], .pfence .mat .draft (form .i32 0 0 0 0)),
    ([0x58800000, 0x000000FE, 0x0000001E], .ifence (form .i32 0 0 0 0))] = true := by decide

theorem test_decode_atomics : decodesAll [
    ([0x5A018211, 0x0C0400FE, 0x000C301E], .atom .exch acq (form .b64 8 12 4 0)),
    ([0x5A408000, 0x0C0400FE, 0x0006001E], .ared .max pl (form .i32 0 12 4 0)),
    ([0x5A804011, 0x0C0414FE, 0x0006001E], .acas true pl (form .b64 0 12 4 20)),
    ([0x5AC00200, 0x0C0414FE, 0x0000001E], .lrdef (form .i32 8 12 4 20)),
    ([0x5B0A4200, 0x0C0400FE, 0x0006001E], .lrun 41 pl (form .i32 8 12 4 0)),
    ([0x5B400000, 0x000400FE, 0x0000001E], .lrdrop (form .i32 0 0 4 0)),
    ([0x5B804211, 0x0C0414FE, 0x000C301E], .waitv true acq (form .b64 8 12 4 20)),
    ([0x5BC00200, 0x0C0400FE, 0x0000001E], .wakev (form .i32 8 12 4 0))] = true := by decide

theorem test_decode_tasks : decodesAll [
    ([0x5C000200, 0x0C0000FE, 0x0000001E], .tspawn (form .i32 8 12 0 0)),
    ([0x5C400000, 0x000000FE, 0x0000001E], .tcommit (form .i32 0 0 0 0)),
    ([0x5C440000, 0x000000FE, 0x0000001E], .trigger (form .i32 0 0 0 0)),
    ([0x5C484000, 0x0C0000FE, 0x0000001E], .tabort true (form .i32 0 12 0 0)),
    ([0x5C4C0000, 0x000000FE, 0x0000001E], .tseal (form .i32 0 0 0 0)),
    ([0x5C800200, 0x000000FE, 0x0000001E], .tstat (form .i32 8 0 0 0)),
    ([0x5CC04200, 0x0C0400FE, 0x0000001E], .gread true (form .i32 8 12 4 0)),
    ([0x5D018200, 0x0C0400FE, 0x0000001E], .gpub .provisional true (form .i32 8 12 4 0)),
    ([0x5D414200, 0x0C0414FE, 0x0000001E], .gwait .guess true (form .i32 8 12 4 20))] = true := by decide

theorem test_decode_launch : decodesAll [
    ([0x5D800200, 0x0C0000FE, 0x0000001E], .launch (form .i32 8 12 0 0)),
    ([0x5DC00000, 0x0C0400FE, 0x0000001E], .wfetch (form .i32 0 12 4 0)),
    ([0x5DC4C200, 0x000400FE, 0x0000001E], .cancel .job (form .i32 8 0 4 0)),
    ([0x5DC88200, 0x000400FE, 0x0000001E], .ccount .phase (form .i32 8 0 4 0)),
    ([0x5DCC0000, 0x0C0000FE, 0x0000001E], .progress (form .i32 0 12 0 0)),
    ([0x5DD00200, 0x0C0000FE, 0x0000001E], .budget (form .i32 8 12 0 0))] = true := by decide

theorem test_decode_fabric : decodesAll [
    ([0x5E000200, 0x0C0414FE, 0x000C301E], .rld acq (form .i32 8 12 4 20)),
    ([0x5E040200, 0x0C0414FE, 0x0006001E], .rld3 pl (form .i32 8 12 4 20)),
    ([0x5E400211, 0x0C0400FE, 0x0006001E], .rst pl (form .b64 8 12 4 0)),
    ([0x5E440200, 0x0C0414FE, 0x0006001E], .mcst pl (form .i32 8 12 4 20)),
    ([0x5E850010, 0x0C0400FE, 0x0006001E], .ratom .or true pl (form .b32 0 12 4 0)),
    ([0x5EC04000, 0x000400FE, 0x0000001E], .rfence true (form .i32 0 0 4 0)),
    ([0x5EC40200, 0x0C0000FE, 0x0000001E], .lwin (form .i32 8 12 0 0)),
    ([0x5EC44200, 0x000400FE, 0x0000001E], .lwinClose (form .i32 8 0 4 0))] = true := by decide

theorem test_decode_system : decodesAll [
    ([0x5F000000, 0x000400FE, 0x0000001E], .trap (form .i32 0 0 4 0)),
    ([0x5F040000, 0x000400FE, 0x0000001E], .resume (form .i32 0 0 4 0)),
    ([0x5F080000, 0x000000FE, 0x0000001E], .hret (form .i32 0 0 0 0)),
    ([0x5F400000, 0x0C0414FE, 0x0000001E], .shoot (form .i32 0 12 4 20)),
    ([0x5F440000, 0x000000FE, 0x0000001E], .shootsync (form .i32 0 0 0 0)),
    ([0x5F480200, 0x0C0400FE, 0x0000001E], .pinset (form .i32 8 12 4 0)),
    ([0x5F4C0200, 0x0C0414FE, 0x0000001E], .pincap (form .i32 8 12 4 20)),
    ([0x5F500200, 0x0C0400FE, 0x0000001E], .ctxsave (form .i32 8 12 4 0)),
    ([0x5F540200, 0x0C0000FE, 0x0000001E], .ctxload (form .i32 8 12 0 0)),
    ([0x5F580200, 0x0C0000FE, 0x0000001E], .sysrd (form .i32 8 12 0 0)),
    ([0x5F5C0000, 0x0C0400FE, 0x0000001E], .syswr (form .i32 0 12 4 0)),
    ([0x5F820200, 0x0C0400FE, 0x0000001E], .dprop 8 (form .i32 8 12 4 0)),
    ([0x5F840200, 0x0C0414FE, 0x0000001E], .dapp (form .i32 8 12 4 20)),
    ([0x5F880200, 0x0C0000FE, 0x0000001E], .dclr (form .i32 8 12 0 0)),
    ([0x5F8C0200, 0x0C0400FE, 0x0000001E], .rpub (form .i32 8 12 4 0))] = true := by decide

theorem test_decode_base_integer : decodesAll [
    ([0x00018612], .iaddBase (base 3 6 (.reg 9))),
    ([0x00418612], .isubBase (base 3 6 (.reg 9))),
    ([0x00818612], .imulBase (base 3 6 (.reg 9))),
    ([0x00C18612], .imulhBase (base 3 6 (.reg 9))),
    ([0x01418612], .idivBase (base 3 6 (.reg 9))),
    ([0x01818612], .iremBase (base 3 6 (.reg 9))),
    ([0x01C18612], .iminBase (base 3 6 (.reg 9))),
    ([0x02018612], .imaxBase (base 3 6 (.reg 9))),
    ([0x02418600], .iabsBase (base 3 6 (.reg 0))),
    ([0x02818600], .inegBase (base 3 6 (.reg 0))),
    ([0x02C18612], .andBase (base 3 6 (.reg 9))),
    ([0x03018612], .orBase (base 3 6 (.reg 9))),
    ([0x03418612], .xorBase (base 3 6 (.reg 9))),
    ([0x03818612], .andnBase (base 3 6 (.reg 9))),
    ([0x03C18600], .notBase (base 3 6 (.reg 0))),
    ([0x04018612], .shlBase (base 3 6 (.reg 9))),
    ([0x04418612], .shrBase (base 3 6 (.reg 9))),
    ([0x04818612], .sarBase (base 3 6 (.reg 9)))] = true := by decide

theorem test_decode_base_other : decodesAll [
    ([0x04C18612], .rolBase (base 3 6 (.reg 9))),
    ([0x05818600], .popcBase (base 3 6 (.reg 0))),
    ([0x07418012], .movBase (base 3 0 (.reg 9))),
    ([0x09400600], .exitBase (base 0 6 (.reg 0))),
    ([0x0B018600], .fwaitBase (base 3 6 (.reg 0))),
    ([0x0C018612], .faddBase (base 3 6 (.reg 9))),
    ([0x0C418612], .fsubBase (base 3 6 (.reg 9))),
    ([0x0C818612], .fmulBase (base 3 6 (.reg 9))),
    ([0x0D018612], .fminBase (base 3 6 (.reg 9))),
    ([0x0D418612], .fmaxBase (base 3 6 (.reg 9))),
    ([0x14018612], .ldBase (base 3 6 (.reg 9))),
    ([0x14418612], .stBase (base 3 6 (.reg 9))),
    ([0x083FFFFD], .brBase false 0x3FFFFD),
    ([0x08BFFFFD], .callBase false 0x3FFFFD),
    ([0x29000000], .retBase true),
    ([0x2A800000], .yieldBase true),
    ([0x2AC00000], .nopBase true),
    ([0x38000000], .fenceBase true)] = true := by decide

/-! ## The words that the chapters themselves list -/

/-- Listings of 02_encoding, 03_assembly_object, 04_integer and 05_control. -/
theorem test_listed_integer_control : decodesAll [
    ([0x00028607], .iaddBase (base 5 6 (.imm 3))),
    ([0x40003200, 0x06070006, 0x5840005E],
      .iaddExt { form .i32 200 6 7 0 with guard := 3, feB := true, modA := { cls := .rotate, seg := .s8, dist := 1, num := .none } }),
    ([0x44800211, 0x040C00FE, 0x0000001E], .sarExt (form .b64 8 4 12 0)),
    ([0xC6408140, 0x030000FE, 0x0000001E, 0x0000000A, 0x00000000], .icmp .lt .none { form .i32 5 3 0 0 with b := .lit 10 }),
    ([0x87448000, 0x12345678, 0x00000000], .movBase (base 9 0 (.lit 0x12345678))),
    ([0xC7400291, 0x000000FE, 0x0000001E, 0x00000000, 0x00000000], .movExt { form .b64 10 0 0 0 with b := .lit 0 }),
    ([0x08000002], .brBase false 2), ([0x0AC00000], .nopBase false), ([0x09400500], .exitBase (base 0 5 (.reg 0))),
    ([0x47800041, 0x000000FE, 0x0000001E], .sreg .lane (form .u32 1 0 0 0)),
    ([0x4A430040, 0x0F0F00FE, 0x0000001E], .mop 12 (form .i32 1 15 15 0)),
    ([0xC8410000, 0x030000FE, 0x0000001E, 0x00000074, 0x00000000], .brx 4 { form .i32 0 3 0 0 with b := .lit 0x74 }),
    ([0x0342817F], .xorBase (base 5 1 (.imm 63))), ([0x49C00000, 0x010000FE, 0x0000001E], .mjoin (form .i32 0 1 0 0)),
    ([0xC8000000, 0x00000002, 0x0000001E, 0xFFFFFFA0, 0xFFFFFFFF], .brExt { jump 0xFFFFFFFFFFFFFFA0 with guard := 1 }),
    ([0x82C08100, 0xFFFFFF00, 0x00000000], .andBase (base 1 1 (.lit 0xFFFFFF00))),
    ([0x46008383, 0x0E0C00FE, 0x0000001E], .lea 2 false (form .u64 14 14 12 0))] = true := by decide

/-- Listings of 06_float, 07_matrix, 08_crosslane and 10_ordering. -/
theorem test_listed_float_matrix : decodesAll [
    ([0x0C018403], .faddBase (base 3 4 (.imm 1))),
    ([0x4CC082AB, 0x0B0C0DFE, 0x0000011E],
      .ffma .rtz { form .f16x2 10 11 12 13 with sat := true, modB := { cls := .identity, seg := .s32, dist := 0, num := .neg } }),
    ([0x4F50452D, 0x040600FE, 0x0000001E], .cvtf .f32 .rne { form .e4m3x4 20 4 6 0 with sat := true }),
    ([0x4F80050F, 0x080C18FE, 0x0000001E], .fpack (form .e2m1x8 20 8 12 24)),
    ([0x70800A80, 0x040300FE, 0x0000001E], .bload { form .i32 42 4 3 0 with u := true }),
    ([0x50000A00, 0x020300FE, 0x0000001E], .mma false (form .i32 40 2 3 0)),
    ([0x70C00A40, 0x050000FE, 0x0000001E], .mdrain { form .i32 41 5 0 0 with u := true }),
    ([0x0B14A900], .fwaitBase (base 41 41 (.reg 0))),
    ([0x52A00308, 0x080000FE, 0x0000001E], .cscan .add .fsr true (form .f32 12 8 0 0)),
    ([0x53000288, 0x080902FE, 0x0000001E], .sample (form .f32 10 8 9 2)),
    ([0x534100D0, 0x000128FE, 0x0000001E], .xget .gpr true (form .b32 3 0 1 40)),
    ([0x18000000], .fenceBase false), ([0x58120000, 0x000000FE, 0x0000001E], .fenceExt .acq .crew (form .i32 0 0 0 0)),
    ([0x58280000, 0x000000FE, 0x0000001E], .fenceExt .rel .die (form .i32 0 0 0 0)),
    ([0x58484000, 0x000000FE, 0x0000001E], .pfence .copy .mat (form .i32 0 0 0 0))] = true := by decide

/-- Listings of 09_memory, 11_atomics_routines, 12_tasks_grades and 13_launch_schedule. -/
theorem test_listed_memory_tasks : decodesAll [
    ([0x54004254, 0x040600FE, 0x000C301E], .ldExt true acq (form .b16 9 4 6 0)),
    ([0x54400311, 0x140700FE, 0x00044E1E], .stExt rel (form .b64 12 20 7 0)),
    ([0x55C08780, 0x050000FE, 0x0000001E], .copy 2 (form .i32 30 5 0 0)),
    ([0xD6000000, 0x060000FE, 0x0000001E, 0x00000000, 0x00000000], .bbwait { form .i32 0 6 0 0 with b := .lit 0 }),
    ([0xFAC00180, 0x020018FE, 0x0000001E, 0x00002905, 0x00000000], .lrdef { form .i32 6 2 0 24 with u := true, b := .lit 0x2905 }),
    ([0x5B014100, 0x0A0C00FE, 0x0004001E], .lrun 5 .base (form .i32 4 10 12 0)),
    ([0x5C484000, 0x030000FE, 0x0000001E], .tabort true (form .i32 0 3 0 0)),
    ([0x5D418100, 0x140006FE, 0x0000001E], .gwait .provisional true (form .i32 4 20 0 6)),
    ([0xFD00C1C0, 0x0A0000FE, 0x0000001E, 0x00000080, 0x00000000], .gpub .final false { form .i32 7 10 0 0 with u := true, b := .lit 0x80 }),
    ([0x94040A00, 0x00000188, 0x00000000], .ldBase (base 8 10 (.lit 0x188))), ([0x04C28421], .rolBase (base 5 4 (.imm 16))),
    ([0x7DC00000, 0x040100FE, 0x0000001E], .wfetch { form .i32 0 4 1 0 with u := true }),
    ([0xDDC44140, 0x000000FE, 0x0000001E, 0x00000003, 0x00000000], .cancel .graph { form .i32 5 0 0 0 with b := .lit 3 }),
    ([0xD4000190, 0x040000FE, 0x0004011E, 0x0000000C, 0x00000000],
      .ldExt false { Access.base with space := .localMem } { form .b32 6 4 0 0 with b := .lit 12 })] = true := by decide

/-- Listings of 14_fabric, 15_traps, 16_translation_system and 17_generation_host. -/
theorem test_listed_fabric_system : decodesAll [
    ([0x5E000140, 0x04090CFE, 0x0004391E],
      .rld { ep := 1, na := false, l1b := false, ord := .acquire, scope := .fabric, space := .localMem } (form .i32 5 4 9 12)),
    ([0x5E040140, 0x02080CFE, 0x0004001E], .rld3 .base (form .i32 5 2 8 12)),
    ([0x5E400311, 0x040700FE, 0x0004581E], .rst { Access.base with ord := .release, scope := .fabric } (form .b64 12 4 7 0)),
    ([0x5E840000, 0x040900FE, 0x0004001E], .ratom .add true .base (form .i32 0 4 9 0)),
    ([0xDEC440C0, 0x000000FE, 0x0000001E, 0x00000007, 0x00000000], .lwinClose { form .i32 3 0 0 0 with b := .lit 7 }),
    ([0xDF000000, 0x000000FE, 0x0000001E, 0x00000007, 0x00000000], .trap { form .i32 0 0 0 0 with b := .lit 7 }),
    ([0x5F040000, 0x000100FE, 0x0000001E], .resume (form .i32 0 0 1 0)), ([0x5F080000, 0x000000FE, 0x0000001E], .hret (form .i32 0 0 0 0)),
    ([0x5F400000, 0x080A0BFE, 0x0000001E], .shoot (form .i32 0 8 10 11)), ([0x5F4C0140, 0x060708FE, 0x0000001E], .pincap (form .i32 5 6 7 8)),
    ([0x5F580100, 0x060000FE, 0x0000001E], .sysrd (form .i32 4 6 0 0)), ([0x5F820140, 0x060700FE, 0x0000001E], .dprop 8 (form .i32 5 6 7 0)),
    ([0x5F8C0140, 0x080700FE, 0x0000001E], .rpub (form .i32 5 8 7 0))] = true := by decide

/-! ## Encodings that are refused (R59) -/

/-- Words that decode to nothing, with the condition that they meet. -/
def refuses (ws : List Nat) (why : Illegal) : Bool :=
  match decodeWords ws with
  | .error (.illegal e) => decide (e = why)
  | .error .tooShort | .ok _ => false

theorem test_refused_words :
    refuses [0x45C00000, 0xFE, 0x1E] .unassignedMajor = true ∧ refuses [0x5FC00000, 0xFE, 0x1E] .permanent = true ∧
    refuses [0x1FC00000] .permanent = true ∧ refuses [0x45840000 + 0x30 * 16384, 0xFE, 0x1E] .unassignedSub = true ∧
    refuses [0x01000000] .noBaseForm = true ∧ refuses [0x40000015, 0xFE, 0x1E] .typeCode = true ∧
    refuses [0x40000000, 0xFE, 0x1F] .nonzeroUnused = true ∧ refuses [0x98000000, 0, 0] .literal = true ∧
    refuses [0x40000000, 0xFE, 0x2C00001E] .modifierField = true := by decide

/-! ## The conditions of a legal encoding, each with a term that breaks it -/

theorem test_wellFormed_example : (Instr.iaddExt (form .i32 8 12 4 0)).WellFormed := rfl

theorem test_illFormed :
    (Instr.iaddExt (form .f32 8 12 4 0)).illegal = some .typeCode ∧
    (Instr.gpub .absent false (form .i32 8 12 4 0)).illegal = some .unassignedSub ∧
    (Instr.retExt { form .i32 0 0 0 0 with b := .lit 4 }).illegal = some .literal ∧
    (Instr.brExt (jump 2)).illegal = some .literal ∧
    (Instr.iaddExt (form .i64 9 12 4 0)).illegal = some .registerField ∧
    (Instr.mjoin (form .i32 0 16 0 0)).illegal = some .registerField ∧
    (Instr.nopExt (form .i32 0 0 0 4)).illegal = some .registerField ∧
    (Instr.imulhExt { form .i32 8 12 4 0 with sat := true }).illegal = some .fieldUse ∧
    (Instr.movExt { form .b32 8 0 4 0 with feA := true }).illegal = some .fieldUse ∧
    (Instr.stExt { pl with ord := .acquire } (form .b32 8 12 4 0)).illegal = some .fieldUse ∧
    (Instr.pf { pl with space := .vault } (form .i32 0 12 4 0)).illegal = some .fieldUse ∧
    (Instr.iaddExt { form .i32 8 12 4 0 with msk := 3 }).illegal = some .fieldUse ∧
    (Instr.iaddExt { form .u32 8 12 4 0 with modA := { LaneMod.zero with num := .neg } }).illegal = some .modifierField ∧
    (Instr.iaddExt { form .i32 8 12 4 0 with modA := { LaneMod.zero with seg := .s8 } }).illegal = some .modifierField ∧
    (Instr.iaddExt { form .i32 8 12 4 0 with modB := { cls := .rotate, seg := .s4, dist := 4, num := .none } }).illegal = some .modifierField ∧
    (Instr.mjoin { form .i32 0 2 0 0 with u := true }).illegal = some .uniform := by decide

/-- The conditions that depend on where the instruction runs: a handler, a system core, the registers allocated. -/
theorem test_illegal_in_place :
    let compute : Place := { handler := false, system := false, regs := 32, unitRegs := 32 }
    let at_ (i : Instr) (p : Place) : Option Illegal := i.view.bind fun v => v.illegalAt p
    at_ (.iaddExt (form .i32 8 12 4 0)) compute = none ∧
    at_ (.iaddExt (form .i32 32 12 4 0)) compute = some .registerField ∧
    at_ (.exitExt (form .i32 0 4 0 0)) { compute with handler := true } = some .context ∧
    at_ (.resume (form .i32 0 0 4 0)) compute = some .context ∧
    at_ (.mzero 0 (form .i32 8 0 0 0)) { compute with system := true } = some .context ∧
    at_ (.plop 0x80 (form .b32 16 1 2 3)) { compute with handler := true } = some .registerField ∧
    at_ (.xget .gpr false (form .b32 8 0 4 32)) { compute with handler := true } = some .registerField := by decide


/-! ## Assembly text and QOF (03_assembly_object) -/

/-- The words of the instruction of a one-line text; none where presa reports an error. -/
def asmWords (t : String) : Option (List Nat) :=
  match Presa.assembleText "t" t with
  | .ok (_, [l], _) => some (wordsOfBytes l.bytes)
  | .ok _ | .error _ => none

/-- What is wrong with a text, and in which line and column. -/
def asmError (t : String) : Option (Nat × Nat × Presa.Wrong) :=
  match Presa.assembleText "t" t with
  | .ok _ => none
  | .error r => r.what.map fun w => (r.line, r.col, w)

/-- The listing of R74: a modifier, a guard and a full/empty bit. -/
theorem test_presa_listing : asmWords "(p3) iadd.i32 g200, g6^rot(8,1), g7!" = some [0x40003200, 0x06070006, 0x5840005E] := by decide +kernel

/-- R71: an integer constant on a float operand stands for its value. -/
theorem test_presa_float_constant : asmWords "fadd.f32 g1, g2, 100" = some [0x8C008200, 0x42C80000, 0] := by decide +kernel

/-- R63, R67: an operand is missing in line 2, column 2. -/
theorem test_presa_error : asmError "nop\n iadd g5, g6" = some (2, 2, .operandCount) := by decide +kernel

/-- R66: the canonical spelling, the default type printed. -/
theorem test_presa_spelling : (Presa.disassemble [0x00028607]).1 = "iadd.i32 g5, g6, 3" := by decide +kernel

/-- A file with the null section and an empty string section. -/
def tinyFile : Qof.File := { flags := 1, strsec := 1, secs := [.null, { name := 0, type := 4, size := 1, data := [0] }] }

/-- R80, R90: a file reads back, and one changed byte makes the loader reject it. -/
theorem test_qof_reads_back :
    (match Qof.File.ofBytes tinyFile.bytes with | .ok f => decide (f = tinyFile) | .error _ => false) = true ∧
    Qof.File.ofBytes (tinyFile.bytes.set 165 1) = .error .crc := by decide +kernel

/-- R74, R83: the branch of the listing, 8 bytes ahead, and a literal relocation on a word without a literal. -/
theorem test_qof_relocation :
    (match Qof.applyReloc (leBytes 4 0x08000000) 3 0 0x38 0x30 with | .ok b => b == leBytes 4 0x08000002 | .error _ => false) = true ∧
    (match Qof.applyReloc (leBytes 4 0x08000000) 4 0 0x38 0x30 with | .error e => e == .noLiteral | .ok _ => false) = true := by decide +kernel

/-- The sections of a file, by their types and bytes. -/
def asmSections (t : String) : List (Nat × List Byte) :=
  match Presa.assembleText "t" t with
  | .ok (f, _, _) => f.secs.map fun s => (s.type, s.data)
  | .error _ => []

/-- R48, R67: the full/empty bit of an address register is bit 7 of the third word. -/
theorem test_presa_address_empty : asmWords "ld g8, [g4!]" = some [0xD4000210, 0x040000FE, 0x0004009E, 0, 0] := by decide +kernel

/-- R62, R82: both uses of the point in one line name its address, 4. -/
theorem test_presa_point :
    ((asmSections "nop\n .word ., .").find? (·.1 == 5)).map (fun s => (field s.2 24 4, field s.2 32 8)) = some (0, 4) ∧
    ((asmSections "nop\n .word ., .").find? (·.1 == 5)).map (fun s => s.2.length) = some 48 := by decide +kernel

/-- R78, R87: a negative constant of a routine is stored in 32 bits. -/
theorem test_presa_routine_constant :
    ((asmSections ".routine r, number=1, const=(-1,0,0,0)\n mov.b32 v0, t2\n.endroutine").find? (·.1 == 8)).map
      (fun s => (field s.2 4 1, field s.2 5 1, field s.2 0x10 4)) = some (1, 1, 0xFFFFFFFF) := by decide +kernel

/-! ## Small states for the witnesses -/

/-- A live thread at 0x1000 whose lowest registers hold the words given. -/
def th (regs : List Word) : Thread := { Thread.fresh 32 0x1000 true 0 0 with regs := regs ++ List.replicate (32 - regs.length) 0 }

/-- A crew whose lane 0 is the thread given; its other lanes have exited. -/
def crewOf (t : Thread) : Crew := { Crew.fresh 32 0x1000 0 0 0 with threads := t :: List.replicate 31 (.fresh 32 0x1000 false 0 0) }

def desc : Desc := { Desc.system with entry := 0x1000, handler := 0x2000, regs := 32, loc := 16384, accs := 1, bslots := 1 }

/-- Unit 8 of context 1 on core 0, direct, with 16 KiB of local memory. -/
def unitOf (c : Crew) : RUnit :=
  { RUnit.system 0 with uid := 8, ctx := 1, core := 0, launch := 0x101, desc, crews := [c],
                        granules := List.replicate 4 { holder := .own, cnt := 0 }, accs := [.fresh], bslots := [.fresh] }

/-- A page that maps the lowest 64 KiB onto themselves. -/
def page : Leaf :=
  { va := 0, size := 65536, pa := 0, die := 0, dom := 0, pn := false, xw := false, gx := false, tso := false, x := true, w := true, gmap := 0 }

/-- A valid context of fabric domain 1. -/
def context : Context := { Context.reset with ctxctl := 0x100000001 }

/-- A machine with one unit, whose lane 0 is the bundle that issues. -/
def world (u : RUnit) : State :=
  { State.reset with
    units := [u], ctxs := [(1, context)], sched := { State.reset.sched with issue := some (8, [(0, 0)]) },
    caches := { State.reset.caches with
                tlbs := [0, 0x400, 0x480, 0x1000].map fun va => { slice := context.home page va, ctx := 1, leaf := page } } }

def one (regs : List Word) : State := world (unitOf (crewOf (th regs)))

/-- The system core of die 0 with a live thread, events masked. -/
def sysOne (regs : List Word) : State :=
  { world { RUnit.system 0 with uid := 8, crews := [crewOf { th regs with regs := regs ++ List.replicate (256 - regs.length) 0 }] } with ctxs := [(0, context), (1, context)] }

def t0 : Tid := ⟨8, 0, 0⟩
def t1 : Tid := ⟨8, 0, 1⟩

/-- The unit of a state's bundle, and the view of an instruction. -/
def un (s : State) : RUnit := (s.unit? 8).getD (unitOf (crewOf (th [])))
def vw (i : Instr) : View := i.view.getD ⟨{}, .plain false .i32, none⟩

def checkPresent (s : State) (t : Tid) : Bool :=
  match s.unit? t.uid with
  | some u => decide (t.crew < u.crews.length) && (t.lane == 32 || decide (t.lane < (u.crew t.crew).threads.length))
  | none => false

theorem present {s : State} {t : Tid} (h : checkPresent s t = true) : s.Present t := by
  unfold checkPresent at h
  split at h
  · next u hu => exact ⟨u, hu, by simpa using h⟩
  · cases h

def checkIssues (s : State) (v : View) (u : RUnit) (ts : List Tid) : Bool :=
  v.illegal.isNone && (v.illegalAt (u.place (ts.headD t0))).isNone && (!v.row.priv || u.isSystem) && decide ts.Nodup &&
    ts.all fun q => checkPresent s q && (s.thread q).stepping.isNone

theorem issues {s : State} {i : Instr} {v : View} {u : RUnit} {t : Tid} {ts : List Tid} (hb : s.bundle = some (u, t, ts))
    (hv : i.view = some v) (h : checkIssues s v u (t :: ts) = true) : s.Issues i v u t ts := by
  simp only [checkIssues, Bool.and_eq_true, Option.isNone_iff_eq_none, List.headD_cons, decide_eq_true_eq, List.all_eq_true] at h
  obtain ⟨⟨⟨⟨h1, h2⟩, h3⟩, h4⟩, h5⟩ := h
  exact ⟨hb, hv, h1, h2, fun hp => by simpa [hp] using h3, h4, fun q hq => present (h5 q hq).1, fun q hq => (h5 q hq).2⟩

def checkLone (s : State) (v : View) (u : RUnit) (t : Tid) : Bool :=
  checkIssues s v u [t] && !v.collective && v.guard (s.thread t) && decide (v.check s t [t.lane] = .ready) &&
    !v.destBusy (s.thread t) && (s.thread t).fails.isEmpty && (s.thread t).latch.isNone

theorem lone {s : State} {i : Instr} {v : View} {u : RUnit} {t : Tid} (hb : s.bundle = some (u, t, []))
    (hv : i.view = some v) (h : checkLone s v u t = true) : s.Lone i v u t := by
  simp only [checkLone, Bool.and_eq_true, decide_eq_true_eq, Bool.not_eq_true', List.isEmpty_iff, Option.isNone_iff_eq_none] at h
  obtain ⟨⟨⟨⟨⟨⟨h1, h2⟩, h3⟩, h4⟩, h5⟩, h6⟩, h7⟩ := h
  exact ⟨issues hb hv h1, h2, h3, h4, h5, h6, h7⟩

theorem direct {s : State} {i : Instr} {v : View} {u : RUnit} {t : Tid} (hb : s.bundle = some (u, t, []))
    (hv : i.view = some v) (h : checkLone s v u t = true) (hd : u.speculative = false) (hp : u.task.phase = .none) :
    s.Direct i v u t :=
  ⟨lone hb hv h, hd, hp⟩

/-- Lane 0 is the whole participation set of its crew, and no thread of the crew has arrived anywhere. -/
def checkMet (s : State) (v : View) (u : RUnit) (t : Tid) : Bool :=
  checkIssues s v u [t] && v.collective && decide (participants v (s.crew t.uid t.crew) = [t.lane]) &&
    (s.crew t.uid t.crew).threads.all (fun q => !q.arrived) && !(s.crew t.uid t.crew).handler.arrived && v.guard (s.thread t) &&
    decide (v.check s t [t.lane] = .ready) && !v.destBusy (s.thread t) && (s.thread t).fails.isEmpty && (s.thread t).latch.isNone

theorem no_arrival {c : Crew} (h : c.threads.all (fun q => !q.arrived) = true) (hh : c.handler.arrived = false) (l : Nat) :
    (c.thread l).arrived = false := by
  unfold Crew.thread
  split
  · exact hh
  · rw [List.getD_eq_getElem?_getD]
    cases e : c.threads[l]? with
    | none => rfl
    | some q =>
      have := List.all_eq_true.1 h q (List.mem_of_getElem? e)
      simpa using this

theorem met {s : State} {i : Instr} {v : View} {u : RUnit} {t : Tid} (hb : s.bundle = some (u, t, []))
    (hv : i.view = some v) (h : checkMet s v u t = true) : s.Met i v u t := by
  simp only [checkMet, Bool.and_eq_true, decide_eq_true_eq, Bool.not_eq_true', List.isEmpty_iff, Option.isNone_iff_eq_none] at h
  obtain ⟨⟨⟨⟨⟨⟨⟨⟨⟨h1, h2⟩, h3⟩, h4⟩, h5⟩, h6⟩, h7⟩, h8⟩, h9⟩, h10⟩ := h
  exact ⟨issues hb hv h1, h2, h3, no_arrival h4 h5, h6, h7, h8, h9, h10⟩

theorem quiet {s : State} (t : Tid) (hx : s.txns = []) (ho : s.ops = []) : s.Quiet t := by
  constructor <;> simp [hx, ho]

/-- Every access and operation on its way is another thread's. -/
theorem quiet' {s : State} {t : Tid} (h : (s.txns.all (fun x => x.tid != t && !x.holders.contains t && x.dests.all fun d => d.1 != t) &&
    s.ops.all fun o => o.tid != t) = true) : s.Quiet t := by
  simp only [Bool.and_eq_true, List.all_eq_true, bne_iff_ne, Bool.not_eq_true', List.contains_eq_mem, decide_eq_false_iff_not] at h
  exact ⟨fun x hx => ⟨(h.1 x hx).1.1, (h.1 x hx).1.2, (h.1 x hx).2⟩, h.2⟩

theorem computes {s : State} {v : View} {op : Op3} {act : List Tid}
    (h : act.all (fun q => decide (v.check s (v.reader act q) (act.map (·.lane)) = .ready) && !v.destBusy (s.thread q) &&
      decide (orAll (v.resultOf op s act q).2 &&& s.enables (v.reader act q) = 0)) = true) : Claims.Computes s v op act := by
  simp only [List.all_eq_true, Bool.and_eq_true, decide_eq_true_eq, Bool.not_eq_true'] at h
  exact ⟨fun q hq => (h q hq).1.1, fun q hq => (h q hq).1.2, fun q hq => (h q hq).2⟩

/-! ## Witnesses: computing instructions and control flow -/

open Claims

/-- A machine whose lanes 0 and 1 are live and issue together. -/
def two (a b : List Word) : State :=
  let c := crewOf (th a)
  { world (unitOf { c with threads := th a :: th b :: c.threads.drop 2 }) with
    sched := { State.reset.sched with issue := some (8, [(0, 0), (0, 1)]) } }

def addI : Instr := .iaddExt (form .i32 8 1 2 0)

theorem witness_IntegerResult :
    (two [0, 5, 7] [0, 1, 2]).Issues addI (vw addI) (un (two [0, 5, 7] [0, 1, 2])) t0 [t1] ∧ (vw addI).collective = false ∧
    intOpOf addI = some (exactOp .i32 false opAdd) ∧
    Computes (two [0, 5, 7] [0, 1, 2]) (vw addI) (exactOp .i32 false opAdd) ((two [0, 5, 7] [0, 1, 2]).active (vw addI) [t0, t1]) :=
  ⟨issues rfl rfl (by decide), by decide, rfl, computes (by decide)⟩

def addF : Instr := .faddExt .rne (form .f32 8 1 2 0)

theorem witness_FloatResult :
    (one [0, 0x3F800000, 0x40000000]).Issues addF (vw addF) (un (one [0, 0x3F800000, 0x40000000])) t0 [] ∧
    (vw addF).collective = false ∧ floatOpOf addF = some (arith .f32 .rne (opFadd false)) ∧
    Computes (one [0, 0x3F800000, 0x40000000]) (vw addF) (arith .f32 .rne (opFadd false))
      ((one [0, 0x3F800000, 0x40000000]).active (vw addF) [t0]) :=
  ⟨issues rfl rfl (by decide), by decide, rfl, computes (by decide)⟩

/-- Source A from the next lane of a pair. -/
def addM : Instr := .iaddExt { form .i32 8 1 2 0 with modA := { cls := .butterfly, seg := .s32, dist := 1, num := .none } }

theorem witness_LaneModifiedResult :
    let s := two [0, 5, 7] [0, 1, 2]
    s.Issues addM (vw addM) (un s) t0 [t1] ∧ (vw addM).collective = true ∧ intOpOf addM = some (exactOp .i32 false opAdd) ∧
    participants (vw addM) (s.crew 8 0) = [0, 1] ∧ (∀ l, ((s.crew 8 0).thread l).arrived = false) ∧
    (∀ q ∈ [t0, t1], (s.thread q).taken = none ∧ (s.thread q).pc = (s.thread t0).pc) ∧ s.active (vw addM) [t0, t1] = [t0, t1] ∧
    Computes s (vw addM) (exactOp .i32 false opAdd) [t0, t1] ∧ (vw addM).check s t0 [0, 1] = .ready ∧ (vw addM).check s t1 [0, 1] = .ready :=
  ⟨issues rfl rfl (by decide), by decide, rfl, by decide, no_arrival (by decide) rfl, by decide, by decide, computes (by decide), by decide,
    by decide⟩

theorem witness_IntegerArithmetic : (3 : Nat) < (Ty.u8x4).elems ∧ (2 ^ 32 - 1 : Nat) < 2 ^ (Ty.i32).width ∧ (1 : Nat) ≠ 0 := by decide

/-- A shift by 40, a field of length 0 and one that the width cuts, in g2; the control of bfi in g3. -/
def bitState : State := one [0, 0x80000001, 40, 0x1018]

theorem witness_BitResults :
    (∀ i ∈ [Instr.shlExt (form .b32 8 1 2 0), .shrExt (form .b32 8 1 2 0), .sarBase (base 8 1 (.reg 2)), .rolBase (base 8 1 (.imm 33)),
        .bfe (form .i32 8 1 2 0), .bfe (form .u32 8 1 3 0), .bfi (form .b32 8 1 2 3), .popcExt (form .b32 8 1 0 0), .clz (form .b32 8 1 0 0),
        .brev (form .b32 8 1 0 0)],
      checkLone bitState (vw i) (un bitState) t0 = true) ∧
    bitState.Lone (.sarBase (base 8 1 (.reg 2))) (vw (.sarBase (base 8 1 (.reg 2)))) (un bitState) t0 :=
  ⟨by decide, lone rfl rfl (by decide)⟩

theorem witness_BaseImmediates :
    (Instr.iaddBase (base 1 2 (.imm 0x40))).baseForm = some (0, base 1 2 (.imm 0x40)) ∧
    (Instr.faddBase (base 1 2 (.imm 0x40))).baseForm = some (0x30, base 1 2 (.imm 0x40)) ∧
    (Instr.ldBase (base 1 2 (.imm 0x3F))).baseForm = some (0x50, base 1 2 (.imm 0x3F)) ∧
    (Instr.faddBase (base 1 2 (.imm 0))).view = some (vw (.faddBase (base 1 2 (.imm 0)))) := ⟨rfl, rfl, rfl, rfl⟩

/-- callx through a register pair with bits [1:0] set. -/
def callI : Instr := .callx (form .i32 0 2 0 0)

theorem witness_CallPushes :
    (one []).Lone (.callBase false 0x3FFFFF) (vw (.callBase false 0x3FFFFF)) (un (one [])) t0 ∧
    branchTarget (.callBase false 0x3FFFFF) ((one []).thread t0).pc = some 0xFFC ∧
    (one [0, 0, 0x2003]).Lone callI (vw callI) (un (one [0, 0, 0x2003])) t0 ∧ ((one []).thread t0).rstack.length < 16 :=
  ⟨lone rfl rfl (by decide), rfl, lone rfl rfl (by decide), by decide⟩

/-- A thread with one return address. -/
def returning : State := world (unitOf (crewOf { th [] with rstack := [0x3002] }))

theorem witness_Returns :
    (returning.Lone (.retBase false) (vw (.retBase false)) (un returning) t0 ∧ (returning.thread t0).rstack = [0x3002]) ∧
    ((one []).Lone (.retBase false) (vw (.retBase false)) (un (one [])) t0 ∧ ((one []).thread t0).rstack = [] ∧
      ((one []).thread t0).spilled = 0 ∧ (un (one [])).active = true ∧ (un (one [])).fault = none ∧
      (one []).holdsFaults (un (one [])) = false) :=
  ⟨⟨lone rfl rfl (by decide), rfl⟩, lone rfl rfl (by decide), rfl, rfl, rfl, rfl, rfl⟩

/-- brx at the last index of its bound, its table in memory at 0x400. -/
def tableI : Instr := .brx 2 { form .i32 0 1 0 0 with b := .lit (0x400 - 0x1000) }

def tableState : State := { one [0, 2] with mem := [(0x408, 0x20)] }

theorem witness_Branches :
    ((one []).Lone (.brBase false 0x3FFFFF) (vw (.brBase false 0x3FFFFF)) (un (one [])) t0 ∧
      branchTarget (.brBase false 0x3FFFFF) ((one []).thread t0).pc = some 0xFFC) ∧
    (tableState.Lone tableI (vw tableI) (un tableState) t0 ∧ (vw tableI).srcA tableState t0 [0] ≤ (2 : BitVec 8).toNat ∧
      tableState.fetchWord (un tableState) 0 0 0x408 = .ok 0x20) :=
  ⟨⟨lone rfl rfl (by decide), rfl⟩, lone rfl rfl (by decide), by decide, rfl⟩

theorem witness_ExitEnds :
    (one [0, 3]).Lone (.exitBase (base 0 1 (.reg 0))) (vw (.exitBase (base 0 1 (.reg 0)))) (un (one [0, 3])) t0 ∧ (one [0, 3]).Quiet t0 ∧
    ∀ l, (((one [0, 3]).crew 8 0).thread l).arrived = false :=
  ⟨lone rfl rfl (by decide), quiet _ rfl rfl, no_arrival (by decide) rfl⟩

theorem witness_MaskWrites :
    (∀ i ∈ [Instr.mset .set (form .i32 3 0 1 0), .mset .add (form .i32 14 0 0 0), .mset .del (form .i32 15 0 0 0), .mop 8 (form .i32 3 15 1 0)],
      checkLone (one [0, 9]) (vw i) (un (one [0, 9])) t0 = true) ∧
    (one [0, 9]).Lone (.mset .set (form .i32 3 0 1 0)) (vw (.mset .set (form .i32 3 0 1 0))) (un (one [0, 9])) t0 ∧ t0.lane < 32 ∧
    ∀ l, (((one [0, 9]).crew 8 0).thread l).arrived = false :=
  ⟨by decide, lone rfl rfl (by decide), by decide, no_arrival (by decide) rfl⟩

/-- Lane 1 has arrived at the barrier of m1, which names lanes 0 and 1. -/
def joining : State :=
  let c := crewOf (th [])
  world (unitOf { c with
    threads := th [] :: { th [] with arrival := some (.join true 8), wait := some .collective } :: c.threads.drop 2, masks := 3 :: List.replicate 14 3,
    arrivals := 0 :: 2 :: List.replicate 14 0 })

def joinI : Instr := .mbar (form .i32 0 1 0 0)

/-- mset.del takes lane 0 out of m1. -/
def leaveI : Form := form .i32 1 0 0 0

theorem witness_JoinReleases :
    joining.Lone joinI (vw joinI) (un joining) t0 ∧ joining.Quiet t0 ∧ (joining.thread t0).live = true ∧
    (joining.thread t0).arrived = false ∧
    (let c := joining.crew 8 0
     c.arrivals.length = 16 ∧ c.threads.length = 32 ∧ bit (c.mask 1) 0 = true ∧
     ((List.range 32).all fun l => l == 0 || !bit (c.mask 1) l || !(c.thread l).live || bit (c.arrivals.getD 1 0).toNat l) = true ∧
     (c.threads.all fun q => q.stepping.isNone) = true ∧ c.handler.stepping = none ∧
     bit (c.arrivals.getD 1 0).toNat 1 = true ∧ (c.thread 1).live = true ∧ (c.thread 1).arrival = some (.join true 8)) ∧
    joining.Lone (.mset .del leaveI) (vw (.mset .del leaveI)) (un joining) t0 ∧ leaveI.d.toNat = 1 :=
  ⟨lone rfl rfl (by decide), quiet _ rfl rfl, rfl, rfl, by decide, lone rfl rfl (by decide), rfl⟩

theorem witness_NopAndYield :
    (one []).Lone (.nopBase true) (vw (.nopBase true)) (un (one [])) t0 ∧
    (one []).Lone (.yieldExt (form .i32 0 0 0 0)) (vw (.yieldExt (form .i32 0 0 0 0))) (un (one [])) t0 :=
  ⟨lone rfl rfl (by decide), lone rfl rfl (by decide)⟩

/-- The future 5 of generation 0, of an operation that runs. -/
def pendingF : Future := { num := 5, gen := 0, status := none, copies := 1, dests := [], op := 3, fabric := false, matrix := false }

/-- g1 waits for it. -/
def waiting : State :=
  world { unitOf (crewOf { th [0, handleWord 5 0] with empty := [(1, .future 5 0)] }) with futures := [pendingF] }

/-- g1 is full, and holds its handle. -/
def holdingH : State := world { unitOf (crewOf (th [0, handleWord 5 0])) with futures := [pendingF] }

theorem witness_FuturesOnData :
    (∀ i ∈ [Instr.fwaitBase (base 8 1 (.reg 0)), .fwaitExt (form .i32 8 1 0 0), .fmov (form .i32 8 1 0 0), .ftest (form .i32 8 1 0 0),
        .fcancel (form .i32 0 1 0 0)],
      checkLone (one [0, 0x3FFFFFFF]) (vw i) (un (one [0, 0x3FFFFFFF])) t0 = true) ∧
    (one [0, 0x3FFFFFFF]).Lone (.fmov (form .i32 8 1 0 0)) (vw (.fmov (form .i32 8 1 0 0))) (un (one [0, 0x3FFFFFFF])) t0 ∧
    ((one [0, 0x3FFFFFFF]).thread t0).producer 1 = none ∧ handleOf 0x3FFFFFFF = none ∧
    waiting.Lone (.ftest (form .i32 8 1 0 0)) (vw (.ftest (form .i32 8 1 0 0))) (un waiting) t0 ∧
    Names waiting (vw (.ftest (form .i32 8 1 0 0))) (un waiting) t0 pendingF ∧
    (∀ i ∈ [Instr.fwaitBase (base 8 1 (.reg 0)), .fmov (form .i32 8 1 0 0), .ftest (form .i32 8 1 0 0), .fcancel (form .i32 0 1 0 0)],
      checkLone holdingH (vw i) (un holdingH) t0 = true) ∧
    Names holdingH (vw (.fmov (form .i32 8 1 0 0))) (un holdingH) t0 pendingF ∧ pendingF.copies < 15 :=
  ⟨by decide, lone rfl rfl (by decide), rfl, rfl, lone rfl rfl (by decide), ⟨rfl, rfl, .inl rfl⟩, by decide,
    ⟨rfl, rfl, .inr (by decide)⟩, by decide⟩

theorem witness_TrapEntry :
    (one [0, 0x1FFFF]).Lone (.trap (form .i32 0 0 1 0)) (vw (.trap (form .i32 0 0 1 0))) (un (one [0, 0x1FFFF])) t0 ∧
    (one []).Lone (.brk 15 (form .i32 0 0 0 0)) (vw (.brk 15 (form .i32 0 0 0 0))) (un (one [])) t0 ∧
    (un (one [])).desc.handler ≠ 0 ∧ ((un (one [])).crew 0).frozen = false ∧ ((un (one [])).crew 0).handler.regs.length = 64 :=
  ⟨lone rfl rfl (by decide), lone rfl rfl (by decide), by decide, rfl, rfl⟩

/-- The crew is frozen at a trap of lane 0, and its handler stands alone in the bundle. -/
def handling (regs : List Word) : State :=
  let c := crewOf (th [1, 2, 3])
  { world (unitOf { c with
      frozen := true, event := some { cause := 5, lanes := [(0, 7)] },
      handler := { Thread.fresh 64 0x2000 true 0 0 with regs := regs ++ List.replicate (64 - regs.length) 0 } }) with
    sched := { State.reset.sched with issue := some (8, [(0, 32)]) } }

def tH : Tid := ⟨8, 0, 32⟩
def resumeI : Instr := .resume (form .i32 0 0 1 0)

theorem witness_ResumeThaws :
    (handling [0, 1]).Lone resumeI (vw resumeI) (un (handling [0, 1])) tH ∧
    (let c := (handling [0, 1]).crew 8 0
     c.event = some { cause := 5, lanes := [(0, 7)] } ∧ c.pending = [] ∧ c.threads.length = 32 ∧
     (c.threads.all fun q => q.stepping.isNone && q.wrotePc.isNone) = true ∧ c.handler.stepping = none ∧ c.handler.wrotePc = none) :=
  ⟨lone rfl rfl (by decide), rfl, rfl, rfl, by decide, rfl, rfl⟩

theorem witness_ReturnFromSystemEvent :
    (let s := sysOne []
     s.Lone (.hret (form .i32 0 0 0 0)) (vw (.hret (form .i32 0 0 0 0))) (un s) t0 ∧ s.sys[dieOf (un s).core]? = some .reset ∧
      SysCore.reset.evmask.getLsbD 0 = true) ∧
    (let s := { sysOne [] with sys := [{ SysCore.reset with evmask := 0 }] }
     s.Lone (.hret (form .i32 0 0 0 0)) (vw (.hret (form .i32 0 0 0 0))) (un s) t0 ∧
      s.sys[dieOf (un s).core]? = some { SysCore.reset with evmask := 0 } ∧ (un s).active = true ∧ (un s).fault = none ∧
      s.holdsFaults (un s) = false ∧ (un s).speculative = false) :=
  ⟨⟨lone rfl rfl (by decide), rfl, rfl⟩, lone rfl rfl (by decide), rfl, rfl, rfl, rfl, rfl⟩

/-- A vote, a reduction, a scan, a permutation and a draw of lanes 0 and 1. -/
theorem witness_CollectiveResult :
    let s := two [0, 0x3F800000, 1] [0, 0x40000000, 0]
    (∀ i ∈ [Instr.vote .ballot (form .i32 8 1 0 0), .cred .add .fsr (form .i32 8 1 0 0), .cscan .max .fsr true (form .f32 8 1 0 0),
        .cperm false (form .b32 8 1 2 0), .sample (form .f32 8 1 2 3)],
      checkIssues s (vw i) (un s) [t0, t1] = true ∧ (vw i).collective = true ∧ (vw i).x.u = false ∧
      participants (vw i) (s.crew 8 0) = [0, 1] ∧ s.active (vw i) [t0, t1] = [t0, t1] ∧ (vw i).check s t0 [0, 1] = .ready ∧
      (vw i).check s t1 [0, 1] = .ready ∧ (vw i).destBusy (s.thread t0) = false ∧ (vw i).destBusy (s.thread t1) = false) ∧
    s.enables t0 = 0 ∧ (∀ l, ((s.crew 8 0).thread l).arrived = false) ∧
      ∀ q ∈ [t0, t1], (s.thread q).taken = none ∧ (s.thread q).pc = (s.thread t0).pc :=
  ⟨by decide, by decide, no_arrival (by decide) rfl, by decide⟩

theorem witness_HandlerPatchesLanes :
    let i : Instr := .xget .gpr false (form .b32 8 0 1 2)
    let j : Instr := .xput .pc (form .b64 0 2 1 0)
    (handling [0, 0]).Lone i (vw i) (un (handling [0, 0])) tH ∧ (handling [0, 0]).Lone j (vw j) (un (handling [0, 0])) tH ∧
    (handling [0, 0]).Present t0 ∧ ((handling [0, 0]).thread t0).live = true :=
  ⟨lone rfl rfl (by decide), lone rfl rfl (by decide), present (by decide), rfl⟩

theorem witness_StatusRegisters :
    (∀ i ∈ [Instr.sreg .cycle (form .u64 8 0 0 0), .sreg .lrstat (form .u32 8 0 0 0), .fsrr true (form .b32 8 0 0 0), .fsrw .rm (form .b32 0 0 1 0)],
      checkLone (one []) (vw i) (un (one [])) t0 = true) ∧
    (one []).Lone (.fsrw .rm (form .b32 0 0 1 0)) (vw (.fsrw .rm (form .b32 0 0 1 0))) (un (one [])) t0 ∧ (one []).Quiet t0 :=
  ⟨by decide, lone rfl rfl (by decide), quiet _ rfl rfl⟩

/-! ## Witnesses: memory, ordering, atomics -/

def accLocal : Access := { Access.base with space := .localMem }
def loadL : Instr := .ldExt true accLocal (form .b16 8 1 0 0)
def loadG : Instr := .ldBase (base 8 2 (.imm 4))

/-- g1 points into local memory, d2 to 0x400. -/
def memState : State := one [0, 0x3FFE, 0x400, 0, 0x400, 0]

theorem witness_Loads :
    (memState.Lone loadL (vw loadL) (un memState) t0 ∧ loadOf loadL = some (true, accLocal) ∧ memState.Quiet t0 ∧
      memState.accessBad 8 1 .localMem (eaOf (vw loadL) accLocal memState t0 [0]) 2 = none ∧
      memState.localFlawed 8 (eaOf (vw loadL) accLocal memState t0 [0]) 2 = false ∧ (un memState).task.phase = .none) ∧
    (memState.Lone loadG (vw loadG) (un memState) t0 ∧ loadOf loadG = some (false, .base) ∧
      memState.accessBad 8 1 .global 0x410 4 = none ∧ memState.l1Get 0 1 0x410 4 = none ∧ memState.entryFree t0 0 = true) :=
  ⟨⟨lone rfl rfl (by decide), rfl, quiet _ rfl rfl, by decide, by decide, rfl⟩, lone rfl rfl (by decide), rfl, by decide, rfl, by decide⟩

/-- A word load whose offset is not a multiple of 4. -/
def loadM : Instr := .ldExt false .base { form .b32 8 2 0 0 with b := .lit 0x3FF }

theorem witness_MisalignedFaults :
    memState.Lone loadM (vw loadM) (un memState) t0 ∧ loadOf loadM = some (false, .base) ∧
    eaOf (vw loadM) .base memState t0 [0] % (Ty.b32).bytes ≠ 0 ∧ (un memState).active = true ∧ (un memState).fault = none ∧
    memState.holdsFaults (un memState) = false ∧ (un memState).speculative = false :=
  ⟨lone rfl rfl (by decide), rfl, by decide, rfl, rfl, rfl, rfl⟩

/-- A machine of one unit whose local memory is in its form. -/
theorem locals {s : State} {u : RUnit} (h : s.units = [u]) (hi : s.images = []) (hw : Memory.wf u.loc = true) :
    ∀ owner w, s.unitOf? owner = some w → Memory.wf w.loc = true := by
  intro owner w hf
  simp only [State.unitOf?, hi, List.find?_nil, Option.map_none] at hf
  split at hf
  · next x hx =>
    have hm : x ∈ s.units := List.mem_of_find?_eq_some hx
    rw [h, List.mem_singleton] at hm
    exact (Option.some.inj hf) ▸ hm ▸ hw
  · cases hf

def storeL : Instr := .stExt accLocal (form .b16 3 1 0 0)
def storeG : Instr := .stBase (base 3 2 (.imm 0))

theorem witness_Stores :
    (memState.Direct storeL (vw storeL) (un memState) t0 ∧ storeOf storeL = some accLocal ∧ memState.Quiet t0 ∧
      memState.accessBad 8 1 .localMem 0x3FFE 2 = none ∧ memState.localAt 8 0x3FFF = .ok (8, 0x3FFF) ∧
      ∀ owner w, memState.unitOf? owner = some w → Memory.wf w.loc = true) ∧
    (memState.Direct storeG (vw storeG) (un memState) t0 ∧ storeOf storeG = some .base ∧ (un memState).ceilingFinal = true ∧
      memState.accessBad 8 1 .global 0x400 4 = none ∧ memState.entryFree t0 0 = true) :=
  ⟨⟨direct rfl rfl (by decide) rfl rfl, rfl, quiet _ rfl rfl, by decide, rfl, locals rfl rfl rfl⟩, direct rfl rfl (by decide) rfl rfl, rfl, rfl, by decide,
    by decide⟩

/-- An access of a thread to the global address 0x400. -/
def txn (t : Tid) (kind : TxnKind) (phase : Phase) (dests : List Dest) : Txn :=
  { id := 20, tid := t, ctx := 1, core := 0, pc := 0x1000, kind, space := .global, va := 0x400, size := 4,
    pa := some 0x400, leaf := some page, ord := .plain, scope := .crew, ep := 1, na := false, l1b := false, noSig := false, dests,
    phase, entry := true, grade := .final, target := 0, since := 0, step := 0, acc := 0, held := false,
    after := 0x1004, orphan := false }

/-- The same machine with one access on its way; g8 of its destinations waits for it. -/
def going (x : Txn) : State :=
  { world (unitOf (crewOf { th [0, 0, 0x400] with empty := if x.dests = [] then [] else [(8, .txn 20)] })) with
    txns := [x], clk := { State.reset.clk with now := 5000, nextId := 21 } }

def fenceWaiting : State := going (txn t0 (.store [1, 2, 3, 4]) .accepted [])

theorem witness_CacheHints :
    let p : Instr := .pf .base (form .i32 0 2 0 0)
    let c : Instr := .cflush .evict .base { form .i32 0 2 0 0 with b := .lit 129 }
    memState.Lone p (vw p) (un memState) t0 ∧ (vw p).ac = some .base ∧ Access.base.l1b = false ∧
    memState.translate 1 (eaOf (vw p) .base memState t0 [0]) false false = .ok page ∧
    memState.lineHeld 1 [eaOf (vw p) .base memState t0 [0] / 128] 0 = false ∧
    memState.Lone c (vw c) (un memState) t0 ∧ Flushed memState (vw c) (un memState) t0 1 8 ∧ Flushed memState (vw c) (un memState) t0 1 9 ∧
    memState.overlapping t0 .global 0x400 256 memState.clk.nextId true = false ∧
    fenceWaiting.Lone c (vw c) (un fenceWaiting) t0 ∧ fenceWaiting.overlapping t0 .global 0x400 256 fenceWaiting.clk.nextId true = true :=
  ⟨lone rfl rfl (by decide), rfl, rfl, rfl, by decide, lone rfl rfl (by decide), ⟨rfl, by decide, by decide, by decide, page, rfl⟩,
    ⟨rfl, by decide, by decide, by decide, page, rfl⟩, by decide, lone rfl rfl (by decide), by decide⟩

def giveI : Instr := .bgive (form .i32 8 1 2 0)
def takeI : Instr := .btake false (form .i32 8 3 2 0)
def infoI : Instr := .binfo (form .i32 8 1 0 0)
def infoB : Instr := .binfo (form .i32 8 3 0 0)

/-- g1 names the last granule, g2 the key 63 and one granule, g3 the borrowed range; under the key a buffer of unit 9 is posted. -/
def lending (posted : Bool) : State :=
  { one [0, 0x3000, 63, 0x7F000] with
    ctxs := [(1, { context with keys := if posted then [{ isle := 0, key := 63, parts := [(9, 0)] }] else [] })] }

/-- The granule at 0x7F000 is borrowed of unit 9. -/
def borrowing : State :=
  world { unitOf (crewOf (th [0, 0x3000, 63, 0x7F000])) with borrowed := [{ at_ := 127, owner := 9, granule := 0, cnt := 1 }] }

theorem witness_BufferLending :
    ((lending false).Lone giveI (vw giveI) (un (lending false)) t0 ∧ (lending false).Quiet t0 ∧
      (un (lending false)).bufferAt 0x3000 1 = some [(8, 3)] ∧ (lending false).keyBuf 1 0 63 = none ∧
      (lending false).engineWrites 8 0x3000 4096 = false ∧ (un (lending false)).task.atomic = false) ∧
    ((lending true).Lone takeI (vw takeI) (un (lending true)) t0 ∧
      (lending true).keyBuf 1 0 63 = some { isle := 0, key := 63, parts := [(9, 0)] } ∧
      (un (lending true)).mayMap 0x7F000 [(9, 0)] = true ∧ (un (lending true)).granules.length ≤ 64 ∧
      ∀ p ∈ [((9, 0) : Nat × Nat)], p.1 = 8 → p.2 < 4) ∧
    ((lending true).Lone infoI (vw infoI) (un (lending true)) t0 ∧ (un (lending true)).granules[3]? = some { holder := .own, cnt := 0 }) ∧
    ((lending true).Lone infoB (vw infoB) (un (lending true)) t0 ∧ (un (lending true)).granules[127]? = none ∧
      (un (lending true)).borrowed = []) ∧
    borrowing.Lone infoB (vw infoB) (un borrowing) t0 ∧ ((un borrowing).borrowed.find? (·.at_ == 127)).isSome = true :=
  ⟨⟨lone rfl rfl (by decide), quiet _ rfl rfl, rfl, rfl, rfl, rfl⟩, ⟨lone rfl rfl (by decide), rfl, by decide, by decide, by decide⟩,
    ⟨lone rfl rfl (by decide), rfl⟩, ⟨lone rfl rfl (by decide), rfl, rfl⟩, lone rfl rfl (by decide), by decide⟩

theorem witness_Fences :
    ((one []).Lone (.fenceBase false) (vw (.fenceBase false)) (un (one [])) t0 ∧
      (∀ i ∈ [Instr.fenceExt .ww .fabric (form .i32 0 0 0 0), .pfence .mat .copy (form .i32 0 0 0 0), .ifence (form .i32 0 0 0 0)],
        checkLone (one []) (vw i) (un (one [])) t0 = true) ∧ (one []).Quiet t0) ∧
    (fenceWaiting.Lone (.fenceBase false) (vw (.fenceBase false)) (un fenceWaiting) t0 ∧
      txn t0 (.store [1, 2, 3, 4]) .accepted [] ∈ fenceWaiting.txns) ∧
    (let x := form .i32 0 2 0 0
     let s := one [0, 0, 0x400]
     s.Lone (.bbwait x) (vw (.bbwait x)) (un s) t0 ∧ s.blockBad 8 0x400 8 8 = none ∧ s.localFlawed 8 0x400 8 = false ∧
      toSigned 64 (leNat (s.loadLocal 8 0x400 8)) ≤ toSigned 32 ((vw (.bbwait x)).srcB s t0 [0])) :=
  ⟨⟨lone rfl rfl (by decide), by decide, quiet _ rfl rfl⟩, ⟨lone rfl rfl (by decide), List.mem_singleton.2 rfl⟩,
    lone rfl rfl (by decide), by decide, rfl, by decide⟩

def atomL : Instr := .atom .max accLocal (form .i32 8 1 3 0)
def atomG : Instr := .atom .exch .base (form .b32 8 2 3 0)
def lrunG : Instr := .lrun 63 .base { form .i32 8 2 4 0 with c := 0 }

theorem witness_Atomics :
    let s := one [0, 0x3FFC, 0x400]
    (s.Direct atomL (vw atomL) (un s) t0 ∧ s.Quiet t0 ∧ s.accessBad 8 1 .localMem 0x3FFC 4 = none ∧
      s.localFlawed 8 0x3FFC 4 = false ∧ ∀ owner w, s.unitOf? owner = some w → Memory.wf w.loc = true) ∧
    (s.Direct atomG (vw atomG) (un s) t0 ∧ s.Direct lrunG (vw lrunG) (un s) t0 ∧
      (∀ i ∈ [Instr.ared .add .base (form .i32 0 2 3 0), .acas true .base (form .b32 0 2 3 5), .acas false .base (form .b32 8 2 3 5)],
        checkLone s (vw i) (un s) t0 = true) ∧ (un s).ceilingFinal = true ∧
      s.accessBad 8 1 .global 0x400 128 = none ∧ s.entryFree t0 0 = true) :=
  ⟨⟨direct rfl rfl (by decide) rfl rfl, quiet _ rfl rfl, by decide, rfl, locals rfl rfl rfl⟩, direct rfl rfl (by decide) rfl rfl,
    direct rfl rfl (by decide) rfl rfl, by decide, rfl, by decide, by decide⟩

/-- A routine of one word, mov.b32 v0, t2 (9A889800), stands at 0x400. -/
def defining : State := { one [0, 63, 0x400] with mem := [(0x401, 0x98), (0x402, 0x88), (0x403, 0x9A)] }
def defI : Instr := .lrdef (form .i32 8 2 1 4)
def dropI : Instr := .lrdrop (form .i32 0 0 1 0)

theorem witness_RoutineTable :
    defining.Direct defI (vw defI) (un defining) t0 ∧ defining.Quiet t0 ∧ Memory.wf defining.mem = true ∧
    defining.lineHeld 1 (linesOf 0x400 4) 0 = false ∧ readWords defining 1 8 0x400 1 = .ok [0x9A889800] ∧
    routineInvalid 0x9A889800 = none ∧ defining.routineBound 1 63 = false ∧ defining.Direct dropI (vw dropI) (un defining) t0 :=
  ⟨direct rfl rfl (by decide) rfl rfl, quiet _ rfl rfl, by decide, by decide, rfl, by decide, rfl, direct rfl rfl (by decide) rfl rfl⟩

def waitI : Instr := .waitv true .base (form .b32 8 2 1 1)
def wakeI : Instr := .wakev (form .i32 9 2 1 0)
def sleeper : Txn := txn t1 (.waitv .b32 0 none) .sleeping [(t1, 8)]

theorem witness_WaitAndWake :
    (let s := one [0, 1, 0x400]
     s.Direct waitI (vw waitI) (un s) t0 ∧ s.Quiet t0 ∧ (s.txns.map (·.id)).Nodup ∧ s.accessBad 8 1 .global 0x400 4 = none ∧
      s.translate 1 0x400 false false = .ok page ∧ s.lineHeld 1 (linesOf 0x400 4) s.clk.nextId = false ∧ (un s).task.stale = false ∧
      s.word 0x400 4 ≠ (vw waitI).srcB s t0 [0]) ∧
    (let s := going sleeper
     s.Direct wakeI (vw wakeI) (un s) t0 ∧ s.Quiet t0 ∧ (s.txns.map (·.id)).Nodup ∧ (∀ y ∈ s.txns, y.id < s.clk.nextId) ∧
      s.translate 1 0x400 false false = .ok page ∧ s.txns = [sleeper] ∧ sleeper.pa.isSome = true ∧ sleeper.target = 0 ∧ s.Present t1) :=
  ⟨⟨direct rfl rfl (by decide) rfl rfl, quiet _ rfl rfl, by decide, by decide, rfl, by decide, rfl, by decide⟩,
    direct rfl rfl (by decide) rfl rfl, quiet' (by decide), by decide, by decide, rfl, rfl, rfl, rfl, present (by decide)⟩

theorem witness_LoadsPerform :
    (let x := txn t0 (.load 1 false) .issued [(t0, 8)]
     (going x).txn? 20 = some x ∧ (going x).translate 1 0x400 false false = .ok page ∧
      (going { x with va := 0x20000 }).translate 1 0x20000 false false = .error rUnmapped ∧ (un (going x)).active = true ∧
      (un (going x)).task.stale = false) ∧
    (let x := txn t0 (.load 1 true) .accepted [(t0, 8)]
     OnItsWay (going x) x ∧ (going x).Present t0 ∧ ((going x).thread t0).producer 8 = some (.txn 20) ∧ (going x).txns = [x] ∧
      (∀ y ∈ (going x).txns, y.loadMate x = true → y = x) ∧ (going x).flawed 0 0x400 4 = false) :=
  ⟨⟨rfl, rfl, rfl, rfl, rfl⟩, ⟨rfl, by decide, by decide⟩, present (by decide), rfl, rfl, by decide, rfl⟩

def failing : State :=
  { world (unitOf (crewOf { th [] with fails := [{ txn := 20, pc := 0x1000, addr := 0x400, reason := 6, cause := 0x25, fabric := false,
                                                    unknown := false, device := 0, since := 0 }] })) with
    clk := { State.reset.clk with now := 4096 } }

theorem witness_StoresTravel :
    (let x := txn t0 (.store [1, 2, 3, 4]) .issued []
     OnItsWay (going x) x ∧ (going x).speculates 8 = false ∧ (going x).translate 1 0x400 true false = .ok page) ∧
    (let x := txn t0 (.store [1, 2, 3, 4]) .accepted []
     OnItsWay (going x) x ∧ (going x).unit? 8 = some (un (going x)) ∧ (un (going x)).ceilingFinal = true ∧
      (un (going x)).task.heldWrites = [] ∧ page.tso = false ∧ (going x).queuedBefore x (·.held) = false ∧ (going x).heldEarlier x = false) ∧
    (let x := txn t0 (.store [1, 2, 3, 4]) (.failed 6) []
     (going x).txn? 20 = some x ∧ (going x).Present t0) ∧
    (failing.unit? 8 = some (un failing) ∧ (un failing).active = true ∧ ((un failing).crew 0).frozen = false ∧
      (failing.thread t0).live = true ∧ (failing.thread t0).stop = none ∧ (failing.thread t0).report.isSome = true ∧
      ∃ q ∈ (failing.thread t0).fails, q.since + 4096 ≤ failing.clk.now) :=
  ⟨⟨⟨rfl, by decide, by decide⟩, rfl, rfl⟩, ⟨⟨rfl, by decide, by decide⟩, rfl, rfl, rfl, rfl, by decide, by decide⟩, ⟨rfl, present (by decide)⟩,
    rfl, rfl, rfl, rfl, rfl, rfl, ⟨_, List.mem_singleton.2 rfl, by decide⟩⟩

/-- An lrun of routine 63 at 0x400. -/
def lrunX (phase : Phase) : Txn := { txn t0 (.lrun 63 []) phase [(t0, 8)] with size := 128 }

/-- A machine with that access, whose g8 and g9 wait for it. -/
def runDone : State :=
  { going (lrunX (.performed 9)) with units := [unitOf (crewOf { th [0, 0, 0x400] with empty := [(8, .txn 20), (9, .txn 20)] })] }

/-- The table entry 63, of one word, stands at 512 × 63, and the line at 0x400 is all zero. -/
def running : State :=
  { going (lrunX .accepted) with mem := [(0x7E00, 1), (0x7E01, 1), (0x7E11, 0x98), (0x7E12, 0x88), (0x7E13, 0x9A)] }

/-- The system core of die 0 has an event of source 2 for the thread of that access. -/
def asking (x : Txn) : State :=
  { going x with sys := [{ SysCore.reset with pending := [{ source := 2, info := 0, thread := some t0 }] }] }

theorem witness_AtomicsTravel :
    (let x := txn t0 (.atomic .add .i32 5) .accepted [(t0, 8)]
     OnItsWay (going x) x ∧ (going x).awaitsFinal x page = false ∧ (going x).tsoWaits x page = false ∧
      (going x).queuedBefore x (fun _ => true) = false ∧ (going x).flawed 0 0x400 4 = false) ∧
    (let x := lrunX .accepted
     OnItsWay running x ∧ entryCount (running.routineImage ((running.ctx 1).home page 0x400) 1 63) = some 1 ∧
      paOk (running.routineEntry 1 63) = true ∧
      running.flawed 0 (running.routineEntry 1 63) 512 = false ∧ running.queuedBefore x (fun _ => true) = false) ∧
    (let x := txn t0 (.atomic .add .i32 5) (.performed 7) [(t0, 8)]
     (going x).txn? 20 = some x ∧ (going x).Present t0 ∧ ((going x).thread t0).producer 8 = some (.txn 20)) ∧
    (let x := { txn t0 (.waitv .b32 0 (some 5000)) .sleeping [(t0, 8)] with target := 2 }
     (going x).txn? 20 = some x ∧ x.since + 5000 ≤ (going x).clk.now ∧ (going x).word 0x400 4 = 0 ∧
      ((going x).thread t0).stepping = none ∧ (going x).asked t0 2 = false) ∧
    (let x := { txn t0 (.waitv .b32 1 none) .sleeping [(t0, 8)] with target := 1 }
     (going x).txn? 20 = some x ∧ (going x).word 0x400 4 ≠ 1 ∧ (going x).asked t0 2 = false ∧
      (asking x).txn? 20 = some x ∧ (asking x).asked t0 2 = true) ∧
    (runDone.txn? 20 = some (lrunX (.performed 9)) ∧ runDone.Present t0 ∧ (runDone.thread t0).producer 8 = some (.txn 20) ∧
      (runDone.thread t0).producer 9 = some (.txn 20) ∧ (runDone.thread t0).lrTxn < 20) :=
  ⟨⟨⟨rfl, by decide, by decide⟩, rfl, rfl, by decide, rfl⟩, ⟨⟨rfl, by decide, by decide⟩, by decide, by decide, rfl, by decide⟩,
    ⟨rfl, present (by decide), rfl⟩, ⟨rfl, by decide, rfl, rfl, by decide⟩, ⟨rfl, by decide, by decide, rfl, by decide⟩, rfl, present (by decide), rfl, rfl, by decide⟩


/-! ## Witnesses: engine operations, tasks, grades, launches -/

/-- g1 points to a zero block, d2 to 0x400 on device 5, g4 is 64, d6 names device 3 as the recipient. -/
def engineState : State := one [0, 0x100, 0x400, 0x500000, 64, 0, 3, 0]

def soloI : Instr := .mma true (form .i32 8 1 0 0)

/-- The context and the system core of die 0 beside the unit 8, whose image fits the save pool at 0x100000. -/
def saving : State :=
  let s := sysOne [0, 0, 0x100000, 0]
  { s with
    units := s.units ++ [{ unitOf (crewOf (th [])) with uid := 9, launch := 0x101 }],
    ctxs := [(0, { context with spbase := 0x100000, spsize := 0x200000000 }), (1, { context with spbase := 0x100000, spsize := 0x200000000 })] }

theorem fits (c : Context) (u : RUnit) (h : c.spsize.toNat = 0x200000000 ∧ c.spbase.toNat = 0x100000) :
    c.inPool 0x100000 u.imageSize = true := by
  have := (Config.imageBody u.desc.crews u.desc.regs u.desc.loc).isLt
  simp only [Context.inPool, RUnit.imageSize, h, Bool.and_eq_true, decide_eq_true_eq]
  omega

theorem free {u : RUnit} (h : u.futures = []) : u.freeNumber.isSome = true := by
  simpa [RUnit.freeNumber, h] using ⟨0, by decide⟩

theorem witness_EngineOpsAccepted :
    (let s := engineState
     (un s).freeNumber.isSome = true ∧ s.ops = [] ∧ 8 < (s.thread t0).regs.length ∧ (s.ctx 1).domain ≠ 0 ∧ s.entryFree t0 0 = true ∧
      (un s).ceilingFinal = true ∧ s.blockBad 8 0x100 64 64 = none ∧ (s.engineRead (s.reader 1 .mat t0) .localMem 0 0x100 64).isOk = true ∧
      s.Lone soloI (vw soloI) (un s) t0 ∧
      (∀ i ∈ [Instr.pft .base (form .i32 8 1 0 0), .copy 7 (form .i32 8 1 0 0), .mmasp .n8 true (form .i32 8 1 0 0),
          .bload (form .i32 8 1 0 0), .mdrain (form .i32 8 1 0 0), .mzero 0 (form .i32 8 0 0 0), .dprop 15 (form .i32 8 0 1 0),
          .rld accLocal (form .i32 8 2 4 4)],
        checkLone s (vw i) (un s) t0 = true) ∧
      fabTarget ((vw (.rld accLocal (form .i32 8 2 4 4))).srcA s t0 [0]) = 5 ∧ s.fabric.device ≠ 5 ∧ s.fabric.dead = [] ∧
      s.meetsEarlier [t0] 0x0050000000000400 64 s.clk.nextId = false ∧ s.blockBad 8 64 64 1 = none) ∧
    (let s := engineState
     let i : Instr := .mma false (form .i32 8 1 0 0)
     s.Met i (vw i) (un s) t0 ∧ checkMet s (vw (.mmasp .n16 false (form .i32 8 1 0 0))) (un s) t0 = true) ∧
    (let s := engineState
     let i : Instr := .dapp (form .i32 8 0 1 4)
     s.Direct i (vw i) (un s) t0 ∧ s.Quiet t0 ∧ s.tokensBad 8 0x100 64 = none ∧
      (∀ j ∈ [Instr.dclr (form .i32 8 0 0 0), .rld3 .base (form .i32 8 2 6 4), .mcst .base (form .i32 8 2 1 1)],
        checkLone s (vw j) (un s) t0 = true) ∧ fabVa 0x0050000000000400 % 128 = 0 ∧
      (vw (.rld3 .base (form .i32 8 2 6 4))).srcB s t0 [0] = 3 ∧ bits 3 15 13 = 0 ∧ bits 3 31 22 = 0 ∧
      s.blockBad 8 0x100 128 128 = none ∧ s.blockBad 8 0x100 8 8 = none ∧ s.localFlawed 8 0x100 128 = false) ∧
    (let i : Instr := .ctxsave (form .i32 8 1 2 0)
     saving.Lone i (vw i) (un saving) t0 ∧
     (saving.units.find? fun q => !q.isSystem && q.fate != .ended && q.core == 0 && q.slot == 0) = saving.unit? 9 ∧
     (∃ w, saving.unit? 9 = some w ∧ w.preemptable = true ∧ (saving.ctx w.ctx).inPool 0x100000 1 = true ∧
       (saving.ctx w.ctx).inPool 0x100000 w.imageSize = true ∧ saving.preemptForm w true = some .save)) :=
  ⟨⟨free rfl, rfl, by decide, by decide, by decide, rfl, by decide, by decide, lone rfl rfl (by decide), by decide, by decide, by decide, rfl,
      by decide, by decide⟩,
    ⟨met rfl rfl (by decide), by decide⟩, ⟨direct rfl rfl (by decide) rfl rfl, quiet _ rfl rfl, by decide, by decide, by decide,
      by decide, by decide, by decide, by decide, by decide, rfl⟩,
    lone rfl rfl (by decide), rfl, _, rfl, rfl, rfl, fits _ _ (by decide), rfl⟩

/-- An engine operation of the thread t0, whose future 0 stands in its g8. -/
def op (kind : OpKind) (block : List Byte) (args : List Nat) : Op :=
  { id := 20, tid := t0, ctx := 1, core := 0, kind, num := 0, gen := 0, block, args, started := true, cancelled := false, pos := 0, flags := 0,
    rerun := none, status := none, reason := 0, answered := 0, destFail := none, grade := .final, since := 0, marks := [] }

/-- The same machine with one operation on its way. -/
def working (o : Op) : State :=
  let u := unitOf (crewOf { th [0, 0, 0x400] with empty := [(8, .future 0 0)] })
  { world { u with
      futures := [{ num := 0, gen := 0, status := none, copies := 0, dests := [(t0, 8)], op := 20, fabric := false, matrix := o.kind.isMat }],
      bslots := [{ BSlot.fresh with fmt := some 0, loaded := [0] }] } with
    ops := [o] }

/-- aaddr 0, pitch 128, k 64 from row 0 on, into accumulator slot 0 set to zeros first. -/
def mmaBlock : List Byte := leBytes 8 0 ++ leBytes 4 128 ++ leBytes 2 64 ++ leBytes 2 0 ++ leBytes 4 0x400 ++ List.replicate 44 0

def loadBlock : List Byte := leBytes 8 0 ++ leBytes 4 128 ++ leBytes 2 64 ++ leBytes 2 0 ++ leBytes 4 0x10 ++ List.replicate 12 0

/-- Rows of 512 bytes in FP32 to local memory. -/
def drainBlock : List Byte := leBytes 8 0 ++ leBytes 4 512 ++ leBytes 4 0 ++ List.replicate 16 0

def isDone : Wrote → Bool
  | .done _ => true
  | .failed _ | .overflow _ | .later => false

theorem witness_MatrixSteps :
    (let o := { op (.mma none) mmaBlock [0] with started := false }
     let s := working o
     s.op? 20 = some o ∧ s.matHead o = true ∧ (∀ k, o.accSlot = some k → k < (un s).accs.length) ∧
      (∀ k, o.bSlot = some k → k < (un s).bslots.length) ∧ scalesHeld s o = false ∧ (mmaStart s (un s) o 0).isOk = true) ∧
    (let o := op (.mma none) mmaBlock [0]
     o.pos < o.kdim / 16 ∧ chunkHeld (working o) o 0 = false ∧ (chunkColumns (working o) o 0).isOk = true) ∧
    (let o := op .bload loadBlock [0]
     o.pos < o.kdim / 64 ∧ o.bfmt ≠ 5 ∧ o.bspace = .localMem ∧ (readRows (working o) o 0 64).isOk = true) ∧
    (let o := op .mdrain drainBlock [0]
     let s := working o
     let bs := (drainRow o ((un s).acc o) o.pos).flatMap fun x => leBytes (outSize o.ofmt) x.1
     o.pos < 128 ∧ drainRangeOk s o (o.aaddr + o.pos * o.pitch) bs.length = true ∧
      isDone (s.engineWrite o.ctx .mat o.tid o.dspace (o.aaddr + o.pos * o.pitch) bs) = true) ∧
    (let o := { op .mzero [] [0] with pos := 1 }
     (working o).matHead o = true ∧ o.kind.isMat = true ∧ o.length ≤ o.pos) ∧
    (let i : Instr := .mstat (.acc 3) .state (form .i32 8 0 0 0)
     (one []).Lone i (vw i) (un (one [])) t0 ∧ (one []).ops = []) :=
  ⟨⟨rfl, rfl, by decide, by decide, by decide, by decide +kernel⟩, ⟨by decide, rfl, by decide +kernel⟩, ⟨by decide, by decide, rfl, by decide +kernel⟩,
    ⟨by decide, by decide +kernel, by decide +kernel⟩, ⟨rfl, rfl, by decide⟩, lone rfl rfl (by decide), rfl⟩

/-- One row of four bytes of FP8 elements at 0x400. -/
def pftBlock : List Byte :=
  leBytes 8 0x400 ++ [0, 1] ++ leBytes 2 0 ++ leBytes 4 0 ++ leBytes 4 4 ++ leBytes 4 1 ++ leBytes 4 1 ++ leBytes 4 1 ++ List.replicate 32 0

/-- Eight bytes from local 0 to local 0x100, counted at the barrier at 0x200. -/
def copyBlock : List Byte :=
  leBytes 8 0 ++ leBytes 8 0x100 ++ leBytes 4 8 ++ leBytes 4 1 ++ leBytes 4 1 ++ leBytes 4 5 ++ List.replicate 16 0 ++ leBytes 4 0x200 ++ List.replicate 12 0

def history : DSeq := { die := 0, ctx := 1, num := 3, base := 0, tokens := [7, 8], idx := [(0, 1, 0), (1, 1, 1)] }

/-- A launch of context 1 that has started, with one unit offered. -/
def theLaunch : Launch :=
  { id := 0x101, ctx := 1, desc := desc, bad := false, state := .started, limit := 15, firing := none, tag := none, preds := [], deps := [],
    counter := 1, next := 0, units := [], tally := .zero, faults := 0, cancelled := false, recorded := false, deviceSide := true, startedAt := 0 }

def withLaunch (s : State) (l : Launch) : State := { s with work := { s.work with launches := [l] } }

/-- An image of unit 9 at 0x100000, with the header of a save. -/
def loading : State :=
  let s := withLaunch (working (op .ctxload [] [0x100000])) theLaunch
  { s with
    images := [{ addr := 0x100000, kind := 1, unit := { unitOf (crewOf (th [])) with uid := 9, launch := 0x101 }, parkedIsle := none }],
    mem := [(0x100000, 1), (0x100001, 1), (0x100002, 32)] }

theorem witness_EngineSteps :
    (let o := op .pft pftBlock [0]
     (working o).op? 20 = some o ∧ field o.block 0x0A 2 = 0 ∧ pftBad (working o) 1 o.block 0 = none ∧
      pftBad (working o) 1 o.block (pftLines o.block).length = none ∧ (working o).numbered 8 = false ∧
      (pftLines o.block)[o.pos]? = some 8 ∧ (working o).translate 1 (8 * 128) false false = .ok page ∧
      (working o).lineHeld 1 [8] 0 = false ∧ (working o).flawed 0 (page.addr (8 * 128)) 128 = false) ∧
    (let o := { op .pft pftBlock [0] with pos := 1 }
     (working o).op? 20 = some o ∧ (pftLines o.block)[o.pos]? = none) ∧
    (let o := op .pft (leBytes 8 0x20000 ++ pftBlock.drop 8) [0]
     (working o).op? 20 = some o ∧ pftBad (working o) 1 o.block (pftLines o.block).length = none ∧
      (pftLines o.block)[o.pos]? = some 0x400 ∧ (working o).translate 1 0x20000 false false = .error rUnmapped) ∧
    (let o := op (.copy 0) copyBlock []
     (working o).headOfChannel o 0 = true ∧ o.pos < copyTotal o.block ∧
      ∃ s1 s2, (working o).numbered 8 = false ∧ copyBytes (working o) o o.pos (copyGroup o.block o.pos) = .done s1 ∧
        copyBarrier s1 o (copyGroup o.block o.pos) = some s2) ∧
    (let o := { op (.copy 0) copyBlock [] with pos := 8 }
     (working o).headOfChannel o 0 = true ∧ copyTotal o.block ≤ o.pos) ∧
    (let o := op .dapp (leBytes 4 9) [3]
     let s := { working o with draft := [history] }
     s.firstOnSeq o = true ∧ s.seq? 1 3 = some history) ∧
    (let o := op (.dprop 4) [] [3, 0x100]
     let s := { working o with draft := [history] }
     s.firstOnSeq o = true ∧ s.seq? 1 3 = some history ∧
      isDone (s.engineWrite o.ctx .draft o.tid .localMem 0x100 (proposalBytes (history.propose 4).1)) = true) ∧
    (let o := op .ctxload [] [0x100000]
     ∃ m, loading.op? 20 = some o ∧ (loading.images.find? (·.addr == o.args.headD 0)) = some m ∧
      headerOk (cellsGet loading.mem m.addr 256) = true ∧ loading.imageLive m = true ∧ (loading.restoreCore m.unit).isSome = true ∧
      loading.host.noPlace = false ∧ m.unit.task.isSealed = false ∧ loading.unit? m.unit.uid = none ∧ o.tid.uid ≠ m.unit.uid) :=
  ⟨⟨rfl, by decide, by decide, by decide, rfl, by decide, rfl, by decide, rfl⟩, ⟨rfl, by decide⟩, ⟨rfl, by decide, by decide, rfl⟩,
    ⟨rfl, by decide, _, _, rfl, rfl, rfl⟩, ⟨rfl, by decide⟩, ⟨by decide, rfl⟩,
    ⟨by decide, rfl, by decide⟩, _, rfl, rfl, by decide, rfl, by decide +kernel, rfl, rfl, rfl, by decide⟩

/-- Unit 8 with another task. -/
def tasked (t : Task) : State := world { unitOf (crewOf (th [0, 0x100, 0x400])) with task := t }

def unsealed : State := tasked (.fresh true)

/-- A task with the checkpoint of its crew at 0x1004. -/
def checkpointed : State :=
  let c := crewOf { th [] with pc := 0x1004 }
  tasked { Task.fresh true with checkpoint := some { crews := [c], futures := [] } }

/-- A record of one line, never published, stands at 0x400; the spawn block at local 0x100 names it and a descriptor at 0x1000. -/
def spawning : State :=
  let u := unitOf (crewOf (th [0, 0x100, 0x400]))
  { world { u with loc := cellsPut [] 0x100 (leBytes 8 0x1000 ++ [1, 3] ++ List.replicate 6 0 ++ leBytes 8 0x400 ++ List.replicate 24 0 ++ [2]) } with
    mem := [(0x408, 128)] }

theorem no_phases {s : State} (h : s.ctxs.all (fun p => p.2.phases.isEmpty) = true) (c : Nat) : (s.ctx c).phases = [] := by
  unfold State.ctx assocGet
  cases e : s.ctxs.find? (·.1 == c) with
  | none => rfl
  | some p => simpa using List.all_eq_true.1 h p (List.mem_of_find?_eq_some e)

theorem idle {s : State} (hl : s.work.launches.all (fun l => !l.ended && (l.state != .started || l.counter != 0)) = true)
    (hf : s.work.firings.all (fun f => !f.started || s.work.launches.any f.has) = true)
    (hp : s.ctxs.all (fun p => p.2.phases.isEmpty) = true) : Idle s := by
  constructor
  · intro l h
    have := List.all_eq_true.1 hl l h
    simp only [Bool.and_eq_true, Bool.not_eq_true', Bool.or_eq_true, bne_iff_ne] at this
    exact ⟨this.1, fun e => this.2.resolve_left fun n => n e⟩
  · intro f h e
    simpa [e] using List.all_eq_true.1 hf f h
  · intro c p h
    simp [no_phases hp c] at h

theorem witness_TaskControl :
    (let i : Instr := .tseal (form .i32 0 0 0 0)
     (one []).Lone i (vw i) (un (one [])) t0) ∧
    (let i : Instr := .tstat (form .i32 8 0 0 0)
     unsealed.Lone i (vw i) (un unsealed) t0) ∧
    (let i : Instr := .tspawn (form .i32 8 1 0 0)
     let b := spawning.loadLocal 8 0x100 64
     spawning.Lone i (vw i) (un spawning) t0 ∧ spawning.blockBad 8 0x100 64 64 = none ∧ spawnBad b = false ∧ spawning.spawnsTaken < 4096 ∧
      (spawnReq b).recs = [(0x400, 2)] ∧ spawning.translate 1 0x400 false false = .ok page ∧ spawning.recordInvalid 0x400 = false) ∧
    (let i : Instr := .tcommit (form .i32 0 0 0 0)
     (one []).Lone i (vw i) (un (one [])) t0 ∧ (un (one [])).task.atomic = false ∧ unsealed.Lone i (vw i) (un unsealed) t0 ∧
      (un unsealed).speculative = true ∧ (un unsealed).liveThreads.map (·.1) = [t0]) ∧
    (let i : Instr := .trigger (form .i32 0 0 0 0)
     (one []).Lone i (vw i) (un (one [])) t0 ∧ (one []).resolved (un (one [])) = true ∧ (un (one [])).liveThreads.map (·.1) = [t0] ∧
      (one []).Quiet t0) ∧
    (let i : Instr := .tabort false (form .i32 0 0 0 0)
     let j : Instr := .tabort true (form .i32 0 0 0 0)
     unsealed.Lone i (vw i) (un unsealed) t0 ∧ unsealed.Lone j (vw j) (un unsealed) t0 ∧ (one []).Lone i (vw i) (un (one [])) t0 ∧
      unsealed.numbered 8 = false ∧ checkpointed.Lone i (vw i) (un checkpointed) t0 ∧
      (un checkpointed).task.checkpoint.map (·.crews.length) = some 1 ∧ (un unsealed).active = true ∧ (un unsealed).fault = none) :=
  ⟨lone rfl rfl (by decide), lone rfl rfl (by decide), ⟨lone rfl rfl (by decide), by decide, by decide, by decide, by decide, rfl, by decide⟩,
    ⟨lone rfl rfl (by decide), rfl, lone rfl rfl (by decide), rfl, by decide⟩,
    ⟨lone rfl rfl (by decide), rfl, by decide, quiet _ rfl rfl⟩,
    lone rfl rfl (by decide), lone rfl rfl (by decide), lone rfl rfl (by decide), rfl, lone rfl rfl (by decide), rfl, rfl, rfl⟩

/-- Line 8 of global memory, read by the unsealed unit 8. -/
def line8 : LineKey := { space := .global, line := 8 }

def testing (sig : Bool) : State :=
  let s := tasked { Task.fresh true with rsig := [line8] }
  { s with commits := { s.commits with
      sigs := if sig then [{ die := 0, uid := 9, n := 0, lines := [(1, line8)] }] else [],
      addrs := if sig then [] else [{ die := 0, source := none, ctx := 1, line := line8 }] } }

/-- A numbered task, with a byte to merge, that has been tested everywhere. -/
def merging : State :=
  tasked { Task.fresh true with phase := .numbered 0, goal := .seal, version := [{ va := 0x400, pa := 0x400, val := 1, made := [] }], wsig := [line8] }

theorem witness_Commits :
    (let s := { tasked { Task.fresh true with phase := .wanting } with commits := { State.reset.commits with queue := [8] } }
     s.unit? 8 = some (un s) ∧ (s.units.map (·.uid)).Nodup ∧ s.commits.queue = [8] ∧ dieOf (un s).core = 0 ∧ s.commits.tokens = [] ∧
      (un s).task.phase = .wanting ∧ (un s).active = true ∧ s.resolved (un s) = true) ∧
    (let s := tasked { Task.fresh true with phase := .token }
     (un s).active = true ∧ s.resolved (un s) = true ∧ (un s).firstReport = none ∧ s.mergesRead (un s) = false ∧ s.commits.sigs = [] ∧ s.commits.addrs = []) ∧
    ((∃ m, ((testing true).commits.sigs.find? (·.die == 0)) = some m ∧ m.uid ≠ 8 ∧
        (testing true).signatureHits 0 (some m.uid) [] (fun u => m.lines.any fun k => u.readLine k.1 k.2) = [8]) ∧
      ∃ m, ((testing false).commits.addrs.find? (·.die == 0)) = some m ∧
        (testing false).signatureHits 0 m.source [] (fun u => u.readLine m.ctx m.line) = [8]) ∧
    (merging.unit? 8 = some (un merging) ∧ (un merging).task.phase = .numbered 0 ∧ (un merging).task.untested = [] ∧ (un merging).fault = none ∧
      merging.mergesBefore (un merging) 0 = false ∧ (un merging).task.pubs = [] ∧ (un merging).task.spawns = [] ∧
      (un merging).task.goal = .seal ∧ merging.launchCancelled (un merging) = false ∧
      (∀ o ∈ merging.units, o.uid ≠ 8 → ∀ k ∈ (un merging).task.wsig, o.readLine 1 k = false) ∧ Idle merging) :=
  ⟨⟨rfl, by decide, rfl, rfl, rfl, rfl, rfl, rfl⟩, ⟨rfl, rfl, by decide, rfl, rfl, rfl⟩, ⟨⟨_, rfl, by decide, by decide⟩, _, rfl, by decide⟩,
    rfl, rfl, rfl, rfl, by decide, rfl, rfl, rfl, rfl, by decide, idle (by decide) (by decide) (by decide)⟩

def pub0 : Pub := { id := 20, ctx := 1, addr := 0x400, grade := .final, same := false, depth := 0, by_ := none, txn := none, raise := none }

/-- The record at 0x400, and a publication to it. -/
def graded : State :=
  let s := one [0, 0, 0x400]
  { s with
    mem := [(0x408, 128)],
    grades := { s.grades with pubs := [pub0] } }

theorem witness_GradesAndPublications :
    (graded.accessBad 8 1 .global 0x400 64 = none ∧ graded.entryFree t0 0 = true ∧ graded.Quiet t0 ∧
      (let i : Instr := .gread true (form .i32 8 2 0 0)
       graded.Lone i (vw i) (un graded) t0) ∧
      (let i : Instr := .gpub .provisional true (form .i32 8 2 0 0)
       graded.Lone i (vw i) (un graded) t0) ∧
      (let i : Instr := .gwait .final true (form .i32 8 2 0 1)
       graded.Lone i (vw i) (un graded) t0 ∧ (un graded).task.phase = .none ∧ (graded.thread t0).anyEmpty 8 1 = false)) ∧
    ((graded.grades.pubs.find? (·.id == 20)) = some pub0 ∧ graded.translate 1 0x400 true false = .ok page ∧ graded.grades.regs = [] ∧ graded.recordInvalid 0x400 = false ∧
      graded.word 0x40C 4 % 4 ≠ 3 ∧ Idle graded) ∧
    (graded.translate 1 0x400 true false = .ok page ∧ (1, 0x400) ∉ graded.grades.known) :=
  ⟨⟨by decide, by decide, quiet _ rfl rfl, lone rfl rfl (by decide), lone rfl rfl (by decide), lone rfl rfl (by decide), rfl, rfl⟩,
    ⟨rfl, rfl, rfl, by decide, by decide, idle (by decide) (by decide) (by decide)⟩, rfl, by decide⟩

/-- The machine of one thread whose unit belongs to a launch. -/
def launched : State := withLaunch (one [0, 0x100, 0x400, 0x101]) theLaunch

/-- Graph slot 0 of context 1, with a firing that has started. -/
def slotted : State :=
  let s := launched
  { s with
    ctxs := [(1, { context with phases := [(0, { tally := .zero, faults := 0, cancelled := false })] })],
    work := { s.work with
      gslots := [(0, { GSlot.reset with bound := 0x201 })],
      firings := [{ slot := 0, num := 1, ctx := 1, tag := 0, gtab := 0x400, params := [], started := true, cancelled := false }] } }

theorem witness_LaunchInstructions :
    (∀ i ∈ [Instr.launch (form .i32 8 2 0 0), .wfetch (form .i32 0 1 3 0), .cancel .graph (form .i32 8 0 0 0), .cancel .launch (form .i32 8 0 3 0),
        .ccount .launch (form .i32 8 0 3 0), .progress (form .i32 0 1 0 0), .budget (form .i32 8 1 0 0)],
      checkLone launched (vw i) (un launched) t0 = true) ∧
    (let i : Instr := .cancel .launch (form .i32 8 0 3 0)
     launched.Direct i (vw i) (un launched) t0 ∧ launched.Quiet t0 ∧ launched.levelLive .launch 1 0x101 = true ∧
      (launched.work.launches.map (·.id)).Nodup ∧ launched.levelLive .graph 1 0 = false ∧ launched.accessBad 8 1 .global 0x400 128 = none ∧
      launched.blockBad 8 0x100 16 16 = none ∧ ∀ owner w, launched.unitOf? owner = some w → Memory.wf w.loc = true) :=
  ⟨by decide, direct rfl rfl (by decide) rfl rfl, quiet _ rfl rfl, by decide, by decide, by decide, by decide, by decide, locals rfl rfl rfl⟩

theorem witness_SlotWrites :
    (slotted.gslot 0).bound.getLsbD 9 = true ∧ bits (slotted.gslot 0).bound.toNat 8 0 = 1 ∧
    (slotted.work.firings.filter (·.slot == 0)).length < 4 ∧ (slotted.work.launches.map (·.id)).Nodup ∧
    slotted.levelLive .launch 1 0x101 = true ∧ slotted.levelLive .graph 1 0 = true ∧ slotted.levelLive .phase 1 0 = true ∧
    slotted.levelLive .job 1 0 = true := by decide

/-- A table of one launch at 0x400, its descriptor at 0x480, and a firing of slot 0 that has not started. -/
def firing0 : Firing := { slot := 0, num := 1, ctx := 1, tag := 0, gtab := 0x400, params := [], started := false, cancelled := false }

def tableBytes0 : List Byte := [1, 15] ++ List.replicate 6 0 ++ leBytes 4 128 ++ List.replicate 20 0

def descBytes0 : List Byte :=
  leBytes 8 0x1000 ++ leBytes 8 0 ++ leBytes 4 2 ++ leBytes 4 1 ++ leBytes 4 1 ++ leBytes 2 32 ++ leBytes 2 1 ++ leBytes 4 4096 ++
    leBytes 4 128 ++ List.replicate 0x38 0 ++ leBytes 4 1 ++ leBytes 4 4096 ++ List.replicate 24 0

def firingState : State :=
  let s := one []
  { s with
    mem := cellsPut (cellsPut [] 0x400 tableBytes0) 0x480 descBytes0,
    caches := { s.caches with tlbs := (List.range 40).map fun k => { slice := context.home page (0x400 + 128 * k), ctx := 1, leaf := page } },
    work := { s.work with firings := [firing0] } }

def graph0 : GraphTable := { nlaunch := 1, depth := 15, doff := 128, edges := [], bindings := [] }

def waitingLaunch : Launch := { theLaunch with state := .waiting }

/-- The same launch registered on the record at 0x400, which is final. -/
def consuming : State :=
  let s := withLaunch (one []) waitingLaunch
  { s with
    mem := [(0x408, 128), (0x40C, 3)],
    grades := { s.grades with regs := [{ launch := 0x101, ctx := 1, addr := 0x400, thr := 2, state := 3, dseq := 0 }] } }

theorem witness_LaunchesStart :
    (Idle firingState ∧ (firingState.work.firings.find? (·.slot == 0)) = some firing0 ∧ firingState.readGraph 1 0x400 = some graph0 ∧
      firingState.refuses (firingState.launchOf firing0 graph0 0) = false ∧ (firingState.launchOf firing0 graph0 0).desc.total ≠ 0 ∧
      firingState.work.launches = []) ∧
    (let s := withLaunch (one []) waitingLaunch
     Idle s ∧ s.launch? 0x101 = some waitingLaunch ∧ waitingLaunch.counter ≠ 0 ∧ s.edgesHold waitingLaunch = true ∧ s.refuses waitingLaunch = false ∧
      s.regsOf 0x101 = []) ∧
    (Idle consuming ∧ consuming.launch? 0x101 = some waitingLaunch ∧ consuming.edgesHold waitingLaunch = true ∧
      consuming.refuses waitingLaunch = false ∧ consuming.regsOf 0x101 ≠ [] ∧ consuming.inputsHold 0x101 false = true) :=
  ⟨⟨idle (by decide) (by decide) (by decide), rfl, by decide +kernel, by decide +kernel, by decide +kernel, rfl⟩,
    ⟨idle (by decide) (by decide) (by decide), rfl, by decide, by decide, by decide, rfl⟩,
    idle (by decide) (by decide) (by decide), rfl, by decide, by decide, by decide, by decide⟩

def theFill : Fill := { id := 20, tid := t0, addr := 0x100, launch := 0x101 }

/-- The last thread of unit 8 has exited. -/
def ending : State := world (unitOf (crewOf { th [] with live := false }))

theorem witness_UnitsComeAndGo :
    (let s := withLaunch { one [] with units := [] } theLaunch
     s.launch? 0x101 = some theLaunch ∧ theLaunch.candidate = some 0 ∧ s.host.noPlace = false ∧ theLaunch.before theLaunch = false ∧
      (∃ core, s.placeable theLaunch = some (0, core)) ∧ s.localImage 1 theLaunch.desc = .ok []) ∧
    (ending.unit? 8 = some (un ending) ∧ (un ending).isSystem = false ∧ (un ending).fault = none ∧ (un ending).fate = .running ∧
      (un ending).liveThreads = [] ∧ (un ending).futuresDone = true ∧ (un ending).task.phase = .none ∧ ending.quiet 8 = true ∧
      ending.work.fills = [] ∧ (un ending).arrayErr = none ∧ (un ending).speculative = false ∧ (un ending).sharing = false) ∧
    (let s := { launched with work := { launched.work with fills := [theFill] } }
     (s.work.fills.find? (·.id == 20)) = some theFill ∧ s.unit? 8 = some (un s) ∧
      isDone (State.engineWrite launched 1 .thr t0 .localMem 0x100 (List.replicate 16 0)) = true) :=
  ⟨⟨rfl, rfl, rfl, rfl, ⟨0, by decide +kernel⟩, rfl⟩, ⟨rfl, rfl, rfl, rfl, by decide, rfl, rfl, rfl, rfl, rfl, rfl, by decide⟩, rfl, rfl,
    by decide⟩


/-! ## Witnesses: the fabric -/

/-- Context 1 exports its lowest 64 KiB, with every right, to every device; device 5 has joined as incarnation 1. -/
def exporting (s : State) : State :=
  { s with
    ctxs := [(1, { context with exportTab := [(1, 0x10000), (2, 0xF0FFF0000)] })],
    fabric := { s.fabric with joined := true, peers := [(5, 1)] } }

def packet (kind : BitVec 8) (addr : DWord) (payload : List Byte) (aux : BitVec 16) : Packet :=
  { dst := 0, src := 5, dinc := 0, sinc := 1, domain := 1, kind, flags := 0, seq := 0, addr, tag := 20, len := 4, aux, payload, req := 0, rinc := 0,
    win := 0, off := 0, total := 0, plane := 3, auth := [] }

/-- d2 is the address 0x400 of device 5; the descriptor of window 3 stands at local 0x100. -/
def fabricState : State :=
  let u := unitOf (crewOf (th [0, 0x100, 0x400, 0x500000]))
  world { u with loc := cellsPut [] 0x100 (leBytes 8 0x400 ++ leBytes 4 128 ++ [3] ++ List.replicate 11 0 ++ leBytes 8 0x1000) }

def window3 : Window :=
  { num := 3, base := 0x400, size := 128, vault := false, group := false, rlo := 0, rhi := 0, olo := 0, ohi := 0, ctr := 0x1000 }

def opened : State := { fabricState with ctxs := [(1, { context with windows := [window3] })] }

theorem witness_FabricInstructions :
    (let i : Instr := .rst .base (form .b32 1 2 0 0)
     let j : Instr := .rfence false (form .i32 0 0 0 0)
     let k : Instr := .lwin (form .i32 8 1 0 0)
     let b := fabricState.loadLocal 8 0x100 64
     fabricState.Direct i (vw i) (un fabricState) t0 ∧ fabricState.Quiet t0 ∧ (fabricState.ctx 1).domain ≠ 0 ∧ fabricState.txns = [] ∧
      fabricState.entryFree t0 0 = true ∧ fabTarget 0x0050000000000400 = 5 ∧ 5 ∉ fabricState.fabric.dead ∧
      fabricState.Direct j (vw j) (un fabricState) t0 ∧ fabricState.Direct k (vw k) (un fabricState) t0 ∧
      fabricState.blockBad 8 0x100 64 64 = none ∧ windowOf b = window3 ∧ windowBad b = false ∧
      (fabricState.ctx 1).window? 3 = none ∧ fabricState.windowReason 1 false 0x400 128 = none ∧
      fabricState.windowReason 1 false 0x1000 16 = none ∧ fabricState.translate 1 0x1000 true false = .ok page) ∧
    (let i : Instr := .lwinClose { form .i32 8 0 0 0 with b := .lit 3 }
     opened.Direct i (vw i) (un opened) t0 ∧ opened.Quiet t0 ∧ (opened.ctx 1).window? 3 = some window3 ∧
      opened.translate 1 0x1000 true false = .ok page) ∧
    (let i : Instr := .ratom .max false .base (form .i32 8 2 1 0)
     fabricState.Met i (vw i) (un fabricState) t0 ∧ (un fabricState).task.phase = .none ∧ (vw i).srcA fabricState t0 [0] % 4 = 0) :=
  ⟨⟨direct rfl rfl (by decide) rfl rfl, quiet _ rfl rfl, by decide, rfl, by decide, by decide, by decide, direct rfl rfl (by decide) rfl rfl,
      direct rfl rfl (by decide) rfl rfl, by decide, by decide, by decide, rfl, by decide, by decide, rfl⟩,
    ⟨direct rfl rfl (by decide) rfl rfl, quiet _ rfl rfl, rfl, rfl⟩, met rfl rfl (by decide), rfl, by decide⟩

theorem witness_FabricRequests :
    let s := exporting (one [])
    (∀ p ∈ [packet 1 0x400 [] 0, packet 3 0x400 [1, 2, 3, 4] 0, packet 4 0x400 [1, 2, 3, 4] 0x10, packet 5 0x400 [1, 2, 3, 4] 0],
      p.headerBad = false ∧ p.flags.getLsbD 0 = false ∧ (s.hear p).fromPeer p = some (s.hear p) ∧ (s.hear p).deciphered p = some p ∧
        s.readHeld p 0x400 4 = false ∧ s.atomicHeld p = false) ∧
    s.dark = false ∧ s.fabric.heldPackets = [] ∧ s.grades.known = [] ∧ s.checked (packet 1 0x20000 [] 0) 5 0x20000 4 0 false = .error 0x02 ∧
    s.checked (packet 4 0x20000 [1, 2, 3, 4] 0x10) 5 0x20000 4 2 false = .error 0x02 ∧
    s.checked (packet 1 0x400 [] 0) 5 0x400 4 0 false = .ok (1, page) ∧
    s.checked (packet 3 0x400 [1, 2, 3, 4] 0) 5 0x400 4 1 false = .ok (1, page) ∧
    s.checked (packet 5 0x400 [1, 2, 3, 4] 0) 5 0x400 4 1 false = .ok (1, page) ∧
    s.checked (packet 4 0x400 [1, 2, 3, 4] 0x10) 5 0x400 4 2 false = .ok (1, page) ∧ Ty.ofCode (bits 0x10 15 4) = some .u32 ∧
    s.checked (packet 3 0x20000 [1, 2, 3, 4] 0) 5 0x20000 4 1 false = .error 0x02 := by decide +kernel

/-- An access of t0 to device 5. -/
def afar (kind : TxnKind) (phase : Phase) : Txn := { txn t0 kind phase [] with target := 5 }

def farState (x : Txn) : State := exporting { going x with clk := { State.reset.clk with now := 250000 } }

theorem witness_FabricAnswers :
    (let o := op .rld [] [0x0050000000000400, 0, 512, 1]
     let s := exporting (working o)
     let p := packet 0x10 0x400 [1, 2, 3, 4] 0
     s.dark = false ∧ p.headerBad = false ∧ (s.hear p).fromPeer p = some (s.hear p) ∧ (s.hear p).deciphered p = some p ∧ s.fabric.heldPackets = [] ∧
      p.total = 0 ∧ s.op? 20 = some o ∧
      (s.ops.find? fun (o : Op) => o.id == p.tag.toNat && (o.kind matches .rld) && o.status.isNone) = some o ∧
      o.answered + 1 < (segmentsOf 0x400 512).length ∧ isDone ((s.hear p).engineWrite o.ctx .fab o.tid .localMem 0 p.payload) = true) ∧
    (let o := op .rld [] [0x0050000000000400, 0, 4, 1]
     o.answered + 1 = (segmentsOf 0x400 4).length ∧ o.destFail = none ∧ o.reason = 0 ∧
      isDone (((exporting (working o)).hear (packet 0x10 0x400 [1, 2, 3, 4] 0)).engineWrite o.ctx .fab o.tid .localMem 0 [1, 2, 3, 4]) = true) ∧
    (let o := op .mcst [] [0x0050000000000400, 0x100]
     let s := exporting (working o)
     let q := packet 0x14 0 (List.replicate 8 0 ++ leBytes 4 0) 0
     (s.ops.find? fun (o : Op) => o.id == q.tag.toNat && o.status.isNone) = some o ∧
      isDone ((s.hear q).engineWrite o.ctx .fab o.tid .localMem 0x100 (q.payload.take 8)) = true) ∧
    (let o := op .rld3 [] [0, 0x1003]
     let s := exporting (working o)
     let p := packet 0x12 0 [] 0
     let q := packet 0x14 0 (List.replicate 4 0) 0
     s.dark = false ∧ p.headerBad = false ∧ (s.hear p).fromPeer p = some (s.hear p) ∧ (s.hear p).deciphered p = some p ∧ p.aux = 0 ∧
      bit (o.args.getD 1 0) 12 = true ∧
      (s.ops.find? fun (o : Op) => o.id == p.tag.toNat && (o.kind matches .rld3) && o.status.isNone) = some o ∧
      s.dark = false ∧ q.malformed = false ∧ s.fabric.joined = true ∧ q.dinc.toNat = s.fabric.incarnation ∧ field q.payload 2 2 = 0 ∧
      (s.ops.find? fun (o : Op) => o.id == q.tag.toNat && o.status.isNone) = some o) ∧
    (let x := afar (.rst [1, 2, 3, 4]) .issued
     let p := packet 0x13 0x400 [] 0
     let s := farState x
     s.dark = false ∧ p.headerBad = false ∧ (s.hear p).fromPeer p = some (s.hear p) ∧ (s.hear p).deciphered p = some p ∧ s.fabric.heldPackets = [] ∧ s.txn? 20 = some x ∧ p.tag.toNat = x.id ∧
      x.since + (s.ctx x.ctx).fabTimeout ≤ s.clk.now ∧ x.orphan = false ∧ s.Present x.tid) ∧
    (let x := afar (.rst [1, 2, 3, 4]) .resend
     let s := farState x
     s.txn? 20 = some x ∧ s.unitOf? 8 = some (un s) ∧ (un s).ceilingFinal = true) :=
  ⟨⟨rfl, rfl, by decide +kernel, by decide +kernel, rfl, rfl, rfl, rfl, by decide +kernel, by decide +kernel⟩, ⟨by decide +kernel, rfl, rfl, by decide +kernel⟩, ⟨rfl, by decide +kernel⟩,
    ⟨rfl, rfl, by decide +kernel, by decide +kernel, rfl, by decide +kernel, rfl, rfl, rfl, rfl, rfl, rfl, rfl⟩,
    ⟨rfl, rfl, by decide +kernel, by decide +kernel, rfl, rfl, rfl, by decide +kernel, rfl, present (by decide +kernel)⟩, rfl, rfl, rfl⟩

theorem witness_Links :
    let s := { exporting (one []) with clk := { State.reset.clk with now := 12500 } }
    (s.dark = false ∧ 3 < 16 ∧ s.fabric.portUp 3 = true ∧ 12500 + (assocGet s.fabric.lastHeard 3).getD 0 ≤ s.clk.now) ∧
    (let d := { s with fabric := { s.fabric with portsDown := (List.range 16).filter (· != 3) } }
     ∀ k, k < 16 → k ≠ 3 → d.fabric.planeUp k 5 = false) ∧
    (let p := { packet 0x22 0 [] 0 with src := 7 }
     p.malformed = false ∧ assocGet s.fabric.peers p.src.toNat = none) ∧
    ((packet 0x30 0 [] 0).knownKind = false ∧ s.sys[(packet 0x30 0 [] 0).die]? = some .reset) :=
  ⟨by decide, by decide, by decide, by decide, rfl⟩


/-! ## Witnesses: the system, traps, the debugger, pre-emption, the host -/

def sysRegs : State := sysOne [0, 1, 0x1000, 0, 0x401, 3]

/-- A pin window at local 0x100 and a step of one token at local 0x200, for the ring of 128 slots whose descriptor stands at 0x400. -/
def ringState : State :=
  let u := unitOf (crewOf (th [0, 0x100, 0x400, 0, 0x200]))
  { world { u with loc := cellsPut (cellsPut [] 0x100 (leBytes 8 0x10000 ++ leBytes 4 1 ++ leBytes 4 1)) 0x200 (leBytes 4 1 ++ leBytes 4 1 ++ leBytes 4 77) } with
    mem := cellsPut [] 0x400 (leBytes 8 0x1000 ++ leBytes 4 128) }

def noneLeft : State × Option (Nat × Nat) → Bool
  | (_, o) => o.isNone

theorem witness_SystemInstructions :
    (∀ i ∈ [Instr.shoot (form .i32 0 2 0 1), .shootsync (form .i32 0 0 0 0), .pincap (form .i32 8 1 0 5), .sysrd (form .i32 8 4 0 0),
        .syswr (form .i32 0 4 2 0)],
      checkLone sysRegs (vw i) (un sysRegs) t0 = true) ∧
    (let i : Instr := .shoot (form .i32 0 2 0 1)
     sysRegs.Lone i (vw i) (un sysRegs) t0 ∧ sysRegs.Quiet t0 ∧ sysRegs.shoots = [] ∧ sysRegs.otherPins 1 0 + 3 ≤ 6 ∧
      selector 0x401 = some (false, 1, 1) ∧ (sysRegs.sysRead 0 0x401).isSome = true ∧ (sysRegs.sysWrite 0 0x401 0x1000).any (fun s1 => checkPresent s1 t0) = true ∧
      (∀ k, k < 256 → sysRegs.otherPins 1 k + 3 ≤ 6) ∧ ∀ k ∈ sysRegs.shoots, k.by_ ≠ some t0) ∧
    (let i : Instr := .pinset (form .i32 8 1 0 0)
     let d := ringState.loadLocal 8 0x100 16
     ringState.Lone i (vw i) (un ringState) t0 ∧ (un ringState).task.atomic = false ∧ ringState.blockBad 8 0x100 16 16 = none ∧
      field d 0 8 % 65536 = 0 ∧ field d 0 8 + field d 8 4 * 65536 ≤ 2 ^ 57 ∧ field d 8 4 ≠ 0) ∧
    (let i : Instr := .rpub (form .i32 8 2 4 0)
     let ring := cellsGet ringState.mem 0x400 64
     ringState.Lone i (vw i) (un ringState) t0 ∧ ringState.blockBad 8 0x200 12 16 = none ∧ ringState.readBlock 1 0x400 64 = .ok ring ∧
      (ringOf ring).bad = false ∧ (un ringState).ceilingFinal = true ∧
      noneLeft (ringState.ringStores 1 t0 [(0x1000, leBytes 4 77), (0x410, leBytes 8 0x100000001)]) = true) :=
  ⟨by decide, ⟨lone rfl rfl (by decide), quiet _ rfl rfl, rfl, by decide, by decide, by decide, by decide, by decide +kernel,
      by decide⟩,
    ⟨lone rfl rfl (by decide), rfl, by decide, by decide, by decide, by decide⟩, lone rfl rfl (by decide), by decide, by decide +kernel, by decide,
    rfl, by decide⟩

theorem witness_RegisterWrites :
    ((sysRegs.dark = false ∧ { sysRegs with host := { sysRegs.host with shut := true } }.dark = true) ∧ (1 : DWord).getLsbD 1 = false ∧ (1 : DWord).getLsbD 0 = true ∧ (sysRegs.sysWrite 0 0x401 0x1000).isSome = true ∧
      1200 ≤ (1200 : DWord).toNat ∧ (0xA8 : BitVec 26) ≠ 0xA0 ∧ ¬(0x100000 ≤ (0xA8 : BitVec 26).toNat)) ∧
    (let k := { SysCore.reset with evcause := 1, holding := some t0 }
     let s := { one [] with sys := [k] }
     s.sys[0]? = some k ∧ s.Present t0) ∧
    (let sh : Shoot := { id := 30, by_ := none, ctx := 1, base := 0, len := some 4096, waits := [], done := false }
     let s := { one [] with shoots := [sh] }
     (s.shoots.find? fun q => q.id == sh.id && !q.done) = some sh ∧ (s.units.all fun u => !u.speculative) = true) :=
  ⟨by decide, ⟨rfl, present (by decide)⟩, rfl, rfl⟩

/-- A debugger's breakpoint at 0x1000 in context 1, with the breakpoints on. -/
def breaking : State :=
  { one [] with
    ctxs := [(1, { context with dbctl := 1, bps := [0x1001] })], sched := { State.reset.sched with issue := none } }

def pendingEvent : TrapEvent := { cause := 5, lanes := [(0, 7)] }

theorem witness_TrapSteps :
    (let s := world (unitOf { crewOf (th []) with pending := [pendingEvent] })
     s.unit? 8 = some (un s) ∧ 0 < (un s).crews.length ∧ ((un s).crew 0).event = none ∧ ((un s).crew 0).pending = [pendingEvent]) ∧
    (let s := world { unitOf (crewOf (th [])) with fault := some (List.replicate 64 1) }
     s.unit? 8 = some (un s) ∧ (un s).fault = some (List.replicate 64 1) ∧ s.holdsFaults (un s) = false) ∧
    ((un breaking).active = true ∧ ((un breaking).crew 0).frozen = false ∧ breaking.atBreakpoint (un breaking) t0 = true ∧
      breaking.sched.issue = none ∧ (breaking.ctx 1).dbctl.getLsbD 1 = false) ∧
    (let s := world (unitOf { crewOf (th []) with budget := .running 0 })
     0 < (un s).crews.length ∧ ((un s).crew 0).budget = .running 0 ∧ (un s).active = true ∧ 0 ≤ s.clk.now ∧ (un s).desc.handler ≠ 0 ∧
      (((un s).crew 0).thread 0).live = true) ∧
    (let s := { one [] with ctxs := [(1, { context with timers := 1 })], clk := { State.reset.clk with now := 1024 } }
     (un s).isSystem = false ∧ (un s).active = true ∧ (assocGet s.clk.acts 1).getD 0 + 1024 * ((s.ctx 1).timers.toNat % 65536) ≤ s.clk.now ∧
      (s.units.all fun w => w.crews.all fun c => (c.handler :: c.threads).all fun th => !th.external) = true ∧ (un s).fault = none) ∧
    (let k := { SysCore.reset with evmask := 0, pending := [{ source := 5, info := 0, thread := none }] }
     let s := { State.reset with
       sys := [k], units := [{ RUnit.system 0 with crews := [crewOf { th [] with regs := List.replicate 256 0 }] }] }
     s.sys[0]? = some k ∧ k.evmask.getLsbD 0 = false ∧ (s.thread ⟨0, 0, 0⟩).live = true ∧
      s.nextSource 0 = some { source := 5, info := 0, thread := none }) :=
  ⟨⟨rfl, by decide, rfl, rfl⟩, ⟨rfl, rfl, rfl⟩, ⟨rfl, rfl, by decide, rfl, rfl⟩, ⟨by decide, rfl, rfl, by decide, by decide, rfl⟩,
    ⟨rfl, rfl, by decide, by decide, rfl⟩, rfl, rfl, rfl, rfl⟩

/-- The thread t0 stands stopped under handle 7, which DSEL selects with its g1. -/
def stoppedState : State :=
  { world (unitOf (crewOf { th [0, 9] with stop := some { handle := 7, cause := 0x40 } })) with
    ctxs := [(1, { context with dsel := 0x100000007 })] }

theorem witness_DebugCommands :
    stoppedState.unit? 8 = some (un stoppedState) ∧ stoppedState.handleUnit 1 7 = some (un stoppedState) ∧
    ((stoppedState.ctx 1).dbctl.getLsbD 1 = false ∧ (un stoppedState).fault = none ∧ (un stoppedState).fate ≠ .faulted) ∧
    (∀ v ∈ [(0x100000007 : Nat), 0x100400007, 0x100800007],
      commanded (un stoppedState) false v = [t0] ∧ v % 65536 = 7 ∧ bits v 23 22 < 3) ∧
    bits (0xC00000 : DWord).toNat 23 22 = 3 ∧ stoppedState.selected 1 = some (un stoppedState, t0, .gpr, false, 1) ∧
    (stoppedState.thread t0).live = true := by
  refine ⟨rfl, rfl, ⟨rfl, rfl, by decide⟩, fun v hv => ?_, by decide, rfl, rfl⟩
  simp only [List.mem_cons, List.not_mem_nil, or_false] at hv
  rcases hv with rfl | rfl | rfl <;> exact ⟨by decide, by decide, by decide⟩

/-- A save of unit 8 is due, with room in its pool. -/
def toSave : State :=
  { world { unitOf (crewOf (th [])) with fate := .saving } with
    ctxs := [(1, { context with spbase := 0x100000, spsize := 0x200000000 })] }

theorem witness_PreemptionSteps :
    (let s := one []
     let l := { theLaunch with id := 0x102, desc := { desc with prio := 3, loc := 262144, diemask := 1 } }
     let full := { withLaunch s l with
       work := { s.work with launches := [l], waiting := [(0x102, 0, 0)] }, clk := { s.clk with now := 65536 },
       host := { s.host with noPlace := true } }
     s.unit? 8 = some (un s) ∧ (un s).preemptable = true ∧ s.preemptForm (un s) true = some .save ∧ full.launch? 0x102 = some l ∧
      l.state = .started ∧ (l.unitRec 0).at_ = .unplaced ∧ full.placeable l = none ∧ full.makesRoom l 0 (un full) = true) ∧
    (let s := { world { unitOf (crewOf (th [])) with fate := .draining 0 } with clk := { State.reset.clk with now := 1048576 } }
     s.unit? 8 = some (un s) ∧ (un s).fate = .draining 0 ∧ (un s).fault = none ∧ (un s).isHeld = false ∧ s.preemptForm (un s) false = some .save) ∧
    (toSave.unit? 8 = some (un toSave) ∧ (un toSave).fate = .saving ∧ (un toSave).isHeld = false ∧ toSave.mayPark (un toSave) = true ∧ toSave.saveReady 8 = true ∧ toSave.ops = [] ∧
      ((toSave.ctx 1).spbase.toNat + (toSave.ctx 1).spUsed + 255) / 256 * 256 = 0x100000 ∧
      (toSave.ctx 1).inPool 0x100000 (un toSave).imageSize = true ∧ Memory.wf toSave.mem = true) ∧
    (let s := withLaunch (world { unitOf (crewOf (th [])) with fate := .saving, task := .fresh true }) theLaunch
     (un s).fate = .saving ∧ (un s).speculative = true ∧ (un s).fault = none ∧ s.numbered 8 = false ∧ (un s).task.checkpoint = none ∧
      s.launch? (un s).launch = some theLaunch ∧ Idle s) ∧
    (let s := { one [] with clk := { State.reset.clk with now := 64 } }
     s.ready (un s) 0 0 = true ∧ ((un s).crew 0 |>.thread 0).urgent = none ∧ ((un s).crew 0 |>.thread 0).readySince + 64 ≤ s.clk.now) :=
  ⟨⟨rfl, rfl, rfl, rfl, rfl, rfl, rfl, by decide⟩, ⟨rfl, rfl, rfl, rfl, rfl⟩, ⟨rfl, rfl, rfl, rfl, rfl, rfl, by decide, fits _ _ (by decide), rfl⟩,
    ⟨rfl, rfl, rfl, rfl, rfl, rfl, idle (by decide) (by decide) (by decide)⟩, rfl, rfl, by decide⟩

/-- The page that firmware reserves not, in device DRAM; no context maps it. -/
def hostPage : Nat := Config.openPage * 4096

theorem open_page : Config.openPage < 2 ^ 27 ∧ Config.draftPage Config.openPage = false := by
  have hp : Config.freePage.toNat < 2 ^ 27 := Config.freePage.isLt
  unfold Config.openPage
  generalize Config.freePage.toNat = p at hp
  dsimp only
  split
  next h =>
    have e : (p / 2 ^ 24 * 2 ^ 24 + (p + 2 ^ 14) % 2 ^ 24) / 2 ^ 24 = p / 2 ^ 24 := by omega
    simp only [Config.draftPage, beq_iff_eq, e, beq_eq_false_iff_ne] at h ⊢
    omega
  next h => exact ⟨hp, by simpa using h⟩

theorem host_page : State.reset.hostMayRead hostPage = true ∧ State.reset.hostBarred hostPage = false := by
  obtain ⟨hp, hd⟩ := open_page
  have h : ¬ 549755813888 ≤ hostPage := by unfold hostPage; omega
  have d : hostPage / 4096 = Config.openPage := by unfold hostPage; generalize Config.openPage = p; omega
  have m (x : Nat) : State.reset.mappings x = [] := rfl
  generalize hostPage = x at h d
  have e : State.reset.hostBarred x = false := by
    simp [State.hostBarred, State.lineDomain, m, d, h, Config.reservedPage, hd]
  exact ⟨by rw [State.hostMayRead, m, e]; rfl, e⟩

/-- An entry of the command ring, at the bottom of host memory. -/
def commandState (code ctx sel value : Nat) : State :=
  { one [] with
    ctxs := [(1, { context with ctxctl := 0x100000003 })],
    fabric := { State.reset.fabric with peers := [(1, 1)] },
    host := { HostLink.reset with cmdbase := 0x8000000000000, cmdtail := 1, bootstat := 1 },
    mem := cellsPut [] 0x8000000000000 (leBytes 2 code ++ leBytes 2 ctx ++ leBytes 4 0 ++ leBytes 4 sel ++ leBytes 4 0 ++ leBytes 8 value ++
      leBytes 8 0x8000000001000) }

theorem witness_HostAccesses :
    (State.reset.recovering = false ∧ State.reset.dark = false ∧ State.reset.lineKeys = [] ∧ State.reset.hostMayRead hostPage = true ∧ State.reset.hostBarred hostPage = false ∧ State.reset.pubwAt hostPage = none ∧
      State.reset.hostBarred (2 ^ 39) = true) ∧
    (∀ c ∈ [(0, 0, 0, 0), (1, 0, 0x401, 0), (2, 0, 0x401, 0x1000), (3, 0, 0, 0), (4, 0, 0, 0), (5, 0, 0, 0), (6, 1, 0, 0x1000), (7, 0, 0, 0),
        (8, 0, 0, 0), (9, 1, 1, 0)],
      let s := commandState c.1 c.2.1 c.2.2.1 c.2.2.2
      s.command?.any (fun b => field b 0 2 == c.1 && !cmdBad b) = true ∧ s.recovering = false) ∧
    (let s := commandState 9 1 1 0
     (s.sysRead 0 0x401).isSome = true ∧ (s.sysWrite 0 0x401 0x1000).isSome = true ∧ { s with units := [] }.resident = [] ∧ s.shoots = [] ∧
      s.host.boot.length = 16 ∧ (s.ctx 1).confidential = true ∧ (s.ctx 1).domain = 1 ∧ s.host.asked = none ∧
      assocGet s.fabric.peers 1 = some 1 ∧ Memory.wf s.mem = true) :=
  ⟨⟨rfl, rfl, rfl, host_page.1, host_page.2, rfl, rfl⟩, by decide +kernel, by decide, by decide, rfl, rfl, rfl, by decide, by decide, rfl, rfl, by decide +kernel⟩

theorem witness_PowerSteps :
    (State.reset.Canonical ∧ State.reset.host.powered = true ∧ (State.reset.boot 1).failed = false ∧
      ({ State.reset with host := { HostLink.reset with powered := false } } : State).Canonical) ∧
    (∀ k ∈ [1, 7, 14],
      let s : State := { State.reset with host := { HostLink.reset with step := k } }
      s.host.powered = true ∧ s.host.shut = false ∧ s.host.boot.length = 16 ∧ s.isleDisabled 5 = false ∧ s.host.step = k ∧ (s.boot (k + 1)).failed = false) ∧
    (∀ k ∈ [1, 2, 13],
      let s : State := { State.reset with host := { HostLink.reset with step := k, boot := HostLink.reset.boot.set k 0x301 } }
      s.host.powered = true ∧ s.host.shut = false ∧ s.host.boot.length = 16 ∧ s.host.step = k ∧ (s.boot (k + 1)).failed = true ∧
        3 ≤ (s.boot (k + 1)).fails) ∧
    (let s : State := { State.reset with host := { HostLink.reset with step := 7 } }
     (s.boot 7).isle = (0 : BitVec 7).toNat) ∧
    95 ≤ (110 : BitVec 8).toNat ∧ 110 ≤ (110 : BitVec 8).toNat ∧ (94 : BitVec 8).toNat < 95 :=
  ⟨⟨⟨rfl, rfl⟩, rfl, by decide, ⟨rfl, rfl⟩⟩, by decide, by decide, by decide, by decide, by decide, by decide⟩

/-! ## Witnesses: encoding, steps -/

theorem witness_RoundTrip :
    addI.hasWords = true ∧ addI.WellFormed ∧ addM.hasWords = true ∧ addM.WellFormed ∧ callI.hasWords = true ∧ callI.WellFormed :=
  ⟨rfl, rfl, rfl, rfl, rfl, rfl⟩

/-- The machine whose next step is the instruction at PC 0 of the system core. -/
def stepState (w : Nat) : State := State.reset.withFetchWord 32 w

/-- The same machine after the turn has been taken. -/
def turned (s : State) : State := { s.tick exec with sched := { s.sched with turns := [], bundles := [] } }

/-- The bundle of the placed instruction. -/
def placed : Bundle := { core := 512, quarter := 0, uid := 0, pc := 0, threads := [(0, 0)] }

/-- A branch decodes; the word 0x1FC00000 does not; without its translation the word cannot be fetched. -/
theorem witness_StepRunsDecoded :
    (∀ w ∈ [0x08000001, 0x1FC00000],
      let s := stepState w
      (s.tick exec).sched.turns = [.issue 0 []] ∧ (s.tick exec).dark = false ∧ (s.tick exec).sched.bundles[0]? = some placed ∧ (turned s).unit? 0 = some (.started s) ∧
      (turned s).bundleThreads placed = [(0, 0)] ∧ ((turned s).thread ⟨0, 0, 0⟩).reportDue (turned s).clk.now = false ∧
      (let s0 : State := { s.tick exec with sched := { s.sched with turns := [], back := [] } }
       s0.bestBundle (s0.pathMates placed) = some placed) ∧ (turned s).atBreakpoint (.started s) ⟨0, 0, 0⟩ = false ∧
      (turned s).fetchInstr (.started s) 0 0 = .ok [w]) ∧
    decodeWords [0x08000001] = .ok (.brBase false 1, []) ∧ (decodeWords [0x1FC00000]).isOk = false ∧
    ({ turned (stepState 0) with caches := State.reset.caches } : State).fetchInstr (.started (stepState 0)) 0 0 = .error rUnmapped ∧
    (let s := stepState 0x08000001
     let u := RUnit.started s
     let f : State := { s with flaws := [{ space := 0, addr := 0 }] }
     s.hist = [] ∧ s.sched.back = [] ∧ s.fetchAddr u.core u.ctx 0 = .ok 0 ∧ u.task.version = [] ∧ s.flawed 0 0 1 = false ∧
      s.fetchHeld u.core u.ctx 0 = false ∧ f.fetchAddr u.core u.ctx 0 = .ok 0 ∧ f.flawed 0 0 1 = true ∧
      ((tasked { Task.fresh true with version := [{ va := 0x400, pa := 0x400, val := 1, made := [] }] }).fetchAddr 0 1 0x400).isOk = true) ∧
    (∀ i ∈ [Instr.powerOn, .heartbeatTimer 0],
      let s : State := { State.reset with sched := { State.reset.sched with turns := [.event i []] } }
      let d : State := { s with host := { s.host with shut := true } }
      (s.tick exec).sched.turns = [.event i []] ∧ (s.tick exec).dark = false ∧ (d.tick exec).sched.turns = [.event i []] ∧ (d.tick exec).dark = true) ∧
    powers .powerOn = true ∧ powers (.heartbeatTimer 0) = false := by decide +kernel

def goesOn : Host.Outcome State Fault Refusal → Bool
  | .next _ => true
  | .fault _ | .refused _ => false

theorem witness_StepKeepsCanonical : (stepState 0x08000001).Canonical ∧ goesOn (step (stepState 0x08000001)) = true :=
  ⟨⟨by decide, by decide⟩, by decide +kernel⟩

theorem witness_StepKeepsLocalMemory : (stepState 0x08000001).LocalCanonical ∧ goesOn (step (stepState 0x08000001)) = true :=
  ⟨⟨by decide, by decide, by decide⟩, by decide +kernel⟩
end Sys2Proof.Tests
end

section
/-! PROOFS. What the immediate of a base word stands for (02_encoding R37, R38). -/

namespace Sys2Proof.Machine

/-! ## A literal as one word -/

theorem literalValue_one (l : DWord) : literalValue l 1 = l.toNat % 2 ^ 32 := rfl

theorem literalValue_setWidth (w : Word) : literalValue (w.setWidth 64) 1 = w.toNat := by
  have h := w.isLt
  rw [literalValue_one, BitVec.toNat_setWidth]
  omega

/-! ## An FP32 word by its fields (R135) -/

/-- A word whose exponent code is neither 0 nor the top one stands for a normal number. -/
theorem fp32_value_of_normal {x : Nat} (hx : x < 2 ^ 32) (hlow : x / 2 ^ 23 % 2 ^ 8 ≠ 0) (htop : x / 2 ^ 23 % 2 ^ 8 ≠ 255) :
    fp32.value x = .fin (bit x 31) (2 ^ 23 + x % 2 ^ 23) (((x / 2 ^ 23 % 2 ^ 8 : Nat) : Int) - 127 - 23) := by
  have hword : x % 2 ^ 32 = x := Nat.mod_eq_of_lt hx
  simp only [Fmt.value, fp32, Fmt.width, Nat.reduceAdd, hword]
  rw [if_neg (by simpa using htop), if_neg (by simp), if_neg hlow]
  rfl

/-- The value of the word that a sign, a normal exponent code and a fraction make. -/
theorem fp32_value_fields (neg : Bool) {e f : Nat} (he : 0 < e) (het : e < 255) (hf : f < 2 ^ 23) :
    fp32.value (boolNat neg * 2 ^ 31 + e * 2 ^ 23 + f) = .fin neg (2 ^ 23 + f) ((e : Int) - 127 - 23) := by
  have hs : boolNat neg ≤ 1 := by cases neg <;> decide
  have hsign : bit (boolNat neg * 2 ^ 31 + e * 2 ^ 23 + f) 31 = neg := by
    have h : (boolNat neg * 2 ^ 31 + e * 2 ^ 23 + f) / 2 ^ 31 % 2 = boolNat neg := by omega
    rw [bit, h]
    cases neg <;> rfl
  have hexp : (boolNat neg * 2 ^ 31 + e * 2 ^ 23 + f) / 2 ^ 23 % 2 ^ 8 = e := by omega
  have hfrac : (boolNat neg * 2 ^ 31 + e * 2 ^ 23 + f) % 2 ^ 23 = f := by omega
  rw [fp32_value_of_normal (by omega) (by omega) (by omega), hsign, hexp, hfrac]

/-! ## The immediate of a float form -/

theorem natAbs_toInt_le (k : BitVec 7) : k.toInt.natAbs ≤ 64 := by
  have hl := BitVec.le_two_mul_toInt (x := k)
  have hu := BitVec.two_mul_toInt_lt (x := k)
  omega

theorem log2_natAbs_le (k : BitVec 7) : Nat.log2 k.toInt.natAbs ≤ 6 := by
  have h := natAbs_toInt_le k
  by_cases hm : k.toInt.natAbs = 0
  · rw [hm]; decide
  · exact Nat.le_of_lt_succ ((Nat.log2_lt hm).2 (by omega))

/-- The fraction field that immF32 gives to the magnitude m of its immediate. -/
def immFraction (m : Nat) : Nat := (m - 2 ^ Nat.log2 m) * 2 ^ (23 - Nat.log2 m)

/-- The fraction with the hidden bit is the magnitude, moved up to bit 23. -/
theorem hidden_add_immFraction {m : Nat} (hm : m ≠ 0) (hb : Nat.log2 m ≤ 23) :
    2 ^ 23 + immFraction m = m * 2 ^ (23 - Nat.log2 m) := by
  have hpow : 2 ^ Nat.log2 m * 2 ^ (23 - Nat.log2 m) = 2 ^ 23 := pow_mul_pow_sub 2 hb
  rw [immFraction, ← hpow, ← Nat.add_mul, Nat.add_sub_cancel' (Nat.log2_self_le hm)]

theorem immFraction_lt {m : Nat} (hm : m ≠ 0) (hb : Nat.log2 m ≤ 23) : immFraction m < 2 ^ 23 := by
  have hlt : m * 2 ^ (23 - Nat.log2 m) < 2 ^ 24 := calc
    m * 2 ^ (23 - Nat.log2 m) < 2 ^ (Nat.log2 m + 1) * 2 ^ (23 - Nat.log2 m) :=
      Nat.mul_lt_mul_of_pos_right Nat.lt_log2_self (Nat.two_pow_pos _)
    _ = 2 ^ 24 := by rw [← pow_add]; congr 1; omega
  have hsum := hidden_add_immFraction hm hb
  omega

/-- The fields of the word of a float immediate that is not 0. -/
theorem literalValue_immF32 {k : BitVec 7} (hm : k.toInt.natAbs ≠ 0) :
    literalValue (immF32 k) 1 =
      boolNat (k.toInt < 0) * 2 ^ 31 + (127 + Nat.log2 k.toInt.natAbs) * 2 ^ 23 + immFraction k.toInt.natAbs := by
  have hs : boolNat (k.toInt < 0) ≤ 1 := by unfold boolNat; split <;> decide
  have hlog := log2_natAbs_le k
  have hf := immFraction_lt hm (by omega)
  have hw : immF32 k = BitVec.ofNat 64
      (boolNat (k.toInt < 0) * 2 ^ 31 + (127 + Nat.log2 k.toInt.natAbs) * 2 ^ 23 + immFraction k.toInt.natAbs) := if_neg hm
  rw [literalValue_one, hw, BitVec.toNat_ofNat]
  omega

/-- R38: the word of a float immediate stands for the immediate itself. -/
theorem value_immF32 (k : BitVec 7) :
    ∃ m e, fp32.value (literalValue (immF32 k) 1) = .fin (decide (k.toInt < 0)) m e ∧ e ≤ 0 ∧
      m = k.toInt.natAbs * 2 ^ (-e).toNat := by
  by_cases hm : k.toInt.natAbs = 0
  · have hz : k.toInt = 0 := by omega
    have hw : immF32 k = 0 := if_pos hm
    refine ⟨0, -149, ?_, by omega, by simp [hm]⟩
    rw [hw, hz]
    rfl
  · have hlog := log2_natAbs_le k
    have hf := immFraction_lt hm (by omega)
    have hexp : 23 - Nat.log2 k.toInt.natAbs = (-(((127 + Nat.log2 k.toInt.natAbs : Nat) : Int) - 127 - 23)).toNat := by omega
    refine ⟨_, _, ?_, ?_, (hidden_add_immFraction hm (by omega)).trans (by rw [hexp])⟩
    · rw [literalValue_immF32 hm, fp32_value_fields _ (by omega) (by omega) hf]
    · omega

/-! ## The immediate of an integer, a bit and a memory form -/

/-- R37, R38: the scaled immediate is the sign-extended one, multiplied in 32 bits. -/
theorem ofInt_scaled (k : BitVec 7) (scale : Nat) :
    BitVec.ofInt 32 (k.toInt * scale) = BitVec.ofNat 32 scale * k.signExtend 32 := by
  rw [BitVec.ofInt_mul, BitVec.ofInt_natCast, BitVec.mul_comm, BitVec.signExtend]

/-! ## The form of a base word (R37) -/

/-- Source B of the form of a base word with an immediate. -/
theorem toForm_b_imm {x : BaseForm} {k : BitVec 7} (h : x.b = .imm k) (ty : Ty) (scale : Nat) :
    (x.toForm ty scale).b = .lit (if ty = .f32 then immF32 k else (BitVec.ofInt 32 (k.toInt * scale)).setWidth 64) := by
  simp [BaseForm.toForm, h]

/-- R37: the view of a base word with register fields is that of its form. The float majors, and no others, take it in f32; ld
and st scale their offset by 4. -/
theorem view_of_baseForm {i : Instr} {op : Nat} {x : BaseForm} {v : View} (hb : i.baseForm = some (op, x))
    (hv : i.view = some v) :
    ∃ ty, v.x = x.toForm ty (if op = 0x50 ∨ op = 0x51 then 4 else 1) ∧ (ty = .f32 ↔ op ∈ [0x30, 0x31, 0x32, 0x34, 0x35]) := by
  unfold Instr.baseForm at hb
  split at hb <;> cases hb
  all_goals
    cases hv
    exact ⟨_, rfl, by decide⟩

end Sys2Proof.Machine

namespace Sys2Proof.Claims

open Sys2Proof.Machine

/-- Settles O6: the view of a base word is its form, whose source B is the immediate in the type of the major. -/
theorem baseImmediates : Obligations.BaseImmediates := by
  intro i op x k v hb hx hv
  obtain ⟨ty, hform, hty⟩ := view_of_baseForm hb hv
  refine ⟨_, hform ▸ toForm_b_imm hx ty _, ?_⟩
  by_cases hfloat : ty = .f32
  · rw [if_pos (hty.1 hfloat), if_pos hfloat]
    exact value_immF32 k
  · rw [if_neg (mt hty.2 hfloat), if_neg hfloat, literalValue_setWidth, ofInt_scaled]
    by_cases hmem : op = 0x50 ∨ op = 0x51
    · simp only [if_pos hmem]
      rfl
    · simp only [if_neg hmem]
      exact congrArg BitVec.toNat (BitVec.one_mul _)

end Sys2Proof.Claims
end

section
/-! PROOFS. Integer arithmetic by element: what the pseudocode of R97 writes, and the sums, products and quotients of one
element (04_integer R97 to R100). -/

namespace Sys2Proof.Machine

/-! ## Two's complement -/

theorem wrap_eq_toNat (w : Nat) (x : Int) : wrap w x = (BitVec.ofInt w x).toNat := (BitVec.toNat_ofInt x).symm

theorem toSigned_eq_toInt (w x : Nat) : toSigned w x = (BitVec.ofNat w x).toInt := by
  rw [BitVec.toInt_eq_toNat_cond, BitVec.toNat_ofNat]
  rfl

theorem wrap_lt (w : Nat) (x : Int) : wrap w x < 2 ^ w := by
  rw [wrap_eq_toNat]
  exact BitVec.isLt _

theorem wrap_zero (w : Nat) : wrap w 0 = 0 := by simp [wrap]

theorem wrap_neg_one (w : Nat) : wrap w (-1) = 2 ^ w - 1 := by
  rw [wrap_eq_toNat, BitVec.ofInt_neg, BitVec.ofInt_ofNat, BitVec.neg_one_eq_allOnes, BitVec.toNat_allOnes]

theorem wrap_natCast (w x : Nat) : wrap w x = x % 2 ^ w := by
  rw [wrap_eq_toNat, BitVec.ofInt_natCast, BitVec.toNat_ofNat]

theorem wrap_toSigned (w x : Nat) : wrap w (toSigned w x) = x % 2 ^ w := by
  rw [toSigned_eq_toInt, wrap_eq_toNat, BitVec.ofInt_toInt, BitVec.toNat_ofNat]

/-! ## Elements -/

theorem elem_zero (w v : Nat) : elem w v 0 = v % 2 ^ w := by simp [elem]

theorem elem_succ (w v e : Nat) : elem w v (e + 1) = elem w (v / 2 ^ w) e := by
  rw [elem, elem, Nat.div_div_eq_div_mul, ← pow_add, Nat.mul_succ, Nat.add_comm]

theorem elem_packElems (w : Nat) (xs : List Nat) (e : Nat) : elem w (packElems w xs) e = xs.getD e 0 % 2 ^ w := by
  induction xs generalizing e with
  | nil => simp [packElems, elem]
  | cons x xs ih =>
    cases e with
    | zero => simp [elem_zero, packElems]
    | succ e =>
      have hrest : (packElems w (x :: xs)) / 2 ^ w = packElems w xs := by
        rw [packElems, Nat.add_mul_div_left _ _ (Nat.two_pow_pos w), Nat.div_eq_of_lt (Nat.mod_lt _ (Nat.two_pow_pos w)), Nat.zero_add]
      rw [elem_succ, hrest, ih, List.getD_cons_succ]

/-- R97: wrap, or saturation to the type's range. -/
theorem narrow_eq_wrap (ty : Ty) (sat : Bool) (x : Int) :
    narrow ty.isSigned ty.elemWidth sat x =
      wrap ty.elemWidth (if sat then min (max x (Machine.Ty.minVal ty)) (Machine.Ty.maxVal ty) else x) := by
  cases sat <;> cases hs : ty.isSigned <;> simp [narrow, Ty.minVal, Ty.maxVal, hs]

/-- R97: element e of a result is the exact operation on the elements e, narrowed. -/
theorem elem_exactElems (ty : Ty) (sat : Bool) (f : Int → Int → Int → Int) (a b c : Nat) {e : Nat} (he : e < ty.elems) :
    let w := ty.elemWidth
    elem w (exactElems ty sat f a b c) e =
      narrow ty.isSigned w sat (f (elemInt ty (elem w a e)) (elemInt ty (elem w b e)) (elemInt ty (elem w c e))) := by
  simp only [exactElems, elem_packElems, narrow_eq_wrap, List.getD_eq_getElem?_getD, List.getElem?_map, List.getElem?_range he,
    Option.map_some, Option.getD_some]
  exact Nat.mod_eq_of_lt (wrap_lt _ _)

/-! ## The value of an element -/

theorem wrap_elemInt (ty : Ty) (x : Nat) : wrap ty.elemWidth (elemInt ty x) = x % 2 ^ ty.elemWidth := by
  unfold elemInt
  split
  · exact wrap_toSigned _ _
  · rw [wrap_natCast, Nat.mod_mod]

theorem elemInt_mod (ty : Ty) (x : Nat) : elemInt ty (x % 2 ^ ty.elemWidth) = elemInt ty x := by
  simp [elemInt, toSigned]

@[simp] theorem elemInt_zero (ty : Ty) : elemInt ty 0 = 0 := by
  simp [elemInt, toSigned]

theorem elemInt_ne_zero {ty : Ty} {x : Nat} (hx : x < 2 ^ ty.elemWidth) (h : x ≠ 0) : elemInt ty x ≠ 0 := by
  intro hz
  have hw := wrap_elemInt ty x
  rw [hz, wrap_zero, Nat.mod_eq_of_lt hx] at hw
  exact h hw.symm

theorem elemInt_i32_toNat (a : BitVec 32) : elemInt .i32 a.toNat = a.toInt := by
  show toSigned 32 a.toNat = a.toInt
  rw [toSigned_eq_toInt, BitVec.ofNat_toNat, BitVec.setWidth_eq]

/-! ## Types of one element -/

theorem exactElems_one {ty : Ty} (h : ty.elems = 1) (f : Int → Int → Int → Int) (a b c : Nat) :
    exactElems ty false f a b c = wrap ty.elemWidth (f (elemInt ty a) (elemInt ty b) (elemInt ty c)) := by
  simp only [exactElems, h, narrow_eq_wrap, List.range_one, List.map_cons, List.map_nil, packElems, elem_zero, elemInt_mod,
    Nat.mul_zero, Nat.add_zero, Bool.false_eq_true, if_false]
  exact Nat.mod_eq_of_lt (wrap_lt _ _)

theorem exactElems_i32 (f : Int → Int → Int → Int) (a b : BitVec 32) :
    exactElems .i32 false f a.toNat b.toNat 0 = (BitVec.ofInt 32 (f a.toInt b.toInt 0)).toNat := by
  rw [exactElems_one rfl, wrap_eq_toNat, elemInt_i32_toNat, elemInt_i32_toNat, elemInt_zero]
  rfl

/-- R97, R99: the 32-bit sum, difference, product and negation are those of words. -/
theorem exactElems_i32_words (a b : BitVec 32) :
    exactElems .i32 false opAdd a.toNat b.toNat 0 = (a + b).toNat ∧
    exactElems .i32 false opSub a.toNat b.toNat 0 = (a - b).toNat ∧
    exactElems .i32 false opMul a.toNat b.toNat 0 = (a * b).toNat ∧
    exactElems .i32 false opNeg a.toNat b.toNat 0 = (-a).toNat := by
  simp only [exactElems_i32, opAdd, opSub, opMul, opNeg, Int.sub_eq_add_neg, BitVec.sub_eq_add_neg, BitVec.ofInt_add, BitVec.ofInt_mul,
    BitVec.ofInt_neg, BitVec.ofInt_toInt, and_self]

/-! ## Quotient, remainder and high product (R100) -/

theorem opDiv_of_ne_zero {b : Int} (hb : b ≠ 0) (a c : Int) : opDiv a b c = Int.tdiv a b := if_neg hb

theorem opRem_of_ne_zero {b : Int} (hb : b ≠ 0) (a c : Int) : opRem a b c = Int.tmod a b := if_neg hb

theorem opMulh_zero (w : Nat) (a c : Int) : opMulh w a 0 c = 0 := by simp [opMulh]

/-- The types of imulh, idiv and irem. -/
def IntType (ty : Ty) : Prop := ty = .i32 ∨ ty = .u32 ∨ ty = .i64 ∨ ty = .u64

theorem IntType.elems {ty : Ty} (h : IntType ty) : ty.elems = 1 ∧ ty.elemWidth = ty.width := by
  obtain rfl | rfl | rfl | rfl := h <;> exact ⟨rfl, rfl⟩

theorem exactElems_intType {ty : Ty} (h : IntType ty) (f : Int → Int → Int → Int) (a b : Nat) :
    exactElems ty false f a b 0 = wrap ty.width (f (elemInt ty a) (elemInt ty b) 0) := by
  obtain ⟨hone, hw⟩ := h.elems
  rw [exactElems_one hone, hw, elemInt_zero]

/-- R100: division by zero. -/
theorem exactElems_zero_divisor {ty : Ty} (h : IntType ty) {a : Nat} (ha : a < 2 ^ ty.width) :
    exactElems ty false opDiv a 0 0 = 2 ^ ty.width - 1 ∧ exactElems ty false opRem a 0 0 = a ∧
      exactElems ty false (opMulh ty.width) a 0 0 = 0 := by
  have hrem : wrap ty.width (elemInt ty a) = a := by
    rw [← h.elems.2] at ha ⊢
    rw [wrap_elemInt, Nat.mod_eq_of_lt ha]
  simp only [exactElems_intType h, elemInt_zero, opMulh_zero, wrap_zero]
  exact ⟨wrap_neg_one _, hrem, trivial⟩

/-- R100: the quotient truncated toward zero, the remainder of the sign of the dividend. -/
theorem exactElems_divisor {ty : Ty} (h : IntType ty) (a : Nat) {b : Nat} (hb : b < 2 ^ ty.width) (hz : b ≠ 0) :
    exactElems ty false opDiv a b 0 = wrap ty.width (Int.tdiv (elemInt ty a) (elemInt ty b)) ∧
      exactElems ty false opRem a b 0 = wrap ty.width (Int.tmod (elemInt ty a) (elemInt ty b)) := by
  have hne : elemInt ty b ≠ 0 := elemInt_ne_zero (h.elems.2 ▸ hb) hz
  rw [exactElems_intType h, exactElems_intType h, opDiv_of_ne_zero hne, opRem_of_ne_zero hne]
  exact ⟨rfl, rfl⟩

/-- R100: the one quotient that overflows, of the least value by −1. -/
theorem exactElems_least_by_neg_one {ty : Ty} (h : IntType ty) (hs : ty.isSigned = true) :
    exactElems ty false opDiv (2 ^ (ty.width - 1)) (2 ^ ty.width - 1) 0 = 2 ^ (ty.width - 1) ∧
      exactElems ty false opRem (2 ^ (ty.width - 1)) (2 ^ ty.width - 1) 0 = 0 := by
  obtain rfl | rfl | rfl | rfl := h
  case inl => decide
  case inr.inl => cases hs
  case inr.inr.inl => decide
  case inr.inr.inr => cases hs

end Sys2Proof.Machine

namespace Sys2Proof.Claims

open Sys2Proof.Machine

/-- Settles O4: the pseudocode of R97 element by element; for the types of one element it is the operation itself, wrapped. -/
theorem integerArithmetic : Obligations.IntegerArithmetic := by
  refine ⟨?elements, exactElems_i32_words, ?quotients⟩
  case elements =>
    intro ty sat f a b c e he
    exact (elem_exactElems ty sat f a b c he).trans (narrow_eq_wrap ty sat _)
  case quotients =>
    intro ty hty a ha
    obtain ⟨hdiv, hrem, hmulh⟩ := exactElems_zero_divisor hty ha
    refine ⟨hdiv, hrem, fun _ _ _ _ => rfl, hmulh, fun b hb hz => ?_⟩
    obtain ⟨hquot, hmod⟩ := exactElems_divisor hty a hb hz
    refine ⟨hquot, hmod, ?_, exactElems_intType hty _ a b, fun _ _ _ _ => rfl⟩
    rintro hs rfl rfl
    exact exactElems_least_by_neg_one hty hs

end Sys2Proof.Claims
end

section
/-! PROOFS. The bits of what the shifts, the rotation, the bit fields and the bit counts compute (04_integer R102 to R105). -/

namespace Sys2Proof.Machine

theorem bit_eq_testBit (x j : Nat) : bit x j = x.testBit j := by
  rw [Nat.testBit_eq_decide_div_mod_eq]
  rfl

/-! ## Shifts and rotation (R102) -/

theorem bit_opShl {w j : Nat} (hj : j < w) (a k : Nat) : bit (opShl w a k) j = (decide (k ≤ j) && bit a (j - k)) := by
  simp only [bit_eq_testBit, opShl]
  by_cases hk : k < w
  · have hjk : j - k < w := by omega
    simp only [hk, if_true, Nat.testBit_mod_two_pow, Nat.testBit_mul_two_pow, hj, hjk, decide_true, Bool.true_and]
  · have hkj : ¬ k ≤ j := by omega
    simp [hk, hkj]

theorem bit_opShr (w a k j : Nat) : bit (opShr w a k) j = (decide (j + k < w) && bit a (j + k)) := by
  simp only [bit_eq_testBit, opShr]
  by_cases hk : k < w
  · simp [hk, Nat.testBit_mod_two_pow, Nat.testBit_div_two_pow]
  · have hjk : ¬ j + k < w := by omega
    simp [hk, hjk]

theorem opSar_eq_sshiftRight (w a k : Nat) : opSar w a k = ((BitVec.ofNat w a).sshiftRight (min k w)).toNat := by
  rw [opSar, wrap_eq_toNat, toSigned_eq_toInt, BitVec.sshiftRight_eq, Int.shiftRight_eq_div_pow]

theorem bit_opSar {w j : Nat} (hj : j < w) (a k : Nat) : bit (opSar w a k) j = bit a (min (j + k) (w - 1)) := by
  have hlow : ¬ w ≤ j := by omega
  simp only [bit_eq_testBit, opSar_eq_sshiftRight, BitVec.testBit_toNat, BitVec.getLsbD_sshiftRight, BitVec.msb_eq_getLsbD_last,
    BitVec.getLsbD_ofNat]
  by_cases hjk : j + k < w
  · have hmin : min k w + j = j + k := by omega
    have hlast : min (j + k) (w - 1) = j + k := by omega
    simp [hlow, hmin, hlast, hjk]
  · have hmin : ¬ min k w + j < w := by omega
    have hlast : min (j + k) (w - 1) = w - 1 := by omega
    have hw : w - 1 < w := by omega
    simp [hlow, hmin, hlast, hw]

/-- A rotation puts the low w − m bits above the high m bits. -/
theorem opRol_eq {w : Nat} (hw : 0 < w) (a k : Nat) :
    opRol w a k = 2 ^ (k % w) * (a % 2 ^ w % 2 ^ (w - k % w)) + a % 2 ^ w / 2 ^ (w - k % w) := by
  have hsum : k % w + (w - k % w) = w := Nat.add_sub_cancel' (Nat.mod_lt k hw).le
  rw [← Nat.mul_mod_mul_left, ← pow_add, hsum, Nat.mul_comm]
  rfl

theorem bit_opRol {w j : Nat} (hj : j < w) (a k : Nat) : bit (opRol w a k) ((j + k) % w) = bit a j := by
  have hm : k % w < w := Nat.mod_lt _ (by omega)
  have hhigh : a % 2 ^ w / 2 ^ (w - k % w) < 2 ^ (k % w) := by
    rw [Nat.div_lt_iff_lt_mul (Nat.two_pow_pos _), ← pow_add, Nat.add_sub_cancel' hm.le]
    exact Nat.mod_lt _ (Nat.two_pow_pos w)
  rw [opRol_eq (by omega), bit_eq_testBit, bit_eq_testBit, Nat.testBit_two_pow_mul_add _ hhigh, ← Nat.add_mod_mod]
  generalize k % w = m at *
  simp only [Nat.testBit_div_two_pow, Nat.testBit_mod_two_pow]
  by_cases hover : j + m < w
  · have hsub : j < w - m := by omega
    simp [Nat.mod_eq_of_lt hover, hsub, hj]
  · have hmod : (j + m) % w = j + m - w := by rw [Nat.mod_eq_sub_mod (by omega), Nat.mod_eq_of_lt (by omega)]
    have hlt : j + m - w < m := by omega
    have hback : j + m - w + (w - m) = j := by omega
    simp [hmod, hlt, hback, hj]

/-! ## Bit fields (R103, R104) -/

theorem fieldLen_eq (w ctl : Nat) :
    fieldLen w ctl = if ctl % 256 < w then min (ctl / 256 % 256) (w - ctl % 256) else 0 := by
  simp [fieldLen, bits]

theorem bits_low_byte (ctl : Nat) : bits ctl 7 0 = ctl % 256 := by simp [bits]

/-- A field lies within the width (R103). -/
theorem fieldLen_le (w ctl : Nat) : fieldLen w ctl ≤ w := by
  rw [fieldLen_eq]
  split <;> omega

/-- The sign extension of l bits to w. -/
theorem bit_wrap_toSigned {w l j : Nat} (hj : j < w) (hl : l ≠ 0) (f : Nat) :
    bit (wrap w (toSigned l f)) j = if j < l then bit f j else bit f (l - 1) := by
  have hlast : l - 1 < l := by omega
  have hext : wrap w (toSigned l f) = ((BitVec.ofNat l f).signExtend w).toNat := by
    rw [wrap_eq_toNat, toSigned_eq_toInt, BitVec.signExtend]
  simp only [hext, bit_eq_testBit, BitVec.testBit_toNat, BitVec.getLsbD_signExtend, BitVec.msb_eq_getLsbD_last, BitVec.getLsbD_ofNat,
    hj, hlast, decide_true, Bool.true_and]
  by_cases hin : j < l <;> simp [hin]

/-- The bits of the field of l bits at pos. -/
theorem bit_field {l j : Nat} (hj : j < l) (a pos : Nat) : bit (a / 2 ^ pos % 2 ^ l) j = bit a (pos + j) := by
  simp [bit_eq_testBit, Nat.testBit_mod_two_pow, Nat.testBit_div_two_pow, hj, Nat.add_comm]

theorem bit_opBfe {w j : Nat} (hj : j < w) (signed : Bool) (a ctl : Nat) :
    bit (opBfe signed w a ctl) j =
      (if j < fieldLen w ctl then bit a (ctl % 256 + j)
       else signed && decide (fieldLen w ctl ≠ 0) && bit a (ctl % 256 + fieldLen w ctl - 1)) := by
  simp only [opBfe, bits_low_byte]
  generalize fieldLen w ctl = l
  generalize ctl % 256 = pos
  by_cases hl : l = 0
  · simp [hl, bit_eq_testBit]
  · have hlast : l - 1 < l := by omega
    have htop : pos + (l - 1) = pos + l - 1 := by omega
    by_cases hin : j < l
    · cases signed with
      | true => simp [hl, hin, bit_wrap_toSigned hj hl, bit_field hin]
      | false => simp [hl, hin, bit_field hin]
    · cases signed with
      | true => simp [hl, hin, bit_wrap_toSigned hj hl, bit_field hlast, htop]
      | false => simp [hl, hin, bit_eq_testBit, Nat.testBit_mod_two_pow]

/-- The bits of three parts side by side. -/
theorem testBit_three_parts {lo mid pos l : Nat} (hi : Nat) (hlo : lo < 2 ^ pos) (hmid : mid < 2 ^ l) (j : Nat) :
    (lo + mid * 2 ^ pos + hi * 2 ^ (pos + l)).testBit j =
      (if j < pos then lo.testBit j else if j < pos + l then mid.testBit (j - pos) else hi.testBit (j - (pos + l))) := by
  have hform : lo + mid * 2 ^ pos + hi * 2 ^ (pos + l) = 2 ^ pos * (2 ^ l * hi + mid) + lo := by ring
  rw [hform, Nat.testBit_two_pow_mul_add _ hlo, Nat.testBit_two_pow_mul_add _ hmid, Nat.sub_sub]
  by_cases hj : j < pos
  · simp only [hj, if_true]
  · have hshift : j - pos < l ↔ j < pos + l := by omega
    simp only [hj, if_false, hshift]

theorem bit_opBfi {w j : Nat} (hj : j < w) (a b ctl : Nat) :
    bit (opBfi w a b ctl) j =
      (if ctl % 256 ≤ j ∧ j < ctl % 256 + fieldLen w ctl then bit b (j - ctl % 256) else bit a j) := by
  simp only [opBfi, bits_low_byte, bit_eq_testBit]
  generalize fieldLen w ctl = l
  generalize ctl % 256 = pos
  by_cases hl : l = 0
  · have hout : ¬ (pos ≤ j ∧ j < pos + 0) := by omega
    simp only [hl, if_true, hout, if_false, Nat.testBit_mod_two_pow, hj, decide_true, Bool.true_and]
  · simp only [hl, if_false]
    rw [testBit_three_parts _ (Nat.mod_lt _ (Nat.two_pow_pos pos)) (Nat.mod_lt _ (Nat.two_pow_pos l))]
    simp only [Nat.testBit_mod_two_pow, Nat.testBit_div_two_pow]
    by_cases hbelow : j < pos
    · have hout : ¬ (pos ≤ j ∧ j < pos + l) := by omega
      simp [hbelow, hout, hj]
    · by_cases hin : j < pos + l
      · have hfield : pos ≤ j ∧ j < pos + l := by omega
        have hlt : j - pos < l := by omega
        simp only [hbelow, if_false, hin, if_true, hfield, and_self, hlt, decide_true, Bool.true_and]
      · have hback : j - (pos + l) + (pos + l) = j := by omega
        simp only [hbelow, if_false, hin, and_false, hback, hj, decide_true, Bool.true_and]

/-! ## Counts and reversal (R105) -/

theorem bitList_succ (w a : Nat) : bitList (w + 1) a = bitList w a ++ [bit a w] := by
  simp [bitList, List.range_succ]

theorem opPopc_eq_countP (w a : Nat) : opPopc w a = (List.range w).countP (bit a) := by
  rw [opPopc, bitList, List.countP_map]
  rfl

theorem opClz_succ (w a : Nat) : opClz (w + 1) a = if bit a w then 0 else opClz w a + 1 := by
  cases h : bit a w <;> simp [opClz, bitList_succ, h]

theorem opClz_le (w a : Nat) : opClz w a ≤ w := by
  induction w with
  | zero => simp [opClz, bitList]
  | succ w ih => rw [opClz_succ]; split <;> omega

theorem bit_above_opClz {w j : Nat} (a : Nat) (hlo : w - opClz w a ≤ j) (hj : j < w) : bit a j = false := by
  induction w with
  | zero => omega
  | succ w ih =>
    rw [opClz_succ] at hlo
    cases htop : bit a w with
    | true =>
      rw [htop, if_pos rfl] at hlo
      omega
    | false =>
      rw [htop, if_neg Bool.false_ne_true, Nat.add_sub_add_right] at hlo
      obtain rfl | hbelow : j = w ∨ j < w := by omega
      · exact htop
      · exact ih hlo hbelow

theorem bit_at_opClz {w : Nat} (a : Nat) (h : opClz w a < w) : bit a (w - 1 - opClz w a) = true := by
  induction w with
  | zero => omega
  | succ w ih =>
    rw [opClz_succ] at h ⊢
    cases htop : bit a w with
    | true => exact htop
    | false =>
      rw [htop, if_neg Bool.false_ne_true] at h
      have hback : w + 1 - 1 - (opClz w a + 1) = w - 1 - opClz w a := by omega
      rw [if_neg Bool.false_ne_true, hback]
      exact ih (by omega)

theorem opBrev_succ (w a : Nat) : opBrev (w + 1) a = 2 ^ 1 * opBrev w a + boolNat (bit a w) := by
  simp [opBrev, bitList_succ]

theorem bit_opBrev {w j : Nat} (a : Nat) (hj : j < w) : bit (opBrev w a) (w - 1 - j) = bit a j := by
  induction w with
  | zero => omega
  | succ w ih =>
    have hbit : boolNat (bit a w) < 2 ^ 1 := by cases bit a w <;> decide
    rw [opBrev_succ, bit_eq_testBit, Nat.testBit_two_pow_mul_add _ hbit, ← bit_eq_testBit, ← bit_eq_testBit]
    obtain rfl | hbelow : j = w ∨ j < w := by omega
    · simp only [Nat.add_sub_cancel, Nat.sub_self, Nat.zero_lt_one, if_true]
      cases bit a j <;> rfl
    · have hnot : ¬ w + 1 - 1 - j < 1 := by omega
      have hprev : w + 1 - 1 - j - 1 = w - 1 - j := by omega
      rw [if_neg hnot, hprev, ih hbelow]

end Sys2Proof.Machine
end

section
/-! PROOFS. One thread alone at an instruction that computes an integer result, and the shifts, bit fields and counts there
(04_integer R97, R102 to R105). -/

namespace Sys2Proof.Machine

/-! ## A source of one register (R41, R51, R52) -/

theorem packElems_lt (w : Nat) (xs : List Nat) : packElems w xs < 2 ^ (w * xs.length) := by
  induction xs with
  | nil => simp [packElems]
  | cons x xs ih =>
    have hlow : x % 2 ^ w < 2 ^ w := Nat.mod_lt _ (Nat.two_pow_pos w)
    calc packElems w (x :: xs) < 2 ^ w + 2 ^ w * packElems w xs := Nat.add_lt_add_right hlow _
      _ = 2 ^ w * (packElems w xs + 1) := by ring
      _ ≤ 2 ^ w * 2 ^ (w * xs.length) := Nat.mul_le_mul_left _ ih
      _ = 2 ^ (w * (x :: xs).length) := by rw [← pow_add, List.length_cons, Nat.mul_succ, Nat.add_comm]

theorem mapElems_lt (w n : Nat) (f : Nat → Nat) (x : Nat) : mapElems w n f x < 2 ^ (w * n) := by
  simpa [mapElems, elems] using packElems_lt w ((elems w n x).map f)

/-- A numeric modifier keeps a value of one register within 32 bits. -/
theorem numApply_one_lt (m : NumMod) (ty : Option Ty) {x : Nat} (hx : x < 2 ^ 32) : numApply m ty 1 x < 2 ^ 32 := by
  unfold numApply
  split
  · exact hx
  · exact hx
  · next ty _ =>
    refine (mapElems_lt _ _ _ _).trans_le (Nat.pow_le_pow_right (by omega) ?_)
    split
    · omega
    · exact Nat.mul_div_le 32 _

theorem readRegs_one_lt (th : Thread) (n : Nat) : th.readRegs n 1 < 2 ^ 32 := (th.regs.getD n 0).isLt

theorem sourceOf_one_lt (s : State) (n : Nat) (m : LaneMod) (num : Option Ty) (t : Tid) (act : List Nat) :
    sourceOf s (.regs 1) n m num t act < 2 ^ 32 := by
  have hread (q : Tid) : numApply m.num num 1 ((s.thread q).readRegs n 1) < 2 ^ 32 := numApply_one_lt _ _ (readRegs_one_lt _ n)
  unfold sourceOf
  split
  · exact hread t
  · dsimp only
    split
    · exact hread _
    · exact Nat.two_pow_pos 32

/-- R41, R43: a source B of one register, or the literal in its place, is a word of 32 bits. -/
theorem srcB_lt {v : View} (h : v.row.b = .regs 1) (s : State) (t : Tid) (act : List Nat) : v.srcB s t act < 2 ^ 32 := by
  unfold View.srcB
  rw [h]
  split
  · exact Nat.mod_lt _ (Nat.two_pow_pos 32)
  · exact sourceOf_one_lt _ _ _ _ _ _

/-! ## One thread alone at an instruction that computes -/

theorem orFlags_zero (th : Thread) : th.orFlags 0 = th := by simp [Thread.orFlags]

variable {s : State} {i : Instr} {v : View} {u : RUnit} {t : Tid}

theorem active_lone (h : s.Lone i v u t) : s.active v [t] = [t] := by simp [State.active, h.guard]

theorem reader_lone (v : View) (t : Tid) : v.reader [t] t = t := by simp [View.reader]

theorem alu_lone (h : s.Lone i v u t) (f : Nat → Nat → Nat → Nat) :
    ∃ s', alu i (intOp f) s = .next s' ∧
      s.Becomes s' (s.but t ((v.writeD (f (v.srcA s t [t.lane]) (v.srcB s t [t.lane]) (v.srcC s t)) (s.thread t)).past s.clk.now
        (instrSize i))) := by
  have hact := active_lone h
  have hreader := reader_lone v t
  obtain ⟨s', hnext, hbec⟩ := alu_becomes h.issues h.single (fun _ => intOp f)
    (by simpa [hact, hreader] using h.full) (by simpa [hact] using h.dest) (by simp [hact, View.resultOf, intOp, orAll])
  refine ⟨s', hnext, ?_, hbec.rest⟩
  intro q
  rw [hbec.threads q, hact]
  by_cases hq : q = t
  · subst hq
    simp [State.but, View.resultOf, View.wrote, intOp, orAll, orFlags_zero, hreader]
  · simp [State.but, hq]

end Sys2Proof.Machine

namespace Sys2Proof.Claims

open Sys2Proof.Machine

/-- An instruction with an integer operation executes as that operation on its sources. -/
theorem exec_of_intOpOf {i : Instr} {op : Op3} (h : intOpOf i = some op) (s : State) : exec i s = alu i op s := by
  unfold intOpOf at h
  split at h <;> cases h <;> rfl

/-! ## Instructions by their row and their operation -/

/-- The instructions that a field layout gives, all with the row and the operation of their type. -/
def ComputesAs {α : Type} (instr : α → Instr) (form : α → Form) (row : Ty → Row) (op : Ty → Nat → Nat → Nat → Nat) : Prop :=
  ∀ x, (instr x).view = some ⟨row (form x).ty, form x, none⟩ ∧ intOpOf (instr x) = some (intOp (op (form x).ty))

/-- An instruction with a base form, whose type is b32, and an extended form. -/
structure TwoForms (base : BaseForm → Instr) (ext : Form → Instr) (row : Ty → Row) (op : Ty → Nat → Nat → Nat → Nat) : Prop where
  base : ComputesAs base (·.toForm .b32 1) row op
  ext : ComputesAs ext id row op

section
variable {i : Instr} {v : View} {row : Ty → Row} {op : Ty → Nat → Nat → Nat → Nat}

theorem ComputesAs.of_view {α : Type} {instr : α → Instr} {form : α → Form} (h : ComputesAs instr form row op)
    (hv : i.view = some v) (hi : ∃ x, i = instr x) : v.row = row v.x.ty ∧ intOpOf i = some (intOp (op v.x.ty)) := by
  obtain ⟨x, rfl⟩ := hi
  obtain ⟨hview, hop⟩ := h x
  obtain rfl : _ = v := Option.some.inj (hview.symm.trans hv)
  exact ⟨rfl, hop⟩

theorem TwoForms.of_view {base : BaseForm → Instr} {ext : Form → Instr} (h : TwoForms base ext row op) (hv : i.view = some v)
    (hi : (∃ x, i = base x) ∨ ∃ x, i = ext x) : v.row = row v.x.ty ∧ intOpOf i = some (intOp (op v.x.ty)) :=
  hi.elim (h.base.of_view hv) (h.ext.of_view hv)

end

/-! ## The rows of R96 and the operations of R102 to R105 -/

/-- The row of the shifts and the rotation: the amount is one register. -/
def shiftRow (ty : Ty) : Row := { row2 [.b32, .b64] ty false with b := .regs 1 }

/-- The row of popc and clz: the count is one register. -/
def countRow (ty : Ty) : Row := { row1 [.b32, .b64] ty false with d := .regs 1 }

theorem shl_forms : TwoForms .shlBase .shlExt shiftRow (fun ty a b _ => opShl ty.width a b) :=
  ⟨fun _ => ⟨rfl, rfl⟩, fun _ => ⟨rfl, rfl⟩⟩

theorem shr_forms : TwoForms .shrBase .shrExt shiftRow (fun ty a b _ => opShr ty.width a b) :=
  ⟨fun _ => ⟨rfl, rfl⟩, fun _ => ⟨rfl, rfl⟩⟩

theorem sar_forms : TwoForms .sarBase .sarExt shiftRow (fun ty a b _ => opSar ty.width a b) :=
  ⟨fun _ => ⟨rfl, rfl⟩, fun _ => ⟨rfl, rfl⟩⟩

theorem rol_forms : TwoForms .rolBase .rolExt shiftRow (fun ty a b _ => opRol ty.width a b) :=
  ⟨fun _ => ⟨rfl, rfl⟩, fun _ => ⟨rfl, rfl⟩⟩

theorem popc_forms : TwoForms .popcBase .popcExt countRow (fun ty a _ _ => opPopc ty.width a) :=
  ⟨fun _ => ⟨rfl, rfl⟩, fun _ => ⟨rfl, rfl⟩⟩

theorem clz_form : ComputesAs .clz id countRow (fun ty a _ _ => opClz ty.width a) := fun _ => ⟨rfl, rfl⟩

theorem brev_form : ComputesAs .brev id (row1 [.b32, .b64] · false) (fun ty a _ _ => opBrev ty.width a) := fun _ => ⟨rfl, rfl⟩

theorem bfe_form : ComputesAs .bfe id (fun ty => { row2 intTypes4 ty false with b := .regs 1 })
    (fun ty a b _ => opBfe ty.isSigned ty.width a b) := fun _ => ⟨rfl, rfl⟩

theorem bfi_form : ComputesAs .bfi id (fun ty => { row3 [.b32, .b64] ty false with c := .regs 1 })
    (fun ty a b c => opBfi ty.width a b c) := fun _ => ⟨rfl, rfl⟩

/-! ## Results at one thread -/

section
variable {s : State} {i : Instr} {v : View} {u : RUnit} {t : Tid}

/-- What one thread alone gets from an instruction with an integer operation. -/
theorem gives_of_intOpOf (h : s.Lone i v u t) {f : Nat → Nat → Nat → Nat} (hop : intOpOf i = some (intOp f)) {P : Nat → Prop}
    (hP : P (f (v.srcA s t [t.lane]) (v.srcB s t [t.lane]) (v.srcC s t))) : Gives s i v t P := by
  obtain ⟨s', hnext, hbec⟩ := alu_lone h f
  exact ⟨s', _, hP, (exec_of_intOpOf hop s).trans hnext, hbec⟩

/-- R102: a shift counts bits [31:0] of B. -/
theorem gives_shift {base : BaseForm → Instr} {ext : Form → Instr} {op : Nat → Nat → Nat → Nat}
    (hforms : TwoForms base ext shiftRow (fun ty a b _ => op ty.width a b)) (h : s.Lone i v u t)
    (hi : (∃ x, i = base x) ∨ ∃ x, i = ext x) {P : Nat → Prop}
    (hP : P (op v.x.ty.width (v.srcA s t [t.lane]) (v.srcB s t [t.lane] % 2 ^ 32))) : Gives s i v t P := by
  obtain ⟨hrow, hop⟩ := hforms.of_view h.issues.view hi
  have hb : v.row.b = .regs 1 := by rw [hrow]; rfl
  rw [Nat.mod_eq_of_lt (srcB_lt hb s t [t.lane])] at hP
  exact gives_of_intOpOf h hop hP

end

/-- Settles O5: each instruction writes its operation of the sources, whose bits are those of the rules. -/
theorem bitResults : Obligations.BitResults := by
  intro s i v u t h _ w a b c k pos len
  have hv := h.issues.view
  refine ⟨?shl, ?shr, ?sar, ?rol, ?bfe, ?bfi, ?popc, ?clz, ?brev⟩
  case shl => exact fun hi => gives_shift shl_forms h hi fun j hj => bit_opShl hj a k
  case shr => exact fun hi => gives_shift shr_forms h hi fun j _ => bit_opShr w a k j
  case sar => exact fun hi => gives_shift sar_forms h hi fun j hj => bit_opSar hj a k
  case rol => exact fun hi => gives_shift rol_forms h hi fun j hj => bit_opRol hj a k
  case bfe =>
    intro x hi
    obtain ⟨-, hop⟩ := bfe_form.of_view hv ⟨x, hi⟩
    refine gives_of_intOpOf h hop fun j hj => (bit_opBfe hj v.x.ty.isSigned a b).trans ?_
    rw [fieldLen_eq]
  case bfi =>
    intro x hi
    obtain ⟨-, hop⟩ := bfi_form.of_view hv ⟨x, hi⟩
    refine gives_of_intOpOf h hop fun j hj => (bit_opBfi hj a b c).trans ?_
    rw [fieldLen_eq]
  case popc =>
    intro hi
    obtain ⟨hrow, hop⟩ := popc_forms.of_view hv hi
    exact ⟨congrArg Row.d hrow, gives_of_intOpOf h hop (opPopc_eq_countP w a)⟩
  case clz =>
    intro x hi
    obtain ⟨hrow, hop⟩ := clz_form.of_view hv ⟨x, hi⟩
    exact ⟨congrArg Row.d hrow, gives_of_intOpOf h hop ⟨opClz_le w a, fun _ hlo hj => bit_above_opClz a hlo hj, bit_at_opClz a⟩⟩
  case brev =>
    intro x hi
    obtain ⟨-, hop⟩ := brev_form.of_view hv ⟨x, hi⟩
    exact gives_of_intOpOf h hop fun j hj => bit_opBrev a hj

end Sys2Proof.Claims
end
